-- ==== Sys2Proof/Word.lean ====
section
/-! DEFINITION. The word types of the DCT8x8-QIM stego block (R11, R12, R70, R71). -/

namespace Sys2Proof

/-- One byte: the unit of the seven byte memories (R70). -/
abbrev Byte := BitVec 8

/-- One register of the register space, and one command word (R71, R100). -/
abbrev Word := BitVec 32

end Sys2Proof
end

