-- ==== Sys2Proof/Syntax.lean ====
section
/-! DEFINITION. The command set: one constructor per row of the opcode map (R102). -/

namespace Sys2Proof

/-- The twenty commands (R2, R102). Only `B2B` and `QIM_EMB` carry an operand in the command word; every other operand
is in a register or a memory (R106). -/
inductive Instr where
  /-- `NOP` (R340). -/
  | nop
  /-- `SOFT_RESET` (R341). -/
  | softReset
  /-- `ABORT` (R342). -/
  | abort
  /-- `B2B` (R134); `lenient` is `ARG[0]`. -/
  | b2b (lenient : Bool)
  /-- `EC_PUB` (R170). -/
  | ecPub
  /-- `ENV_SEAL` (R171). -/
  | envSeal
  /-- `FDCT` (R200). -/
  | fdct
  /-- `IDCT` (R201). -/
  | idct
  /-- `BLK_LD` (R206). -/
  | blkLd
  /-- `BLK_ST` (R207). -/
  | blkSt
  /-- `QIM_EMB` (R226); `n` is the number of bits offered, `ARG[5:0]`. -/
  | qimEmb (n : Nat)
  /-- `QIM_EXT` (R227). -/
  | qimExt
  /-- `PAY_SER` (R256). -/
  | paySer
  /-- `EMB_START` (R280). -/
  | embStart
  /-- `EMB_FRAME` (R281). -/
  | embFrame
  /-- `EMB_END` (R285). -/
  | embEnd
  /-- `EXT_START` (R300). -/
  | extStart
  /-- `EXT_FRAME` (R301). -/
  | extFrame
  /-- `EXT_END` (R306). -/
  | extEnd
  /-- `EXT_VERIFY` (R308). -/
  | extVerify
deriving DecidableEq, Repr

end Sys2Proof
end

