-- ==== Sys2Proof/WellFormed.lean ====
section
/-! DEFINITION. Which terms of `Instr` some command word encodes (R102, R104). -/

namespace Sys2Proof

/-- The number of bits `QIM_EMB` offers fits its 6-bit field, 0 .. 63 (R102, R104); no other command has an operand
that could be out of range. -/
def Instr.wellFormed : Instr → Bool
  | .qimEmb n => n < 64
  | .nop | .softReset | .abort | .b2b _ | .ecPub | .envSeal | .fdct | .idct | .blkLd | .blkSt | .qimExt | .paySer
  | .embStart | .embFrame | .embEnd | .extStart | .extFrame | .extEnd | .extVerify => true

end Sys2Proof
end

