-- ==== Sys2Proof/Decode.lean ====
section
/-! DEFINITION. Decode of a command word (R100 to R104), and the encoder written from the same table (R102). -/

namespace Sys2Proof

/-- Why a word is no command. -/
inductive DecodeError where
  /-- `IllegalCommand(w)`: the word matches no row of the opcode map (R101, R103). -/
  | illegalCommand (w : Word)
deriving DecidableEq, Repr

/-- One row of the opcode map: the word's bits under `mask` equal `pattern` (R102). -/
structure OpcodeRow where
  pattern : Word
  mask : Word
  build : Byte → Instr

/-- `ARG = w[15:8]` (R104). -/
def argOf (w : Word) : Byte := w.extractLsb' 8 8

/-- `lenient = w[8]`, bit 0 of `ARG` (R104). -/
def lenientOf (arg : Byte) : Bool := arg.getLsbD 0

/-- `n = w[13:8]`, bits 5:0 of `ARG` (R104). -/
def offeredOf (arg : Byte) : Nat := (arg.extractLsb' 0 6).toNat

/-- The complete opcode map (R102). -/
def opcodeMap : List OpcodeRow :=
  [ ⟨0x00000000#32, 0xFFFFFFFF#32, fun _ => .nop⟩,
    ⟨0x00000001#32, 0xFFFFFFFF#32, fun _ => .softReset⟩,
    ⟨0x00000002#32, 0xFFFFFFFF#32, fun _ => .abort⟩,
    ⟨0x00000010#32, 0xFFFFFEFF#32, fun arg => .b2b (lenientOf arg)⟩,
    ⟨0x00000020#32, 0xFFFFFFFF#32, fun _ => .ecPub⟩,
    ⟨0x00000021#32, 0xFFFFFFFF#32, fun _ => .envSeal⟩,
    ⟨0x00000030#32, 0xFFFFFFFF#32, fun _ => .fdct⟩,
    ⟨0x00000031#32, 0xFFFFFFFF#32, fun _ => .idct⟩,
    ⟨0x00000032#32, 0xFFFFFFFF#32, fun _ => .blkLd⟩,
    ⟨0x00000033#32, 0xFFFFFFFF#32, fun _ => .blkSt⟩,
    ⟨0x00000040#32, 0xFFFFC0FF#32, fun arg => .qimEmb (offeredOf arg)⟩,
    ⟨0x00000041#32, 0xFFFFFFFF#32, fun _ => .qimExt⟩,
    ⟨0x00000050#32, 0xFFFFFFFF#32, fun _ => .paySer⟩,
    ⟨0x00000060#32, 0xFFFFFFFF#32, fun _ => .embStart⟩,
    ⟨0x00000061#32, 0xFFFFFFFF#32, fun _ => .embFrame⟩,
    ⟨0x00000062#32, 0xFFFFFFFF#32, fun _ => .embEnd⟩,
    ⟨0x00000070#32, 0xFFFFFFFF#32, fun _ => .extStart⟩,
    ⟨0x00000071#32, 0xFFFFFFFF#32, fun _ => .extFrame⟩,
    ⟨0x00000072#32, 0xFFFFFFFF#32, fun _ => .extEnd⟩,
    ⟨0x00000073#32, 0xFFFFFFFF#32, fun _ => .extVerify⟩ ]

/-- Whether the word matches the row. -/
def OpcodeRow.accepts (r : OpcodeRow) (w : Word) : Bool := (w &&& r.mask) == r.pattern

/-- Decode: the command of the first row that matches, or `IllegalCommand(w)` (R101). -/
def decode (w : Word) : Except DecodeError Instr :=
  match opcodeMap.find? (·.accepts w) with
  | some r => .ok (r.build (argOf w))
  | none => .error (.illegalCommand w)

/-- `OP + 256 * ARG` (R100). -/
def commandWord (op : Word) (arg : Nat) : Word := op + BitVec.ofNat 32 (256 * arg)

/-- The command word of a well-formed command (R100, R102). -/
def encode : Instr → Word
  | .nop => commandWord 0x00#32 0
  | .softReset => commandWord 0x01#32 0
  | .abort => commandWord 0x02#32 0
  | .b2b lenient => commandWord 0x10#32 (cond lenient 1 0)
  | .ecPub => commandWord 0x20#32 0
  | .envSeal => commandWord 0x21#32 0
  | .fdct => commandWord 0x30#32 0
  | .idct => commandWord 0x31#32 0
  | .blkLd => commandWord 0x32#32 0
  | .blkSt => commandWord 0x33#32 0
  | .qimEmb n => commandWord 0x40#32 n
  | .qimExt => commandWord 0x41#32 0
  | .paySer => commandWord 0x50#32 0
  | .embStart => commandWord 0x60#32 0
  | .embFrame => commandWord 0x61#32 0
  | .embEnd => commandWord 0x62#32 0
  | .extStart => commandWord 0x70#32 0
  | .extFrame => commandWord 0x71#32 0
  | .extEnd => commandWord 0x72#32 0
  | .extVerify => commandWord 0x73#32 0

/-- The command word that the table's bits stand for: bit 0 is the word's least significant bit, and every bit from
`nbits` up is 0. A command is one 32-bit word and is never stored in a memory, so it has no byte order (R72, R100). -/
def tableWord (nbits w : Nat) : Word := BitVec.ofNat 32 (w % 2 ^ nbits)

/-- The command the decoder reads from a row's bits; bits above the 32 of a command word make it no command. -/
def decodeTableWord (nbits w : Nat) : Option Instr :=
  if w % 2 ^ nbits < 2 ^ 32 then (decode (tableWord nbits w)).toOption else none

end Sys2Proof
end

