-- ==== Sys2Proof/Machine/Arith.lean ====
section
/-! DEFINITION. The spec's integer notation (R11, R12, R16, R17). `/` and `%` on `Int` with a positive divisor are the
`floor(a / b)` and `a mod b` of R11. -/

namespace Sys2Proof.Machine

/-- `rne(a, d)`: the integer nearest to `a / d`, ties to even (R17). -/
def rne (a d : Int) : Int :=
  let q0 := a / d
  let r := a - q0 * d
  if 2 * r < d then q0
  else if 2 * r > d then q0 + 1
  else if q0 % 2 = 0 then q0
  else q0 + 1

/-- `rhu(a, s)`: the integer nearest to `a / 2^s`, ties toward plus infinity (R17). -/
def rhu (a : Int) (s : Nat) : Int := (a + 2 ^ (s - 1)) / 2 ^ s

/-- `clamp(v, lo, hi)` (R11). -/
def clamp (v lo hi : Int) : Int := min (max v lo) hi

/-- `sat32(v)` (R17). -/
def sat32 (v : Int) : Int := clamp v (-2 ^ 31) (2 ^ 31 - 1)

/-- The unsigned value of one bit. -/
def bitValue (b : Bool) : Nat := cond b 1 0

/-- The sum of `f 0 .. f 7`. -/
def sum8 (f : Nat → Int) : Int := f 0 + f 1 + f 2 + f 3 + f 4 + f 5 + f 6 + f 7

/-- `be_int(b)`: a byte string as a big-endian integer (R16). -/
def beInt (bs : List Byte) : Nat := bs.foldl (fun acc b => 256 * acc + b.toNat) 0

/-- `be_bytes(v, n)`: the `n`-byte big-endian encoding (R16). -/
def beBytes (v : Nat) : Nat → List Byte
  | 0 => []
  | n + 1 => beBytes (v / 256) n ++ [BitVec.ofNat 8 v]

/-- `uint_to_bits(v, w)`: most significant bit first (R15, R132). -/
def uintToBits (v : Nat) : Nat → List Bool
  | 0 => []
  | w + 1 => uintToBits (v / 2) w ++ [v % 2 == 1]

/-- `bits_to_uint(s)` (R15, R133). -/
def bitsToUint (s : List Bool) : Nat := s.foldl (fun acc b => 2 * acc + bitValue b) 0

/-- `bytes_to_bits(B)`: each byte becomes eight bits, most significant first (R130). -/
def bytesToBits (bs : List Byte) : List Bool := bs.flatMap fun b => uintToBits b.toNat 8

/-- The first `n` bytes of a bit string (R131). -/
def takeBytes : Nat → List Bool → List Byte
  | 0, _ => []
  | n + 1, s => BitVec.ofNat 8 (bitsToUint (s.take 8)) :: takeBytes n (s.drop 8)

/-- `bits_to_bytes(s, mode)`: in strict mode a length that is no multiple of 8 is an error that carries
`len(s) mod 8`; in lenient mode the incomplete last byte is dropped (R131). -/
def bitsToBytes (lenient : Bool) (s : List Bool) : Except Nat (List Byte) :=
  if lenient = false ∧ s.length % 8 ≠ 0 then .error (s.length % 8) else .ok (takeBytes (s.length / 8) s)

end Sys2Proof.Machine
end

