-- ==== Sys2Proof/Config.lean ====
section
/-! DEFINITION. What an instance of the block fixes, and the free values: the five capacities (R9), the external
functions (R160 to R163), the memory contents after reset (R62) and the duration of a command (R410). -/

namespace Sys2Proof

/-- The seven byte memories (R70). `MEM_SEL = 7` selects none of them. -/
inductive Space where
  | frame
  | ref
  | pay
  | acc
  | fld
  | ct
  | pt
deriving DecidableEq, Repr

/-- The five capacity parameters of an instance, as their read-only registers `CAP_*` hold them (R9, R26). -/
structure Caps where
  /-- `FRAME_CAP`, bytes. -/
  frame : Word
  /-- `PAY_CAP`, bytes. -/
  pay : Word
  /-- `ACC_CAP_BITS`, bits. -/
  accBits : Word
  /-- `CT_CAP`, bytes. -/
  ct : Word
  /-- `PT_CAP`, bytes. -/
  pt : Word
deriving DecidableEq, Repr

/-- The architectural bounds on the five parameters (R9). `FRAME_CAP <= 2^32 - 1` holds of every `Word`. -/
def Caps.wellFormed (c : Caps) : Bool :=
  64 ≤ c.frame.toNat && 13 ≤ c.pay.toNat && c.pay.toNat ≤ 2 ^ 28 && 104 ≤ c.accBits.toNat
    && c.accBits.toNat ≤ 2 ^ 31 && c.ct.toNat ≤ 2 ^ 28 && c.pt.toNat ≤ 2 ^ 28

/-- The instance that `State.reset` describes: the values R9 lists for the spec's own test vectors.
DESIGN CHOICE (log entry 1): unsafe; every statement but those about `State.reset` holds for all capacities. -/
def Config.resetCaps : Caps :=
  { frame := 65536#32, pay := 4096#32, accBits := 65536#32, ct := 4096#32, pt := 4096#32 }

/-- The 34 ASCII bytes `kunci aes untuk steganografi video` (R164). -/
def Config.info : List Byte :=
  [0x6b, 0x75, 0x6e, 0x63, 0x69, 0x20, 0x61, 0x65, 0x73, 0x20, 0x75, 0x6e, 0x74, 0x75, 0x6b, 0x20, 0x73, 0x74, 0x65,
    0x67, 0x61, 0x6e, 0x6f, 0x67, 0x72, 0x61, 0x66, 0x69, 0x20, 0x76, 0x69, 0x64, 0x65, 0x6f]

/-- The external functions of R160 to R163, in a form whose sizes hold by type: a 256-bit value stands for a 32-byte
string, a 96-bit value for the nonce, a 128-bit value for the tag (all big-endian, R16); a ciphertext or plaintext is
given byte by byte and is cut to the length of the other (`aeadEnc`, `aeadDec` of Machine/Envelope.lean). -/
structure Crypto where
  /-- HKDF-SHA256 with output length 32: input keying material, salt (for one above 255 bytes see log entry 21), info
  string. -/
  hkdfSha256 : BitVec 256 → List Byte → List Byte → BitVec 256
  /-- Byte `i` of the ciphertext of a plaintext under a key and a nonce. -/
  encByte : List Byte → BitVec 256 → BitVec 96 → Nat → Byte
  /-- The tag of a plaintext under a key and a nonce. -/
  encTag : List Byte → BitVec 256 → BitVec 96 → BitVec 128
  /-- Whether the tag check of a ciphertext succeeds. -/
  decOk : List Byte → BitVec 256 → BitVec 96 → BitVec 128 → Bool
  /-- Byte `i` of the plaintext that decryption gives when the tag check succeeds. -/
  decByte : List Byte → BitVec 256 → BitVec 96 → BitVec 128 → Nat → Byte
  /-- SHA3-256. -/
  sha3 : List Byte → BitVec 256
deriving Inhabited

/-- The external functions of this block: a free value (R6, R160 to R163; log entry 2). -/
opaque Config.crypto : Crypto

/-- The byte a memory holds at an address that nothing has written since the `epoch`-th hardware reset: a free value
(R62; log entry 3). -/
opaque Config.powerUpByte : (epoch : Nat) → Space → (address : Nat) → Byte

/-- What the `draw`-th command reads at an address beyond the end of a memory: a free value (log entry 4). -/
opaque Config.outsideByte : (draw : Nat) → Space → (address : Nat) → Byte

/-- How many host steps pass at most between the acceptance of the `draw`-th command and its block step: a free value
(R86, R410; log entry 5). -/
opaque Config.commandDelay : (draw : Nat) → Nat

/-- What the host receives from its `count`-th read when that read is made while the reset input is asserted and so is not
performed (R390): a free value (log entry 12). -/
opaque Config.resetRead : (count : Nat) → Word

/-- The coordinates that `compress` and `ecdh` would read from the point at infinity: a free value, for a case that
R153 rules out (log entry 6). -/
opaque Config.infinityCoordinates : BitVec 256 × BitVec 256

end Sys2Proof
end

