-- ==== Sys2Proof/Machine/State.lean ====
section
/-! DEFINITION. The state of the block as plain data: every register of R20, the hidden registers of R55 and R57, the
seven byte memories of R70, and the model's own fields for the host agent and the free values; the state after reset. -/

namespace Sys2Proof.Machine

/-- `Fault` has no constructor: nobody raises a fault. R401: every command word, every register value and every
sequence of host accesses has an outcome fixed by a rule; R410: every accepted command ends. What the spec calls an
error is a next state (`State.raiseError`, R362). -/
inductive Fault
deriving DecidableEq, Repr

/-- Why a command has no meaning in the model. -/
inductive Refusal where
  /-- The model gives the command no meaning. No arm of `exec` raises it: all twenty commands are modelled. Safe. -/
  | notModelled (mnemonic : String)
deriving DecidableEq, Repr

/-- The eleven errors a command can end with (R350). -/
inductive ErrorKind where
  | malformedLength
  | valueOutOfRange
  | invalidPoint
  | authenticationFailed
  | integrityMismatch
  | insufficientCapacity
  | truncatedStream
  | illegalCommand
  | badSequence
  | badParameter
  | bufferCapacity
deriving DecidableEq, Repr

/-- `STATUS` (R24): each field is one bit, in the order of bits 0 to 9; bits 31:10 are reserved and hold nothing. -/
structure Status where
  busy : Bool
  done : Bool
  err : Bool
  needMore : Bool
  skipped : Bool
  passthru : Bool
  integrity : Bool
  sat : Bool
  hosterr : Bool
  refValid : Bool
deriving DecidableEq, Repr

/-- The error registers (R25). -/
structure ErrRegs where
  /-- `ERR_CODE`, bits 3:0. -/
  code : BitVec 4
  /-- `ERR_INFO`. -/
  info : Word
  /-- `ERR_STICKY`, bits 11:0; bit 0 is never set. -/
  sticky : BitVec 12
deriving DecidableEq, Repr

/-- `CTRL` (R27), bits 0, 1, 2. -/
structure Ctrl where
  ieDone : Bool
  ieErr : Bool
  hashFatal : Bool
deriving DecidableEq, Repr

/-- `INT_PEND` (R28), bits 0, 1. -/
structure IntPend where
  done : Bool
  err : Bool
deriving DecidableEq, Repr

/-- The QIM parameters and the bit sequence of the primitive commands (R30, R31, R34, R35). -/
structure QimRegs where
  delta : BitVec 24
  ncoef : Word
  qbitsLo : Word
  qbitsHi : BitVec 31
  qcnt : BitVec 7
deriving DecidableEq, Repr

/-- The frame size and the block address of the primitive commands (R32, R33). -/
structure FrameRegs where
  width : BitVec 16
  height : BitVec 16
  blkRow : BitVec 13
  blkCol : BitVec 13
deriving DecidableEq, Repr

/-- `EMB_STATE` (R36); codes 5 and 6 never occur. -/
inductive EmbState where
  | idle
  | awaitingFrame
  | embedding
  | draining
  | done
  | failed
deriving DecidableEq, Repr

/-- The embedding engine's registers (R36 to R39). -/
structure EmbRegs where
  state : EmbState
  cursor : Word
  frames : Word
  payBits : Word
deriving DecidableEq, Repr

/-- `EXT_STATE` (R40); code 6 never occurs and `headerParsed` is passed through inside one command (R305). -/
inductive ExtState where
  | idle
  | accumulating
  | headerParsed
  | collecting
  | verifying
  | done
  | failed
deriving DecidableEq, Repr

/-- The extraction engine's registers (R40 to R43). -/
structure ExtRegs where
  state : ExtState
  accBits : Word
  prsCursor : Word
  prsFidx : BitVec 4
  hdrCursor : Word
  frames : Word
deriving DecidableEq, Repr

/-- The header field registers (R45 to R47); `len` holds `LEN[0]` to `LEN[4]`, that is `LEN_PUBKEY`, `LEN_SALT`,
`LEN_HASH`, `LEN_NONCE`, `LEN_TAG` (R46). -/
structure HdrRegs where
  secW : Word
  secH : Word
  len : Vector Word 5
  ctLenLo : Word
  ctLenHi : Word
deriving DecidableEq, Repr

/-- The accumulator range that `B2B` converts (R49). -/
structure RangeRegs where
  start : Word
  len : Word
deriving DecidableEq, Repr

/-- The memory port's selection and address (R52). -/
structure PortRegs where
  sel : BitVec 3
  addr : Word
deriving DecidableEq, Repr

/-- The hidden registers: the command latch (R57), the shared secret and the derived key (R55). -/
structure HiddenRegs where
  cmdLatch : Word
  ss : BitVec 256
  key : BitVec 256
deriving DecidableEq, Repr

/-- A byte memory: the bytes written since reset, as (address, byte) pairs with addresses strictly rising. An address
that is not listed holds no written byte (R62; log entry 3). -/
abbrev Memory := List Host.Cell

/-- The seven byte memories (R70). -/
structure Memories where
  frame : Memory
  ref : Memory
  pay : Memory
  acc : Memory
  fld : Memory
  ct : Memory
  pt : Memory
deriving DecidableEq, Repr

/-- The width of a host access; only 32 bits is performed (R75). -/
inductive Width where
  | w8
  | w16
  | w32
deriving DecidableEq, Repr

/-- One thing the outside world does: a register read, a register write (R85), or driving the reset input, asserted or
released (R390). An offset is a byte offset inside the block's 4096-byte window (R20, R80). -/
inductive HostEvent where
  | read (width : Width) (offset : BitVec 12)
  | write (width : Width) (offset : BitVec 12) (value : Word)
  | resetInput (asserted : Bool)
deriving DecidableEq, Repr

/-- The outside of the block. The host agent is the MODEL's own: what it will do, in order, and the values its reads
returned, newest first (R18, R85; log entry 7). The level of the reset input is the spec's (R390). -/
structure HostSide where
  pending : List HostEvent
  reads : List Word
  /-- The reset input is asserted (R390; log entry 12). -/
  resetInput : Bool
deriving DecidableEq, Repr

/-- The MODEL's own: the number of commands accepted, which draws the free values of a command; how many host steps
may still precede the block step in progress (R410); the number of hardware resets, which draws the memories'
contents (R62). Log entries 3, 4, 5. -/
structure FreeSide where
  draws : Nat
  delay : Nat
  epoch : Nat
deriving DecidableEq, Repr

/-- The state of the block and, in its last two fields, of the model's host agent and free values. `ID`, `VERSION` and
the reserved registers are constants (R21, R22, R29); `CMD` and `MEM_DATA` are windows that hold nothing (R23, R52). -/
structure State where
  /-- `STATUS` (0x00C, R24). -/
  status : Status
  /-- `ERR_CODE`, `ERR_INFO`, `ERR_STICKY` (0x010 to 0x018, R25). -/
  errs : ErrRegs
  /-- `CTRL` (0x01C, R27). -/
  ctrl : Ctrl
  /-- `INT_PEND` (0x020, R28). -/
  intPend : IntPend
  /-- `CAP_FRAME` to `CAP_PT` (0x028 to 0x038, R26): the instance's parameters; no step changes them (R58). -/
  caps : Caps
  /-- `DELTA`, `NCOEF`, `QBITS_LO`, `QBITS_HI`, `QCNT` (0x040, 0x044, 0x058 to 0x060; R30, R31, R34, R35). -/
  qim : QimRegs
  /-- `FRM_W`, `FRM_H`, `BLK_ROW`, `BLK_COL` (0x048 to 0x054; R32, R33). -/
  frm : FrameRegs
  /-- `FRM_BITS` (0x098, R43), which both engines write (R403). -/
  frmBits : Word
  /-- The embedding engine (0x070 to 0x07C, R36 to R39). -/
  emb : EmbRegs
  /-- The extraction engine (0x080 to 0x094, R40 to R43). -/
  ext : ExtRegs
  /-- The header field registers (0x0A0 to 0x0C0, R45 to R47). -/
  hdr : HdrRegs
  /-- `PT_LEN` (0x0C4, R48). -/
  ptLen : Word
  /-- `BR_START`, `BR_LEN` (0x0C8, 0x0CC, R49). -/
  range : RangeRegs
  /-- `MEM_SEL`, `MEM_ADDR` (0x0D0, 0x0D4, R52). -/
  port : PortRegs
  /-- `PRIV[0..7]` (0x0E0 to 0x0FC, R53). -/
  priv : Vector Word 8
  /-- `PIX[0..63]` (0x100 to 0x1FC, R50). -/
  pix : Vector Byte 64
  /-- `COEF[0..63]` (0x200 to 0x2FC, R51). -/
  coef : Vector Word 64
  /-- `CMD_LATCH`, `SS`, `KEY` (R55, R57). -/
  hidden : HiddenRegs
  /-- The seven byte memories (R70). -/
  mems : Memories
  /-- The reset input (R390) and, the MODEL's own, the host agent (R18, R85). -/
  host : HostSide
  /-- The MODEL's own: what selects the free values (R62, R410). -/
  free : FreeSide
deriving DecidableEq, Repr

/-! Named updates, one per field that a step can write; `Laws/State.lean` has their equations. -/

/-- The state with its `status` replaced. -/
def State.withStatus (s : State) (v : Status) : State := { s with status := v }

/-- The state with its `errs` replaced. -/
def State.withErrs (s : State) (v : ErrRegs) : State := { s with errs := v }

/-- The state with its `ctrl` replaced. -/
def State.withCtrl (s : State) (v : Ctrl) : State := { s with ctrl := v }

/-- The state with its `intPend` replaced. -/
def State.withIntPend (s : State) (v : IntPend) : State := { s with intPend := v }

/-- The state with its `qim` replaced. -/
def State.withQim (s : State) (v : QimRegs) : State := { s with qim := v }

/-- The state with its `frm` replaced. -/
def State.withFrm (s : State) (v : FrameRegs) : State := { s with frm := v }

/-- The state with its `frmBits` replaced. -/
def State.withFrmBits (s : State) (v : Word) : State := { s with frmBits := v }

/-- The state with its `emb` replaced. -/
def State.withEmb (s : State) (v : EmbRegs) : State := { s with emb := v }

/-- The state with its `ext` replaced. -/
def State.withExt (s : State) (v : ExtRegs) : State := { s with ext := v }

/-- The state with its `hdr` replaced. -/
def State.withHdr (s : State) (v : HdrRegs) : State := { s with hdr := v }

/-- The state with its `ptLen` replaced. -/
def State.withPtLen (s : State) (v : Word) : State := { s with ptLen := v }

/-- The state with its `range` replaced. -/
def State.withRange (s : State) (v : RangeRegs) : State := { s with range := v }

/-- The state with its `port` replaced. -/
def State.withPort (s : State) (v : PortRegs) : State := { s with port := v }

/-- The state with its `priv` replaced. -/
def State.withPriv (s : State) (v : Vector Word 8) : State := { s with priv := v }

/-- The state with its `pix` replaced. -/
def State.withPix (s : State) (v : Vector Byte 64) : State := { s with pix := v }

/-- The state with its `coef` replaced. -/
def State.withCoef (s : State) (v : Vector Word 64) : State := { s with coef := v }

/-- The state with its `hidden` replaced. -/
def State.withHidden (s : State) (v : HiddenRegs) : State := { s with hidden := v }

/-- The state with its `mems` replaced. -/
def State.withMems (s : State) (v : Memories) : State := { s with mems := v }

/-- The state with its `host` replaced. -/
def State.withHost (s : State) (v : HostSide) : State := { s with host := v }

/-- The state with its `free` replaced. -/
def State.withFree (s : State) (v : FreeSide) : State := { s with free := v }

/-- Every register at the "reset" column of R20 and the hidden registers at 0, the memories with nothing written, for
an instance with the capacities `caps` (R61, R62, R390). -/
def State.resetWith (caps : Caps) : State where
  status :=
    { busy := false, done := false, err := false, needMore := false, skipped := false, passthru := false,
      integrity := false, sat := false, hosterr := false, refValid := false }
  errs := { code := 0#4, info := 0#32, sticky := 0#12 }
  ctrl := { ieDone := false, ieErr := false, hashFatal := false }
  intPend := { done := false, err := false }
  caps := caps
  qim := { delta := 0#24, ncoef := 0#32, qbitsLo := 0#32, qbitsHi := 0#31, qcnt := 0#7 }
  frm := { width := 0#16, height := 0#16, blkRow := 0#13, blkCol := 0#13 }
  frmBits := 0#32
  emb := { state := .idle, cursor := 0#32, frames := 0#32, payBits := 0#32 }
  ext := { state := .idle, accBits := 0#32, prsCursor := 0#32, prsFidx := 0#4, hdrCursor := 0#32, frames := 0#32 }
  hdr := { secW := 0#32, secH := 0#32, len := Vector.replicate 5 0#32, ctLenLo := 0#32, ctLenHi := 0#32 }
  ptLen := 0#32
  range := { start := 0#32, len := 0#32 }
  port := { sel := 0#3, addr := 0#32 }
  priv := Vector.replicate 8 0#32
  pix := Vector.replicate 64 0#8
  coef := Vector.replicate 64 0#32
  hidden := { cmdLatch := 0#32, ss := 0#256, key := 0#256 }
  mems := { frame := [], ref := [], pay := [], acc := [], fld := [], ct := [], pt := [] }
  host := { pending := [], reads := [], resetInput := false }
  free := { draws := 0, delay := 0, epoch := 0 }

/-- The machine right after its first hardware reset, the reset input released (R61, R62, R390), with the capacities of
log entry 1. -/
def State.reset : State := State.resetWith Config.resetCaps

end Sys2Proof.Machine
end

