-- ==== Sys2Proof/Machine/Flags.lean ====
section
/-! DEFINITION. The status, control and error words as the host sees them, the write-one-to-clear registers and the
interrupt output (R24, R25, R27, R28, R36, R40, R350, R356). -/

namespace Sys2Proof.Machine

/-- A word with bit `i` equal to `b` and every other bit 0. -/
def flagBit (b : Bool) (i : Nat) : Word := (BitVec.ofBool b).setWidth 32 <<< i

/-- `STATUS` as read; bits 31:10 read 0 (R24). -/
def Status.word (st : Status) : Word :=
  flagBit st.busy 0 ||| flagBit st.done 1 ||| flagBit st.err 2 ||| flagBit st.needMore 3 ||| flagBit st.skipped 4
    ||| flagBit st.passthru 5 ||| flagBit st.integrity 6 ||| flagBit st.sat 7 ||| flagBit st.hosterr 8
    ||| flagBit st.refValid 9

/-- A host write of `w` to `STATUS`: a 1 in bit 7 or 8 clears `SAT` or `HOSTERR`, nothing else changes (R24). -/
def Status.hostClear (st : Status) (w : Word) : Status :=
  { st with sat := st.sat && !w.getLsbD 7, hosterr := st.hosterr && !w.getLsbD 8 }

/-- The flags the acceptance of a command sets and clears (R86). -/
def Status.accepted (st : Status) : Status :=
  { st with busy := true, done := false, err := false, needMore := false, skipped := false, passthru := false }

/-- The flags at the end of a command without error (R361). -/
def Status.endedOk (st : Status) : Status := { st with done := true, busy := false }

/-- The flags at the end of a command with an error (R362). -/
def Status.endedErr (st : Status) : Status := { st with err := true, busy := false }

/-- `CTRL` as read (R27). -/
def Ctrl.word (c : Ctrl) : Word := flagBit c.ieDone 0 ||| flagBit c.ieErr 1 ||| flagBit c.hashFatal 2

/-- `CTRL` after a host write of `w`; bits 31:3 are dropped (R27). -/
def Ctrl.ofWord (w : Word) : Ctrl := { ieDone := w.getLsbD 0, ieErr := w.getLsbD 1, hashFatal := w.getLsbD 2 }

/-- `INT_PEND` as read (R28). -/
def IntPend.word (p : IntPend) : Word := flagBit p.done 0 ||| flagBit p.err 1

/-- A host write of `w` to `INT_PEND`: write one to clear (R28). -/
def IntPend.hostClear (p : IntPend) (w : Word) : IntPend :=
  { done := p.done && !w.getLsbD 0, err := p.err && !w.getLsbD 1 }

/-- A host write of `w` to `ERR_STICKY`: write one to clear (R25). -/
def ErrRegs.hostClear (e : ErrRegs) (w : Word) : ErrRegs := { e with sticky := e.sticky &&& ~~~(w.setWidth 12) }

/-- The error codes (R350). -/
def ErrorKind.code : ErrorKind → BitVec 4
  | .malformedLength => 1#4
  | .valueOutOfRange => 2#4
  | .invalidPoint => 3#4
  | .authenticationFailed => 4#4
  | .integrityMismatch => 5#4
  | .insufficientCapacity => 6#4
  | .truncatedStream => 7#4
  | .illegalCommand => 8#4
  | .badSequence => 9#4
  | .badParameter => 10#4
  | .bufferCapacity => 11#4

/-- The bit of `ERR_STICKY` that belongs to an error (R25). -/
def ErrorKind.stickyBit (e : ErrorKind) : BitVec 12 := 1#12 <<< e.code.toNat

/-- `ERR_STICKY` with the bit of an error set (R25). -/
def ErrRegs.note (r : ErrRegs) (e : ErrorKind) : ErrRegs := { r with sticky := r.sticky ||| e.stickyBit }

/-- The error registers after `raise E(info)` (R362). -/
def ErrRegs.raised (r : ErrRegs) (e : ErrorKind) (info : Nat) : ErrRegs :=
  { r.note e with code := e.code, info := BitVec.ofNat 32 info }

/-- The codes of `EMB_STATE` (R36). -/
def EmbState.code : EmbState → BitVec 3
  | .idle => 0#3
  | .awaitingFrame => 1#3
  | .embedding => 2#3
  | .draining => 3#3
  | .done => 4#3
  | .failed => 7#3

/-- An embedding operation is in progress: `EMB_STATE` is 1, 2 or 3 (R39). -/
def EmbState.inProgress : EmbState → Bool
  | .awaitingFrame | .embedding | .draining => true
  | .idle | .done | .failed => false

/-- The codes of `EXT_STATE` (R40). -/
def ExtState.code : ExtState → BitVec 3
  | .idle => 0#3
  | .accumulating => 1#3
  | .headerParsed => 2#3
  | .collecting => 3#3
  | .verifying => 4#3
  | .done => 5#3
  | .failed => 7#3

/-- The interrupt output, a level (R28, R356). -/
def State.irq (s : State) : Bool := (s.intPend.done && s.ctrl.ieDone) || (s.intPend.err && s.ctrl.ieErr)

end Sys2Proof.Machine
end

