-- ==== Sys2Proof/Machine/Ops.lean ====
section
/-! DEFINITION. The named operations over the memories, and the life of a command: acceptance (R86), the end without
error (R361), `raise` (R362: the block's "taking an exception"; there is no return instruction) and the reset input
(R390). -/

namespace Sys2Proof.Machine

/-! ### One memory as a list of written bytes -/

/-- Addresses strictly rising. -/
def Memory.rising : Memory → Bool
  | [] => true
  | [_] => true
  | c :: d :: rest => c.1 < d.1 && Memory.rising (d :: rest)

/-- The canonical form of a memory whose addresses are below `size`: addresses strictly rising, every one inside the
memory. An unlisted address holds no written byte, so no entry can equal what an unlisted address holds. -/
def Memory.wf (size : Nat) (m : Memory) : Bool := m.rising && m.all fun c => c.1 < size

/-- The byte last written at an address, if any. -/
def Memory.find (m : Memory) (a : Nat) : Option Byte :=
  match m with
  | [] => none
  | c :: rest => if c.1 = a then some c.2 else Memory.find rest a

/-- The memory after one byte is written. -/
def Memory.write (m : Memory) (a : Nat) (b : Byte) : Memory :=
  match m with
  | [] => [(a, b)]
  | c :: rest =>
    if a < c.1 then (a, b) :: c :: rest
    else if a = c.1 then (a, b) :: rest
    else c :: Memory.write rest a b

/-! ### The seven memories -/

/-- The memory of a space. -/
def Memories.get (ms : Memories) : Space → Memory
  | .frame => ms.frame
  | .ref => ms.ref
  | .pay => ms.pay
  | .acc => ms.acc
  | .fld => ms.fld
  | .ct => ms.ct
  | .pt => ms.pt

/-- The memories with one of them replaced; the spaces do not alias (R70). -/
def Memories.set (ms : Memories) (sp : Space) (m : Memory) : Memories :=
  match sp with
  | .frame => { ms with frame := m }
  | .ref => { ms with ref := m }
  | .pay => { ms with pay := m }
  | .acc => { ms with acc := m }
  | .fld => { ms with fld := m }
  | .ct => { ms with ct := m }
  | .pt => { ms with pt := m }

/-- The size of a memory in bytes (R70). -/
def memSize (c : Caps) : Space → Nat
  | .frame => c.frame.toNat
  | .ref => c.frame.toNat
  | .pay => c.pay.toNat
  | .acc => (c.accBits.toNat + 7) / 8
  | .fld => 1536
  | .ct => c.ct.toNat
  | .pt => c.pt.toNat

/-- `MemRead(space, a, 1)`: the byte last written, or the free value the memory holds since reset (R62, R401). Beyond
the end of the memory, where R14 says that no command reads, the byte is a free value (log entry 4). -/
def State.readByte (s : State) (sp : Space) (a : Nat) : Byte :=
  if a < memSize s.caps sp then ((s.mems.get sp).find a).getD (Config.powerUpByte s.free.epoch sp a)
  else Config.outsideByte s.free.draws sp a

/-- `MemWrite(space, a, 1, [b])`. Beyond the end of the memory, where R14 says that no command writes, there is no
byte to store to (log entry 4). -/
def State.writeByte (s : State) (sp : Space) (a : Nat) (b : Byte) : State :=
  s.withMems (if a < memSize s.caps sp then s.mems.set sp ((s.mems.get sp).write a b) else s.mems)

/-- `MemRead(space, a, n)` (R14). -/
def State.readBytes (s : State) (sp : Space) (a n : Nat) : List Byte := (List.range n).map fun i => s.readByte sp (a + i)

/-- `MemWrite(space, a, n, bs)` with `n` the length of `bs` (R14, R78). -/
def State.writeBytes (s : State) (sp : Space) (a : Nat) : List Byte → State
  | [] => s
  | b :: bs => (s.writeByte sp a b).writeBytes sp (a + 1) bs

/-- `MemBit(space, i)`: the first bit of every byte is its most significant bit (R13, R14). -/
def State.memBit (s : State) (sp : Space) (i : Nat) : Bool := (s.readByte sp (i / 8)).getLsbD (7 - i % 8)

/-- A byte with one bit replaced. -/
def setBit (x : Byte) (j : Nat) (b : Bool) : Byte := (x &&& ~~~(1#8 <<< j)) ||| ((BitVec.ofBool b).setWidth 8 <<< j)

/-- `MemSetBit(space, i, b)`: the other seven bits of the byte do not change (R14). -/
def State.setMemBit (s : State) (sp : Space) (i : Nat) (b : Bool) : State :=
  s.writeByte sp (i / 8) (setBit (s.readByte sp (i / 8)) (7 - i % 8) b)

/-- `MemSetBit` of the bits `f 0 .. f (m-1)` at bit indices `i .. i+m-1` (R229). -/
def State.setMemBits (s : State) (sp : Space) (i : Nat) (f : Nat → Bool) : Nat → State
  | 0 => s
  | m + 1 => (s.setMemBits sp i f m).setMemBit sp (i + m) (f m)

/-! ### The life of a command -/

/-- Acceptance of the command word `w`, part of the host's write step (R86). The command draws how long the host may
go on before it ends (R410). -/
def State.accept (s : State) (w : Word) : State :=
  ((s.withHidden { s.hidden with cmdLatch := w }).withStatus s.status.accepted).withErrs
      { s.errs with code := 0#4, info := 0#32 }
    |>.withFree { s.free with draws := s.free.draws + 1, delay := Config.commandDelay s.free.draws }

/-- `end_ok`: the end of a command without error (R361). -/
def State.endOk (s : State) : State :=
  (s.withStatus s.status.endedOk).withIntPend { s.intPend with done := true }

/-- `raise E(info)`: the end of a command with an error (R362). What the rule wrote before stays written. -/
def State.raiseError (s : State) (e : ErrorKind) (info : Nat) : State :=
  ((s.withErrs (s.errs.raised e info)).withStatus s.status.endedErr).withIntPend { s.intPend with err := true }

/-- One check of a command: the error and information word it raises when it fails. -/
structure Check where
  failed : Bool
  error : ErrorKind
  info : Nat
deriving DecidableEq, Repr

/-- The first check that fails, in the order of the command's pseudocode (R363). -/
def firstFailed : List Check → Option Check
  | [] => none
  | c :: rest => if c.failed then some c else firstFailed rest

/-- A command: its checks in order, the first failing one ending the command with its error and with nothing written
(R363, R364), and then its rule, which itself ends the command. -/
def runCommand (checks : List Check) (body : State → State) (s : State) : Host.Outcome State Fault Refusal :=
  match firstFailed checks with
  | some c => .next (s.raiseError c.error c.info)
  | none => .next (body s)

/-- A refused or misperformed host access: the only trace is the sticky bit (R24, R406). -/
def State.hostError (s : State) : State := s.withStatus { s.status with hosterr := true }

/-- What the reset input does to the block, while it is asserted and at its release (R390): every register and hidden
register at its reset value, the memories unspecified again; a command in progress never ends. The host agent keeps what
it was going to do. -/
def State.hardwareReset (s : State) : State :=
  ((State.resetWith s.caps).withHost s.host).withFree { draws := s.free.draws, delay := 0, epoch := s.free.epoch + 1 }

/-- The reset input driven to a level (R390). Releasing it when it is not asserted does nothing. -/
def State.driveReset (s : State) (asserted : Bool) : State :=
  let t := if asserted || s.host.resetInput then s.hardwareReset else s
  t.withHost { t.host with resetInput := asserted }

/-- A command is accepted and its block step not yet taken. While the reset input is asserted there is none (R390). -/
def State.commandInProgress (s : State) : Bool := s.status.busy && !s.host.resetInput

end Sys2Proof.Machine
end

