-- ==== Sys2Proof/Machine/P256.lean ====
section
/-! DEFINITION. The curve NIST P-256: field and group arithmetic, point encoding and key agreement (R150 to R156).
The spec marks these rules as general knowledge (D29); they are the spec's own text all the same. -/

namespace Sys2Proof.Machine

/-- The prime of the field (R150). -/
def P256.p : Nat := 0xffffffff00000001000000000000000000000000ffffffffffffffffffffffff

/-- The coefficient `a = p - 3` (R150). -/
def P256.a : Nat := P256.p - 3

/-- The coefficient `b` (R150). -/
def P256.b : Nat := 0x5ac635d8aa3a93e7b3ebbd55769886bc651d06b0cc53b0f63bce3c3e27d2604b

/-- The order of the base point (R150). -/
def P256.n : Nat := 0xffffffff00000000ffffffffffffffffbce6faada7179e84f3b9cac2fc632551

/-- A curve element (R150). -/
inductive Point where
  /-- The point at infinity. -/
  | inf
  /-- A pair of coordinates in `0 .. p-1`. -/
  | affine (x y : Nat)
deriving DecidableEq, Repr

/-- The base point (R150). -/
def P256.G : Point :=
  .affine 0x6b17d1f2e12c4247f8bce6e563a440f277037d812deb33a0f4a13945d898c296
    0x4fe342e2fe1a7f9b8ee7eb4a7c0f9e162bce33576b315ececbb6406837bf51f5

/-- `fadd` (R151). -/
def fadd (x y : Nat) : Nat := (x + y) % P256.p

/-- `fsub`: the residue of `x - y` (R151). -/
def fsub (x y : Nat) : Nat := (((x : Int) - y) % P256.p).toNat

/-- `fmul` (R151). -/
def fmul (x y : Nat) : Nat := (x * y) % P256.p

/-- Square and multiply on an exponent of at most `bits` bits. -/
def fpowBits (x e : Nat) : (bits : Nat) → Nat
  | 0 => 1
  | bits + 1 =>
    let h := fpowBits x (e / 2) bits
    if e % 2 = 1 then fmul (fmul h h) x else fmul h h

/-- `fpow(x, e) = x^e mod p` (R151). -/
def fpow (x e : Nat) : Nat := fpowBits x e (Nat.log2 e + 1)

/-- `finv` (R151). -/
def finv (x : Nat) : Nat := fpow x (P256.p - 2)

/-- The third point on the line of slope `lam` through two points, reflected (R152). -/
def chord (lam x1 y1 x2 : Nat) : Point :=
  let x3 := fsub (fsub (fmul lam lam) x1) x2
  .affine x3 (fsub (fmul lam (fsub x1 x3)) y1)

/-- The group law (R152). -/
def padd (P Q : Point) : Point :=
  match P, Q with
  | .inf, _ => Q
  | _, .inf => P
  | .affine x1 y1, .affine x2 y2 =>
    if x1 = x2 then
      if (y1 + y2) % P256.p = 0 then .inf
      else chord (fmul (fadd (fmul 3 (fmul x1 x1)) P256.a) (finv (fmul 2 y1))) x1 y1 x2
    else chord (fmul (fsub y2 y1) (finv (fsub x2 x1))) x1 y1 x2

/-- The loop of `pmul`, for a scalar of at most `bits` bits (R153). -/
def pmulLoop (k : Nat) (R P : Point) : (bits : Nat) → Point
  | 0 => R
  | bits + 1 =>
    if k = 0 then R else pmulLoop (k / 2) (if k % 2 = 1 then padd R P else R) (padd P P) bits

/-- `pmul(k, P)` (R153). -/
def pmul (k : Nat) (P : Point) : Point := pmulLoop k .inf P (Nat.log2 k + 1)

/-- The coordinates of a point; those of the point at infinity, which R153 keeps out of every use, are a free value
(log entry 6). -/
def Point.coordinates : Point → Nat × Nat
  | .inf => (Config.infinityCoordinates.1.toNat, Config.infinityCoordinates.2.toNat)
  | .affine x y => (x, y)

/-- `compress(P)`: 33 bytes (R154). -/
def compress (P : Point) : List Byte :=
  BitVec.ofNat 8 (0x02 + P.coordinates.2 % 2) :: beBytes P.coordinates.1 32

/-- `rhs = x^3 + a*x + b` (R155). -/
def curveRhs (x : Nat) : Nat := fadd (fadd (fmul (fmul x x) x) (fmul P256.a x)) P256.b

/-- `decompress(B)`; `none` is `Invalid` (R155). -/
def decompress (bs : List Byte) : Option Point :=
  match bs with
  | [] => none
  | first :: rest =>
    if rest.length ≠ 32 then none
    else if first ≠ 0x02#8 ∧ first ≠ 0x03#8 then none
    else
      let x := beInt rest
      if P256.p ≤ x then none
      else
        let y := fpow (curveRhs x) ((P256.p + 1) / 4)
        if fmul y y ≠ curveRhs x then none
        else if y % 2 ≠ first.toNat % 2 then some (.affine x (P256.p - y))
        else some (.affine x y)

/-- `ecdh(d, Q)`: the x-coordinate of `d * Q`, as a 32-byte string (R156). -/
def ecdh (d : Nat) (Q : Point) : BitVec 256 := BitVec.ofNat 256 (pmul d Q).coordinates.1

end Sys2Proof.Machine
end

