-- ==== Sys2Proof/Machine/Operands.lean ====
section
/-! DEFINITION. The operands of the commands (R106): elements of the register files, the accumulator's bits as
integers and bytes (R133), the private scalar (R53), and the parameter checks that several commands share
(R157, R205, R220). -/

namespace Sys2Proof.Machine

/-! ### Register files -/

/-- `PIX[k]` (R50). -/
def State.pixAt (s : State) (k : Nat) : Byte := s.pix[k]?.getD 0#8

/-- `sext_32(COEF[k])` (R51). -/
def State.coefAt (s : State) (k : Nat) : Int := (s.coef[k]?.getD 0#32).toInt

/-- `LEN[i]` (R46). -/
def State.lenAt (s : State) (i : Nat) : Nat := (s.hdr.len[i]?.getD 0#32).toNat

/-- The header registers with `LEN[i]` replaced. -/
def HdrRegs.withLen (h : HdrRegs) (i : Nat) (v : Nat) : HdrRegs :=
  { h with len := h.len.setIfInBounds i (BitVec.ofNat 32 v) }

/-- `CT_LEN = 2^32 * CT_LEN_HI + CT_LEN_LO` (R47). -/
def State.ctLen (s : State) : Nat := 2 ^ 32 * s.hdr.ctLenHi.toNat + s.hdr.ctLenLo.toNat

/-- `QBITS[i]` of the 63-bit sequence `QBITS` (R34). -/
def State.qbit (s : State) (i : Nat) : Bool := (s.qim.qbitsHi ++ s.qim.qbitsLo : BitVec 63).getLsbD i

/-- `Neff = min(NCOEF, 63)` (R221). -/
def State.neff (s : State) : Nat := min s.qim.ncoef.toNat 63

/-- The private scalar `d`, `PRIV[0]` least significant (R53). -/
def State.privScalar (s : State) : Nat :=
  (List.range 8).foldr (fun w acc => 2 ^ 32 * acc + (s.priv[w]?.getD 0#32).toNat) 0

/-- `FRM_W` and `FRM_H` as numbers. -/
def State.frmW (s : State) : Nat := s.frm.width.toNat

def State.frmH (s : State) : Nat := s.frm.height.toNat

/-! ### The accumulator as integers and bytes -/

/-- `acc_uint(c, w)` (R133). -/
def State.accUint (s : State) (c : Nat) : Nat → Nat
  | 0 => 0
  | w + 1 => 2 * s.accUint c w + bitValue (s.memBit .acc (c + w))

/-- `acc_bytes(c, n)` (R133). -/
def State.accBytes (s : State) (c n : Nat) : List Byte :=
  (List.range n).map fun i => BitVec.ofNat 8 (s.accUint (c + 8 * i) 8)

/-! ### Shared checks -/

/-- `chk_qim`: `DELTA` before `NCOEF` (R220). -/
def chkQim (s : State) : List Check :=
  [⟨s.qim.delta = 0#24, .badParameter, 1⟩, ⟨s.qim.ncoef = 0#32, .badParameter, 2⟩]

/-- `chk_frame` (R205). -/
def chkFrame (s : State) : List Check :=
  [⟨s.frmW = 0 ∨ s.frmH = 0 ∨ s.frmW % 8 ≠ 0 ∨ s.frmH % 8 ≠ 0 ∨ s.caps.frame.toNat < s.frmW * s.frmH,
    .badParameter, 3⟩]

/-- The block address of `BLK_LD` and `BLK_ST` lies inside the frame (R206, R207). -/
def chkBlock (s : State) : List Check :=
  [⟨s.frmH / 8 ≤ s.frm.blkRow.toNat ∨ s.frmW / 8 ≤ s.frm.blkCol.toNat, .badParameter, 4⟩]

/-- `chk_priv` (R157). -/
def chkPriv (s : State) : List Check := [⟨s.privScalar = 0 ∨ P256.n ≤ s.privScalar, .badParameter, 5⟩]

end Sys2Proof.Machine
end

