-- ==== Sys2Proof/Machine/BitCodec.lean ====
section
/-! DEFINITION. Unit U1: the command `B2B` (R134). The conversions themselves are in Arith.lean (R130 to R133). -/

namespace Sys2Proof.Machine

/-- The checks of `B2B`, in order; the sum does not wrap (R134). -/
def chkB2b (lenient : Bool) (s : State) : List Check :=
  [⟨s.ext.accBits.toNat < s.range.start.toNat + s.range.len.toNat, .badParameter, 7⟩,
    ⟨lenient = false ∧ s.range.len.toNat % 8 ≠ 0, .malformedLength, s.range.len.toNat % 8⟩,
    ⟨s.caps.pt.toNat < s.range.len.toNat / 8, .bufferCapacity, 6⟩]

/-- The accumulator range converted into `PT` (R134). -/
def State.convertRange (s : State) : State :=
  let nb := s.range.len.toNat / 8
  (s.writeBytes .pt 0 (s.accBytes s.range.start.toNat nb)).withPtLen (BitVec.ofNat 32 nb)

/-- `B2B` (R134). -/
def execB2b (lenient : Bool) (s : State) : Host.Outcome State Fault Refusal :=
  runCommand (chkB2b lenient s) (fun s => s.convertRange.endOk) s

end Sys2Proof.Machine
end

