-- ==== Sys2Proof/Machine/Control.lean ====
section
/-! DEFINITION. The control commands `NOP`, `SOFT_RESET` and `ABORT` (R340 to R342). -/

namespace Sys2Proof.Machine

/-- Every register at its reset value, `SS` and `KEY` at 0, the memories kept (R341). `CMD_LATCH` is no register of R20
and keeps the word until the next command (R57). -/
def State.softReset (s : State) : State :=
  ((((State.resetWith s.caps).withMems s.mems).withHost s.host).withFree s.free).withHidden
    { cmdLatch := s.hidden.cmdLatch, ss := 0#256, key := 0#256 }

/-- Both engines to Idle; nothing else changes (R342). -/
def State.abortBoth (s : State) : State :=
  (s.withEmb { s.emb with state := .idle }).withExt { s.ext with state := .idle }

/-- `NOP` (R340). -/
def execNop (s : State) : Host.Outcome State Fault Refusal := runCommand [] State.endOk s

/-- `SOFT_RESET` (R341). -/
def execSoftReset (s : State) : Host.Outcome State Fault Refusal := runCommand [] (fun s => s.softReset.endOk) s

/-- `ABORT` (R342). -/
def execAbort (s : State) : Host.Outcome State Fault Refusal := runCommand [] (fun s => s.abortBoth.endOk) s

end Sys2Proof.Machine
end

