-- ==== Sys2Proof/Machine/Dct.lean ====
section
/-! DEFINITION. Unit U3: the fixed-point 8x8 transforms and the block load and store (R190 to R207). -/

namespace Sys2Proof.Machine

/-- The rows of the DCT constant ROM (R191). -/
def romRows : List (List Int) :=
  [ [11585, 11585, 11585, 11585, 11585, 11585, 11585, 11585],
    [16069, 13623, 9102, 3196, -3196, -9102, -13623, -16069],
    [15137, 6270, -6270, -15137, -15137, -6270, 6270, 15137],
    [13623, -3196, -16069, -9102, 9102, 16069, 3196, -13623],
    [11585, -11585, -11585, 11585, 11585, -11585, -11585, 11585],
    [9102, -16069, 3196, 13623, -13623, -3196, 16069, -9102],
    [6270, -15137, 15137, -6270, -6270, 15137, -15137, 6270],
    [3196, -9102, 13623, -16069, 16069, -13623, 9102, -3196] ]

/-- `CQ[u][i]` (R191). -/
def CQ (u i : Nat) : Int := (romRows.getD u []).getD i 0

/-- The exact double sum of `FDCT` for the coefficient `(u, v)` (R200). -/
def State.forwardSum (s : State) (u v : Nat) : Int :=
  sum8 fun i => sum8 fun j => CQ u i * (s.pixAt (8 * i + j)).toNat * CQ v j

/-- The exact double sum of `IDCT` for the pixel `(i, j)` (R201). -/
def State.inverseSum (s : State) (i j : Nat) : Int :=
  sum8 fun u => sum8 fun v => CQ u i * s.coefAt (8 * u + v) * CQ v j

/-- The forward transform of `PIX` into `COEF`: one rounding of the exact sum (R200, R202). -/
def State.fdct (s : State) : State :=
  s.withCoef (Vector.ofFn fun k : Fin 64 => BitVec.ofInt 32 (rhu (s.forwardSum (k.val / 8) (k.val % 8)) 22))

/-- The inverse transform of `COEF` into `PIX`: one rounding of the exact sum, then the clamp (R201, R202). -/
def State.idct (s : State) : State :=
  s.withPix (Vector.ofFn fun k : Fin 64 => BitVec.ofInt 8 (clamp (rhu (s.inverseSum (k.val / 8) (k.val % 8)) 38) 0 255))

/-- The address in `FRAME` of element `k` of the block at block row `br` and block column `bc` (R73). -/
def State.pixelAddr (s : State) (br bc k : Nat) : Nat := (8 * br + k / 8) * s.frmW + (8 * bc + k % 8)

/-- `blk_ld(br, bc)` (R206). -/
def State.blkLd (s : State) (br bc : Nat) : State :=
  s.withPix (Vector.ofFn fun k : Fin 64 => s.readByte .frame (s.pixelAddr br bc k.val))

/-- The first `m` of the 64 byte stores of `blk_st`. -/
def State.storePixels (s : State) (br bc : Nat) : (m : Nat) → State
  | 0 => s
  | m + 1 => (s.storePixels br bc m).writeByte .frame (s.pixelAddr br bc m) (s.pixAt m)

/-- `blk_st(br, bc)` (R207). -/
def State.blkSt (s : State) (br bc : Nat) : State := s.storePixels br bc 64

/-- `FDCT` (R200). -/
def execFdct (s : State) : Host.Outcome State Fault Refusal := runCommand [] (fun s => s.fdct.endOk) s

/-- `IDCT` (R201). -/
def execIdct (s : State) : Host.Outcome State Fault Refusal := runCommand [] (fun s => s.idct.endOk) s

/-- `BLK_LD` (R206). -/
def execBlkLd (s : State) : Host.Outcome State Fault Refusal :=
  runCommand (chkFrame s ++ chkBlock s) (fun s => (s.blkLd s.frm.blkRow.toNat s.frm.blkCol.toNat).endOk) s

/-- `BLK_ST` (R207). -/
def execBlkSt (s : State) : Host.Outcome State Fault Refusal :=
  runCommand (chkFrame s ++ chkBlock s) (fun s => (s.blkSt s.frm.blkRow.toNat s.frm.blkCol.toNat).endOk) s

end Sys2Proof.Machine
end

