-- ==== Sys2Proof/Machine/Qim.lean ====
section
/-! DEFINITION. Unit U4: the quantisation-index modulator and the per-frame driver (R220 to R231). -/

namespace Sys2Proof.Machine

/-- `quant(c, d)` of `COEF[k]` and `DELTA` (R223). -/
def State.quantIndex (s : State) (k : Nat) : Int := rne (s.coefAt k) s.qim.delta.toNat

/-- The index that carries the bit `b`: kept if its parity is right, else one up for a 1 and one down for a 0 (R224). -/
def adjustIndex (q : Int) (b : Bool) : Int := if q % 2 = bitValue b then q else if b then q + 1 else q - 1

/-- `qim_emb_coef(k, b)` (R224). -/
def State.embedBit (s : State) (k : Nat) (b : Bool) : State :=
  let r := adjustIndex (s.quantIndex k) b * s.qim.delta.toNat
  (s.withStatus { s.status with sat := s.status.sat || r != sat32 r }).withCoef
    (s.coef.setIfInBounds k (BitVec.ofInt 32 (sat32 r)))

/-- `qim_ext_coef(k)` (R225). -/
def State.extractBit (s : State) (k : Nat) : Bool := s.quantIndex k % 2 == 1

/-- `qim_emb_coef` on slots 1 to `m` in order, slot `i + 1` carrying `bits i` (R222, R226, R228). -/
def State.embedSlots (s : State) (bits : Nat → Bool) : (m : Nat) → State
  | 0 => s
  | m + 1 => (s.embedSlots bits m).embedBit (m + 1) (bits m)

/-- The bits of slots 1 to `m` as a number, slot 1 in bit 0 (R227). -/
def State.slotBits (s : State) : (m : Nat) → Nat
  | 0 => 0
  | m + 1 => s.slotBits m + bitValue (s.extractBit (m + 1)) * 2 ^ m

/-- The rule of `QIM_EMB` for `n` offered bits (R226). -/
def State.embedOffered (s : State) (n : Nat) : State :=
  let m := min n s.neff
  let t := s.embedSlots s.qbit m
  t.withQim { t.qim with qcnt := BitVec.ofNat 7 m }

/-- The rule of `QIM_EXT` (R227). -/
def State.extractAll (s : State) : State :=
  let v := s.slotBits s.neff
  s.withQim
    { s.qim with
      qbitsLo := BitVec.ofNat 32 v, qbitsHi := BitVec.ofNat 31 (v / 2 ^ 32), qcnt := BitVec.ofNat 7 s.neff }

/-- `QIM_EMB` (R226). -/
def execQimEmb (n : Nat) (s : State) : Host.Outcome State Fault Refusal :=
  runCommand (chkQim s) (fun s => (s.embedOffered n).endOk) s

/-- `QIM_EXT` (R227). -/
def execQimExt (s : State) : Host.Outcome State Fault Refusal := runCommand (chkQim s) (fun s => s.extractAll.endOk) s

/-! ### The per-frame driver -/

/-- The blocks of a frame of `rows` by `cols` blocks in row-major raster order (R228). -/
def raster (rows cols : Nat) : List (Nat × Nat) :=
  (List.range rows).flatMap fun br => (List.range cols).map fun bc => (br, bc)

/-- The blocks of the frame now in `FRAME` (R73, R228). -/
def State.frameBlocks (s : State) : List (Nat × Nat) := raster (s.frmH / 8) (s.frmW / 8)

/-- `cap(FRM_W, FRM_H, Neff)` (R231). -/
def State.capacity (s : State) : Nat := s.frmW / 8 * (s.frmH / 8) * s.neff

/-- One block of `frame_embed`: load, transform, embed `m` bits of `PAY` from bit `start`, transform back, store
(R228). -/
def State.embedBlock (s : State) (br bc start m : Nat) : State :=
  let s := (s.blkLd br bc).fdct
  let s := s.embedSlots (fun i => s.memBit .pay (start + i)) m
  s.idct.blkSt br bc

/-- The loop of `frame_embed` over the blocks, `n` bits done and `L` to do: a block takes as many of the remaining
bits as it has slots, and no block is visited once all are embedded. Answers the count and the state (R228). -/
def frameEmbedLoop (start L : Nat) : List (Nat × Nat) → Nat → State → Nat × State
  | [], n, s => (n, s)
  | (br, bc) :: rest, n, s =>
    if n = L then (n, s)
    else
      let m := min s.neff (L - n)
      frameEmbedLoop start L rest (n + m) (s.embedBlock br bc (start + n) m)

/-- `frame_embed(start, L)` (R228). -/
def State.frameEmbed (s : State) (start L : Nat) : Nat × State := frameEmbedLoop start L s.frameBlocks 0 s

/-- One block of `frame_extract`: load, transform, append the bits of all `Neff` slots to `ACC` from bit `pos` (R229). -/
def State.extractBlock (s : State) (br bc pos : Nat) : State :=
  let s := (s.blkLd br bc).fdct
  s.setMemBits .acc pos (fun i => s.extractBit (i + 1)) s.neff

/-- The loop of `frame_extract` over the blocks, the next bit going to bit index `pos` of `ACC` (R229). -/
def frameExtractLoop : List (Nat × Nat) → Nat → State → Nat × State
  | [], pos, s => (pos, s)
  | (br, bc) :: rest, pos, s => frameExtractLoop rest (pos + s.neff) (s.extractBlock br bc pos)

/-- `frame_extract()`: the count of bits extracted and the state (R229). -/
def State.frameExtract (s : State) : Nat × State :=
  let base := s.ext.accBits.toNat
  let r := frameExtractLoop s.frameBlocks base s
  (r.1 - base, r.2)

end Sys2Proof.Machine
end

