-- ==== Sys2Proof/Machine/Embed.lean ====
section
/-! DEFINITION. Unit U6: the embedding engine (R280 to R286). -/

namespace Sys2Proof.Machine

/-- The check of `EMB_START` (R280). -/
def chkEmbStart (s : State) : List Check :=
  [⟨s.emb.payBits = 0#32 ∨ 8 * s.caps.pay.toNat < s.emb.payBits.toNat, .badParameter, 6⟩]

/-- The rule of `EMB_START` (R280). -/
def State.startEmbedding (s : State) : State :=
  ((s.withEmb { s.emb with state := .awaitingFrame, cursor := 0#32, frames := 0#32 }).withFrmBits 0#32).withStatus
    { s.status with refValid := false }

/-- `EMB_START` (R280). -/
def execEmbStart (s : State) : Host.Outcome State Fault Refusal :=
  runCommand (chkEmbStart s) (fun s => s.startEmbedding.endOk) s

/-- The checks of `EMB_FRAME`, in order (R281). -/
def chkEmbFrame (s : State) : List Check :=
  ⟨!s.emb.state.inProgress, .badSequence, s.emb.state.code.toNat⟩ :: (chkQim s ++ chkFrame s)

/-- The input frame copied into `REF`, unless an earlier frame of the operation was (R283). -/
def State.keepReference (s : State) : State :=
  if s.status.refValid then s
  else
    let t := s.writeBytes .ref 0 (s.readBytes .frame 0 (s.frmW * s.frmH))
    t.withStatus { t.status with refValid := true }

/-- Draining: the frame is left as it is (R284). -/
def State.passFrame (s : State) : State :=
  (s.withFrmBits 0#32).withStatus { s.status with passthru := true }

/-- AwaitingFrame or Embedding: the unconsumed suffix of the payload goes into the frame (R281). -/
def State.embedFrame (s : State) : State :=
  let r := s.frameEmbed s.emb.cursor.toNat (s.emb.payBits.toNat - s.emb.cursor.toNat)
  let cursor := BitVec.ofNat 32 (s.emb.cursor.toNat + r.1)
  (r.2.withFrmBits (BitVec.ofNat 32 r.1)).withEmb
    { r.2.emb with cursor := cursor, state := if cursor = r.2.emb.payBits then .draining else .embedding }

/-- The rule of `EMB_FRAME` after its checks (R281). -/
def State.processFrame (s : State) : State :=
  let t := s.keepReference
  let t := if t.emb.state = .draining then t.passFrame else t.embedFrame
  t.withEmb { t.emb with frames := t.emb.frames + 1#32 }

/-- `EMB_FRAME` (R281). -/
def execEmbFrame (s : State) : Host.Outcome State Fault Refusal :=
  runCommand (chkEmbFrame s) (fun s => s.processFrame.endOk) s

/-- The rule of `EMB_END` when an operation is in progress (R285). -/
def State.endEmbedding (s : State) : State :=
  if s.emb.state = .draining then (s.withEmb { s.emb with state := .done }).endOk
  else (s.withEmb { s.emb with state := .failed }).raiseError .insufficientCapacity s.emb.cursor.toNat

/-- `EMB_END` (R285). -/
def execEmbEnd (s : State) : Host.Outcome State Fault Refusal :=
  runCommand [⟨!s.emb.state.inProgress, .badSequence, s.emb.state.code.toNat⟩] State.endEmbedding s

end Sys2Proof.Machine
end

