-- ==== Sys2Proof/Machine/Envelope.lean ====
section
/-! DEFINITION. Unit U2: the external functions in the shape of R160 to R163, and the commands `EC_PUB` and `ENV_SEAL`
(R170, R171). The external functions are an argument of the operations and `Config.crypto` in the commands. -/

namespace Sys2Proof.Machine

/-- `HKDF(ikm, salt)`: HKDF-SHA256 with the info string of R164 (R160). DESIGN CHOICE (log entry 21): R160 gives the
function for salts of 0 to 255 bytes; the model applies the same free function to a longer one. -/
def hkdf (X : Crypto) (ikm : BitVec 256) (salt : List Byte) : BitVec 256 := X.hkdfSha256 ikm salt Config.info

/-- `AEAD_ENC(pt, key, nonce)`; the ciphertext is as long as the plaintext (R161). -/
def aeadEnc (X : Crypto) (pt : List Byte) (key : BitVec 256) (nonce : BitVec 96) : List Byte × BitVec 128 :=
  ((List.range pt.length).map (X.encByte pt key nonce), X.encTag pt key nonce)

/-- `AEAD_DEC(ct, key, nonce, tag)`; `none` is `Fail`, and a plaintext is as long as the ciphertext (R162). -/
def aeadDec (X : Crypto) (ct : List Byte) (key : BitVec 256) (nonce : BitVec 96) (tag : BitVec 128) :
    Option (List Byte) :=
  if X.decOk ct key nonce tag then some ((List.range ct.length).map (X.decByte ct key nonce tag)) else none

/-- The one law of R162: decryption undoes encryption. A hypothesis of a statement, never assumed of
`Config.crypto`. -/
def AeadRoundTrip (X : Crypto) : Prop :=
  ∀ pt key nonce, aeadDec X (aeadEnc X pt key nonce).1 key nonce (aeadEnc X pt key nonce).2 = some pt

/-- The nonce held in `FLD.NONCE[0 .. 12)` (R54). -/
def State.nonce (s : State) : BitVec 96 := BitVec.ofNat 96 (beInt (s.readBytes .fld 0x300 12))

/-- The tag held in `FLD.TAG[0 .. 16)` (R54). -/
def State.tag (s : State) : BitVec 128 := BitVec.ofNat 128 (beInt (s.readBytes .fld 0x400 16))

/-- `SS` written (R55). -/
def State.withSS (s : State) (v : BitVec 256) : State := s.withHidden { s.hidden with ss := v }

/-- `KEY` written (R55). -/
def State.withKey (s : State) (v : BitVec 256) : State := s.withHidden { s.hidden with key := v }

/-- `SS` and `KEY` derived from the scalar `d`, the point `Q` and the first `n` bytes of `FLD.SALT` (R171, R308).
DESIGN CHOICE (log entry 21): when the host has written a `LEN_SALT` above 255 before `EXT_VERIFY`, the salt is the `n`
bytes of `FLD` from 0x100 on, which run on into the regions that follow. -/
def State.deriveKey (X : Crypto) (s : State) (d : Nat) (Q : Point) (n : Nat) : State :=
  let t := s.withSS (ecdh d Q)
  t.withKey (hkdf X t.hidden.ss (t.readBytes .fld 0x100 n))

/-- `SS` and `KEY` cleared (R55). -/
def State.clearSecrets (s : State) : State := (s.withSS 0#256).withKey 0#256

/-- The public key of the scalar `d` into `FLD.PUBKEY`, with its length (R170, R171). -/
def State.publishKey (s : State) (d : Nat) : State :=
  let s := s.writeBytes .fld 0x000 (compress (pmul d P256.G))
  s.withHdr (s.hdr.withLen 0 33)

/-- `EC_PUB` (R170). -/
def execEcPub (s : State) : Host.Outcome State Fault Refusal :=
  runCommand (chkPriv s) (fun s => (s.publishKey s.privScalar).endOk) s

/-- `decompress` of `FLD.PEER` (R171). -/
def State.peerPoint (s : State) : Option Point := decompress (s.readBytes .fld 0x500 33)

/-- The checks of `ENV_SEAL`, in order (R171). -/
def chkSeal (s : State) : List Check :=
  chkPriv s ++
    [⟨s.lenAt 1 ≠ 16 ∨ s.lenAt 3 ≠ 12, .badParameter, 8⟩,
      ⟨s.caps.pt.toNat < s.ptLen.toNat, .bufferCapacity, 6⟩,
      ⟨s.caps.ct.toNat < s.ptLen.toNat, .bufferCapacity, 5⟩,
      ⟨s.peerPoint = none, .invalidPoint, 1⟩]

/-- The ciphertext and its length (R171). -/
def State.storeCiphertext (s : State) (ct : List Byte) : State :=
  let s := s.writeBytes .ct 0 ct
  s.withHdr { s.hdr with ctLenLo := s.ptLen, ctLenHi := 0#32 }

/-- The tag and its length (R171). -/
def State.storeTag (s : State) (tag : BitVec 128) : State :=
  let s := s.writeBytes .fld 0x400 (beBytes tag.toNat 16)
  s.withHdr (s.hdr.withLen 4 16)

/-- The hash and its length (R171). -/
def State.storeHash (s : State) (hash : BitVec 256) : State :=
  let s := s.writeBytes .fld 0x200 (beBytes hash.toNat 32)
  s.withHdr (s.hdr.withLen 2 32)

/-- The rule of `ENV_SEAL` after its checks, for the scalar `d` and the peer's point `Q` (R171). -/
def State.seal (X : Crypto) (s : State) (d : Nat) (Q : Point) : State :=
  let s := (s.publishKey d).deriveKey X d Q 16
  let pt := s.readBytes .pt 0 s.ptLen.toNat
  let sealed := aeadEnc X pt s.hidden.key s.nonce
  (((s.storeCiphertext sealed.1).storeTag sealed.2).storeHash (X.sha3 pt)).clearSecrets

/-- `ENV_SEAL` with the external functions `X`; after the checks the peer's point is valid. -/
def envSeal (X : Crypto) (s : State) : Host.Outcome State Fault Refusal :=
  runCommand (chkSeal s) (fun s => (s.seal X s.privScalar (s.peerPoint.getD .inf)).endOk) s

/-- `ENV_SEAL` (R171). -/
def execEnvSeal (s : State) : Host.Outcome State Fault Refusal := envSeal Config.crypto s

end Sys2Proof.Machine
end

