-- ==== Sys2Proof/Machine/Framer.lean ====
section
/-! DEFINITION. Unit U5: the serializer `PAY_SER` and the incremental parser (R250 to R261). -/

namespace Sys2Proof.Machine

/-- The sum of `LEN[0]` to `LEN[4]`. -/
def State.lenSum (s : State) : Nat := s.lenAt 0 + s.lenAt 1 + s.lenAt 2 + s.lenAt 3 + s.lenAt 4

/-- The length of the payload in bytes (R251, R256). -/
def State.payloadBytes (s : State) : Nat := 13 + s.lenSum + s.ctLen

/-- The checks of `PAY_SER`, in field order (R256). -/
def chkSerialize (s : State) : List Check :=
  [⟨s.emb.state.inProgress, .badSequence, s.emb.state.code.toNat⟩,
    ⟨2 ^ 16 ≤ s.hdr.secW.toNat, .valueOutOfRange, 0⟩,
    ⟨2 ^ 16 ≤ s.hdr.secH.toNat, .valueOutOfRange, 1⟩]
  ++ (List.range 5).map (fun i => ⟨2 ^ 8 ≤ s.lenAt i, .valueOutOfRange, 2 + 2 * i⟩)
  ++ [⟨2 ^ 32 ≤ s.ctLen, .valueOutOfRange, 12⟩,
    ⟨s.caps.ct.toNat < s.ctLen, .bufferCapacity, 5⟩,
    ⟨s.caps.pay.toNat < s.payloadBytes, .bufferCapacity, 2⟩]

/-- Fields `2 + 2i` and `3 + 2i`: the length byte and the bytes of region `i` of `FLD` (R250, R256). -/
def State.fieldBytes (s : State) (i : Nat) : List Byte :=
  BitVec.ofNat 8 (s.lenAt i) :: s.readBytes .fld (0x100 * i) (s.lenAt i)

/-- The payload as a byte string (R250, R256). -/
def State.payload (s : State) : List Byte :=
  beBytes s.hdr.secW.toNat 2 ++ beBytes s.hdr.secH.toNat 2 ++ (List.range 5).flatMap s.fieldBytes
    ++ beBytes s.ctLen 4 ++ s.readBytes .ct 0 s.ctLen

/-- The payload stored in `PAY` (R256). -/
def State.serialize (s : State) : State :=
  let t := s.writeBytes .pay 0 s.payload
  t.withEmb { t.emb with payBits := BitVec.ofNat 32 (8 * s.payloadBytes) }

/-- `PAY_SER` (R256). -/
def execPaySer (s : State) : Host.Outcome State Fault Refusal :=
  runCommand (chkSerialize s) (fun s => s.serialize.endOk) s

/-! ### The incremental parser -/

/-- The width of field `f` in bits (R250, R260). -/
def State.fieldWidth (s : State) (f : Nat) : Nat :=
  if f = 0 ∨ f = 1 then 16
  else if f = 12 then 32
  else if f = 13 then 8 * s.ctLen
  else if f % 2 = 0 then 8
  else 8 * s.lenAt ((f - 3) / 2)

/-- The parsed field `f`, whose first bit is bit `c` of the accumulator, into its register or region; the ciphertext
stays in `ACC` (R250, R260). DESIGN CHOICE (log entry 20): when the host has written a `LEN[i]` above 256 since the
length byte was parsed, the bytes of region `i` are stored as R260's `MemWrite` says, into the regions that follow and
even into `FLD.PEER`, against the sentence of R262. -/
def State.storeField (s : State) (f c : Nat) : State :=
  if f = 0 then s.withHdr { s.hdr with secW := BitVec.ofNat 32 (s.accUint c 16) }
  else if f = 1 then s.withHdr { s.hdr with secH := BitVec.ofNat 32 (s.accUint c 16) }
  else if f = 12 then s.withHdr { s.hdr with ctLenLo := BitVec.ofNat 32 (s.accUint c 32), ctLenHi := 0#32 }
  else if f = 13 then s
  else if f % 2 = 0 then s.withHdr (s.hdr.withLen ((f - 2) / 2) (s.accUint c 8))
  else s.writeBytes .fld (0x100 * ((f - 3) / 2)) (s.accBytes c (s.lenAt ((f - 3) / 2)))

/-- The parser registers after field `f` of width `w` at bit `c` (R260). -/
def ExtRegs.advance (e : ExtRegs) (f c w : Nat) : ExtRegs :=
  { e with
    prsCursor := BitVec.ofNat 32 (c + w), prsFidx := BitVec.ofNat 4 (f + 1),
    hdrCursor := if f = 12 then BitVec.ofNat 32 (c + w) else e.hdrCursor }

/-- `parse_step()`: the state after one field, or `none` for `NeedMoreBits`, which changes nothing. The comparison
does not wrap (R260). -/
def State.parseStep (s : State) : Option State :=
  let f := s.ext.prsFidx.toNat
  let c := s.ext.prsCursor.toNat
  let w := s.fieldWidth f
  if s.ext.accBits.toNat < c + w then none
  else
    let t := s.storeField f c
    some (t.withExt (t.ext.advance f c w))

end Sys2Proof.Machine
end

