-- ==== Sys2Proof/Machine/Extract.lean ====
section
/-! DEFINITION. Unit U7: the extraction engine (R300 to R312). -/

namespace Sys2Proof.Machine

/-- `EXT_STATE` written. -/
def State.withExtState (s : State) (e : ExtState) : State := s.withExt { s.ext with state := e }

/-- The rule of `EXT_START` (R300). -/
def State.startExtraction (s : State) : State :=
  ((s.withExt
      { state := .accumulating, accBits := 0#32, prsCursor := 0#32, prsFidx := 0#4, hdrCursor := 0#32,
        frames := 0#32 }).withFrmBits 0#32).withStatus
    { s.status with integrity := false }

/-- `EXT_START` (R300). -/
def execExtStart (s : State) : Host.Outcome State Fault Refusal := runCommand [] (fun s => s.startExtraction.endOk) s

/-- The states in which `EXT_FRAME` is legal: 1, 3 and 4 (R301, R352). -/
def ExtState.takesFrame : ExtState → Bool
  | .accumulating | .collecting | .verifying => true
  | .idle | .headerParsed | .done | .failed => false

/-- The states in which more bits are needed: 1 and 3 (R304, R306). -/
def ExtState.incomplete : ExtState → Bool
  | .accumulating | .collecting => true
  | .idle | .headerParsed | .verifying | .done | .failed => false

/-- The states in which `EXT_END` is legal: 1, 3, 4 and 5 (R306, R352). -/
def ExtState.takesEnd : ExtState → Bool
  | .accumulating | .collecting | .verifying | .done => true
  | .idle | .headerParsed | .failed => false

/-- The checks of `EXT_FRAME` that change nothing, in order (R301, R302). -/
def chkExtFrame (s : State) : List Check :=
  ⟨!s.ext.state.takesFrame, .badSequence, s.ext.state.code.toNat⟩ :: (chkQim s ++ chkFrame s)

/-- The engine state after a parsed field: past field 12 the engine passes through HeaderParsed to
CollectingCiphertext, past field 13 it is in Verifying (R301, R305). -/
def State.afterField (s : State) : State :=
  if s.ext.prsFidx = 13#4 then (s.withExtState .headerParsed).withExtState .collecting
  else if s.ext.prsFidx = 14#4 then s.withExtState .verifying
  else s

/-- The parser loop of `EXT_FRAME`, at most `fuel` fields (R301). -/
def State.parseLoop (s : State) : (fuel : Nat) → State
  | 0 => s
  | fuel + 1 =>
    if s.ext.prsFidx.toNat ≤ 13 then
      match s.parseStep with
      | none => s
      | some t => t.afterField.parseLoop fuel
    else s

/-- A frame whose bits fit the accumulator: extract, count, parse (R301). -/
def State.takeFrame (s : State) : State :=
  let r := s.frameExtract
  let t := r.2.withExt
    { r.2.ext with accBits := BitVec.ofNat 32 (r.2.ext.accBits.toNat + r.1), frames := r.2.ext.frames + 1#32 }
  let t := t.withFrmBits (BitVec.ofNat 32 r.1)
  let t := t.parseLoop 14
  t.withStatus { t.status with needMore := t.status.needMore || t.ext.state.incomplete }

/-- Verifying: the frame is skipped (R303). -/
def State.skipFrame (s : State) : State :=
  (s.withFrmBits 0#32).withStatus { s.status with skipped := true }

/-- The rule of `EXT_FRAME` after the checks that change nothing (R301). -/
def State.receiveFrame (s : State) : State :=
  if s.ext.state = .verifying then s.skipFrame.endOk
  else if s.caps.accBits.toNat < s.ext.accBits.toNat + s.capacity then
    (s.withExtState .failed).raiseError .bufferCapacity 3
  else s.takeFrame.endOk

/-- `EXT_FRAME` (R301). -/
def execExtFrame (s : State) : Host.Outcome State Fault Refusal := runCommand (chkExtFrame s) State.receiveFrame s

/-- The rule of `EXT_END` in the states where it is legal (R306). -/
def State.endExtraction (s : State) : State :=
  if s.ext.state.incomplete then (s.withExtState .failed).raiseError .truncatedStream s.ext.prsFidx.toNat
  else s.endOk

/-- `EXT_END` (R306). -/
def execExtEnd (s : State) : Host.Outcome State Fault Refusal :=
  runCommand [⟨!s.ext.state.takesEnd, .badSequence, s.ext.state.code.toNat⟩] State.endExtraction s

/-! ### Verification -/

/-- The checks of `EXT_VERIFY` that leave everything unchanged, in order (R308). -/
def chkVerify (s : State) : List Check :=
  ⟨s.ext.state ≠ .verifying, .badSequence, s.ext.state.code.toNat⟩ ::
    (chkPriv s ++ [⟨s.caps.pt.toNat < s.ctLen, .bufferCapacity, 6⟩])

/-- `decompress` of `FLD.PUBKEY[0 .. LEN_PUBKEY)` (R308, R309). -/
def State.senderPoint (s : State) : Option Point := decompress (s.readBytes .fld 0x000 (s.lenAt 0))

/-- The tag check and decryption under the key in `KEY`; a nonce or tag of another length fails without calling
`AEAD_DEC` (R308, R309). -/
def State.openCiphertext (X : Crypto) (s : State) : Option (List Byte) :=
  if s.lenAt 3 = 12 ∧ s.lenAt 4 = 16 then
    aeadDec X (s.accBytes s.ext.hdrCursor.toNat s.ctLen) s.hidden.key s.nonce s.tag
  else none

/-- The recomputed hash equals the extracted one; a hash of another length is a mismatch (R308, R309). -/
def State.hashMatches (X : Crypto) (s : State) (pt : List Byte) : Bool :=
  s.lenAt 2 = 32 ∧ beBytes (X.sha3 pt).toNat 32 = s.readBytes .fld 0x200 32

/-- The plaintext released and the operation Done (R308, R311). -/
def State.releasePlaintext (s : State) (pt : List Byte) : State :=
  (((s.writeBytes .pt 0 pt).withPtLen (BitVec.ofNat 32 s.ctLen)).withExtState .done).endOk

/-- A failed verification that releases no plaintext (R308). -/
def State.rejectPlaintext (s : State) (e : ErrorKind) : State :=
  ((s.withPtLen 0#32).withExtState .failed).raiseError e 0

/-- The report of a hash mismatch (R308, R310). -/
def State.noteMismatch (s : State) : State :=
  (s.withStatus { s.status with integrity := true }).withErrs (s.errs.note .integrityMismatch)

/-- A decrypted plaintext: released, with the report of a hash mismatch, unless a mismatch is fatal (R308, R310). -/
def State.acceptPlaintext (X : Crypto) (s : State) (pt : List Byte) : State :=
  if s.hashMatches X pt then s.releasePlaintext pt
  else if s.ctrl.hashFatal then s.noteMismatch.rejectPlaintext .integrityMismatch
  else s.noteMismatch.releasePlaintext pt

/-- The end of `EXT_VERIFY`, from the answer of the tag check and decryption (R308). -/
def State.finishVerify (X : Crypto) (s : State) (opened : Option (List Byte)) : State :=
  match opened with
  | none => s.rejectPlaintext .authenticationFailed
  | some pt => s.acceptPlaintext X pt

/-- The rule of `EXT_VERIFY` with the sender's point `Q`: the key is derived, used and cleared (R308). -/
def State.verifyWith (X : Crypto) (s : State) (d : Nat) (Q : Point) : State :=
  let t := s.deriveKey X d Q (s.lenAt 1)
  t.clearSecrets.finishVerify X (t.openCiphertext X)

/-- The rule of `EXT_VERIFY` after its checks, for the scalar `d` (R308). -/
def State.verify (X : Crypto) (s : State) (d : Nat) : State :=
  match s.senderPoint with
  | none => (s.withExtState .failed).raiseError .invalidPoint 0
  | some Q => s.verifyWith X d Q

/-- `EXT_VERIFY` with the external functions `X`. -/
def extVerify (X : Crypto) (s : State) : Host.Outcome State Fault Refusal :=
  runCommand (chkVerify s) (fun s => s.verify X s.privScalar) s

/-- `EXT_VERIFY` (R308). -/
def execExtVerify (s : State) : Host.Outcome State Fault Refusal := extVerify Config.crypto s

end Sys2Proof.Machine
end

