-- ==== Sys2Proof/Machine/Dispatch.lean ====
section
/-! DEFINITION. One arm per command: the meaning of each (R102). -/

namespace Sys2Proof.Machine

-- The execution of one accepted command from start to end, its end included (R86, R361, R362).
def exec (i : Instr) (s : State) : Host.Outcome State Fault Refusal :=
  match i with
  | .nop => Sys2Proof.Machine.execNop s
  | .softReset => Sys2Proof.Machine.execSoftReset s
  | .abort => Sys2Proof.Machine.execAbort s
  | .b2b lenient => Sys2Proof.Machine.execB2b lenient s
  | .ecPub => Sys2Proof.Machine.execEcPub s
  | .envSeal => Sys2Proof.Machine.execEnvSeal s
  | .fdct => Sys2Proof.Machine.execFdct s
  | .idct => Sys2Proof.Machine.execIdct s
  | .blkLd => Sys2Proof.Machine.execBlkLd s
  | .blkSt => Sys2Proof.Machine.execBlkSt s
  | .qimEmb n => Sys2Proof.Machine.execQimEmb n s
  | .qimExt => Sys2Proof.Machine.execQimExt s
  | .paySer => Sys2Proof.Machine.execPaySer s
  | .embStart => Sys2Proof.Machine.execEmbStart s
  | .embFrame => Sys2Proof.Machine.execEmbFrame s
  | .embEnd => Sys2Proof.Machine.execEmbEnd s
  | .extStart => Sys2Proof.Machine.execExtStart s
  | .extFrame => Sys2Proof.Machine.execExtFrame s
  | .extEnd => Sys2Proof.Machine.execExtEnd s
  | .extVerify => Sys2Proof.Machine.execExtVerify s

end Sys2Proof.Machine
end

