-- ==== Sys2Proof/Machine/HostPort.lean ====
section
/-! DEFINITION. The register interface: the register map (R20), host reads and writes (R75, R81, R85 to R89), the
memory port (R52). -/

namespace Sys2Proof.Machine

/-- A register of the register space (R20). -/
inductive Reg where
  | id
  | version
  | cmd
  | status
  | errCode
  | errInfo
  | errSticky
  | ctrl
  | intPend
  | capFrame
  | capPay
  | capAcc
  | capCt
  | capPt
  | delta
  | ncoef
  | frmW
  | frmH
  | blkRow
  | blkCol
  | qbitsLo
  | qbitsHi
  | qcnt
  | embState
  | embCursor
  | embFrames
  | payBits
  | extState
  | accBits
  | prsCursor
  | prsFidx
  | hdrCursor
  | extFrames
  | frmBits
  | secW
  | secH
  /-- `LEN[i]`: `LEN_PUBKEY`, `LEN_SALT`, `LEN_HASH`, `LEN_NONCE`, `LEN_TAG` (R46). -/
  | len (i : Nat)
  | ctLenLo
  | ctLenHi
  | ptLen
  | brStart
  | brLen
  | memSel
  | memAddr
  | memData
  | priv (w : Nat)
  | pix (k : Nat)
  | coef (k : Nat)
  | reserved
deriving DecidableEq, Repr

/-- The offsets of the scalar registers (R20). -/
def scalarRegs : List (Nat × Reg) :=
  [ (0x000, .id), (0x004, .version), (0x008, .cmd), (0x00C, .status), (0x010, .errCode), (0x014, .errInfo),
    (0x018, .errSticky), (0x01C, .ctrl), (0x020, .intPend), (0x028, .capFrame), (0x02C, .capPay), (0x030, .capAcc),
    (0x034, .capCt), (0x038, .capPt), (0x040, .delta), (0x044, .ncoef), (0x048, .frmW), (0x04C, .frmH),
    (0x050, .blkRow), (0x054, .blkCol), (0x058, .qbitsLo), (0x05C, .qbitsHi), (0x060, .qcnt), (0x070, .embState),
    (0x074, .embCursor), (0x078, .embFrames), (0x07C, .payBits), (0x080, .extState), (0x084, .accBits),
    (0x088, .prsCursor), (0x08C, .prsFidx), (0x090, .hdrCursor), (0x094, .extFrames), (0x098, .frmBits),
    (0x0A0, .secW), (0x0A4, .secH), (0x0A8, .len 0), (0x0AC, .len 1), (0x0B0, .len 2), (0x0B4, .len 3),
    (0x0B8, .len 4), (0x0BC, .ctLenLo), (0x0C0, .ctLenHi), (0x0C4, .ptLen), (0x0C8, .brStart), (0x0CC, .brLen),
    (0x0D0, .memSel), (0x0D4, .memAddr), (0x0D8, .memData) ]

/-- The register at a byte offset that is a multiple of 4 (R20, R29). -/
def regAt (offset : Nat) : Reg :=
  if 0x0E0 ≤ offset ∧ offset < 0x100 then .priv ((offset - 0x0E0) / 4)
  else if 0x100 ≤ offset ∧ offset < 0x200 then .pix ((offset - 0x100) / 4)
  else if 0x200 ≤ offset ∧ offset < 0x300 then .coef ((offset - 0x200) / 4)
  else (scalarRegs.lookup offset).getD .reserved

/-- The memory that `MEM_SEL` selects; 7 selects none (R52). -/
def selectedSpace (sel : BitVec 3) : Option Space :=
  match sel.toNat with
  | 0 => some .frame
  | 1 => some .ref
  | 2 => some .pay
  | 3 => some .acc
  | 4 => some .fld
  | 5 => some .ct
  | 6 => some .pt
  | _ => none

/-- `writable(MEM_SEL)` (R52, R70). -/
def State.hostWritable (s : State) : Space → Bool
  | .ref | .acc => false
  | .pay => !s.emb.state.inProgress
  | .frame | .fld | .ct | .pt => true

/-- Whether the memory port now addresses a byte that exists (R52). -/
def State.portTarget (s : State) : Option Space :=
  (selectedSpace s.port.sel).filter fun sp => s.port.addr.toNat < memSize s.caps sp

/-- `MEM_ADDR <- (MEM_ADDR + 1) mod 2^32` (R52, R402). -/
def State.bumpAddr (s : State) : State := s.withPort { s.port with addr := s.port.addr + 1#32 }

/-- Host read of `MEM_DATA` while not busy (R52). -/
def State.readPort (s : State) : Word × State :=
  match s.portTarget with
  | some sp => ((s.readByte sp s.port.addr.toNat).setWidth 32, s.bumpAddr)
  | none => (0#32, s.hostError.bumpAddr)

/-- Host write of `w` to `MEM_DATA` while not busy (R52). -/
def State.writePort (s : State) (w : Word) : State :=
  match s.portTarget.filter s.hostWritable with
  | some sp => (s.writeByte sp s.port.addr.toNat (w.setWidth 8)).bumpAddr
  | none => s.hostError.bumpAddr

/-- The value of a register as a host read sees it; write-only and reserved registers and the data window of the
memory port (`readPort`) read 0 here (R20 to R53). -/
def State.regValue (s : State) : Reg → Word
  | .id => 0x44435438#32
  | .version => 0x00000001#32
  | .cmd => 0#32
  | .status => s.status.word
  | .errCode => s.errs.code.setWidth 32
  | .errInfo => s.errs.info
  | .errSticky => s.errs.sticky.setWidth 32
  | .ctrl => s.ctrl.word
  | .intPend => s.intPend.word
  | .capFrame => s.caps.frame
  | .capPay => s.caps.pay
  | .capAcc => s.caps.accBits
  | .capCt => s.caps.ct
  | .capPt => s.caps.pt
  | .delta => s.qim.delta.setWidth 32
  | .ncoef => s.qim.ncoef
  | .frmW => s.frm.width.setWidth 32
  | .frmH => s.frm.height.setWidth 32
  | .blkRow => s.frm.blkRow.setWidth 32
  | .blkCol => s.frm.blkCol.setWidth 32
  | .qbitsLo => s.qim.qbitsLo
  | .qbitsHi => s.qim.qbitsHi.setWidth 32
  | .qcnt => s.qim.qcnt.setWidth 32
  | .embState => s.emb.state.code.setWidth 32
  | .embCursor => s.emb.cursor
  | .embFrames => s.emb.frames
  | .payBits => s.emb.payBits
  | .extState => s.ext.state.code.setWidth 32
  | .accBits => s.ext.accBits
  | .prsCursor => s.ext.prsCursor
  | .prsFidx => s.ext.prsFidx.setWidth 32
  | .hdrCursor => s.ext.hdrCursor
  | .extFrames => s.ext.frames
  | .frmBits => s.frmBits
  | .secW => s.hdr.secW
  | .secH => s.hdr.secH
  | .len i => s.hdr.len[i]?.getD 0#32
  | .ctLenLo => s.hdr.ctLenLo
  | .ctLenHi => s.hdr.ctLenHi
  | .ptLen => s.ptLen
  | .brStart => s.range.start
  | .brLen => s.range.len
  | .memSel => s.port.sel.setWidth 32
  | .memAddr => s.port.addr
  | .memData => 0#32
  | .priv _ => 0#32
  | .pix k => (s.pixAt k).setWidth 32
  | .coef k => s.coef[k]?.getD 0#32
  | .reserved => 0#32

/-- The registers that read their current value while `STATUS.BUSY = 1` (R87). -/
def Reg.readableWhileBusy : Reg → Bool
  | .id | .version | .status | .errCode | .errInfo | .errSticky | .ctrl | .intPend | .capFrame | .capPay | .capAcc
  | .capCt | .capPt => true
  | _ => false

/-- A host write of `w` to a register while `STATUS.BUSY = 0`: reserved bits are dropped, writes to read-only and
reserved registers are ignored, a write to `CMD` submits a command (R20 to R53, R89). -/
def State.writeReg (s : State) (r : Reg) (w : Word) : State :=
  match r with
  | .cmd => s.accept w
  | .status => s.withStatus (s.status.hostClear w)
  | .errSticky => s.withErrs (s.errs.hostClear w)
  | .ctrl => s.withCtrl (Ctrl.ofWord w)
  | .intPend => s.withIntPend (s.intPend.hostClear w)
  | .delta => s.withQim { s.qim with delta := w.setWidth 24 }
  | .ncoef => s.withQim { s.qim with ncoef := w }
  | .frmW => s.withFrm { s.frm with width := w.setWidth 16 }
  | .frmH => s.withFrm { s.frm with height := w.setWidth 16 }
  | .blkRow => s.withFrm { s.frm with blkRow := w.setWidth 13 }
  | .blkCol => s.withFrm { s.frm with blkCol := w.setWidth 13 }
  | .qbitsLo => s.withQim { s.qim with qbitsLo := w }
  | .qbitsHi => s.withQim { s.qim with qbitsHi := w.setWidth 31 }
  | .payBits => if s.emb.state.inProgress then s.hostError else s.withEmb { s.emb with payBits := w }
  | .secW => s.withHdr { s.hdr with secW := w }
  | .secH => s.withHdr { s.hdr with secH := w }
  | .len i => s.withHdr { s.hdr with len := s.hdr.len.setIfInBounds i w }
  | .ctLenLo => s.withHdr { s.hdr with ctLenLo := w }
  | .ctLenHi => s.withHdr { s.hdr with ctLenHi := w }
  | .ptLen => s.withPtLen w
  | .brStart => s.withRange { s.range with start := w }
  | .brLen => s.withRange { s.range with len := w }
  | .memSel => s.withPort { s.port with sel := w.setWidth 3 }
  | .memAddr => s.withPort { s.port with addr := w }
  | .memData => s.writePort w
  | .priv i => s.withPriv (s.priv.setIfInBounds i w)
  | .pix k => s.withPix (s.pix.setIfInBounds k (w.setWidth 8))
  | .coef k => s.withCoef (s.coef.setIfInBounds k w)
  | .id | .version | .errCode | .errInfo | .capFrame | .capPay | .capAcc | .capCt | .capPt | .qcnt | .embState
  | .embCursor | .embFrames | .extState | .accBits | .prsCursor | .prsFidx | .hdrCursor | .extFrames | .frmBits
  | .reserved => s

/-- The interface performs only 32-bit accesses at offsets that are multiples of 4 (R75). -/
def performed (width : Width) (offset : BitVec 12) : Bool := width = .w32 ∧ offset.toNat % 4 = 0

/-- One host read: the value returned and the state after it (R52, R75, R81, R87, R89). -/
def State.hostRead (s : State) (width : Width) (offset : BitVec 12) : Word × State :=
  let r := regAt offset.toNat
  if performed width offset = false then (0#32, s.hostError)
  else if s.status.busy then
    if r.readableWhileBusy then (s.regValue r, s) else (0#32, s.hostError)
  else if r = .memData then s.readPort
  else (s.regValue r, s)

/-- One host write (R52, R75, R81, R88, R89). -/
def State.hostWrite (s : State) (width : Width) (offset : BitVec 12) (w : Word) : State :=
  if performed width offset = false ∨ s.status.busy = true then s.hostError
  else s.writeReg (regAt offset.toNat) w

/-- The value handed to the host by a read. -/
def State.answer (s : State) (value : Word) : State := s.withHost { s.host with reads := value :: s.host.reads }

/-- One host step (R85), or the reset input (R390). While the reset input is asserted no access is performed: a write
changes nothing, and what the host receives from a read is a free value (log entry 12). -/
def State.hostStep (s : State) : HostEvent → State
  | .read width offset =>
    if s.host.resetInput then s.answer (Config.resetRead s.host.reads.length)
    else (s.hostRead width offset).2.answer (s.hostRead width offset).1
  | .write width offset value => if s.host.resetInput then s else s.hostWrite width offset value
  | .resetInput asserted => s.driveReset asserted

end Sys2Proof.Machine
end

