-- ==== Sys2Proof/Machine/Turn.lean ====
section
/-! DEFINITION. Whose turn it is: the block step and the host step in one total order (R86, R90, R410). -/

namespace Sys2Proof.Machine

/-- The block step of the accepted command: decode `CMD_LATCH` and execute it from start to end, or end it with
`IllegalCommand` and the word (R86, R101, R351). -/
def State.blockStep (s : State) : Host.Outcome State Fault Refusal :=
  match decode s.hidden.cmdLatch with
  | .ok i => exec i s
  | .error (.illegalCommand w) => .next (s.raiseError .illegalCommand w.toNat)

/-- The host takes the step it has pending. -/
def State.takeHostStep (s : State) (e : HostEvent) (rest : List HostEvent) : State :=
  (s.withHost { s.host with pending := rest }).hostStep e

/-- One step of the machine. While a command is in progress the host may go on for as long as the command's delay
lasts, and the block step follows; a host with nothing to do lets it follow at once. While none is in progress the
host steps; a host with nothing to do leaves the block as it is (R85, R86, R90, R390, R410; log entry 5). -/
def State.advance (s : State) : Host.Outcome State Fault Refusal :=
  match s.host.pending with
  | [] => if s.commandInProgress then s.blockStep else .next s
  | e :: rest =>
    if s.commandInProgress then
      match s.free.delay with
      | 0 => s.blockStep
      | d + 1 => .next ((s.withFree { s.free with delay := d }).takeHostStep e rest)
    else .next (s.takeHostStep e rest)

/-- The state in which the command of a row's bits has been accepted and the block step is next: what a host write of
the word to `CMD` does (R86), with the reset input released and no host step left before the block step. -/
def State.submit (s : State) (nbits w : Nat) : State :=
  let t := s.accept (tableWord nbits w)
  (t.withFree { t.free with delay := 0 }).withHost { t.host with resetInput := false }

end Sys2Proof.Machine
end

