-- ==== Sys2Proof/Machine/Step.lean ====
section
/-! DEFINITION. The step of the machine. The block fetches no instructions (R60, R92): the word of the next command is
in `CMD_LATCH`, where the host's write to `CMD` puts it (R86). -/

namespace Sys2Proof.Machine

/-- One step: a host step or a block step (R85, R86). -/
def step (s : State) : Host.Outcome State Fault Refusal := s.advance

/-- The command of a row's bits accepted as the next block step (log entry 8). -/
def State.withFetchWord (s : State) (nbits w : Nat) : State := s.submit nbits w

end Sys2Proof.Machine
end

