-- ==== Sys2Proof/Safety.lean ====
section
/-! DEFINITION. What counts as a good state, in the terms the statements use: when a command's parameters are usable,
and the invariants that every step keeps. -/

namespace Sys2Proof.Machine

/-! ### Usable parameters -/

/-- `chk_qim` passes (R220). -/
abbrev State.QimReady (s : State) : Prop := s.qim.delta ≠ 0#24 ∧ s.qim.ncoef ≠ 0#32

/-- `chk_frame` passes (R205). -/
abbrev State.FrameReady (s : State) : Prop :=
  s.frmW ≠ 0 ∧ s.frmH ≠ 0 ∧ s.frmW % 8 = 0 ∧ s.frmH % 8 = 0 ∧ s.frmW * s.frmH ≤ s.caps.frame.toNat

/-- The block that `BLK_ROW` and `BLK_COL` address lies inside the frame (R206). -/
abbrev State.BlockReady (s : State) : Prop :=
  s.frm.blkRow.toNat < s.frmH / 8 ∧ s.frm.blkCol.toNat < s.frmW / 8

/-- `chk_priv` passes (R157). -/
abbrev State.KeyReady (s : State) : Prop := s.privScalar ≠ 0 ∧ s.privScalar < P256.n

/-! ### Invariants -/

/-- Every memory is in canonical form, with addresses inside the memory only. -/
def State.MemoryForm (s : State) : Prop := ∀ sp : Space, Memory.wf (memSize s.caps sp) (s.mems.get sp) = true

/-- What `STATUS` and the error registers say together (R24, R25): while a command is in progress no outcome flag is
set; `DONE` and `ERR` are never both set; an error code is held exactly while `ERR` is set; no information word without
an error; the codes are those of R350; bit 0 of `ERR_STICKY` reads 0. -/
structure State.StatusForm (s : State) : Prop where
  busy_flags : s.status.busy = true → s.status.done = false ∧ s.status.err = false ∧ s.status.needMore = false
    ∧ s.status.skipped = false ∧ s.status.passthru = false
  one_outcome : s.status.done = true → s.status.err = false
  code_of_err : s.status.err = true ↔ s.errs.code ≠ 0#4
  info_of_code : s.errs.code = 0#4 → s.errs.info = 0#32
  code_bound : s.errs.code.toNat ≤ 11
  sticky_zero : s.errs.sticky.getLsbD 0 = false

/-- `SS` and `KEY` are 0 (R55). -/
def State.SecretsCleared (s : State) : Prop := s.hidden.ss = 0#256 ∧ s.hidden.key = 0#256

/-- While the reset input is asserted the block is in the reset state (R390): every register and hidden register at its
reset value, no byte of memory written. -/
def State.ResetForm (s : State) : Prop :=
  s.host.resetInput = true → s = { State.resetWith s.caps with host := s.host, free := s.free }

/-- The embedding engine while an operation is in progress (R287, for the states 1, 2 and 3; log entry 9). -/
structure State.EmbedForm (s : State) : Prop where
  caps : s.caps.wellFormed = true
  awaiting : s.emb.state = .awaitingFrame →
    s.emb.cursor = 0#32 ∧ s.emb.frames = 0#32 ∧ s.status.refValid = false ∧ 1 ≤ s.emb.payBits.toNat
  embedding : s.emb.state = .embedding →
    0 < s.emb.cursor.toNat ∧ s.emb.cursor.toNat < s.emb.payBits.toNat ∧ s.status.refValid = true
  draining : s.emb.state = .draining → s.emb.cursor = s.emb.payBits ∧ s.status.refValid = true
  fits : s.emb.state.inProgress = true → s.emb.payBits.toNat ≤ 8 * s.caps.pay.toNat

/-- The extraction engine (R313, without the clauses that a host write to `CT_LEN` can break; log entry 9). -/
structure State.ExtractForm (s : State) : Prop where
  caps : s.caps.wellFormed = true
  parsed : s.ext.prsCursor.toNat ≤ s.ext.accBits.toNat
  fits : s.ext.accBits.toNat ≤ s.caps.accBits.toNat
  header : s.ext.hdrCursor.toNat ≤ s.ext.prsCursor.toNat
  index : s.ext.prsFidx.toNat ≤ 14
  observed : s.ext.state ≠ .headerParsed
  accumulating : s.ext.state = .accumulating → s.ext.prsFidx.toNat ≤ 12 ∧ s.ext.hdrCursor = 0#32
  collecting : s.ext.state = .collecting → s.ext.prsFidx.toNat = 13 ∧ s.ext.hdrCursor = s.ext.prsCursor
  complete : s.ext.state = .verifying ∨ s.ext.state = .done → s.ext.prsFidx.toNat = 14

end Sys2Proof.Machine
end

