-- ==== Sys2Proof/Certificates/Slice0/Obligations.lean ====
section
/-! DEFINITION. The statements for the provers. A statement about a command says what `exec` answers, what the command
writes and that everything else keeps its value: the record update `{ s with … }` names every field that changes, and
memory is spoken of through `State.readByte`, the read of one byte. -/

open Sys2Proof Sys2Proof.Machine

/-! ### Encoding -/

/-- R100 to R104: decoding the word of a well-formed command gives the command back. -/
def Obligations.DecodeOfEncodeIsTheCommand : Prop := ∀ i : Instr, i.wellFormed = true → decode (encode i) = .ok i

/-- R101, R103: the reserved words are those with a nonzero upper half, an opcode outside the map, or a must-be-0 argument
bit set; every other word is the encoding of the command it decodes to. -/
def Obligations.EveryWordHasOneMeaning : Prop :=
  (∀ w : Word,
    decode w = .error (.illegalCommand w) ↔
      w.toNat / 2 ^ 16 ≠ 0
        ∨ w.toNat % 256 ∉ [0x00, 0x01, 0x02, 0x10, 0x20, 0x21, 0x30, 0x31, 0x32, 0x33, 0x40, 0x41, 0x50, 0x60, 0x61, 0x62,
            0x70, 0x71, 0x72, 0x73]
        ∨ (w.toNat % 256 = 0x10 ∧ 2 ≤ w.toNat / 256 % 256)
        ∨ (w.toNat % 256 = 0x40 ∧ 64 ≤ w.toNat / 256 % 256)
        ∨ (w.toNat % 256 ≠ 0x10 ∧ w.toNat % 256 ≠ 0x40 ∧ w.toNat / 256 % 256 ≠ 0))
    ∧ ∀ (w : Word) (i : Instr), decode w = .ok i → i.wellFormed = true ∧ encode i = w

/-- R102, R104: words written out from the opcode map decode to the commands they stand for. -/
def Obligations.MappedWordsDecode : Prop :=
  decode 0x00000000#32 = .ok .nop ∧ decode 0x00000110#32 = .ok (.b2b true) ∧ decode 0x00000010#32 = .ok (.b2b false)
    ∧ decode 0x00000020#32 = .ok .ecPub ∧ decode 0x00000033#32 = .ok .blkSt
    ∧ decode 0x00003F40#32 = .ok (.qimEmb 63) ∧ decode 0x00000050#32 = .ok .paySer
    ∧ decode 0x00000061#32 = .ok .embFrame ∧ decode 0x00000073#32 = .ok .extVerify

/-! ### Steps and the life of a command -/

/-- R86, R101: with a command accepted, the reset input released and the block's turn come, the step is the execution of
the decoded command. When the turn has come is the model's choice (log entry 5). -/
def Obligations.BlockStepRunsTheDecodedCommand : Prop :=
  ∀ (s : State) (i : Instr), s.status.busy = true → s.host.resetInput = false → s.host.pending = [] ∨ s.free.delay = 0 →
    decode s.hidden.cmdLatch = .ok i → step s = exec i s

/-- R85, R86, R90, R390: outside the block's turn, and while the reset input is asserted, the step is the host's next step;
with nothing to do the block idles. The form of the turn is the model's choice (log entry 5). -/
def Obligations.OtherStepsAreTheHosts : Prop :=
  (∀ (s : State) (e : HostEvent) (rest : List HostEvent), s.host.pending = e :: rest →
      s.status.busy = false ∨ s.host.resetInput = true →
      step s = .next (State.hostStep { s with host := { s.host with pending := rest } } e))
    ∧ (∀ (s : State) (e : HostEvent) (rest : List HostEvent) (d : Nat), s.host.pending = e :: rest →
        s.status.busy = true → s.host.resetInput = false → s.free.delay = d + 1 →
        step s = .next (State.hostStep
          { s with host := { s.host with pending := rest }, free := { s.free with delay := d } } e))
    ∧ (∀ s : State, s.host.pending = [] → s.status.busy = false ∨ s.host.resetInput = true → step s = .next s)

/-- R362: `raise E(info)` writes the error registers, `ERR`, `BUSY` and `INT_PEND[1]`, and nothing else. R351: a command
word that decodes to nothing ends with `IllegalCommand` and the word, and nothing else changes. When the block step of
that word comes is the model's choice (log entry 5). -/
def Obligations.RaiseWritesTheErrorRegisters : Prop :=
  (∀ (s : State) (e : ErrorKind) (info : Nat),
    s.raiseError e info =
      { s with
        errs := { code := e.code, info := BitVec.ofNat 32 (info % 2 ^ 32),
                  sticky := s.errs.sticky ||| (1#12 <<< e.code.toNat) }
        status := { s.status with err := true, busy := false }
        intPend := { s.intPend with err := true } })
    ∧ ∀ (s : State) (w : Word), s.status.busy = true → s.host.resetInput = false →
      s.host.pending = [] ∨ s.free.delay = 0 → s.hidden.cmdLatch = w →
      decode w = .error (.illegalCommand w) →
      step s = .next
        { s with
          errs := { code := 8#4, info := w, sticky := s.errs.sticky ||| 0x100#12 }
          status := { s.status with err := true, busy := false }
          intPend := { s.intPend with err := true } }

/-- R86: a host write to `CMD` while not busy latches the word, sets `BUSY` and clears `DONE`, `ERR`, `NEED_MORE`,
`SKIPPED`, `PASSTHRU`, `ERR_CODE` and `ERR_INFO`; nothing else changes, unwritten memory included. The model counts the
command and draws its delay (log entry 5). -/
def Obligations.CmdWriteAcceptsTheCommand : Prop :=
  ∀ (s : State) (w : Word), s.status.busy = false →
    ∃ delay : Nat,
      s.hostWrite .w32 0x008#12 w =
        { s with
          hidden := { s.hidden with cmdLatch := w }
          status :=
            { s.status with
              busy := true, done := false, err := false, needMore := false, skipped := false, passthru := false }
          errs := { s.errs with code := 0#4, info := 0#32 }
          free := { draws := s.free.draws + 1, delay := delay, epoch := s.free.epoch } }

/-- R24, R361, R362: every command that has been accepted ends, with `BUSY` clear and exactly one of `DONE` and `ERR`
set: `DONE` with no error code and `INT_PEND[0]`, `ERR` with an error code, its sticky bit and `INT_PEND[1]`. -/
def Obligations.EveryCommandEndsWithOneOutcome : Prop :=
  ∀ (i : Instr) (s : State), s.status.busy = true → s.status.done = false → s.status.err = false →
    s.errs.code = 0#4 → s.errs.info = 0#32 →
    ∃ t, exec i s = .next t ∧ t.status.busy = false ∧
      ((t.status.done = true ∧ t.status.err = false ∧ t.errs.code = 0#4 ∧ t.errs.info = 0#32 ∧ t.intPend.done = true)
        ∨ (t.status.done = false ∧ t.status.err = true ∧ t.errs.code ≠ 0#4 ∧ t.errs.sticky.getLsbD t.errs.code.toNat = true
            ∧ t.intPend.err = true))

/-- R410(a): an accepted command ends, or is abandoned by the reset input, within as many steps as its delay allows host
steps, and one more. The delay is the model's free value (log entry 5). -/
def Obligations.AcceptedCommandEndsInBoundedSteps : Prop :=
  ∀ s : State, s.status.busy = true → s.host.resetInput = false →
    ∃ (k : Nat) (t : State), k ≤ s.free.delay + 1 ∧ Sys2Proof.core.run k s = .next t ∧ t.status.busy = false

/-- R356: the interrupt output as a function of the two registers the host reads. -/
def Obligations.InterruptIsPendingAndEnabled : Prop :=
  ∀ s : State,
    s.irq =
      (((s.regValue .intPend).getLsbD 0 && (s.regValue .ctrl).getLsbD 0)
        || ((s.regValue .intPend).getLsbD 1 && (s.regValue .ctrl).getLsbD 1))

/-! ### Errors -/

/-- R352: the states in which a command is legal. -/
def LegalSequence (i : Instr) (s : State) : Prop :=
  match i with
  | .paySer => s.emb.state = .idle ∨ s.emb.state = .done ∨ s.emb.state = .failed
  | .embFrame | .embEnd => s.emb.state = .awaitingFrame ∨ s.emb.state = .embedding ∨ s.emb.state = .draining
  | .extFrame => s.ext.state = .accumulating ∨ s.ext.state = .collecting ∨ s.ext.state = .verifying
  | .extEnd => s.ext.state = .accumulating ∨ s.ext.state = .collecting ∨ s.ext.state = .verifying ∨ s.ext.state = .done
  | .extVerify => s.ext.state = .verifying
  | .nop | .softReset | .abort | .b2b _ | .ecPub | .envSeal | .fdct | .idct | .blkLd | .blkSt | .qimEmb _ | .qimExt
  | .embStart | .extStart => True

/-- R350: the state code that `BadSequence` reports. -/
def SequenceCode (i : Instr) (s : State) : Nat :=
  match i with
  | .extFrame | .extEnd | .extVerify => s.ext.state.code.toNat
  | _ => s.emb.state.code.toNat

/-- R352: a command raises `BadSequence` exactly when it is not legal in the engine's state, and then nothing but the
error registers, `ERR`, `BUSY` and `INT_PEND` changes. -/
def Obligations.BadSequenceExactlyWhenNotLegal : Prop :=
  (∀ (i : Instr) (s : State), ¬LegalSequence i s → exec i s = .next (s.raiseError .badSequence (SequenceCode i s)))
    ∧ ∀ (i : Instr) (s t : State), LegalSequence i s → s.errs.code ≠ 9#4 → exec i s = .next t → t.errs.code ≠ 9#4

/-- R353: `DELTA` before `NCOEF` before the frame size before the block address, each with its sub-code; the private
scalar before the lengths; the remaining sub-codes. A refused command changes nothing but the error registers. -/
def Obligations.BadParameterSubCodes : Prop :=
  (∀ s : State, s.qim.delta = 0#24 →
      (∀ n, exec (.qimEmb n) s = .next (s.raiseError .badParameter 1))
      ∧ exec .qimExt s = .next (s.raiseError .badParameter 1)
      ∧ (LegalSequence .embFrame s → exec .embFrame s = .next (s.raiseError .badParameter 1))
      ∧ (LegalSequence .extFrame s → exec .extFrame s = .next (s.raiseError .badParameter 1)))
    ∧ (∀ s : State, s.qim.delta ≠ 0#24 → s.qim.ncoef = 0#32 →
      (∀ n, exec (.qimEmb n) s = .next (s.raiseError .badParameter 2))
      ∧ exec .qimExt s = .next (s.raiseError .badParameter 2)
      ∧ (LegalSequence .embFrame s → exec .embFrame s = .next (s.raiseError .badParameter 2))
      ∧ (LegalSequence .extFrame s → exec .extFrame s = .next (s.raiseError .badParameter 2)))
    ∧ (∀ s : State, ¬s.FrameReady →
      exec .blkLd s = .next (s.raiseError .badParameter 3)
      ∧ exec .blkSt s = .next (s.raiseError .badParameter 3)
      ∧ (s.QimReady → LegalSequence .embFrame s → exec .embFrame s = .next (s.raiseError .badParameter 3))
      ∧ (s.QimReady → LegalSequence .extFrame s → exec .extFrame s = .next (s.raiseError .badParameter 3)))
    ∧ (∀ s : State, s.FrameReady → ¬s.BlockReady →
      exec .blkLd s = .next (s.raiseError .badParameter 4) ∧ exec .blkSt s = .next (s.raiseError .badParameter 4))
    ∧ (∀ s : State, ¬s.KeyReady →
      exec .ecPub s = .next (s.raiseError .badParameter 5) ∧ exec .envSeal s = .next (s.raiseError .badParameter 5)
      ∧ (LegalSequence .extVerify s → exec .extVerify s = .next (s.raiseError .badParameter 5)))
    ∧ (∀ s : State, s.emb.payBits.toNat = 0 ∨ 8 * s.caps.pay.toNat < s.emb.payBits.toNat →
      exec .embStart s = .next (s.raiseError .badParameter 6))
    ∧ (∀ (s : State) (lenient : Bool), s.ext.accBits.toNat < s.range.start.toNat + s.range.len.toNat →
      exec (.b2b lenient) s = .next (s.raiseError .badParameter 7))
    ∧ (∀ s : State, s.KeyReady → s.lenAt 1 ≠ 16 ∨ s.lenAt 3 ≠ 12 →
      exec .envSeal s = .next (s.raiseError .badParameter 8))

/-- R364, the column of validation errors: which errors with which information words a command may be refused with. -/
def ValidationError (i : Instr) (s : State) (e : ErrorKind) (info : Nat) : Prop :=
  match i with
  | .b2b lenient =>
    (e = .badParameter ∧ info = 7)
      ∨ (lenient = false ∧ e = .malformedLength ∧ info = s.range.len.toNat % 8 ∧ info ≠ 0)
      ∨ (e = .bufferCapacity ∧ info = 6)
  | .ecPub => e = .badParameter ∧ info = 5
  | .envSeal =>
    (e = .badParameter ∧ (info = 5 ∨ info = 8)) ∨ (e = .bufferCapacity ∧ (info = 6 ∨ info = 5))
      ∨ (e = .invalidPoint ∧ info = 1)
  | .blkLd | .blkSt => e = .badParameter ∧ (info = 3 ∨ info = 4)
  | .qimEmb _ | .qimExt => e = .badParameter ∧ (info = 1 ∨ info = 2)
  | .paySer =>
    (e = .badSequence ∧ info = s.emb.state.code.toNat)
      ∨ (e = .valueOutOfRange ∧ info ∈ [0, 1, 2, 4, 6, 8, 10, 12])
      ∨ (e = .bufferCapacity ∧ (info = 5 ∨ info = 2))
  | .embStart => e = .badParameter ∧ info = 6
  | .embFrame =>
    (e = .badSequence ∧ info = s.emb.state.code.toNat) ∨ (e = .badParameter ∧ (info = 1 ∨ info = 2 ∨ info = 3))
  | .embEnd => e = .badSequence ∧ info = s.emb.state.code.toNat
  | .extFrame =>
    (e = .badSequence ∧ info = s.ext.state.code.toNat) ∨ (e = .badParameter ∧ (info = 1 ∨ info = 2 ∨ info = 3))
  | .extEnd => e = .badSequence ∧ info = s.ext.state.code.toNat
  | .extVerify =>
    (e = .badSequence ∧ info = s.ext.state.code.toNat) ∨ (e = .badParameter ∧ info = 5)
      ∨ (e = .bufferCapacity ∧ info = 6)
  | .nop | .softReset | .abort | .fdct | .idct | .extStart => False

/-- R364: a command that ends with an error was refused, with nothing changed but the error registers, or raised one of
the six operation errors, with only what the table lists changed besides (`SS` and `KEY` are 0 after `EXT_VERIFY`). -/
def Obligations.ErrorsChangeOnlyWhatTheTableLists : Prop :=
  ∀ (i : Instr) (s t : State), s.status.err = false → exec i s = .next t → t.status.err = true →
    (∃ e info, ValidationError i s e info ∧ t = s.raiseError e info)
      ∨ (i = .embEnd ∧ t = State.raiseError { s with emb := { s.emb with state := .failed } } .insufficientCapacity
          s.emb.cursor.toNat)
      ∨ (i = .extFrame ∧ t = State.raiseError { s with ext := { s.ext with state := .failed } } .bufferCapacity 3)
      ∨ (i = .extEnd ∧ t = State.raiseError { s with ext := { s.ext with state := .failed } } .truncatedStream
          s.ext.prsFidx.toNat)
      ∨ (i = .extVerify ∧ t = State.raiseError { s with ext := { s.ext with state := .failed } } .invalidPoint 0)
      ∨ (i = .extVerify ∧ t = State.raiseError
          { s with
            ext := { s.ext with state := .failed }, ptLen := 0#32
            hidden := { s.hidden with ss := 0#256, key := 0#256 } } .authenticationFailed 0)
      ∨ (i = .extVerify ∧ s.ctrl.hashFatal = true ∧ t = State.raiseError
          { s with
            ext := { s.ext with state := .failed }, ptLen := 0#32
            status := { s.status with integrity := true }
            hidden := { s.hidden with ss := 0#256, key := 0#256 } } .integrityMismatch 0)

/-! ### The register interface -/

/-- R75, R88: an access that is not 32 bits wide, or not at a multiple of 4, is not performed: a read returns 0, a write
is dropped, and both set `HOSTERR`; while `BUSY = 1` every write is dropped in the same way. -/
def Obligations.AccessesNotPerformedSetHosterr : Prop :=
  (∀ (s : State) (width : Width) (offset : BitVec 12) (w : Word), width ≠ .w32 ∨ offset.toNat % 4 ≠ 0 →
      s.hostRead width offset = (0#32, { s with status := { s.status with hosterr := true } })
        ∧ s.hostWrite width offset w = { s with status := { s.status with hosterr := true } })
    ∧ ∀ (s : State) (width : Width) (offset : BitVec 12) (w : Word), s.status.busy = true →
      s.hostWrite width offset w = { s with status := { s.status with hosterr := true } }

/-- The contents of the registers below 0x100 that a host can read, field by field (R20 to R53); an offset that is not
listed reads 0: `CMD`, `PRIV` and the reserved registers (R23, R29, R53). `STATUS` has its ten flags in bits 0 to 9 (R24),
`EMB_STATE` and `EXT_STATE` hold the codes of R36 and R40. -/
def scalarContents (s : State) : List (Nat × Word) :=
  [ (0x000, 0x44435438#32), (0x004, 0x00000001#32),
    (0x00C, BitVec.ofNat 32
      (s.status.busy.toNat + 2 * s.status.done.toNat + 4 * s.status.err.toNat + 8 * s.status.needMore.toNat
        + 16 * s.status.skipped.toNat + 32 * s.status.passthru.toNat + 64 * s.status.integrity.toNat
        + 128 * s.status.sat.toNat + 256 * s.status.hosterr.toNat + 512 * s.status.refValid.toNat)),
    (0x010, BitVec.ofNat 32 s.errs.code.toNat), (0x014, s.errs.info), (0x018, BitVec.ofNat 32 s.errs.sticky.toNat),
    (0x01C, BitVec.ofNat 32 (s.ctrl.ieDone.toNat + 2 * s.ctrl.ieErr.toNat + 4 * s.ctrl.hashFatal.toNat)),
    (0x020, BitVec.ofNat 32 (s.intPend.done.toNat + 2 * s.intPend.err.toNat)),
    (0x028, s.caps.frame), (0x02C, s.caps.pay), (0x030, s.caps.accBits), (0x034, s.caps.ct), (0x038, s.caps.pt),
    (0x040, BitVec.ofNat 32 s.qim.delta.toNat), (0x044, s.qim.ncoef),
    (0x048, BitVec.ofNat 32 s.frm.width.toNat), (0x04C, BitVec.ofNat 32 s.frm.height.toNat),
    (0x050, BitVec.ofNat 32 s.frm.blkRow.toNat), (0x054, BitVec.ofNat 32 s.frm.blkCol.toNat),
    (0x058, s.qim.qbitsLo), (0x05C, BitVec.ofNat 32 s.qim.qbitsHi.toNat), (0x060, BitVec.ofNat 32 s.qim.qcnt.toNat),
    (0x070, match s.emb.state with
      | .idle => 0#32 | .awaitingFrame => 1#32 | .embedding => 2#32 | .draining => 3#32 | .done => 4#32 | .failed => 7#32),
    (0x074, s.emb.cursor), (0x078, s.emb.frames), (0x07C, s.emb.payBits),
    (0x080, match s.ext.state with
      | .idle => 0#32 | .accumulating => 1#32 | .headerParsed => 2#32 | .collecting => 3#32 | .verifying => 4#32
      | .done => 5#32 | .failed => 7#32),
    (0x084, s.ext.accBits), (0x088, s.ext.prsCursor), (0x08C, BitVec.ofNat 32 s.ext.prsFidx.toNat),
    (0x090, s.ext.hdrCursor), (0x094, s.ext.frames), (0x098, s.frmBits), (0x0A0, s.hdr.secW), (0x0A4, s.hdr.secH),
    (0x0A8, s.hdr.len[0]), (0x0AC, s.hdr.len[1]), (0x0B0, s.hdr.len[2]), (0x0B4, s.hdr.len[3]), (0x0B8, s.hdr.len[4]),
    (0x0BC, s.hdr.ctLenLo), (0x0C0, s.hdr.ctLenHi), (0x0C4, s.ptLen), (0x0C8, s.range.start), (0x0CC, s.range.len),
    (0x0D0, BitVec.ofNat 32 s.port.sel.toNat), (0x0D4, s.port.addr) ]

/-- The contents of every register but `MEM_DATA`: `PIX` and `COEF` at 0x100 and 0x200 (R50, R51), the others above. -/
def registerContents (s : State) (offset : Nat) : Word :=
  if 0x100 ≤ offset ∧ offset < 0x200 then BitVec.ofNat 32 (s.pix[(offset - 0x100) / 4]?.getD 0#8).toNat
  else if 0x200 ≤ offset ∧ offset < 0x300 then s.coef[(offset - 0x200) / 4]?.getD 0#32
  else ((scalarContents s).lookup offset).getD 0#32

/-- R87: while `BUSY = 1` the identification, status, error, control, interrupt and capacity registers read their
contents, and every other register reads 0 and sets `HOSTERR`; `MEM_ADDR` does not move. While `BUSY = 0` every register
but `MEM_DATA` reads its contents, and the read changes nothing. The contents are those of R20 to R53, each register's at
its own offset: `STATUS` has `BUSY` to `REF_VALID` in bits 0 to 9 and 0 above (R24), `ERR_CODE`, `ERR_INFO` and
`ERR_STICKY` are the error registers (R25), and so on. -/
def Obligations.BusyReadsOnlyTheStatusGroup : Prop :=
  ∀ (s : State) (offset : BitVec 12), offset.toNat % 4 = 0 →
    (s.status.busy = true →
      s.hostRead .w32 offset =
        if offset.toNat ∈ [0x000, 0x004, 0x00C, 0x010, 0x014, 0x018, 0x01C, 0x020, 0x028, 0x02C, 0x030, 0x034, 0x038] then
          (registerContents s offset.toNat, s)
        else (0#32, { s with status := { s.status with hosterr := true } }))
      ∧ (s.status.busy = false → offset ≠ 0x0D8#12 → s.hostRead .w32 offset = (registerContents s offset.toNat, s))

/-- R52: a read through the memory port of any memory, `REF`, `ACC` and a locked `PAY` included, gives the addressed byte
with zeros above it, and moves `MEM_ADDR` by one; nothing else changes. A byte written is the byte the port reads back at
that address; the write moves `MEM_ADDR` by one, and no other byte of any memory changes. An access out of range, to no
memory, or a write to a memory not writable now, sets `HOSTERR` and moves `MEM_ADDR`; the read returns 0 and no byte is
stored. R70: 0 to 7 in `MEM_SEL` select `FRAME`, `REF`, `PAY`, `ACC`, `FLD`, `CT`, `PT` and none, and the sizes are those of
the table, that of `ACC` the least number of bytes that holds `ACC_CAP_BITS` bits. -/
def Obligations.MemoryPortReadsAndWritesBytes : Prop :=
  (∀ sel : BitVec 3,
      selectedSpace sel =
        [some .frame, some .ref, some .pay, some .acc, some .fld, some .ct, some .pt, none].getD sel.toNat none)
    ∧ (∀ c : Caps,
      memSize c .frame = c.frame.toNat ∧ memSize c .ref = c.frame.toNat ∧ memSize c .pay = c.pay.toNat
        ∧ (c.accBits.toNat ≤ 8 * memSize c .acc ∧ 8 * memSize c .acc < c.accBits.toNat + 8)
        ∧ memSize c .fld = 1536 ∧ memSize c .ct = c.ct.toNat ∧ memSize c .pt = c.pt.toNat)
    ∧ (∀ (s : State) (sp : Space), s.status.busy = false → selectedSpace s.port.sel = some sp →
      s.port.addr.toNat < memSize s.caps sp →
      s.hostRead .w32 0x0D8#12 =
        ((s.readByte sp s.port.addr.toNat).setWidth 32, { s with port := { s.port with addr := s.port.addr + 1#32 } }))
    ∧ (∀ (s : State) (sp : Space) (w : Word), s.status.busy = false → selectedSpace s.port.sel = some sp →
      s.port.addr.toNat < memSize s.caps sp →
      sp = .frame ∨ sp = .fld ∨ sp = .ct ∨ sp = .pt ∨ (sp = .pay ∧ s.emb.state.inProgress = false) →
      (s.hostWrite .w32 0x0D8#12 w).readByte sp s.port.addr.toNat = w.setWidth 8
        ∧ (∀ sp' a, ¬(sp' = sp ∧ a = s.port.addr.toNat) →
            (s.hostWrite .w32 0x0D8#12 w).readByte sp' a = s.readByte sp' a)
        ∧ s.hostWrite .w32 0x0D8#12 w =
            { s with
              port := { s.port with addr := s.port.addr + 1#32 }, mems := (s.hostWrite .w32 0x0D8#12 w).mems }
        ∧ ((s.hostWrite .w32 0x0D8#12 w).hostWrite .w32 0x0D4#12 s.port.addr).hostRead .w32 0x0D8#12
            = ((w.setWidth 8).setWidth 32, s.hostWrite .w32 0x0D8#12 w))
    ∧ ∀ (s : State) (w : Word), s.status.busy = false →
      ((∀ sp, selectedSpace s.port.sel = some sp → memSize s.caps sp ≤ s.port.addr.toNat) →
          s.hostRead .w32 0x0D8#12 =
            (0#32, { s with
              port := { s.port with addr := s.port.addr + 1#32 }, status := { s.status with hosterr := true } }))
        ∧ ((∀ sp, selectedSpace s.port.sel = some sp →
              memSize s.caps sp ≤ s.port.addr.toNat ∨ sp = .ref ∨ sp = .acc ∨ (sp = .pay ∧ s.emb.state.inProgress = true)) →
            s.hostWrite .w32 0x0D8#12 w =
              { s with
                port := { s.port with addr := s.port.addr + 1#32 }, status := { s.status with hosterr := true } })

/-- The read-write registers of R20 with the number of bits each holds. -/
def readWriteRegisters : List (Nat × Nat) :=
  [(0x01C, 3), (0x040, 24), (0x044, 32), (0x048, 16), (0x04C, 16), (0x050, 13), (0x054, 13), (0x058, 32), (0x05C, 31),
    (0x07C, 32), (0x0A0, 32), (0x0A4, 32), (0x0A8, 32), (0x0AC, 32), (0x0B0, 32), (0x0B4, 32), (0x0B8, 32), (0x0BC, 32), (0x0C0, 32),
    (0x0C4, 32), (0x0C8, 32), (0x0CC, 32), (0x0D0, 3), (0x0D4, 32)]
    ++ (List.range 64).map (fun k => (0x100 + 4 * k, 8)) ++ (List.range 64).map (fun k => (0x200 + 4 * k, 32))

/-- The offsets of the read-only registers and of the reserved registers (R20, R29). -/
def ReadOnlyOrReserved (offset : Nat) : Prop :=
  offset ∈ [0x000, 0x004, 0x010, 0x014, 0x024, 0x028, 0x02C, 0x030, 0x034, 0x038, 0x03C, 0x060, 0x064, 0x068, 0x06C, 0x070,
    0x074, 0x078, 0x080, 0x084, 0x088, 0x08C, 0x090, 0x094, 0x098, 0x09C, 0x0DC] ∨ 0x300 ≤ offset

/-- What a host write does by the access code of R20, while not busy. A read-write register, `PAY_BITS` among them unless
an embedding operation is in progress (R39), reads back what was written, reduced to its field, and every other
read-write register reads as before. `PRIV[i]` stores the word (R53). A read-only or reserved register ignores the write
(R29, R89). A 1 written to bit 7 or 8 of `STATUS`, to a bit of `ERR_STICKY` or of `INT_PEND` clears that bit, and nothing
else changes (R24, R25, R28). -/
def Obligations.ReadWriteRegistersReadBack : Prop :=
  (∀ (s : State) (r r' : Nat × Nat) (w : Word), s.status.busy = false → r ∈ readWriteRegisters → r' ∈ readWriteRegisters →
      (r.1 = 0x07C → s.emb.state.inProgress = false) →
      ((s.hostWrite .w32 (BitVec.ofNat 12 r.1) w).hostRead .w32 (BitVec.ofNat 12 r'.1)).1 =
        if r' = r then BitVec.ofNat 32 (w.toNat % 2 ^ r.2) else (s.hostRead .w32 (BitVec.ofNat 12 r'.1)).1)
    ∧ (∀ (s : State) (i : Fin 8) (w : Word), s.status.busy = false →
        s.hostWrite .w32 (BitVec.ofNat 12 (0x0E0 + 4 * i.val)) w = { s with priv := s.priv.set i.val w })
    ∧ (∀ (s : State) (offset : BitVec 12) (w : Word), s.status.busy = false → offset.toNat % 4 = 0 →
        ReadOnlyOrReserved offset.toNat → s.hostWrite .w32 offset w = s)
    ∧ ∀ (s : State) (w : Word), s.status.busy = false →
        s.hostWrite .w32 0x00C#12 w =
            { s with
              status :=
                { s.status with
                  sat := s.status.sat && !w.getLsbD 7, hosterr := s.status.hosterr && !w.getLsbD 8 } }
          ∧ (∃ sticky : BitVec 12,
              s.hostWrite .w32 0x018#12 w = { s with errs := { s.errs with sticky := sticky } }
                ∧ ∀ c < 12, sticky.getLsbD c = (s.errs.sticky.getLsbD c && !w.getLsbD c))
          ∧ s.hostWrite .w32 0x020#12 w =
            { s with intPend := { done := s.intPend.done && !w.getLsbD 0, err := s.intPend.err && !w.getLsbD 1 } }

/-- R89: while `BUSY = 0` exactly these accesses set `HOSTERR`. -/
def Obligations.HosterrWhileIdleExactly : Prop :=
  ∀ (s : State) (width : Width) (offset : BitVec 12) (w : Word), s.status.busy = false → s.status.hosterr = false →
    ((s.hostRead width offset).2.status.hosterr = true ↔
        width ≠ .w32 ∨ offset.toNat % 4 ≠ 0 ∨ (offset = 0x0D8#12 ∧ s.portTarget = none))
      ∧ ((s.hostWrite width offset w).status.hosterr = true ↔
        width ≠ .w32 ∨ offset.toNat % 4 ≠ 0
          ∨ (offset = 0x0D8#12 ∧ ∀ sp, s.portTarget = some sp → s.hostWritable sp = false)
          ∨ (offset = 0x07C#12 ∧ s.emb.state.inProgress = true))

/-- R39, R52: while an embedding operation is in progress no host access can change `PAY_BITS` or a byte of `PAY`. -/
def Obligations.PayloadIsLockedDuringEmbedding : Prop :=
  ∀ (s : State) (e : HostEvent), s.emb.state.inProgress = true → (∀ a, e ≠ .resetInput a) →
    (s.hostStep e).emb.payBits = s.emb.payBits ∧ ∀ a < memSize s.caps .pay, (s.hostStep e).readByte .pay a = s.readByte .pay a

/-- R53, R173: no read gives the host anything of `PRIV`: two states that differ in `PRIV` only answer every read alike
and still differ in `PRIV` only. -/
def Obligations.HostReadsShowNothingOfPriv : Prop :=
  ∀ (s : State) (p : Vector Word 8) (width : Width) (offset : BitVec 12),
    ({ s with priv := p } : State).hostRead width offset =
      ((s.hostRead width offset).1, { (s.hostRead width offset).2 with priv := p })

/-! ### Reset -/

/-- R61: when the reset input is asserted, and when it is released, every register holds its reset value, as the register
interface shows it; the private scalar and the hidden registers are 0, and the interrupt output is low. -/
def Obligations.HardwareResetRegisterValues : Prop :=
  ∀ (s : State) (asserted : Bool) (offset : BitVec 12), asserted = true ∨ s.host.resetInput = true →
    offset.toNat % 4 = 0 → offset ≠ 0x0D8#12 →
    ((s.hostStep (.resetInput asserted)).hostRead .w32 offset).1 =
        (if offset = 0x000#12 then 0x44435438#32
          else if offset = 0x004#12 then 0x00000001#32
          else if offset = 0x028#12 then s.caps.frame
          else if offset = 0x02C#12 then s.caps.pay
          else if offset = 0x030#12 then s.caps.accBits
          else if offset = 0x034#12 then s.caps.ct
          else if offset = 0x038#12 then s.caps.pt
          else 0#32)
      ∧ (s.hostStep (.resetInput asserted)).privScalar = 0
      ∧ (s.hostStep (.resetInput asserted)).hidden = { cmdLatch := 0#32, ss := 0#256, key := 0#256 }
      ∧ (s.hostStep (.resetInput asserted)).irq = false

/-- R341: `SOFT_RESET` returns every register to its reset value, keeps every byte of the memories, and ends with `DONE`
and `INT_PEND[0]` set: the state after it is that of a hardware reset but for those two and the memories. `CMD_LATCH`,
which is no register of R20, keeps its word: the model's reading (log entry 10). -/
def Obligations.SoftResetKeepsTheMemories : Prop :=
  ∀ s : State,
    exec .softReset s = .next
      { State.resetWith s.caps with
        status := { (State.resetWith s.caps).status with done := true }
        intPend := { done := true, err := false }
        mems := s.mems, host := s.host, free := s.free
        hidden := { cmdLatch := s.hidden.cmdLatch, ss := 0#256, key := 0#256 } }

/-- The reset state satisfies every invariant below (the capacities are the model's choice, log entry 1). -/
def Obligations.ResetSatisfiesTheInvariants : Prop :=
  State.reset.MemoryForm ∧ State.reset.StatusForm ∧ State.reset.SecretsCleared ∧ State.reset.EmbedForm
    ∧ State.reset.ExtractForm ∧ State.reset.ResetForm

/-! ### Invariants that every step keeps -/

/-- The memories keep their canonical form, which is the model's (log entry 3), with addresses inside them only (R70), and
no step changes the capacity registers (R58). -/
def Obligations.StepKeepsMemoryForm : Prop :=
  ∀ s t : State, s.MemoryForm → step s = .next t → t.MemoryForm ∧ t.caps = s.caps

/-- R24, R25: what `STATUS` and the error registers say together holds after every step. -/
def Obligations.StepKeepsStatusForm : Prop := ∀ s t : State, s.StatusForm → step s = .next t → t.StatusForm

/-- R55: `SS` and `KEY` are 0 between commands, on every path. -/
def Obligations.StepKeepsSecretsCleared : Prop := ∀ s t : State, s.SecretsCleared → step s = .next t → t.SecretsCleared

/-- R287: the invariant of the embedding engine while an operation is in progress, without the clauses of log entry 9. -/
def Obligations.StepKeepsEmbedForm : Prop := ∀ s t : State, s.EmbedForm → step s = .next t → t.EmbedForm

/-- R313: the invariant of the extraction engine, without the clauses of log entry 9. -/
def Obligations.StepKeepsExtractForm : Prop := ∀ s t : State, s.ExtractForm → step s = .next t → t.ExtractForm

/-! ### Rules over all commands -/

/-- R286: the transition table of `EMB_STATE`. -/
def Obligations.EmbeddingStateTransitions : Prop :=
  ∀ (i : Instr) (s t : State), exec i s = .next t →
    t.emb.state =
      match i with
      | .softReset | .abort => .idle
      | .embStart =>
        if s.emb.payBits.toNat = 0 ∨ 8 * s.caps.pay.toNat < s.emb.payBits.toNat then s.emb.state else .awaitingFrame
      | .embFrame =>
        if s.emb.state.inProgress = true ∧ s.QimReady ∧ s.FrameReady then
          if s.emb.state = .draining ∨ t.emb.cursor = s.emb.payBits then .draining else .embedding
        else s.emb.state
      | .embEnd =>
        match s.emb.state with
        | .awaitingFrame | .embedding => .failed
        | .draining => .done
        | .idle => .idle
        | .done => .done
        | .failed => .failed
      | .nop | .b2b _ | .ecPub | .envSeal | .fdct | .idct | .blkLd | .blkSt | .qimEmb _ | .qimExt | .paySer
      | .extStart | .extFrame | .extEnd | .extVerify => s.emb.state

/-- R312: the transition table of `EXT_STATE`, from the states the host can observe. -/
def Obligations.ExtractionStateTransitions : Prop :=
  ∀ (i : Instr) (s t : State), s.ExtractForm → exec i s = .next t →
    match i with
    | .softReset | .abort => t.ext.state = .idle
    | .extStart => t.ext.state = .accumulating
    | .extFrame =>
      if (s.ext.state = .accumulating ∨ s.ext.state = .collecting) ∧ s.QimReady ∧ s.FrameReady then
        if s.caps.accBits.toNat < s.ext.accBits.toNat + s.capacity then t.ext.state = .failed
        else
          (t.ext.state = .accumulating ∧ t.ext.prsFidx.toNat ≤ 12 ∧ s.ext.state = .accumulating)
            ∨ (t.ext.state = .collecting ∧ t.ext.prsFidx = 13#4) ∨ (t.ext.state = .verifying ∧ t.ext.prsFidx = 14#4)
      else t.ext.state = s.ext.state
    | .extEnd =>
      t.ext.state = if s.ext.state = .accumulating ∨ s.ext.state = .collecting then .failed else s.ext.state
    | .extVerify =>
      if s.ext.state = .verifying ∧ s.KeyReady ∧ s.ctLen ≤ s.caps.pt.toNat then
        t.ext.state = .done ∨ (t.ext.state = .failed ∧ t.errs.code ∈ [3#4, 4#4, 5#4])
      else t.ext.state = s.ext.state
    | .nop | .b2b _ | .ecPub | .envSeal | .fdct | .idct | .blkLd | .blkSt | .qimEmb _ | .qimExt | .paySer
    | .embStart | .embFrame | .embEnd => t.ext.state = s.ext.state

/-- R70, the column "written by commands". -/
def WritesSpace (i : Instr) (sp : Space) : Prop :=
  match i with
  | .blkSt => sp = .frame
  | .embFrame => sp = .frame ∨ sp = .ref
  | .paySer => sp = .pay
  | .extFrame => sp = .acc ∨ sp = .fld
  | .ecPub => sp = .fld
  | .envSeal => sp = .fld ∨ sp = .ct
  | .extVerify | .b2b _ => sp = .pt
  | .nop | .softReset | .abort | .fdct | .idct | .blkLd | .qimEmb _ | .qimExt | .embStart | .embEnd | .extStart
  | .extEnd => False

/-- R70: no command changes a byte of a memory outside the column "written by commands". R106 and, for `PRIV`, the memory
port and `BLK_ROW`, `BLK_COL`, R53, R402 and R33: no command but `SOFT_RESET` writes `PRIV`, `CTRL`, the memory port,
`FRM_W`, `FRM_H`, `BLK_ROW`, `BLK_COL`, `DELTA`, `NCOEF`, `BR_START` or `BR_LEN`. -/
def Obligations.CommandsLeaveTheRest : Prop :=
  (∀ (i : Instr) (s t : State) (sp : Space) (a : Nat), ¬WritesSpace i sp → exec i s = .next t →
      t.readByte sp a = s.readByte sp a)
    ∧ ∀ (i : Instr) (s t : State), i ≠ .softReset → exec i s = .next t →
      t.priv = s.priv ∧ t.ctrl = s.ctrl ∧ t.port = s.port ∧ t.frm = s.frm ∧ t.qim.delta = s.qim.delta
        ∧ t.qim.ncoef = s.qim.ncoef ∧ t.range = s.range

/-! ### Control -/

/-- R340, R342: `NOP` and `ABORT` complete in every state; `ABORT` changes the two engine states and nothing else. -/
def Obligations.NopAndAbortComplete : Prop :=
  ∀ s : State,
    exec .nop s = .next
        { s with status := { s.status with done := true, busy := false }, intPend := { s.intPend with done := true } }
      ∧ exec .abort s = .next
        { s with
          emb := { s.emb with state := .idle }, ext := { s.ext with state := .idle }
          status := { s.status with done := true, busy := false }, intPend := { s.intPend with done := true } }

/-! ### Unit U1: the bit codec -/

/-- R131, R133: bytes to bits and back is the identity in both modes; bits to bytes and back is the identity in strict
mode and the whole-byte prefix in lenient mode; strict mode fails exactly on a length that is no multiple of 8;
fixed-width integers and bit strings invert each other. -/
def Obligations.BitConversionsInvert : Prop :=
  (∀ (lenient : Bool) (bs : List Byte), bitsToBytes lenient (bytesToBits bs) = .ok bs)
    ∧ (∀ (s : List Bool), s.length % 8 = 0 → ∃ bs, bitsToBytes false s = .ok bs ∧ bytesToBits bs = s)
    ∧ (∀ (s : List Bool), s.length % 8 ≠ 0 → bitsToBytes false s = .error (s.length % 8))
    ∧ (∀ (s : List Bool), ∃ bs, bitsToBytes true s = .ok bs ∧ bytesToBits bs = s.take (8 * (s.length / 8)))
    ∧ (∀ v w : Nat, v < 2 ^ w → (uintToBits v w).length = w ∧ bitsToUint (uintToBits v w) = v)
    ∧ ∀ s : List Bool, uintToBits (bitsToUint s) s.length = s

/-- R134: `B2B` completes when the range lies inside the accumulator, has whole bytes in strict mode, and fits `PT`: `PT`
holds the bytes of the accumulator's substring, `PT_LEN` their number, and nothing else changes. -/
def Obligations.B2bConvertsTheRange : Prop :=
  ∀ (s : State) (lenient : Bool), s.range.start.toNat + s.range.len.toNat ≤ s.ext.accBits.toNat →
    lenient = true ∨ s.range.len.toNat % 8 = 0 → s.range.len.toNat / 8 ≤ s.caps.pt.toNat →
    ∃ t, exec (.b2b lenient) s = .next t
      ∧ bitsToBytes lenient ((List.range s.range.len.toNat).map fun i => s.memBit .acc (s.range.start.toNat + i))
          = .ok (t.readBytes .pt 0 (s.range.len.toNat / 8))
      ∧ (∀ sp a, ¬(sp = .pt ∧ a < s.range.len.toNat / 8) → t.readByte sp a = s.readByte sp a)
      ∧ t = { s with
          ptLen := BitVec.ofNat 32 (s.range.len.toNat / 8), mems := t.mems
          status := { s.status with done := true, busy := false }, intPend := { s.intPend with done := true } }

/-! ### Unit U2: P-256 and the envelope -/

/-- R155, R151: `fpow` is the power modulo `p`. `decompress` of a string of 33 bytes with prefix 02 or 03 and `x` below `p`
takes `y = rhs^((p+1)/4)` for `rhs = x^3 + a*x + b`: when `y` is a square root of `rhs` it answers the point with `y` or
`p - y`, whichever has the parity of the prefix; when it is none, and for every other length, every other prefix and
every `x` not below `p`, it answers `Invalid`. A point it answers is on the curve. -/
def Obligations.DecompressAnswersACurvePoint : Prop :=
  (∀ x e : Nat, fpow x e = x ^ e % P256.p)
    ∧ (∀ bs : List Byte, bs.length = 33 → bs.headD 0#8 = 0x02#8 ∨ bs.headD 0#8 = 0x03#8 → beInt bs.tail < P256.p →
      let x := beInt bs.tail
      let rhs := (x ^ 3 + P256.a * x + P256.b) % P256.p
      let y := fpow rhs ((P256.p + 1) / 4)
      (y ^ 2 % P256.p = rhs →
          decompress bs = some (.affine x (if y % 2 = (bs.headD 0#8).toNat % 2 then y else P256.p - y)))
        ∧ (y ^ 2 % P256.p ≠ rhs → decompress bs = none))
    ∧ (∀ bs : List Byte, bs.length ≠ 33 ∨ (bs.headD 0#8 ≠ 0x02#8 ∧ bs.headD 0#8 ≠ 0x03#8) ∨ P256.p ≤ beInt bs.tail →
      decompress bs = none)
    ∧ ∀ (bs : List Byte) (P : Point), decompress bs = some P →
      ∃ y, P = .affine (beInt bs.tail) y ∧ y % 2 = (bs.headD 0#8).toNat % 2
        ∧ y ^ 2 % P256.p = (beInt bs.tail ^ 3 + P256.a * beInt bs.tail + P256.b) % P256.p

/-- R170: `EC_PUB` completes with a private scalar in range, in every engine state: `FLD.PUBKEY[0 .. 33)` is the
compressed public key and `LEN_PUBKEY` is 33; nothing else changes. R154: the compressed form of an affine point is the
byte 02 or 03 by the parity of `y`, and the 32 bytes of `x`, most significant byte first. -/
def Obligations.EcPubStoresThePublicKey : Prop :=
  (∀ s : State, s.KeyReady →
    ∃ t, exec .ecPub s = .next t
      ∧ t.readBytes .fld 0x000 33 = compress (pmul s.privScalar P256.G)
      ∧ (∀ sp a, ¬(sp = .fld ∧ a < 33) → t.readByte sp a = s.readByte sp a)
      ∧ t = { s with
          hdr := { s.hdr with len := s.hdr.len.set 0 33#32 }, mems := t.mems
          status := { s.status with done := true, busy := false }, intPend := { s.intPend with done := true } })
    ∧ ∀ x y : Nat,
      compress (.affine x y) =
        (if y % 2 = 0 then 0x02#8 else 0x03#8) :: (List.range 32).map fun i => BitVec.ofNat 8 (x / 256 ^ (31 - i))

/-- R171: `ENV_SEAL` completes when its checks pass: the public key, the ciphertext, the tag and the hash in their
places, the five lengths it writes, `SS` and `KEY` 0, and nothing else changed. -/
def Obligations.EnvSealBuildsTheEnvelope : Prop :=
  ∀ (s : State) (Q : Point), s.KeyReady → s.lenAt 1 = 16 → s.lenAt 3 = 12 → s.ptLen.toNat ≤ s.caps.pt.toNat →
    s.ptLen.toNat ≤ s.caps.ct.toNat → decompress (s.readBytes .fld 0x500 33) = some Q →
    let pt := s.readBytes .pt 0 s.ptLen.toNat
    let key := hkdf Config.crypto (ecdh s.privScalar Q) (s.readBytes .fld 0x100 16)
    let sealed := aeadEnc Config.crypto pt key s.nonce
    ∃ t, exec .envSeal s = .next t
      ∧ t.readBytes .fld 0x000 33 = compress (pmul s.privScalar P256.G)
      ∧ t.readBytes .ct 0 s.ptLen.toNat = sealed.1
      ∧ t.readBytes .fld 0x400 16 = beBytes sealed.2.toNat 16
      ∧ t.readBytes .fld 0x200 32 = beBytes (Config.crypto.sha3 pt).toNat 32
      ∧ (∀ sp a, ¬(sp = .fld ∧ (a < 33 ∨ (0x200 ≤ a ∧ a < 0x220) ∨ (0x400 ≤ a ∧ a < 0x410)))
          → ¬(sp = .ct ∧ a < s.ptLen.toNat) → t.readByte sp a = s.readByte sp a)
      ∧ t = { s with
          hdr := { s.hdr with
            len := ((s.hdr.len.set 0 33#32).set 4 16#32).set 2 32#32, ctLenLo := s.ptLen, ctLenHi := 0#32 }
          mems := t.mems, hidden := { s.hidden with ss := 0#256, key := 0#256 }
          status := { s.status with done := true, busy := false }, intPend := { s.intPend with done := true } }

/-- R134, R171, R308: the refusals of `B2B`, `ENV_SEAL` and `EXT_VERIFY` that follow the checks of sequence, key and
lengths, in order: an incomplete byte in strict mode, what does not fit `PT` or `CT`, a peer key that is no point. -/
def Obligations.LengthAndCapacityRefusals : Prop :=
  (∀ (s : State), s.range.start.toNat + s.range.len.toNat ≤ s.ext.accBits.toNat →
      (s.range.len.toNat % 8 ≠ 0 →
          exec (.b2b false) s = .next (s.raiseError .malformedLength (s.range.len.toNat % 8)))
        ∧ (∀ lenient, lenient = true ∨ s.range.len.toNat % 8 = 0 → s.caps.pt.toNat < s.range.len.toNat / 8 →
            exec (.b2b lenient) s = .next (s.raiseError .bufferCapacity 6)))
    ∧ (∀ s : State, s.KeyReady → s.lenAt 1 = 16 → s.lenAt 3 = 12 →
      (s.caps.pt.toNat < s.ptLen.toNat → exec .envSeal s = .next (s.raiseError .bufferCapacity 6))
        ∧ (s.ptLen.toNat ≤ s.caps.pt.toNat → s.caps.ct.toNat < s.ptLen.toNat →
            exec .envSeal s = .next (s.raiseError .bufferCapacity 5))
        ∧ (s.ptLen.toNat ≤ s.caps.pt.toNat → s.ptLen.toNat ≤ s.caps.ct.toNat →
            decompress (s.readBytes .fld 0x500 33) = none → exec .envSeal s = .next (s.raiseError .invalidPoint 1)))
    ∧ ∀ s : State, s.ext.state = .verifying → s.KeyReady → s.caps.pt.toNat < s.ctLen →
      exec .extVerify s = .next (s.raiseError .bufferCapacity 6)

/-- R174: with external functions that satisfy the law of R162, a receiver in Verifying whose header fields and
ciphertext are those `ENV_SEAL` made, and whose ECDH secret is the sender's, ends in Done with the sender's plaintext in
`PT` and no integrity report. -/
def Obligations.EnvelopeRoundTrip : Prop :=
  ∀ (X : Crypto) (s t r : State) (Q E : Point), AeadRoundTrip X → s.KeyReady → s.lenAt 1 = 16 → s.lenAt 3 = 12 →
    s.ptLen.toNat ≤ s.caps.pt.toNat → s.ptLen.toNat ≤ s.caps.ct.toNat →
    decompress (s.readBytes .fld 0x500 33) = some Q → envSeal X s = .next t →
    r.ext.state = .verifying → r.KeyReady → r.hdr = t.hdr → (∀ a < 0x500, r.readByte .fld a = t.readByte .fld a) →
    r.accBytes r.ext.hdrCursor.toNat r.ctLen = t.readBytes .ct 0 t.ptLen.toNat → s.ptLen.toNat ≤ r.caps.pt.toNat →
    decompress (compress (pmul s.privScalar P256.G)) = some E → ecdh r.privScalar E = ecdh s.privScalar Q →
    ∃ u, extVerify X r = .next u ∧ u.ext.state = .done ∧ u.ptLen = s.ptLen
      ∧ u.readBytes .pt 0 s.ptLen.toNat = s.readBytes .pt 0 s.ptLen.toNat
      ∧ u.status.integrity = r.status.integrity ∧ u.status.done = true

/-! ### Unit U3: the transforms -/

/-- R200: `FDCT` completes in every state: every coefficient is the exact double sum, rounded once; nothing overflows. -/
def Obligations.FdctIsTheRoundedDoubleSum : Prop :=
  ∀ s : State,
    ∃ t, exec .fdct s = .next t
      ∧ (∀ u < 8, ∀ v < 8,
          t.coefAt (8 * u + v) =
              ((∑ i ∈ Finset.range 8, ∑ j ∈ Finset.range 8, CQ u i * (s.pixAt (8 * i + j)).toNat * CQ v j) + 2 ^ 21)
                / 2 ^ 22
            ∧ |t.coefAt (8 * u + v)| ≤ 522220)
      ∧ t = { s with
          coef := t.coef
          status := { s.status with done := true, busy := false }, intPend := { s.intPend with done := true } }

/-- R201: `IDCT` completes in every state: every pixel is the exact double sum, rounded once and clamped. -/
def Obligations.IdctIsTheClampedDoubleSum : Prop :=
  ∀ s : State,
    ∃ t, exec .idct s = .next t
      ∧ (∀ i < 8, ∀ j < 8,
          ((t.pixAt (8 * i + j)).toNat : Int) =
            clamp (((∑ u ∈ Finset.range 8, ∑ v ∈ Finset.range 8, CQ u i * s.coefAt (8 * u + v) * CQ v j) + 2 ^ 37)
              / 2 ^ 38) 0 255)
      ∧ t = { s with
          pix := t.pix
          status := { s.status with done := true, busy := false }, intPend := { s.intPend with done := true } }

/-- R204(a): a constant block of value `m` has the DC coefficient the rule gives and every AC coefficient 0. R191: the 64
constants of the ROM, the sums of squares of its rows, and the largest product of two different rows. -/
def Obligations.ConstantBlockHasNoAc : Prop :=
  (∀ (s t : State) (m : Byte), (∀ k < 64, s.pixAt k = m) → exec .fdct s = .next t →
    t.coefAt 0 = ((m.toNat : Int) * 92680 ^ 2 + 2 ^ 21) / 2 ^ 22 ∧ ∀ k, 1 ≤ k → k < 64 → t.coefAt k = 0)
    ∧ (List.range 8).map (fun u => (List.range 8).map fun i => CQ u i) =
      [ [11585, 11585, 11585, 11585, 11585, 11585, 11585, 11585],
        [16069, 13623, 9102, 3196, -3196, -9102, -13623, -16069],
        [15137, 6270, -6270, -15137, -15137, -6270, 6270, 15137],
        [13623, -3196, -16069, -9102, 9102, 16069, 3196, -13623],
        [11585, -11585, -11585, 11585, 11585, -11585, -11585, 11585],
        [9102, -16069, 3196, 13623, -13623, -3196, 16069, -9102],
        [6270, -15137, 15137, -6270, -6270, 15137, -15137, 6270],
        [3196, -9102, 13623, -16069, 16069, -13623, 9102, -3196] ]
    ∧ (∀ u < 8,
      ∑ i ∈ Finset.range 8, CQ u i ^ 2 =
        if u = 0 ∨ u = 4 then 1073697800 else if u % 2 = 1 then 1073719420 else 1073766676)
    ∧ (∀ u < 8, ∀ u' < 8, u ≠ u' → |∑ i ∈ Finset.range 8, CQ u i * CQ u' i| ≤ 37698)
    ∧ ∃ u < 8, ∃ u' < 8, u ≠ u' ∧ |∑ i ∈ Finset.range 8, CQ u i * CQ u' i| = 37698

/-- R206: `BLK_LD` completes when the frame and block parameters are usable: `PIX` holds the addressed block. -/
def Obligations.BlkLdLoadsTheBlock : Prop :=
  ∀ s : State, s.FrameReady → s.BlockReady →
    ∃ t, exec .blkLd s = .next t
      ∧ (∀ i < 8, ∀ j < 8,
          t.pixAt (8 * i + j) =
            s.readByte .frame ((8 * s.frm.blkRow.toNat + i) * s.frmW + (8 * s.frm.blkCol.toNat + j)))
      ∧ t = { s with
          pix := t.pix
          status := { s.status with done := true, busy := false }, intPend := { s.intPend with done := true } }

/-- R207: `BLK_ST` completes when the frame and block parameters are usable: the 64 addressed bytes of `FRAME` are the
pixels, every other byte of every memory is unchanged. -/
def Obligations.BlkStStoresTheBlock : Prop :=
  ∀ s : State, s.FrameReady → s.BlockReady →
    ∃ t, exec .blkSt s = .next t
      ∧ (∀ i < 8, ∀ j < 8,
          t.readByte .frame ((8 * s.frm.blkRow.toNat + i) * s.frmW + (8 * s.frm.blkCol.toNat + j)) = s.pixAt (8 * i + j))
      ∧ (∀ sp a,
          (∀ i < 8, ∀ j < 8, ¬(sp = .frame ∧ a = (8 * s.frm.blkRow.toNat + i) * s.frmW + (8 * s.frm.blkCol.toNat + j))) →
            t.readByte sp a = s.readByte sp a)
      ∧ t = { s with
          mems := t.mems
          status := { s.status with done := true, busy := false }, intPend := { s.intPend with done := true } }

/-! ### Unit U4: the modulator -/

/-- R17, R223: `rne(a, d)` is a nearest integer to `a / d`, and the even one when two are equally near. -/
def Obligations.RneIsNearestTiesToEven : Prop :=
  ∀ a d : Int, 0 < d →
    -d ≤ 2 * (a - rne a d * d) ∧ 2 * (a - rne a d * d) ≤ d ∧ (2 * |a - rne a d * d| = d → rne a d % 2 = 0)

/-- R224, R226: `QIM_EMB` completes with usable parameters: slot `k` of the first `min(n, Neff)` holds the saturated
multiple of `DELTA` whose index has the parity of `QBITS[k-1]`, moved in the fixed direction; every other coefficient is
kept; `SAT` is set by a saturation and never cleared; `QCNT` is the count. -/
def Obligations.QimEmbReplacesTheSlots : Prop :=
  ∀ (s : State) (n : Nat), s.QimReady →
    let m := min n s.neff
    let d : Int := s.qim.delta.toNat
    let product := fun k : Nat =>
      let q := rne (s.coefAt k) d
      if q % 2 = (if s.qbit (k - 1) then 1 else 0) then q * d else if s.qbit (k - 1) then (q + 1) * d else (q - 1) * d
    ∃ t, exec (.qimEmb n) s = .next t
      ∧ (∀ k, 1 ≤ k → k ≤ m → t.coefAt k = sat32 (product k))
      ∧ (∀ k, k = 0 ∨ m < k → t.coefAt k = s.coefAt k)
      ∧ (t.status.sat = true ↔ s.status.sat = true ∨ ∃ k, 1 ≤ k ∧ k ≤ m ∧ product k ≠ sat32 (product k))
      ∧ t = { s with
          coef := t.coef, qim := { s.qim with qcnt := BitVec.ofNat 7 m }
          status := { s.status with sat := t.status.sat, done := true, busy := false }
          intPend := { s.intPend with done := true } }

/-- R232: a coefficient that took a bit without saturating gives that bit back. -/
def Obligations.EmbeddedBitReadsBack : Prop :=
  ∀ (s : State) (k : Nat) (b : Bool), s.qim.delta ≠ 0#24 → 1 ≤ k → k ≤ 63 → s.status.sat = false →
    (s.embedBit k b).status.sat = false → (s.embedBit k b).extractBit k = b

/-- R225, R227: `QIM_EXT` completes with usable parameters: `QBITS[i]` is the parity of slot `i + 1` for `i < Neff` and 0
above; `QCNT` is `Neff`. -/
def Obligations.QimExtReadsTheParities : Prop :=
  ∀ s : State, s.QimReady →
    ∃ t, exec .qimExt s = .next t
      ∧ (∀ i < 63, t.qbit i = (decide (i < s.neff) && decide (rne (s.coefAt (i + 1)) s.qim.delta.toNat % 2 = 1)))
      ∧ t = { s with
          qim := { s.qim with qbitsLo := t.qim.qbitsLo, qbitsHi := t.qim.qbitsHi, qcnt := BitVec.ofNat 7 s.neff }
          status := { s.status with done := true, busy := false }, intPend := { s.intPend with done := true } }

/-! ### Unit U5: the framer -/

/-- R256: `PAY_SER` completes when every value fits: the fields in order, big-endian, in `PAY`, and `PAY_BITS` their
length. -/
def Obligations.PaySerWritesThePayload : Prop :=
  ∀ s : State, s.emb.state.inProgress = false → s.hdr.secW.toNat < 2 ^ 16 → s.hdr.secH.toNat < 2 ^ 16 →
    (∀ i < 5, s.lenAt i < 2 ^ 8) → s.ctLen < 2 ^ 32 → s.ctLen ≤ s.caps.ct.toNat →
    13 + s.lenAt 0 + s.lenAt 1 + s.lenAt 2 + s.lenAt 3 + s.lenAt 4 + s.ctLen ≤ s.caps.pay.toNat →
    s.caps.wellFormed = true →
    let total := 13 + s.lenAt 0 + s.lenAt 1 + s.lenAt 2 + s.lenAt 3 + s.lenAt 4 + s.ctLen
    let field := fun i => BitVec.ofNat 8 (s.lenAt i) :: s.readBytes .fld (0x100 * i) (s.lenAt i)
    ∃ t, exec .paySer s = .next t
      ∧ t.readBytes .pay 0 total =
          beBytes s.hdr.secW.toNat 2 ++ beBytes s.hdr.secH.toNat 2 ++ field 0 ++ field 1 ++ field 2 ++ field 3 ++ field 4
            ++ beBytes s.ctLen 4 ++ s.readBytes .ct 0 s.ctLen
      ∧ t.emb.payBits.toNat = 8 * total
      ∧ (∀ sp a, ¬(sp = .pay ∧ a < total) → t.readByte sp a = s.readByte sp a)
      ∧ t = { s with
          emb := { s.emb with payBits := t.emb.payBits }, mems := t.mems
          status := { s.status with done := true, busy := false }, intPend := { s.intPend with done := true } }

/-- R256: the refusals of `PAY_SER`: the information word of `ValueOutOfRange` is the index of the first field whose
value does not fit; then the capacities of `CT` and of `PAY`. -/
def Obligations.PaySerRefusals : Prop :=
  ∀ s : State, s.emb.state.inProgress = false →
    (2 ^ 16 ≤ s.hdr.secW.toNat → exec .paySer s = .next (s.raiseError .valueOutOfRange 0))
      ∧ (s.hdr.secW.toNat < 2 ^ 16 → 2 ^ 16 ≤ s.hdr.secH.toNat → exec .paySer s = .next (s.raiseError .valueOutOfRange 1))
      ∧ (s.hdr.secW.toNat < 2 ^ 16 → s.hdr.secH.toNat < 2 ^ 16 →
          (∀ i < 5, (∀ j < i, s.lenAt j < 2 ^ 8) → 2 ^ 8 ≤ s.lenAt i →
              exec .paySer s = .next (s.raiseError .valueOutOfRange (2 + 2 * i)))
            ∧ ((∀ i < 5, s.lenAt i < 2 ^ 8) →
                (2 ^ 32 ≤ s.ctLen → exec .paySer s = .next (s.raiseError .valueOutOfRange 12))
                  ∧ (s.ctLen < 2 ^ 32 → s.caps.ct.toNat < s.ctLen → exec .paySer s = .next (s.raiseError .bufferCapacity 5))
                  ∧ (s.ctLen < 2 ^ 32 → s.ctLen ≤ s.caps.ct.toNat → s.caps.pay.toNat < s.payloadBytes →
                      exec .paySer s = .next (s.raiseError .bufferCapacity 2))))

/-- R263: with the payload that `PAY_SER` wrote as the first bits of the accumulator and the parser at its start,
fourteen `Parsed` steps restore the header registers and the field bytes and leave the ciphertext in the accumulator. -/
def Obligations.ParseAfterSerialize : Prop :=
  ∀ s t r : State, s.caps.wellFormed = true → s.status.err = false → exec .paySer s = .next t → t.status.err = false →
    (∀ i < t.emb.payBits.toNat, r.memBit .acc i = t.memBit .pay i) → t.emb.payBits.toNat ≤ r.ext.accBits.toNat →
    r.ext.prsCursor = 0#32 → r.ext.prsFidx = 0#4 →
    ∃ u : State, (fun x : Option State => x.bind State.parseStep)^[14] (some r) = some u
      ∧ u.hdr = s.hdr
      ∧ (∀ i < 5, u.readBytes .fld (0x100 * i) (s.lenAt i) = s.readBytes .fld (0x100 * i) (s.lenAt i))
      ∧ u.ext.prsFidx = 14#4 ∧ u.ext.prsCursor = t.emb.payBits
      ∧ u.ext.hdrCursor.toNat = t.emb.payBits.toNat - 8 * s.ctLen
      ∧ u.accBytes u.ext.hdrCursor.toNat s.ctLen = s.readBytes .ct 0 s.ctLen

/-- R260: one parser step: `NeedMoreBits` exactly when fewer bits than the field's width lie beyond the cursor; otherwise
the cursor moves by the width, the index by one, and only the header registers, the parser registers and `FLD` change. An
integer field writes its own register with `acc_uint` and no byte of memory; field 13 writes nothing; a byte-string field
`3 + 2 * i` leaves the header registers and writes the `LEN[i]` bytes of `FLD` from 0x100 * i on with `acc_bytes` and no
other byte. The widths are those of R250, `acc_uint` is the sum of R133 over the bytes of `ACC`. For a `LEN[i]` above 255,
which only a host write can leave, the bytes run on into the regions that follow, and those past the end of `FLD` are
dropped: the model's choice (log entries 4 and 20). -/
def Obligations.ParseStepConsumesOneField : Prop :=
  ∀ s : State, s.ext.prsFidx.toNat ≤ 13 →
    let f := s.ext.prsFidx.toNat
    let c := s.ext.prsCursor.toNat
    (s.parseStep = none ↔ s.ext.accBits.toNat < c + s.fieldWidth f)
      ∧ s.fieldWidth f =
        [16, 16, 8, 8 * s.lenAt 0, 8, 8 * s.lenAt 1, 8, 8 * s.lenAt 2, 8, 8 * s.lenAt 3, 8, 8 * s.lenAt 4, 32,
          8 * s.ctLen].getD f 0
      ∧ (∀ p w : Nat,
        s.accUint p w =
          ∑ i ∈ Finset.range w, (s.readByte .acc ((p + i) / 8)).toNat / 2 ^ (7 - (p + i) % 8) % 2 * 2 ^ (w - 1 - i))
      ∧ ∀ t, s.parseStep = some t →
        t.ext.prsCursor.toNat = c + s.fieldWidth f
          ∧ t.ext.prsFidx.toNat = f + 1
          ∧ t.ext.hdrCursor = (if s.ext.prsFidx = 12#4 then t.ext.prsCursor else s.ext.hdrCursor)
          ∧ (∀ sp a, sp ≠ .fld → t.readByte sp a = s.readByte sp a)
          ∧ (∀ a, 0x500 ≤ a → (∀ i < 5, s.lenAt i ≤ 256) → t.readByte .fld a = s.readByte .fld a)
          ∧ t = { s with
              hdr := t.hdr, mems := t.mems
              ext := { s.ext with
                prsCursor := t.ext.prsCursor, prsFidx := t.ext.prsFidx, hdrCursor := t.ext.hdrCursor } }
          ∧ (f = 0 → t.hdr = { s.hdr with secW := BitVec.ofNat 32 (s.accUint c 16) })
          ∧ (f = 1 → t.hdr = { s.hdr with secH := BitVec.ofNat 32 (s.accUint c 16) })
          ∧ (∀ i : Fin 5, f = 2 + 2 * i.val →
              t.hdr = { s.hdr with len := s.hdr.len.set i.val (BitVec.ofNat 32 (s.accUint c 8)) })
          ∧ (f = 12 → t.hdr = { s.hdr with ctLenLo := BitVec.ofNat 32 (s.accUint c 32), ctLenHi := 0#32 })
          ∧ (f = 13 → t.hdr = s.hdr)
          ∧ (f ∉ [3, 5, 7, 9, 11] → ∀ sp a, t.readByte sp a = s.readByte sp a)
          ∧ ∀ i < 5, f = 3 + 2 * i →
            t.hdr = s.hdr
              ∧ (∀ k < s.lenAt i, 0x100 * i + k < 0x600 →
                  t.readByte .fld (0x100 * i + k) = BitVec.ofNat 8 (s.accUint (c + 8 * k) 8))
              ∧ ∀ a, a < 0x100 * i ∨ 0x100 * i + s.lenAt i ≤ a ∨ 0x600 ≤ a → t.readByte .fld a = s.readByte .fld a

/-! ### Unit U6: the embedding engine -/

/-- R280, R300: `EMB_START` completes with a usable payload length, in every engine state; `EXT_START` completes in every
state. -/
def Obligations.StartsBeginOperations : Prop :=
  (∀ s : State, s.emb.payBits.toNat ≠ 0 → s.emb.payBits.toNat ≤ 8 * s.caps.pay.toNat →
      exec .embStart s = .next
        { s with
          emb := { s.emb with state := .awaitingFrame, cursor := 0#32, frames := 0#32 }
          frmBits := 0#32
          status := { s.status with refValid := false, done := true, busy := false }
          intPend := { s.intPend with done := true } })
    ∧ ∀ s : State,
      exec .extStart s = .next
        { s with
          ext := { state := .accumulating, accBits := 0#32, prsCursor := 0#32, prsFidx := 0#4, hdrCursor := 0#32,
                   frames := 0#32 }
          frmBits := 0#32
          status := { s.status with integrity := false, done := true, busy := false }
          intPend := { s.intPend with done := true } }

/-- R228, R230, R231, R233, R281, R283: `EMB_FRAME` in AwaitingFrame or Embedding completes with usable parameters: it
embeds as many payload bits as are left or the frame holds; the cursor, the counts and the state follow. Block number `b`
of the raster, when a bit is left for it, holds the bytes that loading it, transforming it, embedding the payload bits
from `cursor + b * Neff` on and transforming it back give; `PIX` and `COEF` are those of the last such block. The first
frame is kept in `REF`; bytes of `FRAME` outside those blocks do not change; `SAT` is never set. -/
def Obligations.EmbFrameEmbedsMinOfRestAndCapacity : Prop :=
  ∀ s : State, s.emb.state = .awaitingFrame ∨ s.emb.state = .embedding → s.QimReady → s.FrameReady → s.EmbedForm →
    let n := min (s.emb.payBits.toNat - s.emb.cursor.toNat) (s.frmW / 8 * (s.frmH / 8) * s.neff)
    ∃ t, exec .embFrame s = .next t
      ∧ 1 ≤ n ∧ t.frmBits.toNat = n ∧ t.emb.cursor.toNat = s.emb.cursor.toNat + n
      ∧ t.emb.state = (if s.emb.cursor.toNat + n = s.emb.payBits.toNat then .draining else .embedding)
      ∧ t.emb.frames = s.emb.frames + 1#32 ∧ t.emb.payBits = s.emb.payBits
      ∧ (∀ a < s.frmW * s.frmH, t.readByte .ref a = if s.status.refValid then s.readByte .ref a else s.readByte .frame a)
      ∧ (∀ a, s.frmW * s.frmH ≤ a → t.readByte .ref a = s.readByte .ref a ∧ t.readByte .frame a = s.readByte .frame a)
      ∧ (∀ br < s.frmH / 8, ∀ bc < s.frmW / 8,
          let b := br * (s.frmW / 8) + bc
          let u := s.embedBlock br bc (s.emb.cursor.toNat + b * s.neff) (min s.neff (n - b * s.neff))
          b * s.neff < n →
            (∀ i < 8, ∀ j < 8,
                t.readByte .frame ((8 * br + i) * s.frmW + (8 * bc + j))
                  = u.readByte .frame ((8 * br + i) * s.frmW + (8 * bc + j)))
              ∧ (n ≤ (b + 1) * s.neff → t.pix = u.pix ∧ t.coef = u.coef))
      ∧ (∀ y < s.frmH, ∀ x < s.frmW, n ≤ (y / 8 * (s.frmW / 8) + x / 8) * s.neff →
          t.readByte .frame (y * s.frmW + x) = s.readByte .frame (y * s.frmW + x))
      ∧ (∀ sp a, sp ≠ .frame → sp ≠ .ref → t.readByte sp a = s.readByte sp a)
      ∧ t = { s with
          emb := t.emb, frmBits := t.frmBits, pix := t.pix, coef := t.coef, mems := t.mems
          status := { s.status with refValid := true, done := true, busy := false }
          intPend := { s.intPend with done := true } }

/-- R208: on a frame of one block, `EMB_FRAME` leaves in `FRAME`, `PIX` and `COEF` what `BLK_LD`, `FDCT`, `QIM_EMB`, `IDCT`
and `BLK_ST` leave when the host puts the same payload bits into `QBITS`. -/
def Obligations.EmbFrameIsTheOneBlockSequence : Prop :=
  ∀ s s1 s2 s3 s4 s5 t : State, ∀ q : BitVec 63,
    s.emb.state = .embedding → s.status.refValid = true → s.QimReady → s.frmW = 8 → s.frmH = 8 → s.FrameReady →
    s.emb.cursor.toNat < s.emb.payBits.toNat → (∀ i < 63, q.getLsbD i = s.memBit .pay (s.emb.cursor.toNat + i)) →
    exec .blkLd { s with
      frm := { s.frm with blkRow := 0#13, blkCol := 0#13 }
      qim := { s.qim with qbitsLo := q.setWidth 32, qbitsHi := (q >>> 32).setWidth 31 } } = .next s1 →
    exec .fdct s1 = .next s2 →
    exec (.qimEmb (min 63 (s.emb.payBits.toNat - s.emb.cursor.toNat))) s2 = .next s3 →
    exec .idct s3 = .next s4 → exec .blkSt s4 = .next s5 → exec .embFrame s = .next t →
    t.pix = s5.pix ∧ t.coef = s5.coef ∧ (∀ sp a, t.readByte sp a = s5.readByte sp a) ∧ t.frmBits = s5.qim.qcnt.setWidth 32

/-- R285, R306: `EMB_END` in Draining ends the operation; while payload bits remain it raises `InsufficientCapacity` with
the cursor. `EXT_END` with the payload complete has no effect but its end; before that it raises `TruncatedStream` with
the first incomplete field. Both errors leave the engine Failed. -/
def Obligations.EndCommandsFinishOrFail : Prop :=
  (∀ s : State, s.emb.state = .draining →
      exec .embEnd s = .next
        { s with
          emb := { s.emb with state := .done }
          status := { s.status with done := true, busy := false }, intPend := { s.intPend with done := true } })
    ∧ (∀ s : State, s.emb.state = .awaitingFrame ∨ s.emb.state = .embedding →
      exec .embEnd s = .next
        (State.raiseError { s with emb := { s.emb with state := .failed } } .insufficientCapacity s.emb.cursor.toNat))
    ∧ (∀ s : State, s.ext.state = .verifying ∨ s.ext.state = .done →
      exec .extEnd s = .next
        { s with status := { s.status with done := true, busy := false }, intPend := { s.intPend with done := true } })
    ∧ ∀ s : State, s.ext.state = .accumulating ∨ s.ext.state = .collecting →
      exec .extEnd s = .next
        (State.raiseError { s with ext := { s.ext with state := .failed } } .truncatedStream s.ext.prsFidx.toNat)

/-! ### Unit U7: the extraction engine -/

/-- R229, R230, R301, R304, R305: `EXT_FRAME` in Accumulating or CollectingCiphertext completes when the frame's bits fit.
It appends to the accumulator, in raster and slot order, the parities of the forward transform of every block and counts
the frame: the state `u`, with the last block in `PIX` and `COEF`. Then it takes `m` parser steps from `u`, to the state
`v` that has parsed field 13 or waits for bits. The engine state follows the next field's index; `NEED_MORE` is set
exactly when the engine still waits for bits. -/
def Obligations.ExtFrameAppendsTheParities : Prop :=
  ∀ s : State, s.ext.state = .accumulating ∨ s.ext.state = .collecting → s.QimReady → s.FrameReady → s.ExtractForm →
    s.status.needMore = false → s.ext.accBits.toNat + s.frmW / 8 * (s.frmH / 8) * s.neff ≤ s.caps.accBits.toNat →
    let cap := s.frmW / 8 * (s.frmH / 8) * s.neff
    ∃ (u v t : State) (m : Nat), exec .extFrame s = .next t
      ∧ u = { s with
          ext := { s.ext with
            accBits := BitVec.ofNat 32 (s.ext.accBits.toNat + cap), frames := s.ext.frames + 1#32 }
          frmBits := BitVec.ofNat 32 cap, mems := u.mems
          pix := (s.blkLd (s.frmH / 8 - 1) (s.frmW / 8 - 1)).pix
          coef := (s.blkLd (s.frmH / 8 - 1) (s.frmW / 8 - 1)).fdct.coef }
      ∧ (∀ i < s.ext.accBits.toNat, u.memBit .acc i = s.memBit .acc i)
      ∧ (∀ k < cap,
          u.memBit .acc (s.ext.accBits.toNat + k) =
            ((s.blkLd (k / s.neff / (s.frmW / 8)) (k / s.neff % (s.frmW / 8))).fdct).extractBit (k % s.neff + 1))
      ∧ (∀ sp a, sp ≠ .acc → u.readByte sp a = s.readByte sp a)
      ∧ (fun x : Option State => x.bind State.parseStep)^[m] (some u) = some v
      ∧ v.ext.prsFidx.toNat = s.ext.prsFidx.toNat + m ∧ v.ext.prsFidx.toNat ≤ 14
      ∧ (v.ext.prsFidx = 14#4 ∨ v.parseStep = none)
      ∧ t = { v with
          ext := { v.ext with
            state :=
              if v.ext.prsFidx = 14#4 then .verifying else if v.ext.prsFidx = 13#4 then .collecting else .accumulating }
          status := { s.status with needMore := t.status.needMore, done := true, busy := false }
          intPend := { s.intPend with done := true } }
      ∧ (t.status.needMore = true ↔ t.ext.state = .accumulating ∨ t.ext.state = .collecting)
      ∧ t.frmBits.toNat = cap ∧ t.ext.accBits.toNat = s.ext.accBits.toNat + cap ∧ t.ext.frames = s.ext.frames + 1#32
      ∧ (∀ i, t.memBit .acc i = u.memBit .acc i)
      ∧ (∀ sp a, sp ≠ .acc → sp ≠ .fld → t.readByte sp a = s.readByte sp a)
      ∧ t = { s with
          ext := t.ext, hdr := t.hdr, frmBits := t.frmBits, pix := t.pix, coef := t.coef, mems := t.mems
          status := { s.status with needMore := t.status.needMore, done := true, busy := false }
          intPend := { s.intPend with done := true } }

/-- R284, R303, R302: `EMB_FRAME` in Draining passes the frame through, `EXT_FRAME` in Verifying skips it: each completes
with usable parameters and changes nothing but its own flag, `FRM_BITS` and the count of embedded frames. A frame whose
bits do not fit the accumulator ends the extraction with `BufferCapacity(3)` and extracts nothing. -/
def Obligations.FramesPassedOrSkipped : Prop :=
  (∀ s : State, s.emb.state = .draining → s.QimReady → s.FrameReady → s.status.refValid = true →
      exec .embFrame s = .next
        { s with
          emb := { s.emb with frames := s.emb.frames + 1#32 }
          frmBits := 0#32
          status := { s.status with passthru := true, done := true, busy := false }
          intPend := { s.intPend with done := true } })
    ∧ (∀ s : State, s.ext.state = .verifying → s.QimReady → s.FrameReady →
      exec .extFrame s = .next
        { s with
          frmBits := 0#32
          status := { s.status with skipped := true, done := true, busy := false }
          intPend := { s.intPend with done := true } })
    ∧ ∀ s : State, s.ext.state = .accumulating ∨ s.ext.state = .collecting → s.QimReady → s.FrameReady →
      s.caps.accBits.toNat < s.ext.accBits.toNat + s.frmW / 8 * (s.frmH / 8) * s.neff →
      exec .extFrame s = .next (State.raiseError { s with ext := { s.ext with state := .failed } } .bufferCapacity 3)

/-- R308 to R310: `EXT_VERIFY` in Verifying with a usable key and a plaintext that fits completes, for any external
functions `X`: an invalid point, a failed tag check and a fatal hash mismatch end the operation without plaintext;
otherwise the plaintext is in `PT`, the engine is Done, and a mismatch is reported. The command itself is this for the
block's external functions. For a salt above 255 bytes, which only a host write to `LEN_SALT` can leave, HKDF of the longer
salt is the model's choice (log entry 21). -/
def Obligations.ExtVerifyReleasesOrRejects : Prop :=
  ∀ (X : Crypto) (s : State), s.ext.state = .verifying → s.KeyReady → s.ctLen ≤ s.caps.pt.toNat →
    ∃ t, extVerify X s = .next t ∧ (X = Config.crypto → exec .extVerify s = .next t) ∧
      match decompress (s.readBytes .fld 0x000 (s.lenAt 0)) with
      | none => t = State.raiseError { s with ext := { s.ext with state := .failed } } .invalidPoint 0
      | some Q =>
        let key := hkdf X (ecdh s.privScalar Q) (s.readBytes .fld 0x100 (s.lenAt 1))
        let opened :=
          if s.lenAt 3 = 12 ∧ s.lenAt 4 = 16 then
            aeadDec X (s.accBytes s.ext.hdrCursor.toNat s.ctLen) key s.nonce s.tag
          else none
        match opened with
        | none =>
          t = State.raiseError
            { s with
              ext := { s.ext with state := .failed }, ptLen := 0#32
              hidden := { s.hidden with ss := 0#256, key := 0#256 } } .authenticationFailed 0
        | some pt =>
          let good := s.lenAt 2 = 32 ∧ beBytes (X.sha3 pt).toNat 32 = s.readBytes .fld 0x200 32
          (¬good ∧ s.ctrl.hashFatal = true → t = State.raiseError
              { s with
                ext := { s.ext with state := .failed }, ptLen := 0#32
                status := { s.status with integrity := true }
                hidden := { s.hidden with ss := 0#256, key := 0#256 } } .integrityMismatch 0)
            ∧ (good ∨ s.ctrl.hashFatal = false →
              t.readBytes .pt 0 s.ctLen = pt
                ∧ (∀ sp a, ¬(sp = .pt ∧ a < s.ctLen) → t.readByte sp a = s.readByte sp a)
                ∧ (t.status.integrity = true ↔ s.status.integrity = true ∨ ¬good)
                ∧ (∀ c, t.errs.sticky.getLsbD c = true ↔ s.errs.sticky.getLsbD c = true ∨ (c = 5 ∧ ¬good))
                ∧ t = { s with
                    ext := { s.ext with state := .done }, ptLen := BitVec.ofNat 32 s.ctLen, mems := t.mems
                    hidden := { s.hidden with ss := 0#256, key := 0#256 }
                    errs := { s.errs with sticky := t.errs.sticky }
                    status := { s.status with integrity := t.status.integrity, done := true, busy := false }
                    intPend := { s.intPend with done := true } })

/-! ### The reset input -/

/-- R390: while the reset input is asserted the block is in the reset state: asserting the input reaches that state, from
a command in progress too, and releasing it leaves that state with the input released; every step while it is asserted
keeps it. A host access made meanwhile is not performed: a write changes nothing, a read only hands the host a value,
which one is the model's free value (log entry 12). Releasing an input that is not asserted changes nothing. -/
def Obligations.AssertedResetHoldsTheBlock : Prop :=
  (∀ (s : State) (asserted : Bool), asserted = true ∨ s.host.resetInput = true →
      ∃ f : FreeSide,
        s.hostStep (.resetInput asserted) =
          { State.resetWith s.caps with host := { s.host with resetInput := asserted }, free := f })
    ∧ (∀ s t : State, s.ResetForm → step s = .next t → t.ResetForm)
    ∧ (∀ (s : State) (width : Width) (offset : BitVec 12), s.host.resetInput = true →
        (∀ w, s.hostStep (.write width offset w) = s)
          ∧ ∃ v, s.hostStep (.read width offset) = { s with host := { s.host with reads := v :: s.host.reads } })
    ∧ ∀ s : State, s.host.resetInput = false → s.hostStep (.resetInput false) = s
end

