-- ==== Sys2Proof/Laws/State.lean ====
section
/-! SUPPORT. What each named update of `State` leaves in each field: every equation holds by definition. -/

namespace Sys2Proof.Machine

variable (s : State)

@[simp] theorem State.withStatus_status (v : Status) : (s.withStatus v).status = v := (rfl)
@[simp] theorem State.withStatus_errs (v : Status) : (s.withStatus v).errs = s.errs := (rfl)
@[simp] theorem State.withStatus_ctrl (v : Status) : (s.withStatus v).ctrl = s.ctrl := (rfl)
@[simp] theorem State.withStatus_intPend (v : Status) : (s.withStatus v).intPend = s.intPend := (rfl)
@[simp] theorem State.withStatus_caps (v : Status) : (s.withStatus v).caps = s.caps := (rfl)
@[simp] theorem State.withStatus_qim (v : Status) : (s.withStatus v).qim = s.qim := (rfl)
@[simp] theorem State.withStatus_frm (v : Status) : (s.withStatus v).frm = s.frm := (rfl)
@[simp] theorem State.withStatus_frmBits (v : Status) : (s.withStatus v).frmBits = s.frmBits := (rfl)
@[simp] theorem State.withStatus_emb (v : Status) : (s.withStatus v).emb = s.emb := (rfl)
@[simp] theorem State.withStatus_ext (v : Status) : (s.withStatus v).ext = s.ext := (rfl)
@[simp] theorem State.withStatus_hdr (v : Status) : (s.withStatus v).hdr = s.hdr := (rfl)
@[simp] theorem State.withStatus_ptLen (v : Status) : (s.withStatus v).ptLen = s.ptLen := (rfl)
@[simp] theorem State.withStatus_range (v : Status) : (s.withStatus v).range = s.range := (rfl)
@[simp] theorem State.withStatus_port (v : Status) : (s.withStatus v).port = s.port := (rfl)
@[simp] theorem State.withStatus_priv (v : Status) : (s.withStatus v).priv = s.priv := (rfl)
@[simp] theorem State.withStatus_pix (v : Status) : (s.withStatus v).pix = s.pix := (rfl)
@[simp] theorem State.withStatus_coef (v : Status) : (s.withStatus v).coef = s.coef := (rfl)
@[simp] theorem State.withStatus_hidden (v : Status) : (s.withStatus v).hidden = s.hidden := (rfl)
@[simp] theorem State.withStatus_mems (v : Status) : (s.withStatus v).mems = s.mems := (rfl)
@[simp] theorem State.withStatus_host (v : Status) : (s.withStatus v).host = s.host := (rfl)
@[simp] theorem State.withStatus_free (v : Status) : (s.withStatus v).free = s.free := (rfl)

@[simp] theorem State.withErrs_status (v : ErrRegs) : (s.withErrs v).status = s.status := (rfl)
@[simp] theorem State.withErrs_errs (v : ErrRegs) : (s.withErrs v).errs = v := (rfl)
@[simp] theorem State.withErrs_ctrl (v : ErrRegs) : (s.withErrs v).ctrl = s.ctrl := (rfl)
@[simp] theorem State.withErrs_intPend (v : ErrRegs) : (s.withErrs v).intPend = s.intPend := (rfl)
@[simp] theorem State.withErrs_caps (v : ErrRegs) : (s.withErrs v).caps = s.caps := (rfl)
@[simp] theorem State.withErrs_qim (v : ErrRegs) : (s.withErrs v).qim = s.qim := (rfl)
@[simp] theorem State.withErrs_frm (v : ErrRegs) : (s.withErrs v).frm = s.frm := (rfl)
@[simp] theorem State.withErrs_frmBits (v : ErrRegs) : (s.withErrs v).frmBits = s.frmBits := (rfl)
@[simp] theorem State.withErrs_emb (v : ErrRegs) : (s.withErrs v).emb = s.emb := (rfl)
@[simp] theorem State.withErrs_ext (v : ErrRegs) : (s.withErrs v).ext = s.ext := (rfl)
@[simp] theorem State.withErrs_hdr (v : ErrRegs) : (s.withErrs v).hdr = s.hdr := (rfl)
@[simp] theorem State.withErrs_ptLen (v : ErrRegs) : (s.withErrs v).ptLen = s.ptLen := (rfl)
@[simp] theorem State.withErrs_range (v : ErrRegs) : (s.withErrs v).range = s.range := (rfl)
@[simp] theorem State.withErrs_port (v : ErrRegs) : (s.withErrs v).port = s.port := (rfl)
@[simp] theorem State.withErrs_priv (v : ErrRegs) : (s.withErrs v).priv = s.priv := (rfl)
@[simp] theorem State.withErrs_pix (v : ErrRegs) : (s.withErrs v).pix = s.pix := (rfl)
@[simp] theorem State.withErrs_coef (v : ErrRegs) : (s.withErrs v).coef = s.coef := (rfl)
@[simp] theorem State.withErrs_hidden (v : ErrRegs) : (s.withErrs v).hidden = s.hidden := (rfl)
@[simp] theorem State.withErrs_mems (v : ErrRegs) : (s.withErrs v).mems = s.mems := (rfl)
@[simp] theorem State.withErrs_host (v : ErrRegs) : (s.withErrs v).host = s.host := (rfl)
@[simp] theorem State.withErrs_free (v : ErrRegs) : (s.withErrs v).free = s.free := (rfl)

@[simp] theorem State.withCtrl_status (v : Ctrl) : (s.withCtrl v).status = s.status := (rfl)
@[simp] theorem State.withCtrl_errs (v : Ctrl) : (s.withCtrl v).errs = s.errs := (rfl)
@[simp] theorem State.withCtrl_ctrl (v : Ctrl) : (s.withCtrl v).ctrl = v := (rfl)
@[simp] theorem State.withCtrl_intPend (v : Ctrl) : (s.withCtrl v).intPend = s.intPend := (rfl)
@[simp] theorem State.withCtrl_caps (v : Ctrl) : (s.withCtrl v).caps = s.caps := (rfl)
@[simp] theorem State.withCtrl_qim (v : Ctrl) : (s.withCtrl v).qim = s.qim := (rfl)
@[simp] theorem State.withCtrl_frm (v : Ctrl) : (s.withCtrl v).frm = s.frm := (rfl)
@[simp] theorem State.withCtrl_frmBits (v : Ctrl) : (s.withCtrl v).frmBits = s.frmBits := (rfl)
@[simp] theorem State.withCtrl_emb (v : Ctrl) : (s.withCtrl v).emb = s.emb := (rfl)
@[simp] theorem State.withCtrl_ext (v : Ctrl) : (s.withCtrl v).ext = s.ext := (rfl)
@[simp] theorem State.withCtrl_hdr (v : Ctrl) : (s.withCtrl v).hdr = s.hdr := (rfl)
@[simp] theorem State.withCtrl_ptLen (v : Ctrl) : (s.withCtrl v).ptLen = s.ptLen := (rfl)
@[simp] theorem State.withCtrl_range (v : Ctrl) : (s.withCtrl v).range = s.range := (rfl)
@[simp] theorem State.withCtrl_port (v : Ctrl) : (s.withCtrl v).port = s.port := (rfl)
@[simp] theorem State.withCtrl_priv (v : Ctrl) : (s.withCtrl v).priv = s.priv := (rfl)
@[simp] theorem State.withCtrl_pix (v : Ctrl) : (s.withCtrl v).pix = s.pix := (rfl)
@[simp] theorem State.withCtrl_coef (v : Ctrl) : (s.withCtrl v).coef = s.coef := (rfl)
@[simp] theorem State.withCtrl_hidden (v : Ctrl) : (s.withCtrl v).hidden = s.hidden := (rfl)
@[simp] theorem State.withCtrl_mems (v : Ctrl) : (s.withCtrl v).mems = s.mems := (rfl)
@[simp] theorem State.withCtrl_host (v : Ctrl) : (s.withCtrl v).host = s.host := (rfl)
@[simp] theorem State.withCtrl_free (v : Ctrl) : (s.withCtrl v).free = s.free := (rfl)

@[simp] theorem State.withIntPend_status (v : IntPend) : (s.withIntPend v).status = s.status := (rfl)
@[simp] theorem State.withIntPend_errs (v : IntPend) : (s.withIntPend v).errs = s.errs := (rfl)
@[simp] theorem State.withIntPend_ctrl (v : IntPend) : (s.withIntPend v).ctrl = s.ctrl := (rfl)
@[simp] theorem State.withIntPend_intPend (v : IntPend) : (s.withIntPend v).intPend = v := (rfl)
@[simp] theorem State.withIntPend_caps (v : IntPend) : (s.withIntPend v).caps = s.caps := (rfl)
@[simp] theorem State.withIntPend_qim (v : IntPend) : (s.withIntPend v).qim = s.qim := (rfl)
@[simp] theorem State.withIntPend_frm (v : IntPend) : (s.withIntPend v).frm = s.frm := (rfl)
@[simp] theorem State.withIntPend_frmBits (v : IntPend) : (s.withIntPend v).frmBits = s.frmBits := (rfl)
@[simp] theorem State.withIntPend_emb (v : IntPend) : (s.withIntPend v).emb = s.emb := (rfl)
@[simp] theorem State.withIntPend_ext (v : IntPend) : (s.withIntPend v).ext = s.ext := (rfl)
@[simp] theorem State.withIntPend_hdr (v : IntPend) : (s.withIntPend v).hdr = s.hdr := (rfl)
@[simp] theorem State.withIntPend_ptLen (v : IntPend) : (s.withIntPend v).ptLen = s.ptLen := (rfl)
@[simp] theorem State.withIntPend_range (v : IntPend) : (s.withIntPend v).range = s.range := (rfl)
@[simp] theorem State.withIntPend_port (v : IntPend) : (s.withIntPend v).port = s.port := (rfl)
@[simp] theorem State.withIntPend_priv (v : IntPend) : (s.withIntPend v).priv = s.priv := (rfl)
@[simp] theorem State.withIntPend_pix (v : IntPend) : (s.withIntPend v).pix = s.pix := (rfl)
@[simp] theorem State.withIntPend_coef (v : IntPend) : (s.withIntPend v).coef = s.coef := (rfl)
@[simp] theorem State.withIntPend_hidden (v : IntPend) : (s.withIntPend v).hidden = s.hidden := (rfl)
@[simp] theorem State.withIntPend_mems (v : IntPend) : (s.withIntPend v).mems = s.mems := (rfl)
@[simp] theorem State.withIntPend_host (v : IntPend) : (s.withIntPend v).host = s.host := (rfl)
@[simp] theorem State.withIntPend_free (v : IntPend) : (s.withIntPend v).free = s.free := (rfl)

@[simp] theorem State.withQim_status (v : QimRegs) : (s.withQim v).status = s.status := (rfl)
@[simp] theorem State.withQim_errs (v : QimRegs) : (s.withQim v).errs = s.errs := (rfl)
@[simp] theorem State.withQim_ctrl (v : QimRegs) : (s.withQim v).ctrl = s.ctrl := (rfl)
@[simp] theorem State.withQim_intPend (v : QimRegs) : (s.withQim v).intPend = s.intPend := (rfl)
@[simp] theorem State.withQim_caps (v : QimRegs) : (s.withQim v).caps = s.caps := (rfl)
@[simp] theorem State.withQim_qim (v : QimRegs) : (s.withQim v).qim = v := (rfl)
@[simp] theorem State.withQim_frm (v : QimRegs) : (s.withQim v).frm = s.frm := (rfl)
@[simp] theorem State.withQim_frmBits (v : QimRegs) : (s.withQim v).frmBits = s.frmBits := (rfl)
@[simp] theorem State.withQim_emb (v : QimRegs) : (s.withQim v).emb = s.emb := (rfl)
@[simp] theorem State.withQim_ext (v : QimRegs) : (s.withQim v).ext = s.ext := (rfl)
@[simp] theorem State.withQim_hdr (v : QimRegs) : (s.withQim v).hdr = s.hdr := (rfl)
@[simp] theorem State.withQim_ptLen (v : QimRegs) : (s.withQim v).ptLen = s.ptLen := (rfl)
@[simp] theorem State.withQim_range (v : QimRegs) : (s.withQim v).range = s.range := (rfl)
@[simp] theorem State.withQim_port (v : QimRegs) : (s.withQim v).port = s.port := (rfl)
@[simp] theorem State.withQim_priv (v : QimRegs) : (s.withQim v).priv = s.priv := (rfl)
@[simp] theorem State.withQim_pix (v : QimRegs) : (s.withQim v).pix = s.pix := (rfl)
@[simp] theorem State.withQim_coef (v : QimRegs) : (s.withQim v).coef = s.coef := (rfl)
@[simp] theorem State.withQim_hidden (v : QimRegs) : (s.withQim v).hidden = s.hidden := (rfl)
@[simp] theorem State.withQim_mems (v : QimRegs) : (s.withQim v).mems = s.mems := (rfl)
@[simp] theorem State.withQim_host (v : QimRegs) : (s.withQim v).host = s.host := (rfl)
@[simp] theorem State.withQim_free (v : QimRegs) : (s.withQim v).free = s.free := (rfl)

@[simp] theorem State.withFrm_status (v : FrameRegs) : (s.withFrm v).status = s.status := (rfl)
@[simp] theorem State.withFrm_errs (v : FrameRegs) : (s.withFrm v).errs = s.errs := (rfl)
@[simp] theorem State.withFrm_ctrl (v : FrameRegs) : (s.withFrm v).ctrl = s.ctrl := (rfl)
@[simp] theorem State.withFrm_intPend (v : FrameRegs) : (s.withFrm v).intPend = s.intPend := (rfl)
@[simp] theorem State.withFrm_caps (v : FrameRegs) : (s.withFrm v).caps = s.caps := (rfl)
@[simp] theorem State.withFrm_qim (v : FrameRegs) : (s.withFrm v).qim = s.qim := (rfl)
@[simp] theorem State.withFrm_frm (v : FrameRegs) : (s.withFrm v).frm = v := (rfl)
@[simp] theorem State.withFrm_frmBits (v : FrameRegs) : (s.withFrm v).frmBits = s.frmBits := (rfl)
@[simp] theorem State.withFrm_emb (v : FrameRegs) : (s.withFrm v).emb = s.emb := (rfl)
@[simp] theorem State.withFrm_ext (v : FrameRegs) : (s.withFrm v).ext = s.ext := (rfl)
@[simp] theorem State.withFrm_hdr (v : FrameRegs) : (s.withFrm v).hdr = s.hdr := (rfl)
@[simp] theorem State.withFrm_ptLen (v : FrameRegs) : (s.withFrm v).ptLen = s.ptLen := (rfl)
@[simp] theorem State.withFrm_range (v : FrameRegs) : (s.withFrm v).range = s.range := (rfl)
@[simp] theorem State.withFrm_port (v : FrameRegs) : (s.withFrm v).port = s.port := (rfl)
@[simp] theorem State.withFrm_priv (v : FrameRegs) : (s.withFrm v).priv = s.priv := (rfl)
@[simp] theorem State.withFrm_pix (v : FrameRegs) : (s.withFrm v).pix = s.pix := (rfl)
@[simp] theorem State.withFrm_coef (v : FrameRegs) : (s.withFrm v).coef = s.coef := (rfl)
@[simp] theorem State.withFrm_hidden (v : FrameRegs) : (s.withFrm v).hidden = s.hidden := (rfl)
@[simp] theorem State.withFrm_mems (v : FrameRegs) : (s.withFrm v).mems = s.mems := (rfl)
@[simp] theorem State.withFrm_host (v : FrameRegs) : (s.withFrm v).host = s.host := (rfl)
@[simp] theorem State.withFrm_free (v : FrameRegs) : (s.withFrm v).free = s.free := (rfl)

@[simp] theorem State.withFrmBits_status (v : Word) : (s.withFrmBits v).status = s.status := (rfl)
@[simp] theorem State.withFrmBits_errs (v : Word) : (s.withFrmBits v).errs = s.errs := (rfl)
@[simp] theorem State.withFrmBits_ctrl (v : Word) : (s.withFrmBits v).ctrl = s.ctrl := (rfl)
@[simp] theorem State.withFrmBits_intPend (v : Word) : (s.withFrmBits v).intPend = s.intPend := (rfl)
@[simp] theorem State.withFrmBits_caps (v : Word) : (s.withFrmBits v).caps = s.caps := (rfl)
@[simp] theorem State.withFrmBits_qim (v : Word) : (s.withFrmBits v).qim = s.qim := (rfl)
@[simp] theorem State.withFrmBits_frm (v : Word) : (s.withFrmBits v).frm = s.frm := (rfl)
@[simp] theorem State.withFrmBits_frmBits (v : Word) : (s.withFrmBits v).frmBits = v := (rfl)
@[simp] theorem State.withFrmBits_emb (v : Word) : (s.withFrmBits v).emb = s.emb := (rfl)
@[simp] theorem State.withFrmBits_ext (v : Word) : (s.withFrmBits v).ext = s.ext := (rfl)
@[simp] theorem State.withFrmBits_hdr (v : Word) : (s.withFrmBits v).hdr = s.hdr := (rfl)
@[simp] theorem State.withFrmBits_ptLen (v : Word) : (s.withFrmBits v).ptLen = s.ptLen := (rfl)
@[simp] theorem State.withFrmBits_range (v : Word) : (s.withFrmBits v).range = s.range := (rfl)
@[simp] theorem State.withFrmBits_port (v : Word) : (s.withFrmBits v).port = s.port := (rfl)
@[simp] theorem State.withFrmBits_priv (v : Word) : (s.withFrmBits v).priv = s.priv := (rfl)
@[simp] theorem State.withFrmBits_pix (v : Word) : (s.withFrmBits v).pix = s.pix := (rfl)
@[simp] theorem State.withFrmBits_coef (v : Word) : (s.withFrmBits v).coef = s.coef := (rfl)
@[simp] theorem State.withFrmBits_hidden (v : Word) : (s.withFrmBits v).hidden = s.hidden := (rfl)
@[simp] theorem State.withFrmBits_mems (v : Word) : (s.withFrmBits v).mems = s.mems := (rfl)
@[simp] theorem State.withFrmBits_host (v : Word) : (s.withFrmBits v).host = s.host := (rfl)
@[simp] theorem State.withFrmBits_free (v : Word) : (s.withFrmBits v).free = s.free := (rfl)

@[simp] theorem State.withEmb_status (v : EmbRegs) : (s.withEmb v).status = s.status := (rfl)
@[simp] theorem State.withEmb_errs (v : EmbRegs) : (s.withEmb v).errs = s.errs := (rfl)
@[simp] theorem State.withEmb_ctrl (v : EmbRegs) : (s.withEmb v).ctrl = s.ctrl := (rfl)
@[simp] theorem State.withEmb_intPend (v : EmbRegs) : (s.withEmb v).intPend = s.intPend := (rfl)
@[simp] theorem State.withEmb_caps (v : EmbRegs) : (s.withEmb v).caps = s.caps := (rfl)
@[simp] theorem State.withEmb_qim (v : EmbRegs) : (s.withEmb v).qim = s.qim := (rfl)
@[simp] theorem State.withEmb_frm (v : EmbRegs) : (s.withEmb v).frm = s.frm := (rfl)
@[simp] theorem State.withEmb_frmBits (v : EmbRegs) : (s.withEmb v).frmBits = s.frmBits := (rfl)
@[simp] theorem State.withEmb_emb (v : EmbRegs) : (s.withEmb v).emb = v := (rfl)
@[simp] theorem State.withEmb_ext (v : EmbRegs) : (s.withEmb v).ext = s.ext := (rfl)
@[simp] theorem State.withEmb_hdr (v : EmbRegs) : (s.withEmb v).hdr = s.hdr := (rfl)
@[simp] theorem State.withEmb_ptLen (v : EmbRegs) : (s.withEmb v).ptLen = s.ptLen := (rfl)
@[simp] theorem State.withEmb_range (v : EmbRegs) : (s.withEmb v).range = s.range := (rfl)
@[simp] theorem State.withEmb_port (v : EmbRegs) : (s.withEmb v).port = s.port := (rfl)
@[simp] theorem State.withEmb_priv (v : EmbRegs) : (s.withEmb v).priv = s.priv := (rfl)
@[simp] theorem State.withEmb_pix (v : EmbRegs) : (s.withEmb v).pix = s.pix := (rfl)
@[simp] theorem State.withEmb_coef (v : EmbRegs) : (s.withEmb v).coef = s.coef := (rfl)
@[simp] theorem State.withEmb_hidden (v : EmbRegs) : (s.withEmb v).hidden = s.hidden := (rfl)
@[simp] theorem State.withEmb_mems (v : EmbRegs) : (s.withEmb v).mems = s.mems := (rfl)
@[simp] theorem State.withEmb_host (v : EmbRegs) : (s.withEmb v).host = s.host := (rfl)
@[simp] theorem State.withEmb_free (v : EmbRegs) : (s.withEmb v).free = s.free := (rfl)

@[simp] theorem State.withExt_status (v : ExtRegs) : (s.withExt v).status = s.status := (rfl)
@[simp] theorem State.withExt_errs (v : ExtRegs) : (s.withExt v).errs = s.errs := (rfl)
@[simp] theorem State.withExt_ctrl (v : ExtRegs) : (s.withExt v).ctrl = s.ctrl := (rfl)
@[simp] theorem State.withExt_intPend (v : ExtRegs) : (s.withExt v).intPend = s.intPend := (rfl)
@[simp] theorem State.withExt_caps (v : ExtRegs) : (s.withExt v).caps = s.caps := (rfl)
@[simp] theorem State.withExt_qim (v : ExtRegs) : (s.withExt v).qim = s.qim := (rfl)
@[simp] theorem State.withExt_frm (v : ExtRegs) : (s.withExt v).frm = s.frm := (rfl)
@[simp] theorem State.withExt_frmBits (v : ExtRegs) : (s.withExt v).frmBits = s.frmBits := (rfl)
@[simp] theorem State.withExt_emb (v : ExtRegs) : (s.withExt v).emb = s.emb := (rfl)
@[simp] theorem State.withExt_ext (v : ExtRegs) : (s.withExt v).ext = v := (rfl)
@[simp] theorem State.withExt_hdr (v : ExtRegs) : (s.withExt v).hdr = s.hdr := (rfl)
@[simp] theorem State.withExt_ptLen (v : ExtRegs) : (s.withExt v).ptLen = s.ptLen := (rfl)
@[simp] theorem State.withExt_range (v : ExtRegs) : (s.withExt v).range = s.range := (rfl)
@[simp] theorem State.withExt_port (v : ExtRegs) : (s.withExt v).port = s.port := (rfl)
@[simp] theorem State.withExt_priv (v : ExtRegs) : (s.withExt v).priv = s.priv := (rfl)
@[simp] theorem State.withExt_pix (v : ExtRegs) : (s.withExt v).pix = s.pix := (rfl)
@[simp] theorem State.withExt_coef (v : ExtRegs) : (s.withExt v).coef = s.coef := (rfl)
@[simp] theorem State.withExt_hidden (v : ExtRegs) : (s.withExt v).hidden = s.hidden := (rfl)
@[simp] theorem State.withExt_mems (v : ExtRegs) : (s.withExt v).mems = s.mems := (rfl)
@[simp] theorem State.withExt_host (v : ExtRegs) : (s.withExt v).host = s.host := (rfl)
@[simp] theorem State.withExt_free (v : ExtRegs) : (s.withExt v).free = s.free := (rfl)

@[simp] theorem State.withHdr_status (v : HdrRegs) : (s.withHdr v).status = s.status := (rfl)
@[simp] theorem State.withHdr_errs (v : HdrRegs) : (s.withHdr v).errs = s.errs := (rfl)
@[simp] theorem State.withHdr_ctrl (v : HdrRegs) : (s.withHdr v).ctrl = s.ctrl := (rfl)
@[simp] theorem State.withHdr_intPend (v : HdrRegs) : (s.withHdr v).intPend = s.intPend := (rfl)
@[simp] theorem State.withHdr_caps (v : HdrRegs) : (s.withHdr v).caps = s.caps := (rfl)
@[simp] theorem State.withHdr_qim (v : HdrRegs) : (s.withHdr v).qim = s.qim := (rfl)
@[simp] theorem State.withHdr_frm (v : HdrRegs) : (s.withHdr v).frm = s.frm := (rfl)
@[simp] theorem State.withHdr_frmBits (v : HdrRegs) : (s.withHdr v).frmBits = s.frmBits := (rfl)
@[simp] theorem State.withHdr_emb (v : HdrRegs) : (s.withHdr v).emb = s.emb := (rfl)
@[simp] theorem State.withHdr_ext (v : HdrRegs) : (s.withHdr v).ext = s.ext := (rfl)
@[simp] theorem State.withHdr_hdr (v : HdrRegs) : (s.withHdr v).hdr = v := (rfl)
@[simp] theorem State.withHdr_ptLen (v : HdrRegs) : (s.withHdr v).ptLen = s.ptLen := (rfl)
@[simp] theorem State.withHdr_range (v : HdrRegs) : (s.withHdr v).range = s.range := (rfl)
@[simp] theorem State.withHdr_port (v : HdrRegs) : (s.withHdr v).port = s.port := (rfl)
@[simp] theorem State.withHdr_priv (v : HdrRegs) : (s.withHdr v).priv = s.priv := (rfl)
@[simp] theorem State.withHdr_pix (v : HdrRegs) : (s.withHdr v).pix = s.pix := (rfl)
@[simp] theorem State.withHdr_coef (v : HdrRegs) : (s.withHdr v).coef = s.coef := (rfl)
@[simp] theorem State.withHdr_hidden (v : HdrRegs) : (s.withHdr v).hidden = s.hidden := (rfl)
@[simp] theorem State.withHdr_mems (v : HdrRegs) : (s.withHdr v).mems = s.mems := (rfl)
@[simp] theorem State.withHdr_host (v : HdrRegs) : (s.withHdr v).host = s.host := (rfl)
@[simp] theorem State.withHdr_free (v : HdrRegs) : (s.withHdr v).free = s.free := (rfl)

@[simp] theorem State.withPtLen_status (v : Word) : (s.withPtLen v).status = s.status := (rfl)
@[simp] theorem State.withPtLen_errs (v : Word) : (s.withPtLen v).errs = s.errs := (rfl)
@[simp] theorem State.withPtLen_ctrl (v : Word) : (s.withPtLen v).ctrl = s.ctrl := (rfl)
@[simp] theorem State.withPtLen_intPend (v : Word) : (s.withPtLen v).intPend = s.intPend := (rfl)
@[simp] theorem State.withPtLen_caps (v : Word) : (s.withPtLen v).caps = s.caps := (rfl)
@[simp] theorem State.withPtLen_qim (v : Word) : (s.withPtLen v).qim = s.qim := (rfl)
@[simp] theorem State.withPtLen_frm (v : Word) : (s.withPtLen v).frm = s.frm := (rfl)
@[simp] theorem State.withPtLen_frmBits (v : Word) : (s.withPtLen v).frmBits = s.frmBits := (rfl)
@[simp] theorem State.withPtLen_emb (v : Word) : (s.withPtLen v).emb = s.emb := (rfl)
@[simp] theorem State.withPtLen_ext (v : Word) : (s.withPtLen v).ext = s.ext := (rfl)
@[simp] theorem State.withPtLen_hdr (v : Word) : (s.withPtLen v).hdr = s.hdr := (rfl)
@[simp] theorem State.withPtLen_ptLen (v : Word) : (s.withPtLen v).ptLen = v := (rfl)
@[simp] theorem State.withPtLen_range (v : Word) : (s.withPtLen v).range = s.range := (rfl)
@[simp] theorem State.withPtLen_port (v : Word) : (s.withPtLen v).port = s.port := (rfl)
@[simp] theorem State.withPtLen_priv (v : Word) : (s.withPtLen v).priv = s.priv := (rfl)
@[simp] theorem State.withPtLen_pix (v : Word) : (s.withPtLen v).pix = s.pix := (rfl)
@[simp] theorem State.withPtLen_coef (v : Word) : (s.withPtLen v).coef = s.coef := (rfl)
@[simp] theorem State.withPtLen_hidden (v : Word) : (s.withPtLen v).hidden = s.hidden := (rfl)
@[simp] theorem State.withPtLen_mems (v : Word) : (s.withPtLen v).mems = s.mems := (rfl)
@[simp] theorem State.withPtLen_host (v : Word) : (s.withPtLen v).host = s.host := (rfl)
@[simp] theorem State.withPtLen_free (v : Word) : (s.withPtLen v).free = s.free := (rfl)

@[simp] theorem State.withRange_status (v : RangeRegs) : (s.withRange v).status = s.status := (rfl)
@[simp] theorem State.withRange_errs (v : RangeRegs) : (s.withRange v).errs = s.errs := (rfl)
@[simp] theorem State.withRange_ctrl (v : RangeRegs) : (s.withRange v).ctrl = s.ctrl := (rfl)
@[simp] theorem State.withRange_intPend (v : RangeRegs) : (s.withRange v).intPend = s.intPend := (rfl)
@[simp] theorem State.withRange_caps (v : RangeRegs) : (s.withRange v).caps = s.caps := (rfl)
@[simp] theorem State.withRange_qim (v : RangeRegs) : (s.withRange v).qim = s.qim := (rfl)
@[simp] theorem State.withRange_frm (v : RangeRegs) : (s.withRange v).frm = s.frm := (rfl)
@[simp] theorem State.withRange_frmBits (v : RangeRegs) : (s.withRange v).frmBits = s.frmBits := (rfl)
@[simp] theorem State.withRange_emb (v : RangeRegs) : (s.withRange v).emb = s.emb := (rfl)
@[simp] theorem State.withRange_ext (v : RangeRegs) : (s.withRange v).ext = s.ext := (rfl)
@[simp] theorem State.withRange_hdr (v : RangeRegs) : (s.withRange v).hdr = s.hdr := (rfl)
@[simp] theorem State.withRange_ptLen (v : RangeRegs) : (s.withRange v).ptLen = s.ptLen := (rfl)
@[simp] theorem State.withRange_range (v : RangeRegs) : (s.withRange v).range = v := (rfl)
@[simp] theorem State.withRange_port (v : RangeRegs) : (s.withRange v).port = s.port := (rfl)
@[simp] theorem State.withRange_priv (v : RangeRegs) : (s.withRange v).priv = s.priv := (rfl)
@[simp] theorem State.withRange_pix (v : RangeRegs) : (s.withRange v).pix = s.pix := (rfl)
@[simp] theorem State.withRange_coef (v : RangeRegs) : (s.withRange v).coef = s.coef := (rfl)
@[simp] theorem State.withRange_hidden (v : RangeRegs) : (s.withRange v).hidden = s.hidden := (rfl)
@[simp] theorem State.withRange_mems (v : RangeRegs) : (s.withRange v).mems = s.mems := (rfl)
@[simp] theorem State.withRange_host (v : RangeRegs) : (s.withRange v).host = s.host := (rfl)
@[simp] theorem State.withRange_free (v : RangeRegs) : (s.withRange v).free = s.free := (rfl)

@[simp] theorem State.withPort_status (v : PortRegs) : (s.withPort v).status = s.status := (rfl)
@[simp] theorem State.withPort_errs (v : PortRegs) : (s.withPort v).errs = s.errs := (rfl)
@[simp] theorem State.withPort_ctrl (v : PortRegs) : (s.withPort v).ctrl = s.ctrl := (rfl)
@[simp] theorem State.withPort_intPend (v : PortRegs) : (s.withPort v).intPend = s.intPend := (rfl)
@[simp] theorem State.withPort_caps (v : PortRegs) : (s.withPort v).caps = s.caps := (rfl)
@[simp] theorem State.withPort_qim (v : PortRegs) : (s.withPort v).qim = s.qim := (rfl)
@[simp] theorem State.withPort_frm (v : PortRegs) : (s.withPort v).frm = s.frm := (rfl)
@[simp] theorem State.withPort_frmBits (v : PortRegs) : (s.withPort v).frmBits = s.frmBits := (rfl)
@[simp] theorem State.withPort_emb (v : PortRegs) : (s.withPort v).emb = s.emb := (rfl)
@[simp] theorem State.withPort_ext (v : PortRegs) : (s.withPort v).ext = s.ext := (rfl)
@[simp] theorem State.withPort_hdr (v : PortRegs) : (s.withPort v).hdr = s.hdr := (rfl)
@[simp] theorem State.withPort_ptLen (v : PortRegs) : (s.withPort v).ptLen = s.ptLen := (rfl)
@[simp] theorem State.withPort_range (v : PortRegs) : (s.withPort v).range = s.range := (rfl)
@[simp] theorem State.withPort_port (v : PortRegs) : (s.withPort v).port = v := (rfl)
@[simp] theorem State.withPort_priv (v : PortRegs) : (s.withPort v).priv = s.priv := (rfl)
@[simp] theorem State.withPort_pix (v : PortRegs) : (s.withPort v).pix = s.pix := (rfl)
@[simp] theorem State.withPort_coef (v : PortRegs) : (s.withPort v).coef = s.coef := (rfl)
@[simp] theorem State.withPort_hidden (v : PortRegs) : (s.withPort v).hidden = s.hidden := (rfl)
@[simp] theorem State.withPort_mems (v : PortRegs) : (s.withPort v).mems = s.mems := (rfl)
@[simp] theorem State.withPort_host (v : PortRegs) : (s.withPort v).host = s.host := (rfl)
@[simp] theorem State.withPort_free (v : PortRegs) : (s.withPort v).free = s.free := (rfl)

@[simp] theorem State.withPriv_status (v : Vector Word 8) : (s.withPriv v).status = s.status := (rfl)
@[simp] theorem State.withPriv_errs (v : Vector Word 8) : (s.withPriv v).errs = s.errs := (rfl)
@[simp] theorem State.withPriv_ctrl (v : Vector Word 8) : (s.withPriv v).ctrl = s.ctrl := (rfl)
@[simp] theorem State.withPriv_intPend (v : Vector Word 8) : (s.withPriv v).intPend = s.intPend := (rfl)
@[simp] theorem State.withPriv_caps (v : Vector Word 8) : (s.withPriv v).caps = s.caps := (rfl)
@[simp] theorem State.withPriv_qim (v : Vector Word 8) : (s.withPriv v).qim = s.qim := (rfl)
@[simp] theorem State.withPriv_frm (v : Vector Word 8) : (s.withPriv v).frm = s.frm := (rfl)
@[simp] theorem State.withPriv_frmBits (v : Vector Word 8) : (s.withPriv v).frmBits = s.frmBits := (rfl)
@[simp] theorem State.withPriv_emb (v : Vector Word 8) : (s.withPriv v).emb = s.emb := (rfl)
@[simp] theorem State.withPriv_ext (v : Vector Word 8) : (s.withPriv v).ext = s.ext := (rfl)
@[simp] theorem State.withPriv_hdr (v : Vector Word 8) : (s.withPriv v).hdr = s.hdr := (rfl)
@[simp] theorem State.withPriv_ptLen (v : Vector Word 8) : (s.withPriv v).ptLen = s.ptLen := (rfl)
@[simp] theorem State.withPriv_range (v : Vector Word 8) : (s.withPriv v).range = s.range := (rfl)
@[simp] theorem State.withPriv_port (v : Vector Word 8) : (s.withPriv v).port = s.port := (rfl)
@[simp] theorem State.withPriv_priv (v : Vector Word 8) : (s.withPriv v).priv = v := (rfl)
@[simp] theorem State.withPriv_pix (v : Vector Word 8) : (s.withPriv v).pix = s.pix := (rfl)
@[simp] theorem State.withPriv_coef (v : Vector Word 8) : (s.withPriv v).coef = s.coef := (rfl)
@[simp] theorem State.withPriv_hidden (v : Vector Word 8) : (s.withPriv v).hidden = s.hidden := (rfl)
@[simp] theorem State.withPriv_mems (v : Vector Word 8) : (s.withPriv v).mems = s.mems := (rfl)
@[simp] theorem State.withPriv_host (v : Vector Word 8) : (s.withPriv v).host = s.host := (rfl)
@[simp] theorem State.withPriv_free (v : Vector Word 8) : (s.withPriv v).free = s.free := (rfl)

@[simp] theorem State.withPix_status (v : Vector Byte 64) : (s.withPix v).status = s.status := (rfl)
@[simp] theorem State.withPix_errs (v : Vector Byte 64) : (s.withPix v).errs = s.errs := (rfl)
@[simp] theorem State.withPix_ctrl (v : Vector Byte 64) : (s.withPix v).ctrl = s.ctrl := (rfl)
@[simp] theorem State.withPix_intPend (v : Vector Byte 64) : (s.withPix v).intPend = s.intPend := (rfl)
@[simp] theorem State.withPix_caps (v : Vector Byte 64) : (s.withPix v).caps = s.caps := (rfl)
@[simp] theorem State.withPix_qim (v : Vector Byte 64) : (s.withPix v).qim = s.qim := (rfl)
@[simp] theorem State.withPix_frm (v : Vector Byte 64) : (s.withPix v).frm = s.frm := (rfl)
@[simp] theorem State.withPix_frmBits (v : Vector Byte 64) : (s.withPix v).frmBits = s.frmBits := (rfl)
@[simp] theorem State.withPix_emb (v : Vector Byte 64) : (s.withPix v).emb = s.emb := (rfl)
@[simp] theorem State.withPix_ext (v : Vector Byte 64) : (s.withPix v).ext = s.ext := (rfl)
@[simp] theorem State.withPix_hdr (v : Vector Byte 64) : (s.withPix v).hdr = s.hdr := (rfl)
@[simp] theorem State.withPix_ptLen (v : Vector Byte 64) : (s.withPix v).ptLen = s.ptLen := (rfl)
@[simp] theorem State.withPix_range (v : Vector Byte 64) : (s.withPix v).range = s.range := (rfl)
@[simp] theorem State.withPix_port (v : Vector Byte 64) : (s.withPix v).port = s.port := (rfl)
@[simp] theorem State.withPix_priv (v : Vector Byte 64) : (s.withPix v).priv = s.priv := (rfl)
@[simp] theorem State.withPix_pix (v : Vector Byte 64) : (s.withPix v).pix = v := (rfl)
@[simp] theorem State.withPix_coef (v : Vector Byte 64) : (s.withPix v).coef = s.coef := (rfl)
@[simp] theorem State.withPix_hidden (v : Vector Byte 64) : (s.withPix v).hidden = s.hidden := (rfl)
@[simp] theorem State.withPix_mems (v : Vector Byte 64) : (s.withPix v).mems = s.mems := (rfl)
@[simp] theorem State.withPix_host (v : Vector Byte 64) : (s.withPix v).host = s.host := (rfl)
@[simp] theorem State.withPix_free (v : Vector Byte 64) : (s.withPix v).free = s.free := (rfl)

@[simp] theorem State.withCoef_status (v : Vector Word 64) : (s.withCoef v).status = s.status := (rfl)
@[simp] theorem State.withCoef_errs (v : Vector Word 64) : (s.withCoef v).errs = s.errs := (rfl)
@[simp] theorem State.withCoef_ctrl (v : Vector Word 64) : (s.withCoef v).ctrl = s.ctrl := (rfl)
@[simp] theorem State.withCoef_intPend (v : Vector Word 64) : (s.withCoef v).intPend = s.intPend := (rfl)
@[simp] theorem State.withCoef_caps (v : Vector Word 64) : (s.withCoef v).caps = s.caps := (rfl)
@[simp] theorem State.withCoef_qim (v : Vector Word 64) : (s.withCoef v).qim = s.qim := (rfl)
@[simp] theorem State.withCoef_frm (v : Vector Word 64) : (s.withCoef v).frm = s.frm := (rfl)
@[simp] theorem State.withCoef_frmBits (v : Vector Word 64) : (s.withCoef v).frmBits = s.frmBits := (rfl)
@[simp] theorem State.withCoef_emb (v : Vector Word 64) : (s.withCoef v).emb = s.emb := (rfl)
@[simp] theorem State.withCoef_ext (v : Vector Word 64) : (s.withCoef v).ext = s.ext := (rfl)
@[simp] theorem State.withCoef_hdr (v : Vector Word 64) : (s.withCoef v).hdr = s.hdr := (rfl)
@[simp] theorem State.withCoef_ptLen (v : Vector Word 64) : (s.withCoef v).ptLen = s.ptLen := (rfl)
@[simp] theorem State.withCoef_range (v : Vector Word 64) : (s.withCoef v).range = s.range := (rfl)
@[simp] theorem State.withCoef_port (v : Vector Word 64) : (s.withCoef v).port = s.port := (rfl)
@[simp] theorem State.withCoef_priv (v : Vector Word 64) : (s.withCoef v).priv = s.priv := (rfl)
@[simp] theorem State.withCoef_pix (v : Vector Word 64) : (s.withCoef v).pix = s.pix := (rfl)
@[simp] theorem State.withCoef_coef (v : Vector Word 64) : (s.withCoef v).coef = v := (rfl)
@[simp] theorem State.withCoef_hidden (v : Vector Word 64) : (s.withCoef v).hidden = s.hidden := (rfl)
@[simp] theorem State.withCoef_mems (v : Vector Word 64) : (s.withCoef v).mems = s.mems := (rfl)
@[simp] theorem State.withCoef_host (v : Vector Word 64) : (s.withCoef v).host = s.host := (rfl)
@[simp] theorem State.withCoef_free (v : Vector Word 64) : (s.withCoef v).free = s.free := (rfl)

@[simp] theorem State.withHidden_status (v : HiddenRegs) : (s.withHidden v).status = s.status := (rfl)
@[simp] theorem State.withHidden_errs (v : HiddenRegs) : (s.withHidden v).errs = s.errs := (rfl)
@[simp] theorem State.withHidden_ctrl (v : HiddenRegs) : (s.withHidden v).ctrl = s.ctrl := (rfl)
@[simp] theorem State.withHidden_intPend (v : HiddenRegs) : (s.withHidden v).intPend = s.intPend := (rfl)
@[simp] theorem State.withHidden_caps (v : HiddenRegs) : (s.withHidden v).caps = s.caps := (rfl)
@[simp] theorem State.withHidden_qim (v : HiddenRegs) : (s.withHidden v).qim = s.qim := (rfl)
@[simp] theorem State.withHidden_frm (v : HiddenRegs) : (s.withHidden v).frm = s.frm := (rfl)
@[simp] theorem State.withHidden_frmBits (v : HiddenRegs) : (s.withHidden v).frmBits = s.frmBits := (rfl)
@[simp] theorem State.withHidden_emb (v : HiddenRegs) : (s.withHidden v).emb = s.emb := (rfl)
@[simp] theorem State.withHidden_ext (v : HiddenRegs) : (s.withHidden v).ext = s.ext := (rfl)
@[simp] theorem State.withHidden_hdr (v : HiddenRegs) : (s.withHidden v).hdr = s.hdr := (rfl)
@[simp] theorem State.withHidden_ptLen (v : HiddenRegs) : (s.withHidden v).ptLen = s.ptLen := (rfl)
@[simp] theorem State.withHidden_range (v : HiddenRegs) : (s.withHidden v).range = s.range := (rfl)
@[simp] theorem State.withHidden_port (v : HiddenRegs) : (s.withHidden v).port = s.port := (rfl)
@[simp] theorem State.withHidden_priv (v : HiddenRegs) : (s.withHidden v).priv = s.priv := (rfl)
@[simp] theorem State.withHidden_pix (v : HiddenRegs) : (s.withHidden v).pix = s.pix := (rfl)
@[simp] theorem State.withHidden_coef (v : HiddenRegs) : (s.withHidden v).coef = s.coef := (rfl)
@[simp] theorem State.withHidden_hidden (v : HiddenRegs) : (s.withHidden v).hidden = v := (rfl)
@[simp] theorem State.withHidden_mems (v : HiddenRegs) : (s.withHidden v).mems = s.mems := (rfl)
@[simp] theorem State.withHidden_host (v : HiddenRegs) : (s.withHidden v).host = s.host := (rfl)
@[simp] theorem State.withHidden_free (v : HiddenRegs) : (s.withHidden v).free = s.free := (rfl)

@[simp] theorem State.withMems_status (v : Memories) : (s.withMems v).status = s.status := (rfl)
@[simp] theorem State.withMems_errs (v : Memories) : (s.withMems v).errs = s.errs := (rfl)
@[simp] theorem State.withMems_ctrl (v : Memories) : (s.withMems v).ctrl = s.ctrl := (rfl)
@[simp] theorem State.withMems_intPend (v : Memories) : (s.withMems v).intPend = s.intPend := (rfl)
@[simp] theorem State.withMems_caps (v : Memories) : (s.withMems v).caps = s.caps := (rfl)
@[simp] theorem State.withMems_qim (v : Memories) : (s.withMems v).qim = s.qim := (rfl)
@[simp] theorem State.withMems_frm (v : Memories) : (s.withMems v).frm = s.frm := (rfl)
@[simp] theorem State.withMems_frmBits (v : Memories) : (s.withMems v).frmBits = s.frmBits := (rfl)
@[simp] theorem State.withMems_emb (v : Memories) : (s.withMems v).emb = s.emb := (rfl)
@[simp] theorem State.withMems_ext (v : Memories) : (s.withMems v).ext = s.ext := (rfl)
@[simp] theorem State.withMems_hdr (v : Memories) : (s.withMems v).hdr = s.hdr := (rfl)
@[simp] theorem State.withMems_ptLen (v : Memories) : (s.withMems v).ptLen = s.ptLen := (rfl)
@[simp] theorem State.withMems_range (v : Memories) : (s.withMems v).range = s.range := (rfl)
@[simp] theorem State.withMems_port (v : Memories) : (s.withMems v).port = s.port := (rfl)
@[simp] theorem State.withMems_priv (v : Memories) : (s.withMems v).priv = s.priv := (rfl)
@[simp] theorem State.withMems_pix (v : Memories) : (s.withMems v).pix = s.pix := (rfl)
@[simp] theorem State.withMems_coef (v : Memories) : (s.withMems v).coef = s.coef := (rfl)
@[simp] theorem State.withMems_hidden (v : Memories) : (s.withMems v).hidden = s.hidden := (rfl)
@[simp] theorem State.withMems_mems (v : Memories) : (s.withMems v).mems = v := (rfl)
@[simp] theorem State.withMems_host (v : Memories) : (s.withMems v).host = s.host := (rfl)
@[simp] theorem State.withMems_free (v : Memories) : (s.withMems v).free = s.free := (rfl)

@[simp] theorem State.withHost_status (v : HostSide) : (s.withHost v).status = s.status := (rfl)
@[simp] theorem State.withHost_errs (v : HostSide) : (s.withHost v).errs = s.errs := (rfl)
@[simp] theorem State.withHost_ctrl (v : HostSide) : (s.withHost v).ctrl = s.ctrl := (rfl)
@[simp] theorem State.withHost_intPend (v : HostSide) : (s.withHost v).intPend = s.intPend := (rfl)
@[simp] theorem State.withHost_caps (v : HostSide) : (s.withHost v).caps = s.caps := (rfl)
@[simp] theorem State.withHost_qim (v : HostSide) : (s.withHost v).qim = s.qim := (rfl)
@[simp] theorem State.withHost_frm (v : HostSide) : (s.withHost v).frm = s.frm := (rfl)
@[simp] theorem State.withHost_frmBits (v : HostSide) : (s.withHost v).frmBits = s.frmBits := (rfl)
@[simp] theorem State.withHost_emb (v : HostSide) : (s.withHost v).emb = s.emb := (rfl)
@[simp] theorem State.withHost_ext (v : HostSide) : (s.withHost v).ext = s.ext := (rfl)
@[simp] theorem State.withHost_hdr (v : HostSide) : (s.withHost v).hdr = s.hdr := (rfl)
@[simp] theorem State.withHost_ptLen (v : HostSide) : (s.withHost v).ptLen = s.ptLen := (rfl)
@[simp] theorem State.withHost_range (v : HostSide) : (s.withHost v).range = s.range := (rfl)
@[simp] theorem State.withHost_port (v : HostSide) : (s.withHost v).port = s.port := (rfl)
@[simp] theorem State.withHost_priv (v : HostSide) : (s.withHost v).priv = s.priv := (rfl)
@[simp] theorem State.withHost_pix (v : HostSide) : (s.withHost v).pix = s.pix := (rfl)
@[simp] theorem State.withHost_coef (v : HostSide) : (s.withHost v).coef = s.coef := (rfl)
@[simp] theorem State.withHost_hidden (v : HostSide) : (s.withHost v).hidden = s.hidden := (rfl)
@[simp] theorem State.withHost_mems (v : HostSide) : (s.withHost v).mems = s.mems := (rfl)
@[simp] theorem State.withHost_host (v : HostSide) : (s.withHost v).host = v := (rfl)
@[simp] theorem State.withHost_free (v : HostSide) : (s.withHost v).free = s.free := (rfl)

@[simp] theorem State.withFree_status (v : FreeSide) : (s.withFree v).status = s.status := (rfl)
@[simp] theorem State.withFree_errs (v : FreeSide) : (s.withFree v).errs = s.errs := (rfl)
@[simp] theorem State.withFree_ctrl (v : FreeSide) : (s.withFree v).ctrl = s.ctrl := (rfl)
@[simp] theorem State.withFree_intPend (v : FreeSide) : (s.withFree v).intPend = s.intPend := (rfl)
@[simp] theorem State.withFree_caps (v : FreeSide) : (s.withFree v).caps = s.caps := (rfl)
@[simp] theorem State.withFree_qim (v : FreeSide) : (s.withFree v).qim = s.qim := (rfl)
@[simp] theorem State.withFree_frm (v : FreeSide) : (s.withFree v).frm = s.frm := (rfl)
@[simp] theorem State.withFree_frmBits (v : FreeSide) : (s.withFree v).frmBits = s.frmBits := (rfl)
@[simp] theorem State.withFree_emb (v : FreeSide) : (s.withFree v).emb = s.emb := (rfl)
@[simp] theorem State.withFree_ext (v : FreeSide) : (s.withFree v).ext = s.ext := (rfl)
@[simp] theorem State.withFree_hdr (v : FreeSide) : (s.withFree v).hdr = s.hdr := (rfl)
@[simp] theorem State.withFree_ptLen (v : FreeSide) : (s.withFree v).ptLen = s.ptLen := (rfl)
@[simp] theorem State.withFree_range (v : FreeSide) : (s.withFree v).range = s.range := (rfl)
@[simp] theorem State.withFree_port (v : FreeSide) : (s.withFree v).port = s.port := (rfl)
@[simp] theorem State.withFree_priv (v : FreeSide) : (s.withFree v).priv = s.priv := (rfl)
@[simp] theorem State.withFree_pix (v : FreeSide) : (s.withFree v).pix = s.pix := (rfl)
@[simp] theorem State.withFree_coef (v : FreeSide) : (s.withFree v).coef = s.coef := (rfl)
@[simp] theorem State.withFree_hidden (v : FreeSide) : (s.withFree v).hidden = s.hidden := (rfl)
@[simp] theorem State.withFree_mems (v : FreeSide) : (s.withFree v).mems = s.mems := (rfl)
@[simp] theorem State.withFree_host (v : FreeSide) : (s.withFree v).host = s.host := (rfl)
@[simp] theorem State.withFree_free (v : FreeSide) : (s.withFree v).free = v := (rfl)

/-- Two states with the same fields are the same state. -/
theorem State.eq_of_fields {s t : State}
    (_ : t.status = s.status)
    (_ : t.errs = s.errs)
    (_ : t.ctrl = s.ctrl)
    (_ : t.intPend = s.intPend)
    (_ : t.caps = s.caps)
    (_ : t.qim = s.qim)
    (_ : t.frm = s.frm)
    (_ : t.frmBits = s.frmBits)
    (_ : t.emb = s.emb)
    (_ : t.ext = s.ext)
    (_ : t.hdr = s.hdr)
    (_ : t.ptLen = s.ptLen)
    (_ : t.range = s.range)
    (_ : t.port = s.port)
    (_ : t.priv = s.priv)
    (_ : t.pix = s.pix)
    (_ : t.coef = s.coef)
    (_ : t.hidden = s.hidden)
    (_ : t.mems = s.mems)
    (_ : t.host = s.host)
    (_ : t.free = s.free)
    : t = s := by
  cases s; cases t; simp_all

end Sys2Proof.Machine
end

