-- ==== Sys2Proof/Laws/Memory.lean ====
section
/-! SUPPORT. Laws of the memories: read after write, canonical form, and what the memory operations leave alone. -/

namespace Sys2Proof.Machine

/-! ### One memory -/

theorem Memory.find_write_same (m : Memory) (a : Nat) (b : Byte) : (m.write a b).find a = some b := by
  induction m with
  | nil => simp [Memory.write, Memory.find]
  | cons c rest ih =>
    simp only [Memory.write]
    split
    · simp [Memory.find]
    · split
      · simp [Memory.find]
      · simp only [Memory.find, ih]
        rw [if_neg]; omega

theorem Memory.find_write_other (m : Memory) {a a' : Nat} (b : Byte) (h : a' ≠ a) :
    (m.write a b).find a' = m.find a' := by
  induction m with
  | nil => simp [Memory.write, Memory.find, Ne.symm h]
  | cons c rest ih =>
    simp only [Memory.write]
    split
    · simp [Memory.find, Ne.symm h]
    · split
      · rename_i h1 h2
        simp only [Memory.find]
        rw [if_neg (Ne.symm h), if_neg (by omega)]
      · simp only [Memory.find, ih]

/-- The first address of a memory, if it lists any. -/
theorem Memory.rising_cons (c : Host.Cell) (m : Memory) :
    Memory.rising (c :: m) = true ↔ (∀ d ∈ m.head?, c.1 < d.1) ∧ m.rising = true := by
  cases m with
  | nil => simp [Memory.rising]
  | cons d rest => simp [Memory.rising]

theorem Memory.rising_write (m : Memory) (a : Nat) (b : Byte) (h : m.rising = true) : (m.write a b).rising = true := by
  induction m with
  | nil => rfl
  | cons c rest ih =>
    rw [Memory.rising_cons] at h
    simp only [Memory.write]
    split
    · rw [Memory.rising_cons, Memory.rising_cons]
      exact ⟨by simpa using ‹a < c.1›, h⟩
    · split
      · rename_i h2
        rw [Memory.rising_cons]
        exact ⟨by simpa [h2] using h.1, h.2⟩
      · rw [Memory.rising_cons]
        refine ⟨?_, ih h.2⟩
        have hac : c.1 < a := by omega
        cases rest with
        | nil => simpa [Memory.write] using hac
        | cons d rest' =>
          have hcd : c.1 < d.1 := by simpa using h.1
          simp only [Memory.write]
          split
          · simpa using hac
          · split <;> simpa using by first | exact hac | exact hcd

theorem Memory.all_write (m : Memory) (a : Nat) (b : Byte) (p : Host.Cell → Bool) (hm : m.all p = true)
    (ha : p (a, b) = true) : (m.write a b).all p = true := by
  induction m with
  | nil => simpa [Memory.write] using ha
  | cons c rest ih =>
    simp only [List.all_cons, Bool.and_eq_true] at hm
    simp only [Memory.write]
    split
    · simp [ha, hm.1, hm.2]
    · split
      · simp [ha, hm.2]
      · simp [hm.1, ih hm.2]

/-- A write inside the memory keeps the canonical form. -/
theorem Memory.wf_write {size : Nat} {m : Memory} {a : Nat} (b : Byte) (hm : Memory.wf size m = true) (ha : a < size) :
    Memory.wf size (m.write a b) = true := by
  simp only [Memory.wf, Bool.and_eq_true] at hm ⊢
  exact ⟨m.rising_write a b hm.1, m.all_write a b _ hm.2 (by simpa using ha)⟩

/-! ### The seven memories -/

@[simp] theorem Memories.get_set_same (ms : Memories) (sp : Space) (m : Memory) : (ms.set sp m).get sp = m := by
  cases sp <;> rfl

theorem Memories.get_set_other (ms : Memories) {sp sp' : Space} (m : Memory) (h : sp' ≠ sp) :
    (ms.set sp m).get sp' = ms.get sp' := by
  cases sp <;> cases sp' <;> first | rfl | exact absurd rfl h

/-! ### What a write of bytes leaves alone: every field but the memories -/

section WriteByte

variable (s : State) (sp : Space) (a : Nat) (b : Byte)

@[simp] theorem State.writeByte_status : (s.writeByte sp a b).status = s.status := (rfl)
@[simp] theorem State.writeByte_errs : (s.writeByte sp a b).errs = s.errs := (rfl)
@[simp] theorem State.writeByte_ctrl : (s.writeByte sp a b).ctrl = s.ctrl := (rfl)
@[simp] theorem State.writeByte_intPend : (s.writeByte sp a b).intPend = s.intPend := (rfl)
@[simp] theorem State.writeByte_caps : (s.writeByte sp a b).caps = s.caps := (rfl)
@[simp] theorem State.writeByte_qim : (s.writeByte sp a b).qim = s.qim := (rfl)
@[simp] theorem State.writeByte_frm : (s.writeByte sp a b).frm = s.frm := (rfl)
@[simp] theorem State.writeByte_frmBits : (s.writeByte sp a b).frmBits = s.frmBits := (rfl)
@[simp] theorem State.writeByte_emb : (s.writeByte sp a b).emb = s.emb := (rfl)
@[simp] theorem State.writeByte_ext : (s.writeByte sp a b).ext = s.ext := (rfl)
@[simp] theorem State.writeByte_hdr : (s.writeByte sp a b).hdr = s.hdr := (rfl)
@[simp] theorem State.writeByte_ptLen : (s.writeByte sp a b).ptLen = s.ptLen := (rfl)
@[simp] theorem State.writeByte_range : (s.writeByte sp a b).range = s.range := (rfl)
@[simp] theorem State.writeByte_port : (s.writeByte sp a b).port = s.port := (rfl)
@[simp] theorem State.writeByte_priv : (s.writeByte sp a b).priv = s.priv := (rfl)
@[simp] theorem State.writeByte_pix : (s.writeByte sp a b).pix = s.pix := (rfl)
@[simp] theorem State.writeByte_coef : (s.writeByte sp a b).coef = s.coef := (rfl)
@[simp] theorem State.writeByte_hidden : (s.writeByte sp a b).hidden = s.hidden := (rfl)
@[simp] theorem State.writeByte_host : (s.writeByte sp a b).host = s.host := (rfl)
@[simp] theorem State.writeByte_free : (s.writeByte sp a b).free = s.free := (rfl)
end WriteByte

/-- Read after write, at every address of every memory. -/
theorem State.readByte_writeByte (s : State) (sp sp' : Space) (a a' : Nat) (b : Byte) :
    (s.writeByte sp a b).readByte sp' a'
      = if sp' = sp ∧ a' = a ∧ a < memSize s.caps sp then b else s.readByte sp' a' := by
  unfold State.readByte
  by_cases hin : a < memSize s.caps sp
  · simp only [State.writeByte, if_pos hin, State.withMems_caps, State.withMems_mems, State.withMems_free]
    by_cases hsp : sp' = sp
    · subst hsp
      by_cases ha : a' = a
      · subst ha; simp [hin, Memory.find_write_same]
      · simp [ha, Memory.find_write_other _ _ ha]
    · simp [hsp, Memories.get_set_other _ _ hsp]
  · simp only [State.writeByte, if_neg hin, State.withMems_caps, State.withMems_mems, State.withMems_free]
    simp [hin]

theorem State.readByte_writeByte_same (s : State) (sp : Space) (a : Nat) (b : Byte) (h : a < memSize s.caps sp) :
    (s.writeByte sp a b).readByte sp a = b := by
  simp [State.readByte_writeByte, h]

theorem State.readByte_writeByte_other (s : State) {sp sp' : Space} {a a' : Nat} (b : Byte) (h : ¬(sp' = sp ∧ a' = a)) :
    (s.writeByte sp a b).readByte sp' a' = s.readByte sp' a' := by
  rw [State.readByte_writeByte, if_neg (fun x => h ⟨x.1, x.2.1⟩)]

/-- A read depends on the capacities, the memories and the free side only. -/
theorem State.readByte_congr {s t : State} (hc : t.caps = s.caps) (hm : t.mems = s.mems) (hf : t.free = s.free)
    (sp : Space) (a : Nat) : t.readByte sp a = s.readByte sp a := by
  simp only [State.readByte, hc, hm, hf]

section WriteBytes

variable (s : State) (sp : Space) (a : Nat) (bs : List Byte)

@[simp] theorem State.writeBytes_status : (s.writeBytes sp a bs).status = s.status := by
  induction bs generalizing s a with
  | nil => rfl
  | cons b bs ih => exact (ih (s.writeByte sp a b) (a + 1)).trans rfl
@[simp] theorem State.writeBytes_errs : (s.writeBytes sp a bs).errs = s.errs := by
  induction bs generalizing s a with
  | nil => rfl
  | cons b bs ih => exact (ih (s.writeByte sp a b) (a + 1)).trans rfl
@[simp] theorem State.writeBytes_ctrl : (s.writeBytes sp a bs).ctrl = s.ctrl := by
  induction bs generalizing s a with
  | nil => rfl
  | cons b bs ih => exact (ih (s.writeByte sp a b) (a + 1)).trans rfl
@[simp] theorem State.writeBytes_intPend : (s.writeBytes sp a bs).intPend = s.intPend := by
  induction bs generalizing s a with
  | nil => rfl
  | cons b bs ih => exact (ih (s.writeByte sp a b) (a + 1)).trans rfl
@[simp] theorem State.writeBytes_caps : (s.writeBytes sp a bs).caps = s.caps := by
  induction bs generalizing s a with
  | nil => rfl
  | cons b bs ih => exact (ih (s.writeByte sp a b) (a + 1)).trans rfl
@[simp] theorem State.writeBytes_qim : (s.writeBytes sp a bs).qim = s.qim := by
  induction bs generalizing s a with
  | nil => rfl
  | cons b bs ih => exact (ih (s.writeByte sp a b) (a + 1)).trans rfl
@[simp] theorem State.writeBytes_frm : (s.writeBytes sp a bs).frm = s.frm := by
  induction bs generalizing s a with
  | nil => rfl
  | cons b bs ih => exact (ih (s.writeByte sp a b) (a + 1)).trans rfl
@[simp] theorem State.writeBytes_frmBits : (s.writeBytes sp a bs).frmBits = s.frmBits := by
  induction bs generalizing s a with
  | nil => rfl
  | cons b bs ih => exact (ih (s.writeByte sp a b) (a + 1)).trans rfl
@[simp] theorem State.writeBytes_emb : (s.writeBytes sp a bs).emb = s.emb := by
  induction bs generalizing s a with
  | nil => rfl
  | cons b bs ih => exact (ih (s.writeByte sp a b) (a + 1)).trans rfl
@[simp] theorem State.writeBytes_ext : (s.writeBytes sp a bs).ext = s.ext := by
  induction bs generalizing s a with
  | nil => rfl
  | cons b bs ih => exact (ih (s.writeByte sp a b) (a + 1)).trans rfl
@[simp] theorem State.writeBytes_hdr : (s.writeBytes sp a bs).hdr = s.hdr := by
  induction bs generalizing s a with
  | nil => rfl
  | cons b bs ih => exact (ih (s.writeByte sp a b) (a + 1)).trans rfl
@[simp] theorem State.writeBytes_ptLen : (s.writeBytes sp a bs).ptLen = s.ptLen := by
  induction bs generalizing s a with
  | nil => rfl
  | cons b bs ih => exact (ih (s.writeByte sp a b) (a + 1)).trans rfl
@[simp] theorem State.writeBytes_range : (s.writeBytes sp a bs).range = s.range := by
  induction bs generalizing s a with
  | nil => rfl
  | cons b bs ih => exact (ih (s.writeByte sp a b) (a + 1)).trans rfl
@[simp] theorem State.writeBytes_port : (s.writeBytes sp a bs).port = s.port := by
  induction bs generalizing s a with
  | nil => rfl
  | cons b bs ih => exact (ih (s.writeByte sp a b) (a + 1)).trans rfl
@[simp] theorem State.writeBytes_priv : (s.writeBytes sp a bs).priv = s.priv := by
  induction bs generalizing s a with
  | nil => rfl
  | cons b bs ih => exact (ih (s.writeByte sp a b) (a + 1)).trans rfl
@[simp] theorem State.writeBytes_pix : (s.writeBytes sp a bs).pix = s.pix := by
  induction bs generalizing s a with
  | nil => rfl
  | cons b bs ih => exact (ih (s.writeByte sp a b) (a + 1)).trans rfl
@[simp] theorem State.writeBytes_coef : (s.writeBytes sp a bs).coef = s.coef := by
  induction bs generalizing s a with
  | nil => rfl
  | cons b bs ih => exact (ih (s.writeByte sp a b) (a + 1)).trans rfl
@[simp] theorem State.writeBytes_hidden : (s.writeBytes sp a bs).hidden = s.hidden := by
  induction bs generalizing s a with
  | nil => rfl
  | cons b bs ih => exact (ih (s.writeByte sp a b) (a + 1)).trans rfl
@[simp] theorem State.writeBytes_host : (s.writeBytes sp a bs).host = s.host := by
  induction bs generalizing s a with
  | nil => rfl
  | cons b bs ih => exact (ih (s.writeByte sp a b) (a + 1)).trans rfl
@[simp] theorem State.writeBytes_free : (s.writeBytes sp a bs).free = s.free := by
  induction bs generalizing s a with
  | nil => rfl
  | cons b bs ih => exact (ih (s.writeByte sp a b) (a + 1)).trans rfl
end WriteBytes

/-- Read after a write of several bytes, at every address of every memory. -/
theorem State.readByte_writeBytes (s : State) (sp sp' : Space) (a a' : Nat) (bs : List Byte) :
    (s.writeBytes sp a bs).readByte sp' a'
      = if sp' = sp ∧ a ≤ a' ∧ a' < a + bs.length ∧ a' < memSize s.caps sp then bs.getD (a' - a) 0#8
        else s.readByte sp' a' := by
  induction bs generalizing s a with
  | nil => simp only [State.writeBytes, List.length_nil]; rw [if_neg]; omega
  | cons b bs ih =>
    simp only [State.writeBytes, List.length_cons]
    rw [ih, State.writeByte_caps, State.readByte_writeByte]
    by_cases hsp : sp' = sp
    · subst hsp
      simp only [true_and]
      by_cases hlt : a' < memSize s.caps sp'
      · rcases Nat.lt_trichotomy a' a with h | h | h
        · rw [if_neg (by omega), if_neg (by omega), if_neg (by omega)]
        · subst h; rw [if_neg (by omega), if_pos ⟨rfl, hlt⟩, if_pos (by omega)]; simp
        · by_cases hb : a' < a + 1 + bs.length
          · rw [if_pos (by omega), if_pos (by omega)]
            obtain ⟨k, rfl⟩ : ∃ k, a' = a + 1 + k := ⟨a' - (a + 1), by omega⟩
            rw [show a + 1 + k - (a + 1) = k by omega, show a + 1 + k - a = k + 1 by omega]; simp
          · rw [if_neg (by omega), if_neg (by omega), if_neg (by omega)]
      · rw [if_neg (by omega), if_neg (by omega), if_neg (by omega)]
    · rw [if_neg (fun h => hsp h.1), if_neg (fun h => hsp h.1), if_neg (fun h => hsp h.1)]

theorem State.readByte_writeBytes_other (s : State) {sp sp' : Space} {a a' : Nat} (bs : List Byte)
    (h : ¬(sp' = sp ∧ a ≤ a' ∧ a' < a + bs.length)) : (s.writeBytes sp a bs).readByte sp' a' = s.readByte sp' a' := by
  rw [State.readByte_writeBytes, if_neg (fun x => h ⟨x.1, x.2.1, x.2.2.1⟩)]

/-- Bytes written inside a memory read back. -/
theorem State.readBytes_writeBytes (s : State) (sp : Space) (a : Nat) (bs : List Byte)
    (h : a + bs.length ≤ memSize s.caps sp) : (s.writeBytes sp a bs).readBytes sp a bs.length = bs := by
  refine List.ext_getElem (by simp [State.readBytes]) fun i h1 h2 => ?_
  simp only [State.readBytes, List.getElem_map, List.getElem_range]
  rw [State.readByte_writeBytes, if_pos ⟨rfl, by omega, by omega, by omega⟩]
  simp [List.getD_eq_getElem?_getD, List.getElem?_eq_getElem h2]

/-- Equal reads give equal byte strings. -/
theorem State.readBytes_congr {s t : State} {sp : Space} {a n : Nat}
    (h : ∀ i < n, t.readByte sp (a + i) = s.readByte sp (a + i)) : t.readBytes sp a n = s.readBytes sp a n := by
  simp only [State.readBytes]
  exact List.map_congr_left fun i hi => h i (List.mem_range.mp hi)

@[simp] theorem State.length_readBytes (s : State) (sp : Space) (a n : Nat) : (s.readBytes sp a n).length = n := by
  simp [State.readBytes]

/-! ### Bits -/

theorem setBit_getLsbD (x : Byte) (j k : Nat) (b : Bool) (hj : j < 8) (hk : k < 8) :
    (setBit x j b).getLsbD k = if k = j then b else x.getLsbD k := by
  unfold setBit
  rcases Nat.lt_trichotomy k j with h | h | h
  · rw [if_neg (by omega)]; simp [hk, h]
  · subst h; simp [hk]
  · rw [if_neg (by omega)]
    have : k - j ≠ 0 := by omega
    simp [hk, show ¬ k < j by omega, this]

/-- Bit read after bit write, at every index of every memory. -/
theorem State.memBit_setMemBit (s : State) (sp sp' : Space) (i i' : Nat) (b : Bool) :
    (s.setMemBit sp i b).memBit sp' i'
      = if sp' = sp ∧ i' = i ∧ i / 8 < memSize s.caps sp then b else s.memBit sp' i' := by
  unfold State.memBit State.setMemBit
  rw [State.readByte_writeByte]
  by_cases h : sp' = sp ∧ i' / 8 = i / 8 ∧ i / 8 < memSize s.caps sp
  · obtain ⟨h1, h2, h3⟩ := h
    subst h1
    rw [if_pos ⟨rfl, h2, h3⟩, setBit_getLsbD _ _ _ _ (by omega) (by omega), h2]
    by_cases hi : i' = i
    · subst hi; simp [h3]
    · rw [if_neg (by omega), if_neg (by omega)]
  · rw [if_neg h, if_neg]
    rintro ⟨h1, h2, h3⟩
    exact h ⟨h1, by rw [h2], h3⟩

section SetMemBit

variable (s : State) (sp : Space) (i : Nat) (b : Bool) (f : Nat → Bool) (m : Nat)

@[simp] theorem State.setMemBit_status : (s.setMemBit sp i b).status = s.status := (rfl)
@[simp] theorem State.setMemBit_errs : (s.setMemBit sp i b).errs = s.errs := (rfl)
@[simp] theorem State.setMemBit_ctrl : (s.setMemBit sp i b).ctrl = s.ctrl := (rfl)
@[simp] theorem State.setMemBit_intPend : (s.setMemBit sp i b).intPend = s.intPend := (rfl)
@[simp] theorem State.setMemBit_caps : (s.setMemBit sp i b).caps = s.caps := (rfl)
@[simp] theorem State.setMemBit_qim : (s.setMemBit sp i b).qim = s.qim := (rfl)
@[simp] theorem State.setMemBit_frm : (s.setMemBit sp i b).frm = s.frm := (rfl)
@[simp] theorem State.setMemBit_frmBits : (s.setMemBit sp i b).frmBits = s.frmBits := (rfl)
@[simp] theorem State.setMemBit_emb : (s.setMemBit sp i b).emb = s.emb := (rfl)
@[simp] theorem State.setMemBit_ext : (s.setMemBit sp i b).ext = s.ext := (rfl)
@[simp] theorem State.setMemBit_hdr : (s.setMemBit sp i b).hdr = s.hdr := (rfl)
@[simp] theorem State.setMemBit_ptLen : (s.setMemBit sp i b).ptLen = s.ptLen := (rfl)
@[simp] theorem State.setMemBit_range : (s.setMemBit sp i b).range = s.range := (rfl)
@[simp] theorem State.setMemBit_port : (s.setMemBit sp i b).port = s.port := (rfl)
@[simp] theorem State.setMemBit_priv : (s.setMemBit sp i b).priv = s.priv := (rfl)
@[simp] theorem State.setMemBit_pix : (s.setMemBit sp i b).pix = s.pix := (rfl)
@[simp] theorem State.setMemBit_coef : (s.setMemBit sp i b).coef = s.coef := (rfl)
@[simp] theorem State.setMemBit_hidden : (s.setMemBit sp i b).hidden = s.hidden := (rfl)
@[simp] theorem State.setMemBit_host : (s.setMemBit sp i b).host = s.host := (rfl)
@[simp] theorem State.setMemBit_free : (s.setMemBit sp i b).free = s.free := (rfl)
@[simp] theorem State.setMemBits_status : (s.setMemBits sp i f m).status = s.status := by
  induction m with
  | zero => rfl
  | succ m ih => exact ih
@[simp] theorem State.setMemBits_errs : (s.setMemBits sp i f m).errs = s.errs := by
  induction m with
  | zero => rfl
  | succ m ih => exact ih
@[simp] theorem State.setMemBits_ctrl : (s.setMemBits sp i f m).ctrl = s.ctrl := by
  induction m with
  | zero => rfl
  | succ m ih => exact ih
@[simp] theorem State.setMemBits_intPend : (s.setMemBits sp i f m).intPend = s.intPend := by
  induction m with
  | zero => rfl
  | succ m ih => exact ih
@[simp] theorem State.setMemBits_caps : (s.setMemBits sp i f m).caps = s.caps := by
  induction m with
  | zero => rfl
  | succ m ih => exact ih
@[simp] theorem State.setMemBits_qim : (s.setMemBits sp i f m).qim = s.qim := by
  induction m with
  | zero => rfl
  | succ m ih => exact ih
@[simp] theorem State.setMemBits_frm : (s.setMemBits sp i f m).frm = s.frm := by
  induction m with
  | zero => rfl
  | succ m ih => exact ih
@[simp] theorem State.setMemBits_frmBits : (s.setMemBits sp i f m).frmBits = s.frmBits := by
  induction m with
  | zero => rfl
  | succ m ih => exact ih
@[simp] theorem State.setMemBits_emb : (s.setMemBits sp i f m).emb = s.emb := by
  induction m with
  | zero => rfl
  | succ m ih => exact ih
@[simp] theorem State.setMemBits_ext : (s.setMemBits sp i f m).ext = s.ext := by
  induction m with
  | zero => rfl
  | succ m ih => exact ih
@[simp] theorem State.setMemBits_hdr : (s.setMemBits sp i f m).hdr = s.hdr := by
  induction m with
  | zero => rfl
  | succ m ih => exact ih
@[simp] theorem State.setMemBits_ptLen : (s.setMemBits sp i f m).ptLen = s.ptLen := by
  induction m with
  | zero => rfl
  | succ m ih => exact ih
@[simp] theorem State.setMemBits_range : (s.setMemBits sp i f m).range = s.range := by
  induction m with
  | zero => rfl
  | succ m ih => exact ih
@[simp] theorem State.setMemBits_port : (s.setMemBits sp i f m).port = s.port := by
  induction m with
  | zero => rfl
  | succ m ih => exact ih
@[simp] theorem State.setMemBits_priv : (s.setMemBits sp i f m).priv = s.priv := by
  induction m with
  | zero => rfl
  | succ m ih => exact ih
@[simp] theorem State.setMemBits_pix : (s.setMemBits sp i f m).pix = s.pix := by
  induction m with
  | zero => rfl
  | succ m ih => exact ih
@[simp] theorem State.setMemBits_coef : (s.setMemBits sp i f m).coef = s.coef := by
  induction m with
  | zero => rfl
  | succ m ih => exact ih
@[simp] theorem State.setMemBits_hidden : (s.setMemBits sp i f m).hidden = s.hidden := by
  induction m with
  | zero => rfl
  | succ m ih => exact ih
@[simp] theorem State.setMemBits_host : (s.setMemBits sp i f m).host = s.host := by
  induction m with
  | zero => rfl
  | succ m ih => exact ih
@[simp] theorem State.setMemBits_free : (s.setMemBits sp i f m).free = s.free := by
  induction m with
  | zero => rfl
  | succ m ih => exact ih
end SetMemBit

/-- Bit read after a run of bit writes. -/
theorem State.memBit_setMemBits (s : State) (sp sp' : Space) (i i' : Nat) (f : Nat → Bool) (m : Nat) :
    (s.setMemBits sp i f m).memBit sp' i'
      = if sp' = sp ∧ i ≤ i' ∧ i' < i + m ∧ i' / 8 < memSize s.caps sp then f (i' - i) else s.memBit sp' i' := by
  induction m with
  | zero => simp only [State.setMemBits]; rw [if_neg]; omega
  | succ m ih =>
    simp only [State.setMemBits]
    rw [State.memBit_setMemBit, ih, State.setMemBits_caps]
    by_cases hsp : sp' = sp
    · subst hsp
      simp only [true_and]
      by_cases hi : i' = i + m
      · subst hi
        by_cases hs : (i + m) / 8 < memSize s.caps sp'
        · rw [if_pos ⟨rfl, hs⟩, if_pos (by omega)]; congr 1; omega
        · rw [if_neg (by omega), if_neg (by omega), if_neg (by omega)]
      · rw [if_neg (by omega)]
        by_cases hr : i ≤ i' ∧ i' < i + m ∧ i' / 8 < memSize s.caps sp'
        · rw [if_pos (by omega), if_pos (by omega)]
        · rw [if_neg (by omega), if_neg (by omega)]
    · rw [if_neg (fun h => hsp h.1), if_neg (fun h => hsp h.1), if_neg (fun h => hsp h.1)]

/-! ### The canonical form of all seven memories -/

theorem State.wf_writeByte (s : State) (sp : Space) (a : Nat) (b : Byte)
    (h : ∀ sp, Memory.wf (memSize s.caps sp) (s.mems.get sp) = true) (sp' : Space) :
    Memory.wf (memSize s.caps sp') ((s.writeByte sp a b).mems.get sp') = true := by
  simp only [State.writeByte, State.withMems_mems]
  split
  · by_cases hsp : sp' = sp
    · subst hsp; rw [Memories.get_set_same]; exact Memory.wf_write b (h sp') ‹_›
    · rw [Memories.get_set_other _ _ hsp]; exact h sp'
  · exact h sp'

theorem State.wf_writeBytes (s : State) (sp : Space) (a : Nat) (bs : List Byte)
    (h : ∀ sp, Memory.wf (memSize s.caps sp) (s.mems.get sp) = true) (sp' : Space) :
    Memory.wf (memSize s.caps sp') ((s.writeBytes sp a bs).mems.get sp') = true := by
  induction bs generalizing s a with
  | nil => exact h sp'
  | cons b bs ih => exact ih (s.writeByte sp a b) (a + 1) (s.wf_writeByte sp a b h)

theorem State.wf_setMemBits (s : State) (sp : Space) (i : Nat) (f : Nat → Bool) (m : Nat)
    (h : ∀ sp, Memory.wf (memSize s.caps sp) (s.mems.get sp) = true) (sp' : Space) :
    Memory.wf (memSize s.caps sp') ((s.setMemBits sp i f m).mems.get sp') = true := by
  induction m generalizing sp' with
  | zero => exact h sp'
  | succ m ih =>
    have := (s.setMemBits sp i f m).wf_writeByte sp ((i + m) / 8)
      (setBit ((s.setMemBits sp i f m).readByte sp ((i + m) / 8)) (7 - (i + m) % 8) (f m)) (by simpa using ih) sp'
    simpa [State.setMemBits, State.setMemBit] using this

end Sys2Proof.Machine
end

