-- ==== Sys2Proof/Laws/Command.lean ====
section
/-! SUPPORT. Laws of the life of a command: what its acceptance, its two ends and its checks do, and what the
operations of the units U1 and U2 leave alone. A law that lists unchanged fields is one simp lemma per field. -/

namespace Sys2Proof.Machine

/-! ### Acceptance and end -/

/-- R361: what the end of a command leaves alone. -/
@[simp] theorem State.endOk_frame (s : State) :
    (s.endOk).errs = s.errs ∧ (s.endOk).ctrl = s.ctrl ∧ (s.endOk).caps = s.caps ∧ (s.endOk).qim = s.qim
      ∧ (s.endOk).frm = s.frm ∧ (s.endOk).frmBits = s.frmBits ∧ (s.endOk).emb = s.emb ∧ (s.endOk).ext = s.ext
      ∧ (s.endOk).hdr = s.hdr ∧ (s.endOk).ptLen = s.ptLen ∧ (s.endOk).range = s.range ∧ (s.endOk).port = s.port
      ∧ (s.endOk).priv = s.priv ∧ (s.endOk).pix = s.pix ∧ (s.endOk).coef = s.coef ∧ (s.endOk).hidden = s.hidden
      ∧ (s.endOk).mems = s.mems ∧ (s.endOk).host = s.host ∧ (s.endOk).free = s.free :=
  ⟨rfl, rfl, rfl, rfl, rfl, rfl, rfl, rfl, rfl, rfl, rfl, rfl, rfl, rfl, rfl, rfl, rfl, rfl, rfl⟩

/-- R362: what `raise` leaves alone. -/
@[simp] theorem State.raiseError_frame (s : State) (e : ErrorKind) (info : Nat) :
    (s.raiseError e info).ctrl = s.ctrl ∧ (s.raiseError e info).caps = s.caps ∧ (s.raiseError e info).qim = s.qim
      ∧ (s.raiseError e info).frm = s.frm ∧ (s.raiseError e info).frmBits = s.frmBits
      ∧ (s.raiseError e info).emb = s.emb ∧ (s.raiseError e info).ext = s.ext ∧ (s.raiseError e info).hdr = s.hdr
      ∧ (s.raiseError e info).ptLen = s.ptLen ∧ (s.raiseError e info).range = s.range
      ∧ (s.raiseError e info).port = s.port ∧ (s.raiseError e info).priv = s.priv ∧ (s.raiseError e info).pix = s.pix
      ∧ (s.raiseError e info).coef = s.coef ∧ (s.raiseError e info).hidden = s.hidden
      ∧ (s.raiseError e info).mems = s.mems ∧ (s.raiseError e info).host = s.host
      ∧ (s.raiseError e info).free = s.free :=
  ⟨rfl, rfl, rfl, rfl, rfl, rfl, rfl, rfl, rfl, rfl, rfl, rfl, rfl, rfl, rfl, rfl, rfl, rfl⟩

/-- R86: what the acceptance of a command leaves alone. -/
@[simp] theorem State.accept_frame (s : State) (w : Word) :
    (s.accept w).ctrl = s.ctrl ∧ (s.accept w).intPend = s.intPend ∧ (s.accept w).caps = s.caps
      ∧ (s.accept w).qim = s.qim ∧ (s.accept w).frm = s.frm ∧ (s.accept w).frmBits = s.frmBits
      ∧ (s.accept w).emb = s.emb ∧ (s.accept w).ext = s.ext ∧ (s.accept w).hdr = s.hdr ∧ (s.accept w).ptLen = s.ptLen
      ∧ (s.accept w).range = s.range ∧ (s.accept w).port = s.port ∧ (s.accept w).priv = s.priv
      ∧ (s.accept w).pix = s.pix ∧ (s.accept w).coef = s.coef ∧ (s.accept w).mems = s.mems
      ∧ (s.accept w).host = s.host :=
  ⟨rfl, rfl, rfl, rfl, rfl, rfl, rfl, rfl, rfl, rfl, rfl, rfl, rfl, rfl, rfl, rfl, rfl⟩

/-- R24: a host error leaves everything but `HOSTERR`. -/
@[simp] theorem State.hostError_frame (s : State) :
    (s.hostError).errs = s.errs ∧ (s.hostError).ctrl = s.ctrl ∧ (s.hostError).intPend = s.intPend
      ∧ (s.hostError).caps = s.caps ∧ (s.hostError).qim = s.qim ∧ (s.hostError).frm = s.frm
      ∧ (s.hostError).frmBits = s.frmBits ∧ (s.hostError).emb = s.emb ∧ (s.hostError).ext = s.ext
      ∧ (s.hostError).hdr = s.hdr ∧ (s.hostError).ptLen = s.ptLen ∧ (s.hostError).range = s.range
      ∧ (s.hostError).port = s.port ∧ (s.hostError).priv = s.priv ∧ (s.hostError).pix = s.pix
      ∧ (s.hostError).coef = s.coef ∧ (s.hostError).hidden = s.hidden ∧ (s.hostError).mems = s.mems
      ∧ (s.hostError).host = s.host ∧ (s.hostError).free = s.free :=
  ⟨rfl, rfl, rfl, rfl, rfl, rfl, rfl, rfl, rfl, rfl, rfl, rfl, rfl, rfl, rfl, rfl, rfl, rfl, rfl, rfl⟩

@[simp] theorem State.endOk_status (s : State) : s.endOk.status = { s.status with done := true, busy := false } := (rfl)

@[simp] theorem State.endOk_intPend (s : State) : s.endOk.intPend = { s.intPend with done := true } := (rfl)

@[simp] theorem State.raiseError_status (s : State) (e : ErrorKind) (info : Nat) :
    (s.raiseError e info).status = { s.status with err := true, busy := false } := (rfl)

@[simp] theorem State.raiseError_errs (s : State) (e : ErrorKind) (info : Nat) :
    (s.raiseError e info).errs = s.errs.raised e info := (rfl)

@[simp] theorem State.raiseError_intPend (s : State) (e : ErrorKind) (info : Nat) :
    (s.raiseError e info).intPend = { s.intPend with err := true } := (rfl)

/-- Memory reads see the memories, the capacities and the free values only. -/
@[simp] theorem State.readByte_endOk (s : State) (sp : Space) (a : Nat) : s.endOk.readByte sp a = s.readByte sp a := (rfl)

@[simp] theorem State.readByte_raiseError (s : State) (e : ErrorKind) (info : Nat) (sp : Space) (a : Nat) :
    (s.raiseError e info).readByte sp a = s.readByte sp a := (rfl)

theorem ErrorKind.code_ne_zero (e : ErrorKind) : e.code ≠ 0#4 := by cases e <;> decide

theorem ErrorKind.code_le (e : ErrorKind) : e.code.toNat ≤ 11 := by cases e <;> decide

/-- The sticky bit of an error is set by raising it, and bit 0 is kept. -/
theorem ErrRegs.sticky_raised (r : ErrRegs) (e : ErrorKind) (info : Nat) :
    (r.raised e info).sticky.getLsbD e.code.toNat = true
      ∧ (r.raised e info).sticky.getLsbD 0 = r.sticky.getLsbD 0 := by
  constructor <;> cases e <;> simp [ErrRegs.raised, ErrRegs.note, ErrorKind.stickyBit, ErrorKind.code]

/-! ### Checks -/

@[simp] theorem firstFailed_nil : firstFailed [] = none := (rfl)

theorem firstFailed_cons (c : Check) (rest : List Check) :
    firstFailed (c :: rest) = if c.failed then some c else firstFailed rest := (rfl)

/-- The form in which the checks of the commands stand. -/
theorem firstFailed_decide (p : Prop) [Decidable p] (e : ErrorKind) (n : Nat) (rest : List Check) :
    firstFailed (⟨decide p, e, n⟩ :: rest) = if p then some ⟨true, e, n⟩ else firstFailed rest := by
  rw [firstFailed_cons]
  by_cases h : p <;> simp [h]

theorem firstFailed_append (cs ds : List Check) :
    firstFailed (cs ++ ds) = (firstFailed cs).or (firstFailed ds) := by
  induction cs with
  | nil => rfl
  | cons c rest ih =>
    simp only [List.cons_append, firstFailed_cons, ih]
    split <;> simp

theorem firstFailed_mem {cs : List Check} {c : Check} (h : firstFailed cs = some c) : c ∈ cs ∧ c.failed = true := by
  induction cs with
  | nil => simp at h
  | cons d rest ih =>
    rw [firstFailed_cons] at h
    split at h
    · obtain rfl := Option.some.inj h
      exact ⟨List.mem_cons_self, ‹_›⟩
    · exact ⟨List.mem_cons_of_mem _ (ih h).1, (ih h).2⟩

theorem firstFailed_eq_none {cs : List Check} : firstFailed cs = none ↔ ∀ c ∈ cs, c.failed = false := by
  induction cs with
  | nil => simp
  | cons d rest ih =>
    rw [firstFailed_cons]
    split
    · simp_all
    · simp_all

/-- Everything a command can do: the first failing check refuses it, or every check passes and its rule runs. -/
theorem runCommand_cases (checks : List Check) (body : State → State) (s : State) :
    (∃ c ∈ checks, c.failed = true ∧ firstFailed checks = some c
        ∧ runCommand checks body s = .next (s.raiseError c.error c.info))
      ∨ ((∀ c ∈ checks, c.failed = false) ∧ runCommand checks body s = .next (body s)) := by
  cases h : firstFailed checks with
  | none => exact .inr ⟨firstFailed_eq_none.1 h, by simp [runCommand, h]⟩
  | some c => exact .inl ⟨c, (firstFailed_mem h).1, (firstFailed_mem h).2, rfl, by simp [runCommand, h]⟩

theorem runCommand_passed {checks : List Check} {body : State → State} {s : State} (h : firstFailed checks = none) :
    runCommand checks body s = .next (body s) := by
  simp [runCommand, h]

theorem runCommand_failed {checks : List Check} {body : State → State} {s : State} {c : Check}
    (h : firstFailed checks = some c) : runCommand checks body s = .next (s.raiseError c.error c.info) := by
  simp [runCommand, h]

/-! ### Units U1 and U2 -/

@[simp] theorem State.withSS_frame (s : State) (v : BitVec 256) :
    (s.withSS v).status = s.status ∧ (s.withSS v).errs = s.errs ∧ (s.withSS v).ctrl = s.ctrl
      ∧ (s.withSS v).intPend = s.intPend ∧ (s.withSS v).caps = s.caps ∧ (s.withSS v).qim = s.qim
      ∧ (s.withSS v).frm = s.frm ∧ (s.withSS v).frmBits = s.frmBits ∧ (s.withSS v).emb = s.emb
      ∧ (s.withSS v).ext = s.ext ∧ (s.withSS v).hdr = s.hdr ∧ (s.withSS v).ptLen = s.ptLen
      ∧ (s.withSS v).range = s.range ∧ (s.withSS v).port = s.port ∧ (s.withSS v).priv = s.priv
      ∧ (s.withSS v).pix = s.pix ∧ (s.withSS v).coef = s.coef ∧ (s.withSS v).mems = s.mems
      ∧ (s.withSS v).host = s.host ∧ (s.withSS v).free = s.free :=
  ⟨rfl, rfl, rfl, rfl, rfl, rfl, rfl, rfl, rfl, rfl, rfl, rfl, rfl, rfl, rfl, rfl, rfl, rfl, rfl, rfl⟩

@[simp] theorem State.withKey_frame (s : State) (v : BitVec 256) :
    (s.withKey v).status = s.status ∧ (s.withKey v).errs = s.errs ∧ (s.withKey v).ctrl = s.ctrl
      ∧ (s.withKey v).intPend = s.intPend ∧ (s.withKey v).caps = s.caps ∧ (s.withKey v).qim = s.qim
      ∧ (s.withKey v).frm = s.frm ∧ (s.withKey v).frmBits = s.frmBits ∧ (s.withKey v).emb = s.emb
      ∧ (s.withKey v).ext = s.ext ∧ (s.withKey v).hdr = s.hdr ∧ (s.withKey v).ptLen = s.ptLen
      ∧ (s.withKey v).range = s.range ∧ (s.withKey v).port = s.port ∧ (s.withKey v).priv = s.priv
      ∧ (s.withKey v).pix = s.pix ∧ (s.withKey v).coef = s.coef ∧ (s.withKey v).mems = s.mems
      ∧ (s.withKey v).host = s.host ∧ (s.withKey v).free = s.free :=
  ⟨rfl, rfl, rfl, rfl, rfl, rfl, rfl, rfl, rfl, rfl, rfl, rfl, rfl, rfl, rfl, rfl, rfl, rfl, rfl, rfl⟩

/-- R171, R308: deriving the key writes `SS` and `KEY` only. -/
@[simp] theorem State.deriveKey_frame (s : State) (X : Crypto) (d : Nat) (Q : Point) (n : Nat) :
    (s.deriveKey X d Q n).status = s.status ∧ (s.deriveKey X d Q n).errs = s.errs
      ∧ (s.deriveKey X d Q n).ctrl = s.ctrl ∧ (s.deriveKey X d Q n).intPend = s.intPend
      ∧ (s.deriveKey X d Q n).caps = s.caps ∧ (s.deriveKey X d Q n).qim = s.qim ∧ (s.deriveKey X d Q n).frm = s.frm
      ∧ (s.deriveKey X d Q n).frmBits = s.frmBits ∧ (s.deriveKey X d Q n).emb = s.emb
      ∧ (s.deriveKey X d Q n).ext = s.ext ∧ (s.deriveKey X d Q n).hdr = s.hdr ∧ (s.deriveKey X d Q n).ptLen = s.ptLen
      ∧ (s.deriveKey X d Q n).range = s.range ∧ (s.deriveKey X d Q n).port = s.port
      ∧ (s.deriveKey X d Q n).priv = s.priv ∧ (s.deriveKey X d Q n).pix = s.pix ∧ (s.deriveKey X d Q n).coef = s.coef
      ∧ (s.deriveKey X d Q n).mems = s.mems ∧ (s.deriveKey X d Q n).host = s.host
      ∧ (s.deriveKey X d Q n).free = s.free := by
  simp [State.deriveKey]

/-- R55: clearing the secrets writes nothing else. -/
@[simp] theorem State.clearSecrets_frame (s : State) :
    (s.clearSecrets).status = s.status ∧ (s.clearSecrets).errs = s.errs ∧ (s.clearSecrets).ctrl = s.ctrl
      ∧ (s.clearSecrets).intPend = s.intPend ∧ (s.clearSecrets).caps = s.caps ∧ (s.clearSecrets).qim = s.qim
      ∧ (s.clearSecrets).frm = s.frm ∧ (s.clearSecrets).frmBits = s.frmBits ∧ (s.clearSecrets).emb = s.emb
      ∧ (s.clearSecrets).ext = s.ext ∧ (s.clearSecrets).hdr = s.hdr ∧ (s.clearSecrets).ptLen = s.ptLen
      ∧ (s.clearSecrets).range = s.range ∧ (s.clearSecrets).port = s.port ∧ (s.clearSecrets).priv = s.priv
      ∧ (s.clearSecrets).pix = s.pix ∧ (s.clearSecrets).coef = s.coef ∧ (s.clearSecrets).mems = s.mems
      ∧ (s.clearSecrets).host = s.host ∧ (s.clearSecrets).free = s.free :=
  ⟨rfl, rfl, rfl, rfl, rfl, rfl, rfl, rfl, rfl, rfl, rfl, rfl, rfl, rfl, rfl, rfl, rfl, rfl, rfl, rfl⟩

@[simp] theorem State.clearSecrets_hidden (s : State) :
    s.clearSecrets.hidden = { s.hidden with ss := 0#256, key := 0#256 } := (rfl)

@[simp] theorem State.deriveKey_hidden (X : Crypto) (s : State) (d : Nat) (Q : Point) (n : Nat) :
    (s.deriveKey X d Q n).hidden =
      { s.hidden with ss := ecdh d Q, key := hkdf X (ecdh d Q) (s.readBytes .fld 0x100 n) } := by
  simp only [State.deriveKey, State.withKey, State.withSS, State.withHidden_hidden]
  congr 1

@[simp] theorem State.publishKey_frame (s : State) (d : Nat) :
    (s.publishKey d).status = s.status ∧ (s.publishKey d).errs = s.errs ∧ (s.publishKey d).ctrl = s.ctrl
      ∧ (s.publishKey d).intPend = s.intPend ∧ (s.publishKey d).caps = s.caps ∧ (s.publishKey d).qim = s.qim
      ∧ (s.publishKey d).frm = s.frm ∧ (s.publishKey d).frmBits = s.frmBits ∧ (s.publishKey d).emb = s.emb
      ∧ (s.publishKey d).ext = s.ext ∧ (s.publishKey d).ptLen = s.ptLen ∧ (s.publishKey d).range = s.range
      ∧ (s.publishKey d).port = s.port ∧ (s.publishKey d).priv = s.priv ∧ (s.publishKey d).pix = s.pix
      ∧ (s.publishKey d).coef = s.coef ∧ (s.publishKey d).hidden = s.hidden ∧ (s.publishKey d).host = s.host
      ∧ (s.publishKey d).free = s.free := by
  simp [State.publishKey]

@[simp] theorem State.storeCiphertext_frame (s : State) (ct : List Byte) :
    (s.storeCiphertext ct).status = s.status ∧ (s.storeCiphertext ct).errs = s.errs
      ∧ (s.storeCiphertext ct).ctrl = s.ctrl ∧ (s.storeCiphertext ct).intPend = s.intPend
      ∧ (s.storeCiphertext ct).caps = s.caps ∧ (s.storeCiphertext ct).qim = s.qim ∧ (s.storeCiphertext ct).frm = s.frm
      ∧ (s.storeCiphertext ct).frmBits = s.frmBits ∧ (s.storeCiphertext ct).emb = s.emb
      ∧ (s.storeCiphertext ct).ext = s.ext ∧ (s.storeCiphertext ct).ptLen = s.ptLen
      ∧ (s.storeCiphertext ct).range = s.range ∧ (s.storeCiphertext ct).port = s.port
      ∧ (s.storeCiphertext ct).priv = s.priv ∧ (s.storeCiphertext ct).pix = s.pix
      ∧ (s.storeCiphertext ct).coef = s.coef ∧ (s.storeCiphertext ct).hidden = s.hidden
      ∧ (s.storeCiphertext ct).host = s.host ∧ (s.storeCiphertext ct).free = s.free := by
  simp [State.storeCiphertext]

@[simp] theorem State.storeTag_frame (s : State) (tag : BitVec 128) :
    (s.storeTag tag).status = s.status ∧ (s.storeTag tag).errs = s.errs ∧ (s.storeTag tag).ctrl = s.ctrl
      ∧ (s.storeTag tag).intPend = s.intPend ∧ (s.storeTag tag).caps = s.caps ∧ (s.storeTag tag).qim = s.qim
      ∧ (s.storeTag tag).frm = s.frm ∧ (s.storeTag tag).frmBits = s.frmBits ∧ (s.storeTag tag).emb = s.emb
      ∧ (s.storeTag tag).ext = s.ext ∧ (s.storeTag tag).ptLen = s.ptLen ∧ (s.storeTag tag).range = s.range
      ∧ (s.storeTag tag).port = s.port ∧ (s.storeTag tag).priv = s.priv ∧ (s.storeTag tag).pix = s.pix
      ∧ (s.storeTag tag).coef = s.coef ∧ (s.storeTag tag).hidden = s.hidden ∧ (s.storeTag tag).host = s.host
      ∧ (s.storeTag tag).free = s.free := by
  simp [State.storeTag]

@[simp] theorem State.storeHash_frame (s : State) (hash : BitVec 256) :
    (s.storeHash hash).status = s.status ∧ (s.storeHash hash).errs = s.errs ∧ (s.storeHash hash).ctrl = s.ctrl
      ∧ (s.storeHash hash).intPend = s.intPend ∧ (s.storeHash hash).caps = s.caps ∧ (s.storeHash hash).qim = s.qim
      ∧ (s.storeHash hash).frm = s.frm ∧ (s.storeHash hash).frmBits = s.frmBits ∧ (s.storeHash hash).emb = s.emb
      ∧ (s.storeHash hash).ext = s.ext ∧ (s.storeHash hash).ptLen = s.ptLen ∧ (s.storeHash hash).range = s.range
      ∧ (s.storeHash hash).port = s.port ∧ (s.storeHash hash).priv = s.priv ∧ (s.storeHash hash).pix = s.pix
      ∧ (s.storeHash hash).coef = s.coef ∧ (s.storeHash hash).hidden = s.hidden ∧ (s.storeHash hash).host = s.host
      ∧ (s.storeHash hash).free = s.free := by
  simp [State.storeHash]

/-- R171: the rule of `ENV_SEAL` writes the header registers, two memories and the hidden registers only. -/
@[simp] theorem State.seal_frame (s : State) (X : Crypto) (d : Nat) (Q : Point) :
    (s.seal X d Q).status = s.status ∧ (s.seal X d Q).errs = s.errs ∧ (s.seal X d Q).ctrl = s.ctrl
      ∧ (s.seal X d Q).intPend = s.intPend ∧ (s.seal X d Q).caps = s.caps ∧ (s.seal X d Q).qim = s.qim
      ∧ (s.seal X d Q).frm = s.frm ∧ (s.seal X d Q).frmBits = s.frmBits ∧ (s.seal X d Q).emb = s.emb
      ∧ (s.seal X d Q).ext = s.ext ∧ (s.seal X d Q).ptLen = s.ptLen ∧ (s.seal X d Q).range = s.range
      ∧ (s.seal X d Q).port = s.port ∧ (s.seal X d Q).priv = s.priv ∧ (s.seal X d Q).pix = s.pix
      ∧ (s.seal X d Q).coef = s.coef ∧ (s.seal X d Q).host = s.host ∧ (s.seal X d Q).free = s.free := by
  simp [State.seal]

end Sys2Proof.Machine
end

