-- ==== Sys2Proof/Laws/Blocks.lean ====
section
/-! SUPPORT. Laws of the units U3 and U4: what the transforms, the block load and store, the modulator and the per-frame
driver leave alone. A law that lists unchanged fields is one simp lemma per field. -/

namespace Sys2Proof.Machine

/-- R206: `blk_ld` writes `PIX` only. -/
@[simp] theorem State.blkLd_frame (s : State) (br bc : Nat) :
    (s.blkLd br bc).status = s.status ∧ (s.blkLd br bc).errs = s.errs ∧ (s.blkLd br bc).ctrl = s.ctrl
      ∧ (s.blkLd br bc).intPend = s.intPend ∧ (s.blkLd br bc).caps = s.caps ∧ (s.blkLd br bc).qim = s.qim
      ∧ (s.blkLd br bc).frm = s.frm ∧ (s.blkLd br bc).frmBits = s.frmBits ∧ (s.blkLd br bc).emb = s.emb
      ∧ (s.blkLd br bc).ext = s.ext ∧ (s.blkLd br bc).hdr = s.hdr ∧ (s.blkLd br bc).ptLen = s.ptLen
      ∧ (s.blkLd br bc).range = s.range ∧ (s.blkLd br bc).port = s.port ∧ (s.blkLd br bc).priv = s.priv
      ∧ (s.blkLd br bc).coef = s.coef ∧ (s.blkLd br bc).hidden = s.hidden ∧ (s.blkLd br bc).mems = s.mems
      ∧ (s.blkLd br bc).host = s.host ∧ (s.blkLd br bc).free = s.free := by
  simp [State.blkLd]

/-- R200: `FDCT` writes `COEF` only. -/
@[simp] theorem State.fdct_frame (s : State) :
    (s.fdct).status = s.status ∧ (s.fdct).errs = s.errs ∧ (s.fdct).ctrl = s.ctrl ∧ (s.fdct).intPend = s.intPend
      ∧ (s.fdct).caps = s.caps ∧ (s.fdct).qim = s.qim ∧ (s.fdct).frm = s.frm ∧ (s.fdct).frmBits = s.frmBits
      ∧ (s.fdct).emb = s.emb ∧ (s.fdct).ext = s.ext ∧ (s.fdct).hdr = s.hdr ∧ (s.fdct).ptLen = s.ptLen
      ∧ (s.fdct).range = s.range ∧ (s.fdct).port = s.port ∧ (s.fdct).priv = s.priv ∧ (s.fdct).pix = s.pix
      ∧ (s.fdct).hidden = s.hidden ∧ (s.fdct).mems = s.mems ∧ (s.fdct).host = s.host ∧ (s.fdct).free = s.free := by
  simp [State.fdct]

/-- R201: `IDCT` writes `PIX` only. -/
@[simp] theorem State.idct_frame (s : State) :
    (s.idct).status = s.status ∧ (s.idct).errs = s.errs ∧ (s.idct).ctrl = s.ctrl ∧ (s.idct).intPend = s.intPend
      ∧ (s.idct).caps = s.caps ∧ (s.idct).qim = s.qim ∧ (s.idct).frm = s.frm ∧ (s.idct).frmBits = s.frmBits
      ∧ (s.idct).emb = s.emb ∧ (s.idct).ext = s.ext ∧ (s.idct).hdr = s.hdr ∧ (s.idct).ptLen = s.ptLen
      ∧ (s.idct).range = s.range ∧ (s.idct).port = s.port ∧ (s.idct).priv = s.priv ∧ (s.idct).coef = s.coef
      ∧ (s.idct).hidden = s.hidden ∧ (s.idct).mems = s.mems ∧ (s.idct).host = s.host ∧ (s.idct).free = s.free := by
  simp [State.idct]

/-- R207: the stores of `blk_st` write a memory only. -/
@[simp] theorem State.storePixels_frame (s : State) (br bc m : Nat) :
    (s.storePixels br bc m).status = s.status ∧ (s.storePixels br bc m).errs = s.errs
      ∧ (s.storePixels br bc m).ctrl = s.ctrl ∧ (s.storePixels br bc m).intPend = s.intPend
      ∧ (s.storePixels br bc m).caps = s.caps ∧ (s.storePixels br bc m).qim = s.qim
      ∧ (s.storePixels br bc m).frm = s.frm ∧ (s.storePixels br bc m).frmBits = s.frmBits
      ∧ (s.storePixels br bc m).emb = s.emb ∧ (s.storePixels br bc m).ext = s.ext
      ∧ (s.storePixels br bc m).hdr = s.hdr ∧ (s.storePixels br bc m).ptLen = s.ptLen
      ∧ (s.storePixels br bc m).range = s.range ∧ (s.storePixels br bc m).port = s.port
      ∧ (s.storePixels br bc m).priv = s.priv ∧ (s.storePixels br bc m).pix = s.pix
      ∧ (s.storePixels br bc m).coef = s.coef ∧ (s.storePixels br bc m).hidden = s.hidden
      ∧ (s.storePixels br bc m).host = s.host ∧ (s.storePixels br bc m).free = s.free := by
  induction m with
  | zero => simp [State.storePixels]
  | succ m ih => simp [State.storePixels, ih]

/-- R207: `blk_st` writes a memory only. -/
@[simp] theorem State.blkSt_frame (s : State) (br bc : Nat) :
    (s.blkSt br bc).status = s.status ∧ (s.blkSt br bc).errs = s.errs ∧ (s.blkSt br bc).ctrl = s.ctrl
      ∧ (s.blkSt br bc).intPend = s.intPend ∧ (s.blkSt br bc).caps = s.caps ∧ (s.blkSt br bc).qim = s.qim
      ∧ (s.blkSt br bc).frm = s.frm ∧ (s.blkSt br bc).frmBits = s.frmBits ∧ (s.blkSt br bc).emb = s.emb
      ∧ (s.blkSt br bc).ext = s.ext ∧ (s.blkSt br bc).hdr = s.hdr ∧ (s.blkSt br bc).ptLen = s.ptLen
      ∧ (s.blkSt br bc).range = s.range ∧ (s.blkSt br bc).port = s.port ∧ (s.blkSt br bc).priv = s.priv
      ∧ (s.blkSt br bc).pix = s.pix ∧ (s.blkSt br bc).coef = s.coef ∧ (s.blkSt br bc).hidden = s.hidden
      ∧ (s.blkSt br bc).host = s.host ∧ (s.blkSt br bc).free = s.free := by
  simp [State.blkSt]

/-- R224: `qim_emb_coef` writes `SAT` and one coefficient only. -/
@[simp] theorem State.embedBit_frame (s : State) (k : Nat) (b : Bool) :
    (s.embedBit k b).errs = s.errs ∧ (s.embedBit k b).ctrl = s.ctrl ∧ (s.embedBit k b).intPend = s.intPend
      ∧ (s.embedBit k b).caps = s.caps ∧ (s.embedBit k b).qim = s.qim ∧ (s.embedBit k b).frm = s.frm
      ∧ (s.embedBit k b).frmBits = s.frmBits ∧ (s.embedBit k b).emb = s.emb ∧ (s.embedBit k b).ext = s.ext
      ∧ (s.embedBit k b).hdr = s.hdr ∧ (s.embedBit k b).ptLen = s.ptLen ∧ (s.embedBit k b).range = s.range
      ∧ (s.embedBit k b).port = s.port ∧ (s.embedBit k b).priv = s.priv ∧ (s.embedBit k b).pix = s.pix
      ∧ (s.embedBit k b).hidden = s.hidden ∧ (s.embedBit k b).mems = s.mems ∧ (s.embedBit k b).host = s.host
      ∧ (s.embedBit k b).free = s.free := by
  simp [State.embedBit]

/-- R226: embedding in several slots writes `SAT` and `COEF` only. -/
@[simp] theorem State.embedSlots_frame (s : State) (bits : Nat → Bool) (m : Nat) :
    (s.embedSlots bits m).errs = s.errs ∧ (s.embedSlots bits m).ctrl = s.ctrl
      ∧ (s.embedSlots bits m).intPend = s.intPend ∧ (s.embedSlots bits m).caps = s.caps
      ∧ (s.embedSlots bits m).qim = s.qim ∧ (s.embedSlots bits m).frm = s.frm
      ∧ (s.embedSlots bits m).frmBits = s.frmBits ∧ (s.embedSlots bits m).emb = s.emb
      ∧ (s.embedSlots bits m).ext = s.ext ∧ (s.embedSlots bits m).hdr = s.hdr ∧ (s.embedSlots bits m).ptLen = s.ptLen
      ∧ (s.embedSlots bits m).range = s.range ∧ (s.embedSlots bits m).port = s.port
      ∧ (s.embedSlots bits m).priv = s.priv ∧ (s.embedSlots bits m).pix = s.pix
      ∧ (s.embedSlots bits m).hidden = s.hidden ∧ (s.embedSlots bits m).mems = s.mems
      ∧ (s.embedSlots bits m).host = s.host ∧ (s.embedSlots bits m).free = s.free := by
  induction m with
  | zero => simp [State.embedSlots]
  | succ m ih => simp [State.embedSlots, ih]

/-- R228: one block of `frame_embed` writes `SAT`, `PIX`, `COEF` and a memory only. -/
@[simp] theorem State.embedBlock_frame (s : State) (br bc start m : Nat) :
    (s.embedBlock br bc start m).errs = s.errs ∧ (s.embedBlock br bc start m).ctrl = s.ctrl
      ∧ (s.embedBlock br bc start m).intPend = s.intPend ∧ (s.embedBlock br bc start m).caps = s.caps
      ∧ (s.embedBlock br bc start m).qim = s.qim ∧ (s.embedBlock br bc start m).frm = s.frm
      ∧ (s.embedBlock br bc start m).frmBits = s.frmBits ∧ (s.embedBlock br bc start m).emb = s.emb
      ∧ (s.embedBlock br bc start m).ext = s.ext ∧ (s.embedBlock br bc start m).hdr = s.hdr
      ∧ (s.embedBlock br bc start m).ptLen = s.ptLen ∧ (s.embedBlock br bc start m).range = s.range
      ∧ (s.embedBlock br bc start m).port = s.port ∧ (s.embedBlock br bc start m).priv = s.priv
      ∧ (s.embedBlock br bc start m).hidden = s.hidden ∧ (s.embedBlock br bc start m).host = s.host
      ∧ (s.embedBlock br bc start m).free = s.free := by
  simp [State.embedBlock]

/-- R229: one block of `frame_extract` writes `PIX`, `COEF` and a memory only. -/
@[simp] theorem State.extractBlock_frame (s : State) (br bc pos : Nat) :
    (s.extractBlock br bc pos).status = s.status ∧ (s.extractBlock br bc pos).errs = s.errs
      ∧ (s.extractBlock br bc pos).ctrl = s.ctrl ∧ (s.extractBlock br bc pos).intPend = s.intPend
      ∧ (s.extractBlock br bc pos).caps = s.caps ∧ (s.extractBlock br bc pos).qim = s.qim
      ∧ (s.extractBlock br bc pos).frm = s.frm ∧ (s.extractBlock br bc pos).frmBits = s.frmBits
      ∧ (s.extractBlock br bc pos).emb = s.emb ∧ (s.extractBlock br bc pos).ext = s.ext
      ∧ (s.extractBlock br bc pos).hdr = s.hdr ∧ (s.extractBlock br bc pos).ptLen = s.ptLen
      ∧ (s.extractBlock br bc pos).range = s.range ∧ (s.extractBlock br bc pos).port = s.port
      ∧ (s.extractBlock br bc pos).priv = s.priv ∧ (s.extractBlock br bc pos).hidden = s.hidden
      ∧ (s.extractBlock br bc pos).host = s.host ∧ (s.extractBlock br bc pos).free = s.free := by
  simp [State.extractBlock]

/-- R228: `frame_embed` writes `SAT`, `PIX`, `COEF` and a memory only. -/
@[simp] theorem frameEmbedLoop_frame (s : State) (start L : Nat) (blocks : List (Nat × Nat)) (n : Nat) :
    ((frameEmbedLoop start L blocks n s).2).errs = s.errs ∧ ((frameEmbedLoop start L blocks n s).2).ctrl = s.ctrl
      ∧ ((frameEmbedLoop start L blocks n s).2).intPend = s.intPend
      ∧ ((frameEmbedLoop start L blocks n s).2).caps = s.caps ∧ ((frameEmbedLoop start L blocks n s).2).qim = s.qim
      ∧ ((frameEmbedLoop start L blocks n s).2).frm = s.frm
      ∧ ((frameEmbedLoop start L blocks n s).2).frmBits = s.frmBits
      ∧ ((frameEmbedLoop start L blocks n s).2).emb = s.emb ∧ ((frameEmbedLoop start L blocks n s).2).ext = s.ext
      ∧ ((frameEmbedLoop start L blocks n s).2).hdr = s.hdr ∧ ((frameEmbedLoop start L blocks n s).2).ptLen = s.ptLen
      ∧ ((frameEmbedLoop start L blocks n s).2).range = s.range
      ∧ ((frameEmbedLoop start L blocks n s).2).port = s.port ∧ ((frameEmbedLoop start L blocks n s).2).priv = s.priv
      ∧ ((frameEmbedLoop start L blocks n s).2).hidden = s.hidden
      ∧ ((frameEmbedLoop start L blocks n s).2).host = s.host ∧ ((frameEmbedLoop start L blocks n s).2).free = s.free := by
  induction blocks generalizing n s with
  | nil => simp [frameEmbedLoop]
  | cons b rest ih =>
    obtain ⟨br, bc⟩ := b
    simp only [frameEmbedLoop]
    split
    · simp
    · simp [ih]

/-- R229: `frame_extract` writes `PIX`, `COEF` and a memory only. -/
@[simp] theorem frameExtractLoop_frame (s : State) (blocks : List (Nat × Nat)) (pos : Nat) :
    ((frameExtractLoop blocks pos s).2).status = s.status ∧ ((frameExtractLoop blocks pos s).2).errs = s.errs
      ∧ ((frameExtractLoop blocks pos s).2).ctrl = s.ctrl ∧ ((frameExtractLoop blocks pos s).2).intPend = s.intPend
      ∧ ((frameExtractLoop blocks pos s).2).caps = s.caps ∧ ((frameExtractLoop blocks pos s).2).qim = s.qim
      ∧ ((frameExtractLoop blocks pos s).2).frm = s.frm ∧ ((frameExtractLoop blocks pos s).2).frmBits = s.frmBits
      ∧ ((frameExtractLoop blocks pos s).2).emb = s.emb ∧ ((frameExtractLoop blocks pos s).2).ext = s.ext
      ∧ ((frameExtractLoop blocks pos s).2).hdr = s.hdr ∧ ((frameExtractLoop blocks pos s).2).ptLen = s.ptLen
      ∧ ((frameExtractLoop blocks pos s).2).range = s.range ∧ ((frameExtractLoop blocks pos s).2).port = s.port
      ∧ ((frameExtractLoop blocks pos s).2).priv = s.priv ∧ ((frameExtractLoop blocks pos s).2).hidden = s.hidden
      ∧ ((frameExtractLoop blocks pos s).2).host = s.host ∧ ((frameExtractLoop blocks pos s).2).free = s.free := by
  induction blocks generalizing pos s with
  | nil => simp [frameExtractLoop]
  | cons b rest ih =>
    obtain ⟨br, bc⟩ := b
    simp [frameExtractLoop, ih]

@[simp] theorem State.frameEmbed_frame (s : State) (start L : Nat) :
    (s.frameEmbed start L).2.errs = s.errs ∧ (s.frameEmbed start L).2.ctrl = s.ctrl
      ∧ (s.frameEmbed start L).2.intPend = s.intPend ∧ (s.frameEmbed start L).2.caps = s.caps
      ∧ (s.frameEmbed start L).2.qim = s.qim ∧ (s.frameEmbed start L).2.frm = s.frm
      ∧ (s.frameEmbed start L).2.frmBits = s.frmBits ∧ (s.frameEmbed start L).2.emb = s.emb
      ∧ (s.frameEmbed start L).2.ext = s.ext ∧ (s.frameEmbed start L).2.hdr = s.hdr
      ∧ (s.frameEmbed start L).2.ptLen = s.ptLen ∧ (s.frameEmbed start L).2.range = s.range
      ∧ (s.frameEmbed start L).2.port = s.port ∧ (s.frameEmbed start L).2.priv = s.priv
      ∧ (s.frameEmbed start L).2.hidden = s.hidden ∧ (s.frameEmbed start L).2.host = s.host
      ∧ (s.frameEmbed start L).2.free = s.free := by
  simp [State.frameEmbed]

@[simp] theorem State.frameExtract_frame (s : State) :
    (s.frameExtract.2).status = s.status ∧ (s.frameExtract.2).errs = s.errs ∧ (s.frameExtract.2).ctrl = s.ctrl
      ∧ (s.frameExtract.2).intPend = s.intPend ∧ (s.frameExtract.2).caps = s.caps ∧ (s.frameExtract.2).qim = s.qim
      ∧ (s.frameExtract.2).frm = s.frm ∧ (s.frameExtract.2).frmBits = s.frmBits ∧ (s.frameExtract.2).emb = s.emb
      ∧ (s.frameExtract.2).ext = s.ext ∧ (s.frameExtract.2).hdr = s.hdr ∧ (s.frameExtract.2).ptLen = s.ptLen
      ∧ (s.frameExtract.2).range = s.range ∧ (s.frameExtract.2).port = s.port ∧ (s.frameExtract.2).priv = s.priv
      ∧ (s.frameExtract.2).hidden = s.hidden ∧ (s.frameExtract.2).host = s.host ∧ (s.frameExtract.2).free = s.free := by
  simp [State.frameExtract]

/-! ### Counting blocks and bits -/

@[simp] theorem length_raster (rows cols : Nat) : (raster rows cols).length = rows * cols := by
  simp [raster, List.length_flatMap]

/-- The derived quantities of a state depend on the parameter registers only. -/
theorem State.neff_congr {s t : State} (h : t.qim = s.qim) : t.neff = s.neff := by simp [State.neff, h]

theorem State.frameBlocks_congr {s t : State} (h : t.frm = s.frm) : t.frameBlocks = s.frameBlocks := by
  simp [State.frameBlocks, State.frmH, State.frmW, h]

theorem State.capacity_congr {s t : State} (hf : t.frm = s.frm) (hq : t.qim = s.qim) : t.capacity = s.capacity := by
  simp [State.capacity, State.frmH, State.frmW, State.neff, hf, hq]

/-- R228: `frame_embed` embeds every bit it is given, as far as the blocks have slots. -/
theorem frameEmbedLoop_count (start L : Nat) (blocks : List (Nat × Nat)) (n : Nat) (s : State) (h : n ≤ L) :
    (frameEmbedLoop start L blocks n s).1 = min L (n + blocks.length * s.neff) := by
  induction blocks generalizing n s with
  | nil => simp [frameEmbedLoop, h]
  | cons b rest ih =>
    obtain ⟨br, bc⟩ := b
    simp only [frameEmbedLoop, List.length_cons]
    split
    · rename_i hn
      subst hn
      simp
    · have hq : (s.embedBlock br bc (start + n) (min s.neff (L - n))).neff = s.neff := State.neff_congr (by simp)
      rw [ih _ _ (by omega), hq, Nat.add_mul, Nat.one_mul]
      omega

theorem State.frameEmbed_count (s : State) (start L : Nat) : (s.frameEmbed start L).1 = min L s.capacity := by
  rw [State.frameEmbed, frameEmbedLoop_count _ _ _ _ _ (Nat.zero_le L)]
  simp [State.frameBlocks, State.capacity, Nat.mul_comm]

/-- R229: `frame_extract` extracts the bits of every slot of every block. -/
theorem frameExtractLoop_count (blocks : List (Nat × Nat)) (pos : Nat) (s : State) :
    (frameExtractLoop blocks pos s).1 = pos + blocks.length * s.neff := by
  induction blocks generalizing pos s with
  | nil => simp [frameExtractLoop]
  | cons b rest ih =>
    obtain ⟨br, bc⟩ := b
    simp only [frameExtractLoop, List.length_cons]
    have hq : (s.extractBlock br bc pos).neff = s.neff := State.neff_congr (by simp)
    rw [ih, hq, Nat.add_mul, Nat.one_mul]
    omega

theorem State.frameExtract_count (s : State) : s.frameExtract.1 = s.capacity := by
  simp only [State.frameExtract, frameExtractLoop_count]
  simp [State.frameBlocks, State.capacity, Nat.mul_comm]

/-- R205, R221: a usable frame has a block, and usable parameters have a slot. -/
theorem State.capacity_pos {s : State} (hd : s.qim.ncoef ≠ 0#32) (hw : s.frmW ≠ 0) (hh : s.frmH ≠ 0)
    (hw8 : s.frmW % 8 = 0) (hh8 : s.frmH % 8 = 0) : 0 < s.capacity := by
  have hn : s.qim.ncoef.toNat ≠ 0 := fun h => hd (BitVec.eq_of_toNat_eq h)
  have : 0 < s.neff := by unfold State.neff; omega
  unfold State.capacity
  exact Nat.mul_pos (Nat.mul_pos (by omega) (by omega)) this

end Sys2Proof.Machine
end

