-- ==== Sys2Proof/Laws/Parser.lean ====
section
/-! SUPPORT. Laws of the incremental parser: what it leaves alone. A law that lists unchanged fields is one simp lemma
per field. -/

namespace Sys2Proof.Machine

/-- R260: a parsed field goes to the header registers or a memory only. -/
@[simp] theorem State.storeField_frame (s : State) (f c : Nat) :
    (s.storeField f c).status = s.status ∧ (s.storeField f c).errs = s.errs ∧ (s.storeField f c).ctrl = s.ctrl
      ∧ (s.storeField f c).intPend = s.intPend ∧ (s.storeField f c).caps = s.caps ∧ (s.storeField f c).qim = s.qim
      ∧ (s.storeField f c).frm = s.frm ∧ (s.storeField f c).frmBits = s.frmBits ∧ (s.storeField f c).emb = s.emb
      ∧ (s.storeField f c).ext = s.ext ∧ (s.storeField f c).ptLen = s.ptLen ∧ (s.storeField f c).range = s.range
      ∧ (s.storeField f c).port = s.port ∧ (s.storeField f c).priv = s.priv ∧ (s.storeField f c).pix = s.pix
      ∧ (s.storeField f c).coef = s.coef ∧ (s.storeField f c).hidden = s.hidden ∧ (s.storeField f c).host = s.host
      ∧ (s.storeField f c).free = s.free := by
  unfold State.storeField
  split_ifs <;> simp

@[simp] theorem State.withExtState_frame (s : State) (e : ExtState) :
    (s.withExtState e).status = s.status ∧ (s.withExtState e).errs = s.errs ∧ (s.withExtState e).ctrl = s.ctrl
      ∧ (s.withExtState e).intPend = s.intPend ∧ (s.withExtState e).caps = s.caps ∧ (s.withExtState e).qim = s.qim
      ∧ (s.withExtState e).frm = s.frm ∧ (s.withExtState e).frmBits = s.frmBits ∧ (s.withExtState e).emb = s.emb
      ∧ (s.withExtState e).hdr = s.hdr ∧ (s.withExtState e).ptLen = s.ptLen ∧ (s.withExtState e).range = s.range
      ∧ (s.withExtState e).port = s.port ∧ (s.withExtState e).priv = s.priv ∧ (s.withExtState e).pix = s.pix
      ∧ (s.withExtState e).coef = s.coef ∧ (s.withExtState e).hidden = s.hidden ∧ (s.withExtState e).mems = s.mems
      ∧ (s.withExtState e).host = s.host ∧ (s.withExtState e).free = s.free :=
  ⟨rfl, rfl, rfl, rfl, rfl, rfl, rfl, rfl, rfl, rfl, rfl, rfl, rfl, rfl, rfl, rfl, rfl, rfl, rfl, rfl⟩

/-- R305: the engine state after a field is in the extraction registers. -/
@[simp] theorem State.afterField_frame (s : State) :
    (s.afterField).status = s.status ∧ (s.afterField).errs = s.errs ∧ (s.afterField).ctrl = s.ctrl
      ∧ (s.afterField).intPend = s.intPend ∧ (s.afterField).caps = s.caps ∧ (s.afterField).qim = s.qim
      ∧ (s.afterField).frm = s.frm ∧ (s.afterField).frmBits = s.frmBits ∧ (s.afterField).emb = s.emb
      ∧ (s.afterField).hdr = s.hdr ∧ (s.afterField).ptLen = s.ptLen ∧ (s.afterField).range = s.range
      ∧ (s.afterField).port = s.port ∧ (s.afterField).priv = s.priv ∧ (s.afterField).pix = s.pix
      ∧ (s.afterField).coef = s.coef ∧ (s.afterField).hidden = s.hidden ∧ (s.afterField).mems = s.mems
      ∧ (s.afterField).host = s.host ∧ (s.afterField).free = s.free := by
  unfold State.afterField
  split_ifs <;> simp

/-- R260: one parser step writes the extraction and header registers and a memory only. -/
theorem State.parseStep_frame (s t : State) (h : s.parseStep = some t) :
    t.status = s.status ∧ t.errs = s.errs ∧ t.ctrl = s.ctrl ∧ t.intPend = s.intPend ∧ t.caps = s.caps ∧ t.qim = s.qim
      ∧ t.frm = s.frm ∧ t.frmBits = s.frmBits ∧ t.emb = s.emb ∧ t.ptLen = s.ptLen ∧ t.range = s.range
      ∧ t.port = s.port ∧ t.priv = s.priv ∧ t.pix = s.pix ∧ t.coef = s.coef ∧ t.hidden = s.hidden ∧ t.host = s.host
      ∧ t.free = s.free := by
  unfold State.parseStep at h
  simp only at h
  split at h
  · simp at h
  · obtain rfl := Option.some.inj h
    simp

/-- R301: parsing writes the extraction and header registers and a memory only. -/
@[simp] theorem State.parseLoop_frame (s : State) (fuel : Nat) :
    (s.parseLoop fuel).status = s.status ∧ (s.parseLoop fuel).errs = s.errs ∧ (s.parseLoop fuel).ctrl = s.ctrl
      ∧ (s.parseLoop fuel).intPend = s.intPend ∧ (s.parseLoop fuel).caps = s.caps ∧ (s.parseLoop fuel).qim = s.qim
      ∧ (s.parseLoop fuel).frm = s.frm ∧ (s.parseLoop fuel).frmBits = s.frmBits ∧ (s.parseLoop fuel).emb = s.emb
      ∧ (s.parseLoop fuel).ptLen = s.ptLen ∧ (s.parseLoop fuel).range = s.range ∧ (s.parseLoop fuel).port = s.port
      ∧ (s.parseLoop fuel).priv = s.priv ∧ (s.parseLoop fuel).pix = s.pix ∧ (s.parseLoop fuel).coef = s.coef
      ∧ (s.parseLoop fuel).hidden = s.hidden ∧ (s.parseLoop fuel).host = s.host ∧ (s.parseLoop fuel).free = s.free := by
  induction fuel generalizing s with
  | zero => simp [State.parseLoop]
  | succ fuel ih =>
    simp only [State.parseLoop]
    split
    · cases h : s.parseStep with
      | none => simp
      | some t => have := State.parseStep_frame s t h; simp [ih, this]
    · simp

/-! ### What parsing does to the extraction registers -/

/-- R260: the parser registers after one step. -/
theorem State.parseStep_ext {s t : State} (h : s.parseStep = some t) :
    s.ext.prsCursor.toNat + s.fieldWidth s.ext.prsFidx.toNat ≤ s.ext.accBits.toNat
      ∧ t.ext = s.ext.advance s.ext.prsFidx.toNat s.ext.prsCursor.toNat (s.fieldWidth s.ext.prsFidx.toNat) := by
  unfold State.parseStep at h
  simp only at h
  split at h
  · simp at h
  · obtain rfl := Option.some.inj h
    refine ⟨by omega, ?_⟩
    simp

/-- R304, R305: what the parser registers say together in the states that wait for bits and in Verifying, between two
parser steps. -/
structure ExtRegs.ParserForm (e : ExtRegs) : Prop where
  parsed : e.prsCursor.toNat ≤ e.accBits.toNat
  header : e.hdrCursor.toNat ≤ e.prsCursor.toNat
  phase : (e.state = .accumulating ∧ e.prsFidx.toNat ≤ 12 ∧ e.hdrCursor = 0#32)
    ∨ (e.state = .collecting ∧ e.prsFidx.toNat = 13 ∧ e.hdrCursor = e.prsCursor)
    ∨ (e.state = .verifying ∧ e.prsFidx.toNat = 14)

/-- R301, R304: parsing keeps the form and the accumulated bits and frames, and never goes back. -/
theorem State.parseLoop_form (s : State) (fuel : Nat) (h : s.ext.ParserForm) :
    (s.parseLoop fuel).ext.ParserForm ∧ (s.parseLoop fuel).ext.accBits = s.ext.accBits
      ∧ (s.parseLoop fuel).ext.frames = s.ext.frames ∧ s.ext.prsFidx.toNat ≤ (s.parseLoop fuel).ext.prsFidx.toNat := by
  induction fuel generalizing s with
  | zero => exact ⟨h, rfl, rfl, Nat.le_refl _⟩
  | succ fuel ih =>
    simp only [State.parseLoop]
    split
    · rename_i hf
      cases hp : s.parseStep with
      | none => exact ⟨h, rfl, rfl, Nat.le_refl _⟩
      | some t =>
        obtain ⟨hle, he⟩ := State.parseStep_ext hp
        have hacc := s.ext.accBits.isLt
        have hcur : (BitVec.ofNat 32 (s.ext.prsCursor.toNat + s.fieldWidth s.ext.prsFidx.toNat)).toNat
            = s.ext.prsCursor.toNat + s.fieldWidth s.ext.prsFidx.toNat := by
          rw [BitVec.toNat_ofNat, Nat.mod_eq_of_lt (by omega)]
        have hidx : (BitVec.ofNat 4 (s.ext.prsFidx.toNat + 1)).toNat = s.ext.prsFidx.toNat + 1 := by
          rw [BitVec.toNat_ofNat, Nat.mod_eq_of_lt (by omega)]
        have hstate : t.ext.state = s.ext.state := by rw [he]; rfl
        have key : t.afterField.ext.ParserForm ∧ t.afterField.ext.accBits = s.ext.accBits
            ∧ t.afterField.ext.frames = s.ext.frames ∧ s.ext.prsFidx.toNat ≤ t.afterField.ext.prsFidx.toNat := by
          have hfi : t.ext.prsFidx.toNat = s.ext.prsFidx.toNat + 1 := by rw [he]; exact hidx
          have hpc : t.ext.prsCursor.toNat = s.ext.prsCursor.toNat + s.fieldWidth s.ext.prsFidx.toNat := by
            rw [he]; exact hcur
          have hac : t.ext.accBits = s.ext.accBits := by rw [he]; rfl
          have hfr : t.ext.frames = s.ext.frames := by rw [he]; rfl
          have hhc : t.ext.hdrCursor = if s.ext.prsFidx.toNat = 12 then t.ext.prsCursor else s.ext.hdrCursor := by
            rw [he]; rfl
          have hpar := h.parsed
          have hhdr := h.header
          have hhdr' : t.ext.hdrCursor.toNat ≤ t.ext.prsCursor.toNat := by
            rw [hhc]
            split <;> omega
          have hpar' : t.ext.prsCursor.toNat ≤ t.ext.accBits.toNat := by rw [hpc, hac]; exact hle
          unfold State.afterField State.withExtState
          split_ifs with h13 h14
          · have h12 : s.ext.prsFidx.toNat = 12 := by
              have := congrArg BitVec.toNat h13
              simp at this
              omega
            refine ⟨⟨by simpa using hpar', by simpa using hhdr', .inr (.inl ⟨rfl, ?_, ?_⟩)⟩, by simpa using hac,
              by simpa using hfr, by simp; omega⟩
            · simp only [State.withExt_ext]; omega
            · simp only [State.withExt_ext]; rw [hhc, if_pos h12]
          · have h12 : t.ext.prsFidx.toNat = 14 := by rw [h14]; rfl
            exact ⟨⟨by simpa using hpar', by simpa using hhdr', .inr (.inr ⟨rfl, by simpa using h12⟩)⟩, by simpa using hac,
              by simpa using hfr, by simp; omega⟩
          · have h12 : s.ext.prsFidx.toNat ≠ 12 := by
              intro hx
              exact h13 (BitVec.eq_of_toNat_eq (by rw [hfi, hx]; rfl))
            have h11 : s.ext.prsFidx.toNat ≠ 13 := by
              intro hx
              exact h14 (BitVec.eq_of_toNat_eq (by rw [hfi, hx]; rfl))
            rcases h.phase with ⟨h1, h2, h3⟩ | ⟨_, h2, _⟩ | ⟨_, h2⟩
            · exact ⟨⟨hpar', hhdr', .inl ⟨by rw [hstate]; exact h1, by omega, by rw [hhc, if_neg h12]; exact h3⟩⟩, hac, hfr,
                by omega⟩
            · omega
            · omega
        obtain ⟨k1, k2, k3, k4⟩ := key
        obtain ⟨i1, i2, i3, i4⟩ := ih t.afterField k1
        exact ⟨i1, i2.trans k2, i3.trans k3, Nat.le_trans k4 i4⟩
    · exact ⟨h, rfl, rfl, Nat.le_refl _⟩

/-! ### The parser loop as iterated parser steps -/

/-- The engine state that goes with the index of the next field, in a state that waits for bits or is in Verifying (R304,
R305). -/
def stateAtField (f : BitVec 4) : ExtState :=
  if f = 14#4 then .verifying else if f = 13#4 then .collecting else .accumulating

theorem ExtRegs.ParserForm.state_eq {e : ExtRegs} (h : e.ParserForm) : e.state = stateAtField e.prsFidx := by
  unfold stateAtField
  rcases h.phase with ⟨hs, hf, -⟩ | ⟨hs, hf, -⟩ | ⟨hs, hf⟩
  · rw [if_neg, if_neg, hs] <;> intro hx <;> rw [hx] at hf <;> simp at hf
  · rw [BitVec.eq_of_toNat_eq (y := 13#4) hf, hs]
    rfl
  · rw [BitVec.eq_of_toNat_eq (y := 14#4) hf, hs]
    rfl

/-- R260: the parser neither reads nor writes the engine state. -/
theorem State.parseStep_withExtState (s : State) (e : ExtState) :
    (s.withExtState e).parseStep = s.parseStep.map fun t => t.withExtState e := by
  have write (a : Nat) (bs : List Byte) :
      (s.withExtState e).writeBytes .fld a bs = (s.writeBytes .fld a bs).withExtState e := by
    induction bs generalizing s a with
    | nil => rfl
    | cons b bs ih => exact ih (s.writeByte .fld a b) (a + 1)
  have byte (sp : Space) (a : Nat) : (s.withExtState e).readByte sp a = s.readByte sp a :=
    State.readByte_congr rfl rfl rfl sp a
  have uint (c w : Nat) : (s.withExtState e).accUint c w = s.accUint c w := by
    induction w with
    | zero => rfl
    | succ w ih => simp only [State.accUint, State.memBit, ih, byte]
  have bytes (c n : Nat) : (s.withExtState e).accBytes c n = s.accBytes c n := by
    simp only [State.accBytes, uint]
  have store (f c : Nat) : (s.withExtState e).storeField f c = (s.storeField f c).withExtState e := by
    simp only [State.storeField, uint, bytes]
    split_ifs
    · rfl
    · rfl
    · rfl
    · rfl
    · rfl
    · exact write _ _
  unfold State.parseStep
  simp only [store]
  split
  · rename_i h
    rw [if_pos (by exact h)]
    rfl
  · rename_i h
    rw [if_neg (by exact h)]
    rfl

theorem State.parseSteps_withExtState (s : State) (e : ExtState) (m : Nat) :
    (fun x : Option State => x.bind State.parseStep)^[m] (some (s.withExtState e))
      = ((fun x : Option State => x.bind State.parseStep)^[m] (some s)).map fun t => t.withExtState e := by
  induction m with
  | zero => rfl
  | succ m ih =>
    simp only [Function.iterate_succ_apply', ih]
    cases (fun x : Option State => x.bind State.parseStep)^[m] (some s) with
    | none => rfl
    | some t => exact t.parseStep_withExtState e

/-- R301: the parser loop takes the parser steps that can be taken, until the next field's bits are missing or field 13 is
parsed; the engine state then goes with the index of the next field. -/
theorem State.parseLoop_steps (s : State) (fuel : Nat) (hs : s.ext.state = stateAtField s.ext.prsFidx)
    (hf : s.ext.prsFidx.toNat ≤ 14) (hfuel : 14 ≤ s.ext.prsFidx.toNat + fuel) :
    ∃ (m : Nat) (v : State), (fun x : Option State => x.bind State.parseStep)^[m] (some s) = some v
      ∧ v.ext.prsFidx.toNat = s.ext.prsFidx.toNat + m ∧ v.ext.prsFidx.toNat ≤ 14
      ∧ (v.ext.prsFidx = 14#4 ∨ v.parseStep = none)
      ∧ s.parseLoop fuel = v.withExtState (stateAtField v.ext.prsFidx) := by
  have same : s = s.withExtState (stateAtField s.ext.prsFidx) := by
    rw [← hs]
    rfl
  induction fuel generalizing s with
  | zero => exact ⟨0, s, rfl, rfl, hf, .inl (BitVec.eq_of_toNat_eq (by simp only [BitVec.toNat_ofNat]; simp only [Nat.add_zero] at hfuel; omega)), same⟩
  | succ fuel ih =>
    simp only [State.parseLoop]
    split
    · rename_i h13
      cases hp : s.parseStep with
      | none => exact ⟨0, s, rfl, rfl, hf, .inr hp, same⟩
      | some t =>
        have hidx : t.ext.prsFidx.toNat = s.ext.prsFidx.toNat + 1 := by
          rw [(State.parseStep_ext hp).2]
          simp only [ExtRegs.advance, BitVec.toNat_ofNat]
          omega
        have hst : t.ext.state = s.ext.state := by rw [(State.parseStep_ext hp).2]; rfl
        have after : t.afterField = t.withExtState (stateAtField t.ext.prsFidx) := by
          unfold State.afterField stateAtField
          split_ifs with h1 h2 h2
          · rw [h1] at h2
            cases h2
          · rfl
          · rfl
          · have hacc : s.ext.state = .accumulating := by
              rw [hs, stateAtField, if_neg, if_neg] <;> intro hx <;> rw [hx] at hidx
              · exact h2 (BitVec.eq_of_toNat_eq hidx)
              · rw [hx] at h13
                exact absurd h13 (by decide)
            rw [← hacc, ← hst]
            rfl
        have idx : t.afterField.ext.prsFidx = t.ext.prsFidx := by rw [after]; rfl
        obtain ⟨m, v, h1, h2, h3, h4, h5⟩ := ih t.afterField (by rw [after]; rfl) (by rw [idx]; omega)
          (by rw [idx]; omega) (by
          rw [after]
          rfl)
        rw [after, State.parseSteps_withExtState] at h1
        obtain ⟨u, hu, rfl⟩ := Option.map_eq_some_iff.1 h1
        refine ⟨m + 1, u, ?_, ?_, h3, ?_, h5⟩
        · rw [Function.iterate_succ_apply]
          simpa [hp] using hu
        · have : u.ext.prsFidx.toNat = t.afterField.ext.prsFidx.toNat + m := h2
          rw [idx] at this
          omega
        · refine h4.imp id fun h => ?_
          rw [State.parseStep_withExtState] at h
          exact Option.map_eq_none_iff.1 h
    · exact ⟨0, s, rfl, rfl, hf, .inl (BitVec.eq_of_toNat_eq (by simp only [BitVec.toNat_ofNat]; omega)), same⟩

end Sys2Proof.Machine
end

