-- ==== Sys2Proof/Laws/Exec.lean ====
section
/-! SUPPORT. Every command as its checks and its rule, and what a rule leaves in the flags and error registers. -/

namespace Sys2Proof.Machine

/-- The checks of a command, in order (R363). -/
def checksOf : Instr → State → List Check
  | .b2b lenient => chkB2b lenient
  | .ecPub => chkPriv
  | .envSeal => chkSeal
  | .blkLd | .blkSt => fun s => chkFrame s ++ chkBlock s
  | .qimEmb _ | .qimExt => chkQim
  | .paySer => chkSerialize
  | .embStart => chkEmbStart
  | .embFrame => chkEmbFrame
  | .embEnd => fun s => [⟨!s.emb.state.inProgress, .badSequence, s.emb.state.code.toNat⟩]
  | .extFrame => chkExtFrame
  | .extEnd => fun s => [⟨!s.ext.state.takesEnd, .badSequence, s.ext.state.code.toNat⟩]
  | .extVerify => chkVerify
  | .nop | .softReset | .abort | .fdct | .idct | .extStart => fun _ => []

/-- The rule of a command after its checks. -/
def ruleOf : Instr → State → State
  | .nop => State.endOk
  | .softReset => fun s => s.softReset.endOk
  | .abort => fun s => s.abortBoth.endOk
  | .b2b _ => fun s => s.convertRange.endOk
  | .ecPub => fun s => (s.publishKey s.privScalar).endOk
  | .envSeal => fun s => (s.seal Config.crypto s.privScalar (s.peerPoint.getD .inf)).endOk
  | .fdct => fun s => s.fdct.endOk
  | .idct => fun s => s.idct.endOk
  | .blkLd => fun s => (s.blkLd s.frm.blkRow.toNat s.frm.blkCol.toNat).endOk
  | .blkSt => fun s => (s.blkSt s.frm.blkRow.toNat s.frm.blkCol.toNat).endOk
  | .qimEmb n => fun s => (s.embedOffered n).endOk
  | .qimExt => fun s => s.extractAll.endOk
  | .paySer => fun s => s.serialize.endOk
  | .embStart => fun s => s.startEmbedding.endOk
  | .embFrame => fun s => s.processFrame.endOk
  | .embEnd => State.endEmbedding
  | .extStart => fun s => s.startExtraction.endOk
  | .extFrame => State.receiveFrame
  | .extEnd => State.endExtraction
  | .extVerify => fun s => s.verify Config.crypto s.privScalar

/-- Every command is its checks and its rule. -/
theorem exec_eq_runCommand (i : Instr) (s : State) : exec i s = runCommand (checksOf i s) (ruleOf i) s := by
  cases i <;> unfold exec
  case nop => unfold execNop; rfl
  case softReset => unfold execSoftReset; rfl
  case abort => unfold execAbort; rfl
  case b2b => unfold execB2b; rfl
  case ecPub => unfold execEcPub; rfl
  case envSeal => unfold execEnvSeal envSeal; rfl
  case fdct => unfold execFdct; rfl
  case idct => unfold execIdct; rfl
  case blkLd => unfold execBlkLd; rfl
  case blkSt => unfold execBlkSt; rfl
  case qimEmb => unfold execQimEmb; rfl
  case qimExt => unfold execQimExt; rfl
  case paySer => unfold execPaySer; rfl
  case embStart => unfold execEmbStart; rfl
  case embFrame => unfold execEmbFrame; rfl
  case embEnd => unfold execEmbEnd; rfl
  case extStart => unfold execExtStart; rfl
  case extFrame => unfold execExtFrame; rfl
  case extEnd => unfold execExtEnd; rfl
  case extVerify => unfold execExtVerify extVerify; rfl

/-- Everything a command can do: a check refuses it with nothing else changed, or its rule runs. -/
theorem exec_cases {i : Instr} {s t : State} (h : exec i s = .next t) :
    (∃ c ∈ checksOf i s, c.failed = true ∧ firstFailed (checksOf i s) = some c ∧ t = s.raiseError c.error c.info)
      ∨ ((∀ c ∈ checksOf i s, c.failed = false) ∧ t = ruleOf i s) := by
  rw [exec_eq_runCommand] at h
  rcases runCommand_cases (checksOf i s) (ruleOf i) s with ⟨c, hm, hf, hs, hr⟩ | ⟨hp, hr⟩
  · exact .inl ⟨c, hm, hf, hs, (Host.Outcome.next.inj (hr.symm.trans h)).symm⟩
  · exact .inr ⟨hp, (Host.Outcome.next.inj (hr.symm.trans h)).symm⟩

/-- R401: every command answers a next state. -/
theorem exec_answers (i : Instr) (s : State) : ∃ t, exec i s = .next t := by
  rw [exec_eq_runCommand]
  unfold runCommand
  split <;> exact ⟨_, rfl⟩

theorem exec_passed {i : Instr} {s : State} (h : firstFailed (checksOf i s) = none) : exec i s = .next (ruleOf i s) := by
  rw [exec_eq_runCommand, runCommand_passed h]

theorem exec_failed {i : Instr} {s : State} {c : Check} (h : firstFailed (checksOf i s) = some c) :
    exec i s = .next (s.raiseError c.error c.info) := by
  rw [exec_eq_runCommand, runCommand_failed h]

/-! ### The flags a rule can change -/

/-- R224: of the flags, embedding in slots writes `SAT` only. -/
theorem State.embedSlots_status (s : State) (bits : Nat → Bool) (m : Nat) :
    ∃ b, (s.embedSlots bits m).status = { s.status with sat := b } := by
  induction m with
  | zero => exact ⟨_, rfl⟩
  | succ m ih =>
    obtain ⟨b, hb⟩ := ih
    refine ⟨(s.embedSlots bits (m + 1)).status.sat, ?_⟩
    simp only [State.embedSlots, State.embedBit, State.withCoef_status, State.withStatus_status, hb]

/-- R228: of the flags, one block of `frame_embed` writes `SAT` only. -/
theorem State.embedBlock_status (s : State) (br bc start m : Nat) :
    ∃ b, (s.embedBlock br bc start m).status = { s.status with sat := b } := by
  obtain ⟨b, hb⟩ := ((s.blkLd br bc).fdct).embedSlots_status
    (fun i => ((s.blkLd br bc).fdct).memBit .pay (start + i)) m
  exact ⟨b, by simp [State.embedBlock, hb]⟩

/-- R228: of the flags, `frame_embed` writes `SAT` only. -/
theorem frameEmbedLoop_status (start L : Nat) (blocks : List (Nat × Nat)) (n : Nat) (s : State) :
    ∃ b, (frameEmbedLoop start L blocks n s).2.status = { s.status with sat := b } := by
  induction blocks generalizing n s with
  | nil => exact ⟨_, rfl⟩
  | cons b rest ih =>
    obtain ⟨br, bc⟩ := b
    simp only [frameEmbedLoop]
    split
    · exact ⟨_, rfl⟩
    · obtain ⟨b1, h1⟩ := s.embedBlock_status br bc (start + n) (min s.neff (L - n))
      obtain ⟨b2, h2⟩ := ih (n + min s.neff (L - n)) (s.embedBlock br bc (start + n) (min s.neff (L - n)))
      exact ⟨b2, by rw [h2, h1]⟩

/-- R308: the three endings of `EXT_VERIFY`: an invalid point, a rejection, a release. -/
theorem State.verify_cases (X : Crypto) (s : State) (d : Nat) :
    (s.senderPoint = none ∧ s.verify X d = (s.withExtState .failed).raiseError .invalidPoint 0)
      ∨ ∃ Q u, s.senderPoint = some Q ∧ u = (s.deriveKey X d Q (s.lenAt 1)).clearSecrets ∧
        (((s.deriveKey X d Q (s.lenAt 1)).openCiphertext X = none
            ∧ s.verify X d = u.rejectPlaintext .authenticationFailed)
          ∨ ∃ pt, (s.deriveKey X d Q (s.lenAt 1)).openCiphertext X = some pt ∧
            ((u.hashMatches X pt = true ∧ s.verify X d = u.releasePlaintext pt)
              ∨ (u.hashMatches X pt = false ∧ u.ctrl.hashFatal = true
                  ∧ s.verify X d = u.noteMismatch.rejectPlaintext .integrityMismatch)
              ∨ (u.hashMatches X pt = false ∧ u.ctrl.hashFatal = false
                  ∧ s.verify X d = u.noteMismatch.releasePlaintext pt))) := by
  unfold State.verify
  cases s.senderPoint with
  | none => exact .inl ⟨rfl, rfl⟩
  | some Q =>
    refine .inr ⟨Q, _, rfl, rfl, ?_⟩
    unfold State.verifyWith State.finishVerify
    dsimp only
    cases (s.deriveKey X d Q (s.lenAt 1)).openCiphertext X with
    | none => exact .inl ⟨rfl, rfl⟩
    | some pt =>
      refine .inr ⟨pt, rfl, ?_⟩
      unfold State.acceptPlaintext
      cases hm : State.hashMatches X (s.deriveKey X d Q (s.lenAt 1)).clearSecrets pt with
      | true => exact .inl ⟨rfl, by simp [hm]⟩
      | false =>
        cases hf : (s.deriveKey X d Q (s.lenAt 1)).clearSecrets.ctrl.hashFatal with
        | true => exact .inr (.inl ⟨rfl, rfl, by simp [hm]⟩)
        | false => exact .inr (.inr ⟨rfl, rfl, by simp [hm]⟩)

/-- R283: what the first frame of an operation leaves alone. -/
@[simp] theorem State.keepReference_frame (s : State) :
    s.keepReference.errs = s.errs ∧ s.keepReference.ctrl = s.ctrl ∧ s.keepReference.intPend = s.intPend
      ∧ s.keepReference.caps = s.caps ∧ s.keepReference.qim = s.qim ∧ s.keepReference.frm = s.frm
      ∧ s.keepReference.frmBits = s.frmBits ∧ s.keepReference.emb = s.emb ∧ s.keepReference.ext = s.ext
      ∧ s.keepReference.hdr = s.hdr ∧ s.keepReference.ptLen = s.ptLen ∧ s.keepReference.range = s.range
      ∧ s.keepReference.port = s.port ∧ s.keepReference.priv = s.priv ∧ s.keepReference.pix = s.pix
      ∧ s.keepReference.coef = s.coef ∧ s.keepReference.hidden = s.hidden ∧ s.keepReference.host = s.host
      ∧ s.keepReference.free = s.free := by
  unfold State.keepReference
  split <;> simp

@[simp] theorem State.keepReference_status (s : State) :
    s.keepReference.status = { s.status with refValid := true } := by
  unfold State.keepReference
  split
  · rename_i h
    rw [← h]
  · simp

end Sys2Proof.Machine
end

