-- ==== Sys2Proof/Laws/Forms.lean ====
section
/-! SUPPORT. The canonical form of the memories under every operation that writes one, and what the memory operations of
the units leave in each byte. -/

namespace Sys2Proof.Machine

theorem State.MemoryForm.clearSecrets {s : State} (h : s.MemoryForm) : s.clearSecrets.MemoryForm := h

/-- The canonical form depends on the memories and the capacities only. -/
theorem State.MemoryForm.congr {s t : State} (h : s.MemoryForm) (hc : t.caps = s.caps) (hm : t.mems = s.mems) :
    t.MemoryForm := by
  intro sp
  rw [hc, hm]
  exact h sp

theorem State.MemoryForm.writeByte {s : State} (h : s.MemoryForm) (sp : Space) (a : Nat) (b : Byte) :
    (s.writeByte sp a b).MemoryForm := fun sp' => s.wf_writeByte sp a b h sp'

theorem State.MemoryForm.writeBytes {s : State} (h : s.MemoryForm) (sp : Space) (a : Nat) (bs : List Byte) :
    (s.writeBytes sp a bs).MemoryForm := by
  intro sp'
  rw [State.writeBytes_caps]
  exact s.wf_writeBytes sp a bs h sp'

theorem State.MemoryForm.setMemBits {s : State} (h : s.MemoryForm) (sp : Space) (i : Nat) (f : Nat → Bool) (m : Nat) :
    (s.setMemBits sp i f m).MemoryForm := by
  intro sp'
  rw [State.setMemBits_caps]
  exact s.wf_setMemBits sp i f m h sp'

theorem State.MemoryForm.storePixels {s : State} (h : s.MemoryForm) (br bc m : Nat) :
    (s.storePixels br bc m).MemoryForm := by
  induction m with
  | zero => exact h
  | succ m ih => exact ih.writeByte .frame (s.pixelAddr br bc m) (s.pixAt m)

theorem State.MemoryForm.embedBlock {s : State} (h : s.MemoryForm) (br bc start m : Nat) :
    (s.embedBlock br bc start m).MemoryForm := by
  unfold State.embedBlock State.blkSt
  exact State.MemoryForm.storePixels (h.congr (by simp) (by simp)) br bc 64

theorem State.MemoryForm.frameEmbedLoop {s : State} (h : s.MemoryForm) (start L : Nat) (blocks : List (Nat × Nat))
    (n : Nat) : (frameEmbedLoop start L blocks n s).2.MemoryForm := by
  induction blocks generalizing n s with
  | nil => exact h
  | cons b rest ih =>
    obtain ⟨br, bc⟩ := b
    simp only [Machine.frameEmbedLoop]
    split
    · exact h
    · exact ih (h.embedBlock br bc _ _) _

theorem State.MemoryForm.extractBlock {s : State} (h : s.MemoryForm) (br bc pos : Nat) :
    (s.extractBlock br bc pos).MemoryForm := by
  unfold State.extractBlock
  exact State.MemoryForm.setMemBits (h.congr (by simp) (by simp)) .acc pos _ _

theorem State.MemoryForm.frameExtractLoop {s : State} (h : s.MemoryForm) (blocks : List (Nat × Nat)) (pos : Nat) :
    (frameExtractLoop blocks pos s).2.MemoryForm := by
  induction blocks generalizing pos s with
  | nil => exact h
  | cons b rest ih =>
    obtain ⟨br, bc⟩ := b
    exact ih (h.extractBlock br bc pos) _

theorem State.MemoryForm.keepReference {s : State} (h : s.MemoryForm) : s.keepReference.MemoryForm := by
  unfold State.keepReference
  split
  · exact h
  · exact (h.writeBytes .ref 0 _).congr rfl rfl

theorem State.MemoryForm.storeField {s : State} (h : s.MemoryForm) (f c : Nat) : (s.storeField f c).MemoryForm := by
  unfold State.storeField
  split_ifs
  · exact h.congr rfl rfl
  · exact h.congr rfl rfl
  · exact h.congr rfl rfl
  · exact h
  · exact h.congr rfl rfl
  · exact h.writeBytes .fld _ _

theorem State.MemoryForm.parseStep {s t : State} (h : s.MemoryForm) (hp : s.parseStep = some t) : t.MemoryForm := by
  unfold State.parseStep at hp
  simp only at hp
  split at hp
  · simp at hp
  · obtain rfl := Option.some.inj hp
    exact (h.storeField _ _).congr rfl rfl

theorem State.MemoryForm.parseLoop {s : State} (h : s.MemoryForm) (fuel : Nat) : (s.parseLoop fuel).MemoryForm := by
  induction fuel generalizing s with
  | zero => exact h
  | succ fuel ih =>
    simp only [State.parseLoop]
    split
    · cases hp : s.parseStep with
      | none => exact h
      | some t => exact ih ((h.parseStep hp).congr (by simp) (by unfold State.afterField; split_ifs <;> rfl))
    · exact h

theorem State.MemoryForm.publishKey {s : State} (h : s.MemoryForm) (d : Nat) : (s.publishKey d).MemoryForm :=
  (h.writeBytes .fld 0x000 (compress (pmul d P256.G))).congr (by simp) (by simp [State.publishKey])

theorem State.MemoryForm.storeCiphertext {s : State} (h : s.MemoryForm) (ct : List Byte) :
    (s.storeCiphertext ct).MemoryForm :=
  (h.writeBytes .ct 0 ct).congr (by simp) (by simp [State.storeCiphertext])

theorem State.MemoryForm.storeTag {s : State} (h : s.MemoryForm) (tag : BitVec 128) : (s.storeTag tag).MemoryForm :=
  (h.writeBytes .fld 0x400 (beBytes tag.toNat 16)).congr (by simp) (by simp [State.storeTag])

theorem State.MemoryForm.storeHash {s : State} (h : s.MemoryForm) (hash : BitVec 256) :
    (s.storeHash hash).MemoryForm :=
  (h.writeBytes .fld 0x200 (beBytes hash.toNat 32)).congr (by simp) (by simp [State.storeHash])

theorem State.MemoryForm.seal {s : State} (h : s.MemoryForm) (X : Crypto) (d : Nat) (Q : Point) :
    (s.seal X d Q).MemoryForm := by
  unfold State.seal
  have hk : ((s.publishKey d).deriveKey X d Q 16).MemoryForm := (h.publishKey d).congr (by simp) (by simp)
  exact (((hk.storeCiphertext _).storeTag _).storeHash _).clearSecrets

/-- The memories list nothing after a reset. -/
theorem State.memoryForm_resetWith (c : Caps) : (State.resetWith c).MemoryForm := by
  intro sp
  cases sp <;> rfl

end Sys2Proof.Machine
end

