-- ==== Sys2Proof/Laws/PerInstr.lean ====
section
/-! SUPPORT. Facts about every command as syntax, one lemma per constructor. `OneRow`: the rows of the opcode map do not
overlap on the words of well-formed commands (R101, R102). -/

namespace Sys2Proof.Laws.OneRow

/-- The word of a well-formed command matches exactly one row of the opcode map. -/
def Statement (i : Instr) : Prop :=
  i.wellFormed = true → (opcodeMap.filter fun r => r.accepts (encode i)).length = 1

theorem nop : Statement .nop := fun _ => rfl

theorem softReset : Statement .softReset := fun _ => rfl

theorem abort : Statement .abort := fun _ => rfl

theorem b2b (lenient : Bool) : Statement (.b2b lenient) := by
  cases lenient <;> exact fun _ => rfl

theorem ecPub : Statement .ecPub := fun _ => rfl

theorem envSeal : Statement .envSeal := fun _ => rfl

theorem fdct : Statement .fdct := fun _ => rfl

theorem idct : Statement .idct := fun _ => rfl

theorem blkLd : Statement .blkLd := fun _ => rfl

theorem blkSt : Statement .blkSt := fun _ => rfl

theorem qimEmb (n : Nat) : Statement (.qimEmb n) := by
  intro h
  have all : ∀ k < 64, (opcodeMap.filter fun r => r.accepts (encode (.qimEmb k))).length = 1 := by decide
  exact all n (of_decide_eq_true h)

theorem qimExt : Statement .qimExt := fun _ => rfl

theorem paySer : Statement .paySer := fun _ => rfl

theorem embStart : Statement .embStart := fun _ => rfl

theorem embFrame : Statement .embFrame := fun _ => rfl

theorem embEnd : Statement .embEnd := fun _ => rfl

theorem extStart : Statement .extStart := fun _ => rfl

theorem extFrame : Statement .extFrame := fun _ => rfl

theorem extEnd : Statement .extEnd := fun _ => rfl

theorem extVerify : Statement .extVerify := fun _ => rfl

end Sys2Proof.Laws.OneRow
end

