-- ==== Sys2Proof/Laws/Step.lean ====
section
/-! SUPPORT. What one step can do: the block's turn, the host's turn, and what a host step leaves alone. -/

namespace Sys2Proof.Machine

/-- A command is in progress: `BUSY` is set and the reset input is released. -/
theorem State.commandInProgress_iff {s : State} :
    s.commandInProgress = true ↔ s.status.busy = true ∧ s.host.resetInput = false := by
  simp [State.commandInProgress]

/-- Everything a step can do: nothing, the host's next action, the execution of a command, the refusal of a word. -/
theorem step_cases {s t : State} (h : step s = .next t) :
    t = s
      ∨ (∃ e rest f, s.host.pending = e :: rest ∧ f.epoch = s.free.epoch ∧ f.draws = s.free.draws
          ∧ t = ((s.withFree f).withHost { s.host with pending := rest }).hostStep e)
      ∨ (s.commandInProgress = true ∧ ∃ i, decode s.hidden.cmdLatch = .ok i ∧ exec i s = .next t)
      ∨ (s.commandInProgress = true ∧ ∃ w, decode s.hidden.cmdLatch = .error (.illegalCommand w)
          ∧ t = s.raiseError .illegalCommand w.toNat) := by
  have block (hb : s.commandInProgress = true) (hs : s.blockStep = .next t) :
      (s.commandInProgress = true ∧ ∃ i, decode s.hidden.cmdLatch = .ok i ∧ exec i s = .next t)
        ∨ (s.commandInProgress = true ∧ ∃ w, decode s.hidden.cmdLatch = .error (.illegalCommand w)
            ∧ t = s.raiseError .illegalCommand w.toNat) := by
    unfold State.blockStep at hs
    split at hs
    · exact .inl ⟨hb, _, ‹_›, hs⟩
    · exact .inr ⟨hb, _, ‹_›, (Host.Outcome.next.inj hs).symm⟩
  unfold step State.advance at h
  split at h
  · split at h
    · exact .inr (.inr (block ‹_› h))
    · exact .inl (Host.Outcome.next.inj h).symm
  · rename_i e rest hp
    split at h
    · split at h
      · exact .inr (.inr (block ‹_› h))
      · exact .inr (.inl ⟨e, rest, _, hp, by rfl, by rfl, (Host.Outcome.next.inj h).symm⟩)
    · exact .inr (.inl ⟨e, rest, s.free, hp, rfl, rfl, (Host.Outcome.next.inj h).symm⟩)

/-- R401: every step answers a next state. -/
theorem step_answers (s : State) : ∃ t, step s = .next t := by
  have block : ∃ t, s.blockStep = .next t := by
    unfold State.blockStep
    split
    · exact exec_answers _ _
    · exact ⟨_, rfl⟩
  unfold step State.advance
  split
  · split
    · exact block
    · exact ⟨_, rfl⟩
  · split
    · split
      · exact block
      · exact ⟨_, rfl⟩
    · exact ⟨_, rfl⟩

/-- What a host step other than a reset and a submission leaves alone. -/
structure State.HostKeeps (s t : State) : Prop where
  hidden : t.hidden = s.hidden
  caps : t.caps = s.caps
  ext : t.ext = s.ext
  status : ∃ a b, t.status = { s.status with sat := a, hosterr := b }
  errs : ∃ m, t.errs = { s.errs with sticky := s.errs.sticky &&& m }
  emb : t.emb = s.emb ∨ (s.emb.state.inProgress = false ∧ ∃ v, t.emb = { s.emb with payBits := v })
  free : t.free = s.free

theorem State.HostKeeps.of_eq {s t : State} (hidden : t.hidden = s.hidden) (caps : t.caps = s.caps)
    (ext : t.ext = s.ext) (status : ∃ a b, t.status = { s.status with sat := a, hosterr := b })
    (errs : t.errs = s.errs) (emb : t.emb = s.emb) (free : t.free = s.free) : s.HostKeeps t :=
  ⟨hidden, caps, ext, status, ⟨BitVec.allOnes 12, by rw [errs, BitVec.and_allOnes]⟩, .inl emb, free⟩

theorem State.hostRead_keeps (s : State) (width : Width) (offset : BitVec 12) :
    s.HostKeeps (s.hostRead width offset).2 := by
  simp only [State.hostRead]
  split
  · exact .of_eq rfl rfl rfl ⟨_, _, rfl⟩ rfl rfl rfl
  · split
    · split <;> exact .of_eq rfl rfl rfl ⟨_, _, rfl⟩ rfl rfl rfl
    · split
      · unfold State.readPort
        split <;> exact .of_eq rfl rfl rfl ⟨_, _, rfl⟩ rfl rfl rfl
      · exact .of_eq rfl rfl rfl ⟨_, _, rfl⟩ rfl rfl rfl

theorem State.writePort_keeps (s : State) (w : Word) : s.HostKeeps (s.writePort w) := by
  unfold State.writePort
  split <;> exact .of_eq rfl rfl rfl ⟨_, _, rfl⟩ rfl rfl rfl

theorem State.writeReg_keeps (s : State) (r : Reg) (w : Word) (h : r ≠ .cmd) : s.HostKeeps (s.writeReg r w) := by
  cases r
  case cmd => exact absurd rfl h
  case memData => exact s.writePort_keeps w
  case errSticky => exact ⟨rfl, rfl, rfl, ⟨_, _, rfl⟩, ⟨_, rfl⟩, .inl rfl, rfl⟩
  case payBits =>
    simp only [State.writeReg]
    split
    · exact .of_eq rfl rfl rfl ⟨_, _, rfl⟩ rfl rfl rfl
    · exact ⟨rfl, rfl, rfl, ⟨_, _, rfl⟩, ⟨BitVec.allOnes 12, by rw [BitVec.and_allOnes]; rfl⟩,
        .inr ⟨by simpa using ‹¬s.emb.state.inProgress = true›, _, rfl⟩, rfl⟩
  case status => exact .of_eq rfl rfl rfl ⟨_, _, rfl⟩ rfl rfl rfl
  all_goals
    refine .of_eq ?_ ?_ ?_ ⟨s.status.sat, s.status.hosterr, ?_⟩ ?_ ?_ ?_ <;> simp [State.writeReg]

/-- Everything driving the reset input can do: the reset state with the input at its new level, or nothing, when an
input that is not asserted is released. -/
theorem State.driveReset_cases (s : State) (asserted : Bool) :
    s.driveReset asserted = s.hardwareReset.withHost { s.host with resetInput := asserted }
      ∨ (asserted = false ∧ s.host.resetInput = false ∧ s.driveReset asserted = s) := by
  unfold State.driveReset
  split
  · exact .inl rfl
  · rename_i h
    simp only [Bool.or_eq_true, not_or, Bool.not_eq_true] at h
    refine .inr ⟨h.1, h.2, ?_⟩
    rw [h.1, ← h.2]
    rfl

/-- Everything a host step can do: the reset state, the submission of a command while not busy, or a change that leaves
the engines, the hidden registers and every flag but `SAT` and `HOSTERR` alone. -/
theorem State.hostStep_cases (s : State) (e : HostEvent) :
    (∃ a, s.hostStep e = s.hardwareReset.withHost { s.host with resetInput := a })
      ∨ (s.status.busy = false ∧ ∃ w, s.hostStep e = s.accept w) ∨ s.HostKeeps (s.hostStep e) := by
  have none_keeps : s.HostKeeps s := .of_eq rfl rfl rfl ⟨_, _, rfl⟩ rfl rfl rfl
  cases e with
  | resetInput a =>
    obtain h | ⟨-, -, h⟩ := s.driveReset_cases a
    · exact .inl ⟨a, h⟩
    · exact .inr (.inr (by rw [State.hostStep, h]; exact none_keeps))
  | read width offset =>
    simp only [State.hostStep]
    split
    · exact .inr (.inr (.of_eq rfl rfl rfl ⟨_, _, rfl⟩ rfl rfl rfl))
    · obtain ⟨h1, h2, h3, h4, h5, h6, h7⟩ := s.hostRead_keeps width offset
      exact .inr (.inr ⟨h1, h2, h3, h4, h5, h6, h7⟩)
  | write width offset value =>
    simp only [State.hostStep, State.hostWrite]
    split
    · exact .inr (.inr none_keeps)
    · split
      · exact .inr (.inr (.of_eq rfl rfl rfl ⟨_, _, rfl⟩ rfl rfl rfl))
      · rename_i h
        by_cases hc : regAt offset.toNat = .cmd
        · exact .inr (.inl ⟨by simpa using (not_or.1 h).2, value, by rw [hc]; rfl⟩)
        · exact .inr (.inr (s.writeReg_keeps _ value hc))

/-- A host read keeps the canonical form of the memories. -/
theorem State.MemoryForm.hostRead {s : State} (h : s.MemoryForm) (width : Width) (offset : BitVec 12) :
    (s.hostRead width offset).2.MemoryForm := by
  refine h.congr (s.hostRead_keeps width offset).caps ?_
  simp only [State.hostRead]
  split
  · rfl
  · split
    · split <;> rfl
    · split
      · unfold State.readPort
        split <;> rfl
      · rfl

/-- A host step keeps the canonical form of the memories and the capacities. -/
theorem State.MemoryForm.hostStep {s : State} (h : s.MemoryForm) (e : HostEvent) :
    (s.hostStep e).MemoryForm ∧ (s.hostStep e).caps = s.caps := by
  cases e with
  | resetInput a =>
    obtain hr | ⟨-, -, hr⟩ := s.driveReset_cases a <;> rw [State.hostStep, hr]
    · exact ⟨fun sp => by cases sp <;> rfl, rfl⟩
    · exact ⟨h, rfl⟩
  | read width offset =>
    simp only [State.hostStep]
    split
    · exact ⟨h.congr rfl rfl, rfl⟩
    · exact ⟨(h.hostRead width offset).congr rfl rfl, (s.hostRead_keeps width offset).caps⟩
  | write width offset value =>
    simp only [State.hostStep, State.hostWrite]
    split
    · exact ⟨h, rfl⟩
    split
    · exact ⟨h.congr rfl rfl, rfl⟩
    · cases hr : regAt offset.toNat
      case memData =>
        simp only [State.writeReg, State.writePort]
        split
        · exact ⟨(h.writeByte _ _ _).congr rfl rfl, rfl⟩
        · exact ⟨h.congr rfl rfl, rfl⟩
      case payBits =>
        simp only [State.writeReg]
        split <;> exact ⟨h.congr rfl rfl, rfl⟩
      all_goals exact ⟨h.congr (by simp [State.writeReg]) (by simp [State.writeReg]), by simp [State.writeReg]⟩

end Sys2Proof.Machine
end

