-- ==== Sys2Proof/Laws/Pixels.lean ====
section
/-! SUPPORT. What the block store and the per-frame driver leave in each byte of the memories. -/

namespace Sys2Proof.Machine

/-- R73: a row and a column inside a row are determined by the address. -/
theorem raster_address_inj {w y x y' x' : Nat} (hx : x < w) (hx' : x' < w) (h : y * w + x = y' * w + x') :
    y = y' ∧ x = x' := by
  have hw : 0 < w := by omega
  have hm : (y * w + x) % w = x := by rw [Nat.mul_add_mod_self_right, Nat.mod_eq_of_lt hx]
  have hm' : (y' * w + x') % w = x' := by rw [Nat.mul_add_mod_self_right, Nat.mod_eq_of_lt hx']
  have hd : (y * w + x) / w = y := by
    rw [Nat.mul_comm, Nat.mul_add_div hw, Nat.div_eq_of_lt hx, Nat.add_zero]
  have hd' : (y' * w + x') / w = y' := by
    rw [Nat.mul_comm, Nat.mul_add_div hw, Nat.div_eq_of_lt hx', Nat.add_zero]
  exact ⟨by rw [← hd, h, hd'], by rw [← hm, h, hm']⟩

/-- The elements of a block inside the frame have different addresses. -/
theorem State.pixelAddr_inj (s : State) {br bc k k' : Nat} (hc : bc < s.frmW / 8)
    (h : s.pixelAddr br bc k = s.pixelAddr br bc k') : k = k' := by
  have := raster_address_inj (w := s.frmW) (by omega) (by omega) h
  omega

/-- An element of a block inside the frame lies inside the frame. -/
theorem State.pixelAddr_lt (s : State) {br bc k : Nat} (hr : br < s.frmH / 8) (hc : bc < s.frmW / 8) (hk : k < 64) :
    s.pixelAddr br bc k < s.frmW * s.frmH := by
  have h1 : 8 * br + k / 8 + 1 ≤ s.frmH := by omega
  have h2 : 8 * bc + k % 8 < s.frmW := by omega
  calc s.pixelAddr br bc k < (8 * br + k / 8 + 1) * s.frmW := by
        rw [State.pixelAddr, Nat.add_mul (8 * br + k / 8) 1, Nat.one_mul]
        omega
    _ ≤ s.frmH * s.frmW := Nat.mul_le_mul_right _ h1
    _ = s.frmW * s.frmH := Nat.mul_comm _ _

theorem State.pixelAddr_congr {s t : State} (h : t.frm = s.frm) (br bc k : Nat) :
    t.pixelAddr br bc k = s.pixelAddr br bc k := by
  simp [State.pixelAddr, State.frmW, h]

theorem State.pixAt_congr {s t : State} (h : t.pix = s.pix) (k : Nat) : t.pixAt k = s.pixAt k := by
  simp [State.pixAt, h]

theorem State.coefAt_congr {s t : State} (h : t.coef = s.coef) (k : Nat) : t.coefAt k = s.coefAt k := by
  simp [State.coefAt, h]

/-- R207: the bytes that the stores of `blk_st` do not address. -/
theorem State.readByte_storePixels_other (s : State) (br bc m : Nat) (sp : Space) (a : Nat)
    (h : ∀ k < m, ¬(sp = .frame ∧ a = s.pixelAddr br bc k)) :
    (s.storePixels br bc m).readByte sp a = s.readByte sp a := by
  induction m with
  | zero => rfl
  | succ m ih =>
    simp only [State.storePixels]
    rw [State.readByte_writeByte_other _ _ (h m (by omega)), ih fun k hk => h k (by omega)]

/-- R207: the bytes that the stores of `blk_st` address. -/
theorem State.readByte_storePixels (s : State) {br bc m k : Nat} (hc : bc < s.frmW / 8) (hk : k < m)
    (ha : s.pixelAddr br bc k < s.caps.frame.toNat) :
    (s.storePixels br bc m).readByte .frame (s.pixelAddr br bc k) = s.pixAt k := by
  induction m with
  | zero => omega
  | succ m ih =>
    simp only [State.storePixels]
    by_cases h : k = m
    · subst h
      rw [State.readByte_writeByte_same]
      simpa [memSize] using ha
    · rw [State.readByte_writeByte_other, ih (by omega)]
      rintro ⟨-, he⟩
      exact h (s.pixelAddr_inj hc he)

/-- R206: the pixels of a loaded block. -/
theorem State.pixAt_blkLd (s : State) (br bc : Nat) {k : Nat} (hk : k < 64) :
    (s.blkLd br bc).pixAt k = s.readByte .frame (s.pixelAddr br bc k) := by
  simp [State.pixAt, State.blkLd, hk]

/-- R200: the coefficients of the forward transform. -/
theorem State.coefAt_fdct (s : State) {k : Nat} (hk : k < 64) :
    s.fdct.coefAt k = (BitVec.ofInt 32 (rhu (s.forwardSum (k / 8) (k % 8)) 22)).toInt := by
  simp [State.coefAt, State.fdct, hk]

/-- R201: the pixels of the inverse transform. -/
theorem State.pixAt_idct (s : State) {k : Nat} (hk : k < 64) :
    s.idct.pixAt k = BitVec.ofInt 8 (clamp (rhu (s.inverseSum (k / 8) (k % 8)) 38) 0 255) := by
  simp [State.pixAt, State.idct, hk]

/-- R224: the coefficient a bit is embedded in, and every other one. -/
theorem State.coefAt_embedBit (s : State) (k j : Nat) (b : Bool) (hk : k < 64) :
    (s.embedBit k b).coefAt j =
      if j = k then (BitVec.ofInt 32 (sat32 (adjustIndex (s.quantIndex k) b * s.qim.delta.toNat))).toInt
      else s.coefAt j := by
  simp only [State.coefAt, State.embedBit, State.withCoef_coef]
  split
  · subst_vars
    simp [hk]
  · rw [Vector.getElem?_setIfInBounds_ne (by omega)]

/-- R228: one block of `frame_embed` leaves every byte outside its block alone. -/
theorem State.readByte_embedBlock_other (s : State) (br bc start m : Nat) (sp : Space) (a : Nat)
    (h : ∀ k < 64, ¬(sp = .frame ∧ a = s.pixelAddr br bc k)) :
    (s.embedBlock br bc start m).readByte sp a = s.readByte sp a := by
  unfold State.embedBlock State.blkSt
  dsimp only
  rw [State.readByte_storePixels_other]
  · exact State.readByte_congr (by simp) (by simp) (by simp) sp a
  · intro k hk
    rw [State.pixelAddr_congr (s := s) (by simp)]
    exact h k hk

/-- R228: `frame_embed` leaves every byte outside the blocks it is given alone. -/
theorem readByte_frameEmbedLoop_other (start L : Nat) (blocks : List (Nat × Nat)) (n : Nat) (s : State) (sp : Space)
    (a : Nat) (h : ∀ b ∈ blocks, ∀ k < 64, ¬(sp = .frame ∧ a = s.pixelAddr b.1 b.2 k)) :
    (frameEmbedLoop start L blocks n s).2.readByte sp a = s.readByte sp a := by
  induction blocks generalizing n s with
  | nil => rfl
  | cons b rest ih =>
    obtain ⟨br, bc⟩ := b
    simp only [frameEmbedLoop]
    split
    · rfl
    · rw [ih, State.readByte_embedBlock_other _ _ _ _ _ _ _ (h (br, bc) (by simp))]
      intro b hb k hk
      rw [State.pixelAddr_congr (s := s) (by simp)]
      exact h b (by simp [hb]) k hk

/-- The bits are embedded in the coefficients only, from the coefficients and `DELTA` only (R224, R226). -/
theorem State.embedSlots_coef_congr {s t : State} {f g : Nat → Bool} {m : Nat} (hc : t.coef = s.coef)
    (hq : t.qim = s.qim) (h : ∀ i < m, f i = g i) : (t.embedSlots f m).coef = (s.embedSlots g m).coef := by
  induction m with
  | zero => exact hc
  | succ m ih =>
    have e := ih fun i hi => h i (by omega)
    simp only [State.embedSlots, State.embedBit, State.withCoef_coef, State.quantIndex, State.coefAt, e, h m (by omega),
      State.embedSlots_frame, hq]

/-- R200: the forward transform depends on the pixels only. -/
theorem State.fdct_coef_congr {s t : State} (h : t.pix = s.pix) : t.fdct.coef = s.fdct.coef := by
  simp only [State.fdct, State.forwardSum, State.withCoef_coef, State.pixAt, h]

/-- R201: the inverse transform depends on the coefficients only. -/
theorem State.idct_pix_congr {s t : State} (h : t.coef = s.coef) : t.idct.pix = s.idct.pix := by
  simp only [State.idct, State.inverseSum, State.withPix_pix, State.coefAt, h]

/-- R206: the loaded pixels depend on the frame's size and on the bytes of the block only. -/
theorem State.blkLd_pix_congr {s t : State} {br bc : Nat} (hf : t.frm = s.frm)
    (h : ∀ k < 64, t.readByte .frame (s.pixelAddr br bc k) = s.readByte .frame (s.pixelAddr br bc k)) :
    (t.blkLd br bc).pix = (s.blkLd br bc).pix := by
  simp only [State.blkLd, State.withPix_pix, State.pixelAddr_congr hf]
  congr 1
  funext k
  exact h k.val k.isLt

/-- R228: the pixels and coefficients one block of `frame_embed` leaves depend on the block's bytes, the payload bits, the
frame's size, `DELTA` and `NCOEF` only. -/
theorem State.embedBlock_congr {s t : State} {br bc start m : Nat} (hf : t.frm = s.frm) (hq : t.qim = s.qim)
    (hp : ∀ i, t.memBit .pay i = s.memBit .pay i)
    (h : ∀ k < 64, t.readByte .frame (s.pixelAddr br bc k) = s.readByte .frame (s.pixelAddr br bc k)) :
    (t.embedBlock br bc start m).pix = (s.embedBlock br bc start m).pix
      ∧ (t.embedBlock br bc start m).coef = (s.embedBlock br bc start m).coef := by
  have bit (u : State) (i : Nat) : ((u.blkLd br bc).fdct).memBit .pay i = u.memBit .pay i := by
    unfold State.memBit
    rw [State.readByte_congr (s := u) (by simp) (by simp) (by simp)]
  have coef : ((t.blkLd br bc).fdct.embedSlots (fun i => ((t.blkLd br bc).fdct).memBit .pay (start + i)) m).coef
      = ((s.blkLd br bc).fdct.embedSlots (fun i => ((s.blkLd br bc).fdct).memBit .pay (start + i)) m).coef :=
    State.embedSlots_coef_congr (State.fdct_coef_congr (State.blkLd_pix_congr hf h)) (by simpa using hq)
      fun i _ => by rw [bit, bit, hp]
  constructor
  · simpa [State.embedBlock] using State.idct_pix_congr coef
  · simpa [State.embedBlock] using coef

/-- R228: the bytes of the block that one block of `frame_embed` stores are its final pixels. -/
theorem State.readByte_embedBlock (s : State) {br bc k : Nat} (start m : Nat) (hc : bc < s.frmW / 8) (hk : k < 64)
    (ha : s.pixelAddr br bc k < s.caps.frame.toNat) :
    (s.embedBlock br bc start m).readByte .frame (s.pixelAddr br bc k) = (s.embedBlock br bc start m).pixAt k := by
  let u := ((s.blkLd br bc).fdct.embedSlots (fun i => ((s.blkLd br bc).fdct).memBit .pay (start + i)) m).idct
  have hf : u.frm = s.frm := by simp [u]
  have hw : u.frmW = s.frmW := by simp [State.frmW, hf]
  have hcap : u.caps = s.caps := by simp [u]
  have := u.readByte_storePixels (br := br) (bc := bc) (m := 64) (k := k) (by rwa [hw]) hk
    (by rwa [State.pixelAddr_congr hf, hcap])
  rw [State.pixelAddr_congr hf] at this
  exact this.trans (State.pixAt_congr (by simp [State.embedBlock, u]) k)

/-- R228, R230: block number `j` of those `frame_embed` is given, when a bit is left for it, holds what `embedBlock` on the
frame before gives, whatever blocks come before and after; `PIX` and `COEF` are those of the last such block. -/
theorem frameEmbedLoop_block (start L : Nat) (blocks : List (Nat × Nat)) (n : Nat) (s : State) (j : Nat)
    (hn : n ≤ L) (hj : j < blocks.length) (hbit : n + j * s.neff < L)
    (inside : ∀ b ∈ blocks, b.2 < s.frmW / 8 ∧ ∀ k < 64, s.pixelAddr b.1 b.2 k < s.caps.frame.toNat)
    (apart : blocks.Pairwise fun b c => ∀ k < 64, ∀ l < 64, s.pixelAddr b.1 b.2 k ≠ s.pixelAddr c.1 c.2 l) :
    let r := (frameEmbedLoop start L blocks n s).2
    let u := s.embedBlock blocks[j].1 blocks[j].2 (start + (n + j * s.neff)) (min s.neff (L - (n + j * s.neff)))
    (∀ k < 64, r.readByte .frame (s.pixelAddr blocks[j].1 blocks[j].2 k)
        = u.readByte .frame (s.pixelAddr blocks[j].1 blocks[j].2 k))
      ∧ (L ≤ n + (j + 1) * s.neff ∨ j + 1 = blocks.length → r.pix = u.pix ∧ r.coef = u.coef) := by
  induction blocks generalizing n s j with
  | nil => simp at hj
  | cons b rest ih =>
    obtain ⟨br, bc⟩ := b
    have hne : n ≠ L := by
      rintro rfl
      omega
    obtain ⟨hhead, hrest⟩ := List.pairwise_cons.1 apart
    simp only [frameEmbedLoop, if_neg hne]
    generalize hv : s.embedBlock br bc (start + n) (min s.neff (L - n)) = v
    have vf : v.frm = s.frm := by simp [← hv]
    have vq : v.qim = s.qim := by simp [← hv]
    have vc : v.caps = s.caps := by simp [← hv]
    have vn : v.neff = s.neff := State.neff_congr vq
    have va := State.pixelAddr_congr vf
    cases j with
    | zero =>
      simp only [Nat.zero_mul, Nat.add_zero, Nat.zero_add, Nat.one_mul, List.getElem_cons_zero, List.length_cons, hv]
      refine ⟨fun k hk => readByte_frameEmbedLoop_other _ _ _ _ _ _ _ ?_, ?_⟩
      · rintro c hc l hl ⟨-, he⟩
        rw [va] at he
        exact hhead c hc k hk l hl he
      · intro h
        cases rest with
        | nil => exact ⟨rfl, rfl⟩
        | cons c rest =>
          have : n + min s.neff (L - n) = L := by
            rcases h with h | h
            · omega
            · simp at h
          obtain ⟨cr, cc⟩ := c
          simp [frameEmbedLoop, this]
    | succ j =>
      simp only [Nat.add_mul, Nat.one_mul] at hbit ⊢
      have hj' : j < rest.length := by simpa using hj
      have hm : n + min s.neff (L - n) = n + s.neff := by omega
      have key := ih (n + min s.neff (L - n)) v j (by omega) hj' (by rw [vn]; omega)
        (by
          intro c hc
          have := inside c (by simp [hc])
          simpa [State.frmW, vf, va, vc] using this)
        (by simpa [va] using hrest)
      simp only [vn, va, hm] at key ⊢
      simp only [List.getElem_cons_succ]
      rw [show n + s.neff + j * s.neff = n + (j * s.neff + s.neff) by omega] at key
      have mem : rest[j] ∈ rest := List.getElem_mem hj'
      have cong := State.embedBlock_congr (s := s) (t := v) (br := rest[j].1) (bc := rest[j].2)
        (start := start + (n + (j * s.neff + s.neff)))
        (m := min s.neff (L - (n + (j * s.neff + s.neff)))) vf vq
        (by
          intro i
          unfold State.memBit
          rw [← hv, State.readByte_embedBlock_other _ _ _ _ _ _ _ fun k _ hc => by simp at hc])
        (by
          intro l hl
          rw [← hv, State.readByte_embedBlock_other]
          rintro k hk ⟨-, he⟩
          exact hhead _ mem k hk l hl he.symm)
      have ins := inside rest[j] (by simp)
      refine ⟨fun k hk => ?_, fun h => ?_⟩
      · rw [key.1 k hk]
        have e1 := s.readByte_embedBlock (start + (n + (j * s.neff + s.neff)))
          (min s.neff (L - (n + (j * s.neff + s.neff)))) ins.1 hk (ins.2 k hk)
        have e2 := v.readByte_embedBlock (k := k) (br := rest[j].1) (start + (n + (j * s.neff + s.neff)))
          (min s.neff (L - (n + (j * s.neff + s.neff)))) (by simpa [State.frmW, vf] using ins.1) hk
          (by rw [va, vc]; exact ins.2 k hk)
        rw [va] at e2
        rw [e1, e2, State.pixAt_congr cong.1]
      · rw [← cong.1, ← cong.2]
        refine key.2 ?_
        rcases h with h | h
        · left
          simp only [Nat.add_mul, Nat.one_mul]
          omega
        · right
          simpa using h

/-- R229: `frame_extract` leaves every memory but `ACC` alone. -/
theorem readByte_setMemBits_other (s : State) {sp sp' : Space} (i : Nat) (f : Nat → Bool) (m a : Nat) (h : sp' ≠ sp) :
    (s.setMemBits sp i f m).readByte sp' a = s.readByte sp' a := by
  induction m with
  | zero => rfl
  | succ m ih =>
    simp only [State.setMemBits, State.setMemBit]
    rw [State.readByte_writeByte_other _ _ (fun hc => h hc.1), ih]

theorem State.readByte_extractBlock_other (s : State) (br bc pos : Nat) {sp : Space} (a : Nat) (h : sp ≠ .acc) :
    (s.extractBlock br bc pos).readByte sp a = s.readByte sp a := by
  unfold State.extractBlock
  dsimp only
  rw [readByte_setMemBits_other _ _ _ _ _ h]
  exact State.readByte_congr (by simp) (by simp) (by simp) sp a

theorem readByte_frameExtractLoop_other (blocks : List (Nat × Nat)) (pos : Nat) (s : State) {sp : Space} (a : Nat)
    (h : sp ≠ .acc) : (frameExtractLoop blocks pos s).2.readByte sp a = s.readByte sp a := by
  induction blocks generalizing pos s with
  | nil => rfl
  | cons b rest ih =>
    obtain ⟨br, bc⟩ := b
    simp only [frameExtractLoop]
    rw [ih, State.readByte_extractBlock_other _ _ _ _ _ h]

/-- R229: the accumulator's bits after one block of `frame_extract`. -/
theorem State.memBit_extractBlock (s : State) (br bc pos i : Nat) :
    (s.extractBlock br bc pos).memBit .acc i =
      if pos ≤ i ∧ i < pos + s.neff ∧ i / 8 < memSize s.caps .acc then
        ((s.blkLd br bc).fdct).extractBit (i - pos + 1)
      else s.memBit .acc i := by
  have hn : ((s.blkLd br bc).fdct).neff = s.neff := State.neff_congr (by simp)
  have hc : ((s.blkLd br bc).fdct).caps = s.caps := by simp
  have hb : ((s.blkLd br bc).fdct).memBit .acc i = s.memBit .acc i := by
    unfold State.memBit
    rw [State.readByte_congr (s := s) (by simp) (by simp) (by simp)]
  unfold State.extractBlock
  dsimp only
  rw [State.memBit_setMemBits, hn, hc, hb]
  simp only [true_and]

/-- R225: the extracted bit depends on the block's bytes, the frame's size and `DELTA` only. -/
theorem State.extractBit_congr {s t : State} {br bc k : Nat} (hf : t.frm = s.frm) (hq : t.qim = s.qim)
    (h : ∀ l < 64, t.readByte .frame (s.pixelAddr br bc l) = s.readByte .frame (s.pixelAddr br bc l)) :
    ((t.blkLd br bc).fdct).extractBit k = ((s.blkLd br bc).fdct).extractBit k := by
  unfold State.extractBit State.quantIndex State.coefAt
  rw [State.fdct_coef_congr (State.blkLd_pix_congr hf h)]
  simp [hq]

/-- R229: `frame_extract` appends, from bit index `pos` on, the bits of the slots of the blocks in order, and leaves every
other bit of the accumulator alone. -/
theorem memBit_frameExtractLoop (blocks : List (Nat × Nat)) (pos : Nat) (s : State) (i : Nat)
    (hfit : pos + blocks.length * s.neff ≤ 8 * memSize s.caps .acc) :
    (frameExtractLoop blocks pos s).2.memBit .acc i =
      if pos ≤ i ∧ i < pos + blocks.length * s.neff then
        let b := blocks[(i - pos) / s.neff]?.getD (0, 0)
        ((s.blkLd b.1 b.2).fdct).extractBit ((i - pos) % s.neff + 1)
      else s.memBit .acc i := by
  induction blocks generalizing pos s with
  | nil => simp [frameExtractLoop]
  | cons b rest ih =>
    obtain ⟨br, bc⟩ := b
    simp only [frameExtractLoop, List.length_cons]
    simp only [List.length_cons, Nat.add_mul, Nat.one_mul] at hfit
    have hn : (s.extractBlock br bc pos).neff = s.neff := State.neff_congr (by simp)
    have hx (br' bc' k : Nat) :
        (((s.extractBlock br bc pos).blkLd br' bc').fdct).extractBit k = ((s.blkLd br' bc').fdct).extractBit k :=
      State.extractBit_congr (by simp) (by simp) fun _ _ => State.readByte_extractBlock_other _ _ _ _ _ (by simp)
    rw [ih _ _ (by simp only [hn, State.extractBlock_frame]; omega)]
    simp only [hn, hx, State.memBit_extractBlock, Nat.add_mul, Nat.one_mul]
    by_cases h1 : i < pos
    · rw [if_neg (by omega), if_neg (by omega), if_neg (by omega)]
    by_cases h2 : i < pos + s.neff
    · rw [if_neg (by omega), if_pos (by omega), if_pos (by omega), Nat.div_eq_of_lt (by omega),
        Nat.mod_eq_of_lt (by omega)]
      rfl
    by_cases h3 : i < pos + s.neff + rest.length * s.neff
    · have hpos : 0 < s.neff := by
        rcases Nat.eq_zero_or_pos s.neff with h | h
        · rw [h] at h3
          omega
        · exact h
      have hi : i - pos = (i - (pos + s.neff)) + s.neff := by omega
      rw [if_pos (by omega), if_pos (by omega), hi, Nat.add_div_right _ hpos, Nat.add_mod_right]
      simp
    · rw [if_neg (by omega), if_neg (by omega), if_neg (by omega)]

/-- R230: `frame_extract` leaves the pixels and forward coefficients of the last block in `PIX` and `COEF`. -/
theorem frameExtractLoop_last (blocks : List (Nat × Nat)) (b : Nat × Nat) (pos : Nat) (s : State) :
    (frameExtractLoop (blocks ++ [b]) pos s).2.pix = (s.blkLd b.1 b.2).pix
      ∧ (frameExtractLoop (blocks ++ [b]) pos s).2.coef = (s.blkLd b.1 b.2).fdct.coef := by
  have bits (s : State) (i : Nat) (f : Nat → Bool) (m : Nat) :
      (s.setMemBits .acc i f m).pix = s.pix ∧ (s.setMemBits .acc i f m).coef = s.coef := by
    induction m with
    | zero => exact ⟨rfl, rfl⟩
    | succ m ih => exact ih
  induction blocks generalizing pos s with
  | nil => simp only [List.nil_append, frameExtractLoop, State.extractBlock, bits, State.fdct_frame, and_self]
  | cons c rest ih =>
    simp only [List.cons_append, frameExtractLoop]
    have hp : ((s.extractBlock c.1 c.2 pos).blkLd b.1 b.2).pix = (s.blkLd b.1 b.2).pix :=
      State.blkLd_pix_congr (by simp) fun _ _ => State.readByte_extractBlock_other _ _ _ _ _ (by simp)
    have key := ih (pos + s.neff) (s.extractBlock c.1 c.2 pos)
    rw [key.1, key.2, State.fdct_coef_congr hp]
    exact ⟨hp, rfl⟩

/-- R260, R301: parsing leaves every memory but `FLD` alone. -/
theorem State.readByte_storeField_other (s : State) (f c : Nat) {sp : Space} (a : Nat) (h : sp ≠ .fld) :
    (s.storeField f c).readByte sp a = s.readByte sp a := by
  unfold State.storeField
  split_ifs
  · rfl
  · rfl
  · rfl
  · rfl
  · rfl
  · exact State.readByte_writeBytes_other _ _ (fun hc => h hc.1)

theorem State.readByte_parseStep_other {s t : State} (hp : s.parseStep = some t) {sp : Space} (a : Nat) (h : sp ≠ .fld) :
    t.readByte sp a = s.readByte sp a := by
  unfold State.parseStep at hp
  simp only at hp
  split at hp
  · simp at hp
  · obtain rfl := Option.some.inj hp
    exact s.readByte_storeField_other _ _ a h

theorem State.readByte_parseLoop_other (s : State) (fuel : Nat) {sp : Space} (a : Nat) (h : sp ≠ .fld) :
    (s.parseLoop fuel).readByte sp a = s.readByte sp a := by
  induction fuel generalizing s with
  | zero => rfl
  | succ fuel ih =>
    simp only [State.parseLoop]
    split
    · cases hp : s.parseStep with
      | none => rfl
      | some t =>
        rw [← State.readByte_parseStep_other hp a h]
        simp only
        rw [ih]
        unfold State.afterField
        split_ifs <;> rfl
    · rfl

end Sys2Proof.Machine
end

