-- ==== Sys2Proof/Tests/Slice0.lean ====
section
/-! SUPPORT. The model's own tests: the well-formedness smoke test, the decoding of words written out from the opcode
map, a few steps whose results are in spec/95_test_vectors.md, and one witness for every statement that has
hypotheses: a concrete state and operands that meet all of them, at the boundary values of each clause. -/

namespace Sys2Proof.Tests

open Sys2Proof.Machine

/-! The kernel decides most of these; one after the other, they need no more threads than one. -/
set_option Elab.async false

/-! ### Well-formedness and decoding -/

theorem test_wellFormed_refuses_64_bits : (Instr.qimEmb 64).wellFormed = false := by decide

theorem test_wellFormed_takes_63_bits : (Instr.qimEmb 63).wellFormed = true := by decide

/-! The words are the hexadecimal words of R102; `ARG` is bits 15:8 (R100). -/

theorem test_decode_nop : decode 0x00000000#32 = .ok .nop := by decide

theorem test_decode_softReset : decode 0x00000001#32 = .ok .softReset := by decide

theorem test_decode_abort : decode 0x00000002#32 = .ok .abort := by decide

theorem test_decode_b2b_strict : decode 0x00000010#32 = .ok (.b2b false) := by decide

theorem test_decode_b2b_lenient : decode 0x00000110#32 = .ok (.b2b true) := by decide

theorem test_decode_ecPub : decode 0x00000020#32 = .ok .ecPub := by decide

theorem test_decode_envSeal : decode 0x00000021#32 = .ok .envSeal := by decide

theorem test_decode_fdct : decode 0x00000030#32 = .ok .fdct := by decide

theorem test_decode_idct : decode 0x00000031#32 = .ok .idct := by decide

theorem test_decode_blkLd : decode 0x00000032#32 = .ok .blkLd := by decide

theorem test_decode_blkSt : decode 0x00000033#32 = .ok .blkSt := by decide

theorem test_decode_qimEmb_10 : decode 0x00000A40#32 = .ok (.qimEmb 10) := by decide

theorem test_decode_qimEmb_63 : decode 0b00000000000000000011111101000000#32 = .ok (.qimEmb 63) := by decide

theorem test_decode_qimExt : decode 0x00000041#32 = .ok .qimExt := by decide

theorem test_decode_paySer : decode 0x00000050#32 = .ok .paySer := by decide

theorem test_decode_embStart : decode 0x00000060#32 = .ok .embStart := by decide

theorem test_decode_embFrame : decode 0x00000061#32 = .ok .embFrame := by decide

theorem test_decode_embEnd : decode 0x00000062#32 = .ok .embEnd := by decide

theorem test_decode_extStart : decode 0x00000070#32 = .ok .extStart := by decide

theorem test_decode_extFrame : decode 0x00000071#32 = .ok .extFrame := by decide

theorem test_decode_extEnd : decode 0x00000072#32 = .ok .extEnd := by decide

theorem test_decode_extVerify : decode 0x00000073#32 = .ok .extVerify := by decide

/-- R103: a must-be-0 argument bit, an unused opcode, a nonzero upper half. -/
theorem test_decode_reserved :
    decode 0x00000210#32 = .error (.illegalCommand 0x00000210#32)
      ∧ decode 0x00004040#32 = .error (.illegalCommand 0x00004040#32)
      ∧ decode 0x00000100#32 = .error (.illegalCommand 0x00000100#32)
      ∧ decode 0x00000003#32 = .error (.illegalCommand 0x00000003#32)
      ∧ decode 0x00010000#32 = .error (.illegalCommand 0x00010000#32) := by decide

theorem test_decodeTableWord :
    decodeTableWord 32 0x3F40 = some (.qimEmb 63) ∧ decodeTableWord 16 0x0110 = some (.b2b true) := by decide

/-! ### Small states -/

/-- The state after a step, or the state before it. -/
def after (o : Host.Outcome State Fault Refusal) (s : State) : State :=
  match o with
  | .next t => t
  | .fault _ => s
  | .refused _ => s

/-- The command executed after reset in the state `s`. -/
def ran (i : Instr) (s : State) : State := after (exec i s) s

/-- Reset with the private scalar 1, the smallest that `chk_priv` takes. -/
def keyed : State := { State.reset with priv := (Vector.replicate 8 0#32).set 0 1#32 }

/-- Reset with usable QIM parameters and a frame of one block. -/
def framed : State :=
  { State.reset with
    qim := { State.reset.qim with delta := 5120#24, ncoef := 10#32 }
    frm := { width := 8#16, height := 8#16, blkRow := 0#13, blkCol := 0#13 } }

/-- `framed` in an embedding operation of 104 payload bits. -/
def embedding (st : EmbState) (cursor : Word) : State :=
  { framed with
    emb := { state := st, cursor := cursor, frames := 0#32, payBits := 104#32 }
    status := { State.reset.status with refValid := decide (st ≠ .awaitingFrame) } }

/-- `framed` in an extraction operation with `bits` bits in the accumulator. -/
def extracting (st : ExtState) (bits : Word) (idx : BitVec 4) : State :=
  { framed with ext := { State.reset.ext with state := st, accBits := bits, prsFidx := idx } }

/-- External functions that satisfy the law of R162: the cipher is the identity. -/
def plainCrypto : Crypto where
  hkdfSha256 _ _ _ := 0#256
  encByte pt _ _ i := pt.getD i 0#8
  encTag _ _ _ := 0#128
  decOk _ _ _ _ := true
  decByte ct _ _ _ i := ct.getD i 0#8
  sha3 _ := 0#256

/-- `FLD.PEER` holding the compressed base point (spec/95, section 5). -/
def peerBytes : Memory :=
  (List.range 33).map fun i => (0x500 + i, (compress P256.G).getD i 0#8)

/-- A sender: the scalar 1, the base point as peer, the expected lengths, one plaintext byte. -/
def sender : State :=
  { keyed with
    hdr := { State.reset.hdr with len := ((Vector.replicate 5 0#32).set 1 16#32).set 3 12#32 }
    ptLen := 1#32
    mems := { State.reset.mems with fld := peerBytes, pt := [(0, 0xAB#8)] } }

/-! ### One step -/

/-- R340: `DONE` and `INT_PEND[0]`. -/
theorem test_nop : (ran .nop State.reset).status.word = 0x002#32 ∧ (ran .nop State.reset).intPend.word = 1#32 := by
  decide +kernel

/-- R341: a register back at 0, the private scalar erased. -/
theorem test_softReset : (ran .softReset framed).qim.delta = 0#24 ∧ (ran .softReset keyed).privScalar = 0 := by
  decide +kernel

theorem test_abort : (ran .abort (embedding .draining 104#32)).emb.state = .idle := by decide +kernel

/-- The accumulator bytes `02 DE AD` at bits 96 to 119 (spec/95, section 2.2). -/
def accumulated : State :=
  { extracting .accumulating 120#32 0#4 with
    mems := { State.reset.mems with acc := [(12, 0x02#8), (13, 0xDE#8), (14, 0xAD#8)] } }

theorem test_b2b_lenient :
    (ran (.b2b true) { accumulated with range := { start := 100#32, len := 13#32 } }).readByte .pt 0 = 0x2D#8 := by
  decide +kernel

theorem test_b2b_strict :
    (ran (.b2b false) { accumulated with range := { start := 100#32, len := 13#32 } }).errs.info = 5#32 := by
  decide +kernel

/-- The base point's y is odd (spec/95, section 5). -/
theorem test_ecPub : (ran .ecPub keyed).readBytes .fld 0 2 = [0x03#8, 0x6b#8] ∧ (ran .ecPub keyed).lenAt 0 = 33 := by
  decide +kernel

/-- R171: the lengths that `ENV_SEAL` writes. -/
theorem test_envSeal :
    (ran .envSeal sender).lenAt 4 = 16 ∧ (ran .envSeal sender).lenAt 2 = 32 ∧ (ran .envSeal sender).ctLen = 1 := by
  decide +kernel

/-- All pixels 128 (spec/95, section 3.1). -/
theorem test_fdct : (ran .fdct { framed with pix := Vector.replicate 64 128#8 }).coefAt 0 = 262133 := by decide +kernel

/-- `COEF[0] = 262133` comes from pixels 128 (spec/95, section 3.1). -/
theorem test_idct :
    (ran .idct { framed with coef := (Vector.replicate 64 0#32).set 0 262133#32 }).pixAt 9 = 128#8 := by decide +kernel

/-- R206: element 9 is row 1, column 1. -/
theorem test_blkLd :
    (ran .blkLd { framed with mems := { State.reset.mems with frame := [(9, 77#8)] } }).pixAt 9 = 77#8 := by
  decide +kernel

theorem test_blkSt :
    (ran .blkSt { framed with pix := (Vector.replicate 64 0#8).set 9 77#8 }).readByte .frame 9 = 77#8 := by
  decide +kernel

/-- 7680 at step 5120 with the bit 1 becomes 15360, with the bit 0 10240 (spec/95, section 4). -/
theorem test_qimEmb :
    (ran (.qimEmb 1) { framed with coef := (Vector.replicate 64 0#32).set 1 7680#32 }).coefAt 1 = 10240
      ∧ (ran (.qimEmb 1)
          { framed with
            qim := { framed.qim with qbitsLo := 1#32 }
            coef := (Vector.replicate 64 0#32).set 1 7680#32 }).coefAt 1 = 15360 := by decide +kernel

theorem test_qimExt :
    (ran .qimExt { framed with coef := (Vector.replicate 64 0#32).set 2 15360#32 }).qim.qbitsLo = 2#32 := by
  decide +kernel

/-- `SEC_W = 2`, `SEC_H = 1`, `CT = DE AD` (spec/95, section 2.3). -/
def payload : State :=
  { State.reset with
    hdr := { State.reset.hdr with secW := 2#32, secH := 1#32, ctLenLo := 2#32 }
    mems := { State.reset.mems with ct := [(0, 0xDE#8), (1, 0xAD#8)] } }

theorem test_paySer :
    (ran .paySer payload).emb.payBits = 120#32
      ∧ (ran .paySer payload).readBytes .pay 0 15
          = [0x00#8, 0x02#8, 0x00#8, 0x01#8, 0#8, 0#8, 0#8, 0#8, 0#8, 0#8, 0#8, 0#8, 0x02#8, 0xDE#8, 0xAD#8] := by
  decide +kernel

theorem test_embStart :
    (ran .embStart { State.reset with emb := { State.reset.emb with payBits := 104#32 } }).emb.state = .awaitingFrame
      ∧ (ran .embStart State.reset).errs.info = 6#32 := by decide +kernel

/-- R284: a frame after the last payload bit passes through. -/
theorem test_embFrame_passes :
    (ran .embFrame (embedding .draining 104#32)).status.passthru = true
      ∧ (ran .embFrame (embedding .draining 104#32)).frmBits = 0#32 := by decide +kernel

/-- R285: `InsufficientCapacity` with the cursor. -/
theorem test_embEnd :
    (ran .embEnd (embedding .embedding 80#32)).errs = { code := 6#4, info := 80#32, sticky := 0x040#12 } := by
  decide +kernel

theorem test_extStart : (ran .extStart State.reset).ext.state = .accumulating := by decide +kernel

/-- R303: a frame after the last field is skipped. -/
theorem test_extFrame_skips : (ran .extFrame (extracting .verifying 120#32 14#4)).status.skipped = true := by
  decide +kernel

/-- R306: `TruncatedStream` with the field that waits. -/
theorem test_extEnd : (ran .extEnd (extracting .accumulating 80#32 12#4)).errs.info = 12#32 := by decide +kernel

/-- R309: a public key of length 0 is invalid (spec/95, section 2.4). -/
theorem test_extVerify :
    (ran .extVerify { extracting .verifying 120#32 14#4 with priv := keyed.priv }).errs.code = 3#4 := by decide +kernel

/-- R101, R351: a word that is no command ends with `IllegalCommand` and the word. -/
theorem test_illegal :
    (after (step (State.reset.withFetchWord 32 0x8001)) State.reset).errs.info = 0x8001#32 := by decide +kernel

/-! ### Witnesses: the hypotheses of the statements -/

/-- The state in which the command word `w` has been accepted and the block step is next. -/
def accepted (w : Nat) : State := State.reset.withFetchWord 32 w

/-- Reset with one host step pending. -/
def withHostStep (e : HostEvent) : State := { State.reset with host := { pending := [e], reads := [], resetInput := false } }

theorem witness_DecodeOfEncodeIsTheCommand :
    (Instr.qimEmb 63).wellFormed = true ∧ (Instr.qimEmb 0).wellFormed = true ∧ (Instr.b2b true).wellFormed = true := by
  decide

theorem witness_EveryWordHasOneMeaning : decode 0x00003F40#32 = .ok (.qimEmb 63) := by decide

theorem witness_BlockStepRunsTheDecodedCommand :
    ((accepted 0x62).status.busy = true ∧ (accepted 0x62).host.resetInput = false ∧ (accepted 0x62).host.pending = []
        ∧ decode (accepted 0x62).hidden.cmdLatch = .ok .embEnd)
      ∧ ∃ s : State, s.host.pending ≠ [] ∧ s.status.busy = true ∧ s.host.resetInput = false ∧ s.free.delay = 0
        ∧ decode s.hidden.cmdLatch = .ok .embEnd :=
  ⟨by decide +kernel,
    { accepted 0x62 with host := { pending := [.resetInput true], reads := [], resetInput := false } }, by decide +kernel⟩

/-- A command accepted, a host step still before it, and the reset input at a level. -/
def delayed (asserted : Bool) : State :=
  { State.reset with
    status := { State.reset.status with busy := true }, free := { draws := 1, delay := 1, epoch := 0 }
    host := { pending := [.resetInput true], reads := [], resetInput := asserted } }

theorem witness_OtherStepsAreTheHosts :
    ((withHostStep (.resetInput true)).host.pending = [.resetInput true]
        ∧ (withHostStep (.resetInput true)).status.busy = false)
      ∧ ((delayed true).host.pending = [.resetInput true] ∧ (delayed true).host.resetInput = true)
      ∧ ((delayed false).host.pending = [.resetInput true] ∧ (delayed false).status.busy = true
        ∧ (delayed false).host.resetInput = false ∧ (delayed false).free.delay = 0 + 1)
      ∧ State.reset.host.pending = [] ∧ State.reset.status.busy = false := by decide

theorem witness_RaiseWritesTheErrorRegisters :
    (accepted 0x8001).status.busy = true ∧ (accepted 0x8001).host.resetInput = false
      ∧ (accepted 0x8001).host.pending = []
      ∧ decode (accepted 0x8001).hidden.cmdLatch = .error (.illegalCommand 0x8001#32) := by decide +kernel

theorem witness_CmdWriteAcceptsTheCommand : State.reset.status.busy = false := by decide

theorem witness_EveryCommandEndsWithOneOutcome :
    (accepted 0x61).status.busy = true ∧ (accepted 0x61).status.done = false ∧ (accepted 0x61).status.err = false
      ∧ (accepted 0x61).errs.code = 0#4 ∧ (accepted 0x61).errs.info = 0#32 := by decide +kernel

theorem witness_AcceptedCommandEndsInBoundedSteps :
    (accepted 0x61).status.busy = true ∧ (accepted 0x61).host.resetInput = false := by decide +kernel

theorem witness_BadSequenceExactlyWhenNotLegal :
    ¬LegalSequence .embFrame State.reset ∧ ¬LegalSequence .paySer (embedding .draining 104#32)
      ∧ ¬LegalSequence .extVerify (extracting .collecting 120#32 13#4)
      ∧ LegalSequence .embEnd (embedding .awaitingFrame 0#32)
      ∧ (embedding .awaitingFrame 0#32).errs.code ≠ 9#4
      ∧ ∃ t, exec .embEnd (embedding .awaitingFrame 0#32) = .next t :=
  ⟨by simp only [LegalSequence]; decide, by simp only [LegalSequence]; decide, by simp only [LegalSequence]; decide,
    .inl rfl, by decide, exec_answers _ _⟩

/-- Reset with the private scalar equal to the group order, the smallest that `chk_priv` refuses above 0. -/
def overKeyed : State :=
  { State.reset with
    priv := Vector.ofFn fun i : Fin 8 => BitVec.ofNat 32 (P256.n / 2 ^ (32 * i.val)) }

theorem witness_BadParameterSubCodes :
    (State.reset.qim.delta = 0#24 ∧ LegalSequence .embFrame (embedding .embedding 80#32))
      ∧ (∃ s : State, s.qim.delta ≠ 0#24 ∧ s.qim.ncoef = 0#32)
      ∧ ¬State.reset.FrameReady
      ∧ ¬({ framed with frm := { framed.frm with width := 7#16 } } : State).FrameReady
      ∧ (∃ s : State, ¬s.FrameReady ∧ s.QimReady ∧ LegalSequence .extFrame s)
      ∧ (∃ s : State, s.FrameReady ∧ ¬s.BlockReady)
      ∧ ¬State.reset.KeyReady ∧ ¬overKeyed.KeyReady
      ∧ (∃ s : State, LegalSequence .extVerify s ∧ ¬s.KeyReady)
      ∧ State.reset.emb.payBits.toNat = 0
      ∧ (∃ s : State, 8 * s.caps.pay.toNat < s.emb.payBits.toNat)
      ∧ (∃ s : State, s.ext.accBits.toNat < s.range.start.toNat + s.range.len.toNat)
      ∧ keyed.KeyReady ∧ keyed.lenAt 1 ≠ 16 :=
  ⟨⟨by decide, .inr (.inl rfl)⟩, ⟨{ framed with qim := { framed.qim with ncoef := 0#32 } }, by decide⟩, by decide,
    by decide,
    ⟨{ extracting .accumulating 0#32 0#4 with frm := { framed.frm with height := 0#16 } }, by decide, by decide,
      .inl rfl⟩,
    ⟨{ framed with frm := { framed.frm with blkCol := 1#13 } }, by decide⟩, by decide +kernel, by decide +kernel,
    ⟨extracting .verifying 120#32 14#4, rfl, by decide +kernel⟩, by decide,
    ⟨{ State.reset with emb := { State.reset.emb with payBits := 32769#32 } }, by decide⟩,
    ⟨{ State.reset with range := { start := 0#32, len := 1#32 } }, by decide⟩, by decide +kernel, by decide⟩

theorem witness_ErrorsChangeOnlyWhatTheTableLists :
    State.reset.status.err = false ∧ ∃ t, exec .embEnd State.reset = .next t ∧ t.status.err = true := by
  refine ⟨by decide, ran .embEnd State.reset, ?_, by decide +kernel⟩
  obtain ⟨t, h⟩ := exec_answers .embEnd State.reset
  rw [ran, h, after]

theorem witness_AccessesNotPerformedSetHosterr :
    Width.w16 ≠ .w32 ∧ (0xFFE#12).toNat % 4 ≠ 0 ∧ (accepted 0).status.busy = true := by decide +kernel

theorem witness_BusyReadsOnlyTheStatusGroup :
    (accepted 0).status.busy = true ∧ (0x00C#12).toNat % 4 = 0 ∧ (0xFFC#12).toNat % 4 = 0
      ∧ framed.status.busy = false ∧ 0x2FC#12 ≠ 0x0D8#12 ∧ (0x2FC#12).toNat % 4 = 0 := by decide +kernel

/-- Reset with the memory port at an address of a memory. -/
def ported (sel : BitVec 3) (addr : Word) : State := { State.reset with port := { sel := sel, addr := addr } }

theorem witness_MemoryPortReadsAndWritesBytes :
    ((ported 4#3 1535#32).status.busy = false ∧ selectedSpace (ported 4#3 1535#32).port.sel = some .fld
        ∧ (ported 4#3 1535#32).port.addr.toNat < memSize (ported 4#3 1535#32).caps .fld
        ∧ (embedding .idle 0#32).emb.state.inProgress = false)
      ∧ (selectedSpace (ported 3#3 8191#32).port.sel = some .acc
        ∧ (ported 3#3 8191#32).port.addr.toNat < memSize (ported 3#3 8191#32).caps .acc)
      ∧ (selectedSpace (ported 4#3 1536#32).port.sel = some .fld
        ∧ memSize (ported 4#3 1536#32).caps .fld ≤ (ported 4#3 1536#32).port.addr.toNat)
      ∧ selectedSpace (ported 7#3 0#32).port.sel = none
      ∧ selectedSpace (ported 1#3 0#32).port.sel = some .ref
      ∧ selectedSpace (ported 2#3 0#32).port.sel = some .pay
      ∧ (embedding .draining 104#32).emb.state.inProgress = true := by decide

theorem witness_ReadWriteRegistersReadBack :
    State.reset.status.busy = false ∧ (0x01C, 3) ∈ readWriteRegisters ∧ (0x100, 8) ∈ readWriteRegisters
      ∧ (0x2FC, 32) ∈ readWriteRegisters ∧ (0x07C, 32) ∈ readWriteRegisters ∧ State.reset.emb.state.inProgress = false
      ∧ (0x024#12).toNat % 4 = 0 ∧ ReadOnlyOrReserved (0x024#12).toNat ∧ ReadOnlyOrReserved (0xFFC#12).toNat :=
  ⟨by decide, by decide +kernel, by decide +kernel, by decide +kernel, by decide +kernel, by decide, by decide,
    .inl (by decide), .inr (by decide)⟩

/-- R24: a 1 written to `HOSTERR` clears it, the other flags of the word do not. -/
theorem test_write_one_to_clear :
    let s := { State.reset with status := { State.reset.status with sat := true, hosterr := true, integrity := true } }
    (s.hostWrite .w32 0x00C#12 0x00000140#32).status = { s.status with hosterr := false } := by decide

theorem witness_HosterrWhileIdleExactly :
    State.reset.status.busy = false ∧ State.reset.status.hosterr = false := by decide

theorem witness_PayloadIsLockedDuringEmbedding :
    (embedding .awaitingFrame 0#32).emb.state.inProgress = true
      ∧ (∀ a, HostEvent.write .w32 0x07C#12 8#32 ≠ .resetInput a)
      ∧ 4095 < memSize (embedding .awaitingFrame 0#32).caps .pay := by decide

theorem witness_HardwareResetRegisterValues :
    (delayed true).host.resetInput = true ∧ (0x000#12).toNat % 4 = 0 ∧ 0x000#12 ≠ 0x0D8#12 ∧ (0xFFC#12).toNat % 4 = 0 ∧ 0xFFC#12 ≠ 0x0D8#12 := by decide

/-! Invariants: a state that satisfies them and steps, with a command accepted where the invariant speaks of one. -/

theorem witness_StepKeepsMemoryForm : (accepted 0x60).MemoryForm ∧ ∃ t, step (accepted 0x60) = .next t :=
  ⟨by intro sp; cases sp <;> rfl, step_answers _⟩

theorem witness_StepKeepsStatusForm : (accepted 0x60).StatusForm ∧ ∃ t, step (accepted 0x60) = .next t :=
  ⟨⟨by decide +kernel, by decide +kernel, by decide +kernel, by decide +kernel, by decide +kernel, by decide +kernel⟩,
    step_answers _⟩

theorem witness_StepKeepsSecretsCleared : (accepted 0x21).SecretsCleared ∧ ∃ t, step (accepted 0x21) = .next t :=
  ⟨⟨rfl, rfl⟩, step_answers _⟩

theorem embedForm_awaiting : (embedding .awaitingFrame 0#32).EmbedForm :=
  ⟨by decide, by decide, by decide, by decide, by decide⟩

theorem embedForm_embedding : (embedding .embedding 80#32).EmbedForm :=
  ⟨by decide, by decide, by decide, by decide, by decide⟩

theorem embedForm_draining : (embedding .draining 104#32).EmbedForm :=
  ⟨by decide, by decide, by decide, by decide, by decide⟩

/-- An embedding operation with `EMB_FRAME` accepted. -/
def busyEmbedding : State :=
  { embedding .embedding 80#32 with
    status := { (embedding .embedding 80#32).status with busy := true }
    hidden := { State.reset.hidden with cmdLatch := 0x61#32 } }

theorem witness_StepKeepsEmbedForm :
    busyEmbedding.EmbedForm ∧ busyEmbedding.emb.state = .embedding ∧ busyEmbedding.status.busy = true
      ∧ ∃ t, step busyEmbedding = .next t :=
  ⟨⟨by decide, by decide, by decide, by decide, by decide⟩, rfl, rfl, step_answers _⟩

theorem extractForm_accumulating : (extracting .accumulating 65526#32 0#4).ExtractForm :=
  ⟨by decide, by decide, by decide, by decide, by decide, by decide, by decide, by decide, by decide⟩

/-- An extraction operation with `EXT_FRAME` accepted. -/
def busyExtracting : State :=
  { extracting .accumulating 65526#32 0#4 with
    status := { State.reset.status with busy := true }
    hidden := { State.reset.hidden with cmdLatch := 0x71#32 } }

theorem witness_StepKeepsExtractForm :
    busyExtracting.ExtractForm ∧ busyExtracting.ext.state = .accumulating ∧ busyExtracting.status.busy = true
      ∧ ∃ t, step busyExtracting = .next t :=
  ⟨⟨by decide, by decide, by decide, by decide, by decide, by decide, by decide, by decide, by decide⟩, rfl, rfl,
    step_answers _⟩

theorem witness_EmbeddingStateTransitions :
    (∃ t, exec .embFrame (embedding .embedding 80#32) = .next t)
      ∧ (embedding .embedding 80#32).emb.state.inProgress = true ∧ (embedding .embedding 80#32).QimReady
      ∧ (embedding .embedding 80#32).FrameReady :=
  ⟨exec_answers _ _, by decide⟩

theorem witness_ExtractionStateTransitions :
    (extracting .accumulating 65526#32 0#4).ExtractForm
      ∧ (∃ t, exec .extFrame (extracting .accumulating 65526#32 0#4) = .next t)
      ∧ (extracting .accumulating 65526#32 0#4).QimReady ∧ (extracting .accumulating 65526#32 0#4).FrameReady :=
  ⟨extractForm_accumulating, exec_answers _ _, by decide⟩

theorem witness_CommandsLeaveTheRest :
    ¬WritesSpace .extVerify .fld ∧ Instr.extVerify ≠ .softReset ∧ ∃ t, exec .extVerify State.reset = .next t :=
  ⟨by simp only [WritesSpace]; decide, by decide, exec_answers _ _⟩

/-! Units U1 and U2. -/

theorem witness_BitConversionsInvert :
    (uintToBits 0xA5 8).length % 8 = 0 ∧ (uintToBits 0xA5C 12).length % 8 ≠ 0 ∧ 255 < 2 ^ 8 := by decide

theorem witness_B2bConvertsTheRange :
    ∃ s : State, s.range.start.toNat + s.range.len.toNat = s.ext.accBits.toNat ∧ s.range.len.toNat % 8 = 0
      ∧ s.range.len.toNat / 8 ≤ s.caps.pt.toNat :=
  ⟨{ accumulated with range := { start := 104#32, len := 16#32 } }, by decide⟩

theorem decompress_base : decompress (compress P256.G) = some P256.G := by decide +kernel

/-- `fpow(rhs, (p+1)/4)` of R155 for an `x`. -/
def rootOf (x : Nat) : Nat := fpow ((x ^ 3 + P256.a * x + P256.b) % P256.p) ((P256.p + 1) / 4)

theorem witness_DecompressAnswersACurvePoint :
    ((compress P256.G).length = 33 ∧ (compress P256.G).headD 0#8 = 0x03#8 ∧ beInt (compress P256.G).tail < P256.p
        ∧ rootOf (beInt (compress P256.G).tail) ^ 2 % P256.p
          = (beInt (compress P256.G).tail ^ 3 + P256.a * beInt (compress P256.G).tail + P256.b) % P256.p)
      ∧ ((0x02#8 :: beBytes 1 32).length = 33
        ∧ rootOf 1 ^ 2 % P256.p ≠ (1 ^ 3 + P256.a * 1 + P256.b) % P256.p)
      ∧ decompress (compress P256.G) = some P256.G ∧ (beBytes 1 32).length ≠ 33
      ∧ P256.p ≤ beInt (beBytes P256.p 32) :=
  ⟨by decide +kernel, by decide +kernel, decompress_base, by decide, by decide +kernel⟩

/-- Reset with the largest private scalar that `chk_priv` takes. -/
def topKeyed : State :=
  { State.reset with
    priv := Vector.ofFn fun i : Fin 8 => BitVec.ofNat 32 ((P256.n - 1) / 2 ^ (32 * i.val)) }

theorem witness_EcPubStoresThePublicKey : keyed.KeyReady ∧ topKeyed.KeyReady ∧ topKeyed.privScalar = P256.n - 1 := by
  decide +kernel

theorem sender_peer : decompress (sender.readBytes .fld 0x500 33) = some P256.G := by decide +kernel

theorem witness_EnvSealBuildsTheEnvelope :
    sender.KeyReady ∧ sender.lenAt 1 = 16 ∧ sender.lenAt 3 = 12 ∧ sender.ptLen.toNat ≤ sender.caps.pt.toNat
      ∧ sender.ptLen.toNat ≤ sender.caps.ct.toNat ∧ decompress (sender.readBytes .fld 0x500 33) = some P256.G :=
  ⟨by decide +kernel, by decide, by decide, by decide, by decide, sender_peer⟩

theorem witness_LengthAndCapacityRefusals :
    (∃ s : State, s.range.start.toNat + s.range.len.toNat ≤ s.ext.accBits.toNat ∧ s.range.len.toNat % 8 ≠ 0)
      ∧ (∃ s : State, s.range.start.toNat + s.range.len.toNat ≤ s.ext.accBits.toNat
        ∧ s.caps.pt.toNat < s.range.len.toNat / 8)
      ∧ (∃ s : State, s.KeyReady ∧ s.lenAt 1 = 16 ∧ s.lenAt 3 = 12 ∧ s.caps.pt.toNat < s.ptLen.toNat)
      ∧ (∃ s : State, s.KeyReady ∧ s.lenAt 1 = 16 ∧ s.lenAt 3 = 12 ∧ s.ptLen.toNat ≤ s.caps.pt.toNat
        ∧ s.caps.ct.toNat < s.ptLen.toNat)
      ∧ (∃ s : State, s.KeyReady ∧ s.lenAt 1 = 16 ∧ s.lenAt 3 = 12 ∧ s.ptLen.toNat ≤ s.caps.pt.toNat
        ∧ s.ptLen.toNat ≤ s.caps.ct.toNat ∧ decompress (s.readBytes .fld 0x500 33) = none)
      ∧ ∃ s : State, s.ext.state = .verifying ∧ s.KeyReady ∧ s.caps.pt.toNat < s.ctLen :=
  ⟨⟨{ accumulated with range := { start := 107#32, len := 13#32 } }, by decide⟩,
    ⟨{ extracting .accumulating 32776#32 0#4 with range := { start := 0#32, len := 32776#32 } }, by decide⟩,
    ⟨{ sender with ptLen := 4097#32 }, by decide +kernel⟩,
    ⟨{ sender with ptLen := 4096#32, caps := { sender.caps with ct := 4095#32 } }, by decide +kernel⟩,
    ⟨{ sender with
        mems := { sender.mems with fld := [(0x500, 4#8)] ++ (List.range 32).map fun i => (0x501 + i, 0#8) } },
      by decide +kernel⟩,
    ⟨{ extracting .verifying 120#32 14#4 with
        priv := keyed.priv, hdr := { State.reset.hdr with ctLenLo := 4097#32 } }, by decide +kernel⟩⟩

theorem plainCrypto_law : AeadRoundTrip plainCrypto := by
  intro pt key nonce
  have h : ∀ l : List Byte, (List.range l.length).map (fun i => l.getD i 0#8) = l := fun l =>
    List.ext_getElem (by simp) fun i _ h2 => by simp [List.getD_eq_getElem?_getD, List.getElem?_eq_getElem h2]
  simp only [aeadEnc, aeadDec, plainCrypto, if_true, Option.some.injEq]
  rw [h, h]

/-- What `ENV_SEAL` leaves with the external functions `plainCrypto`. -/
def sealed1 : State := (sender.seal plainCrypto sender.privScalar (sender.peerPoint.getD .inf)).endOk

/-- A receiver with the fields of the sender's state `x` and the ciphertext byte AB. -/
def receiverOf (x : State) : State :=
  { x with
    ext := { State.reset.ext with state := .verifying, accBits := 8#32, prsFidx := 14#4 }
    mems := { x.mems with acc := [(0, 0xAB#8)] } }

theorem receiverOf_fld (x : State) (a : Nat) : (receiverOf x).readByte .fld a = x.readByte .fld a := rfl

theorem receiverOf_hdr (x : State) : (receiverOf x).hdr = x.hdr := rfl

/-- A receiver with the scalar 1 that holds the fields and the ciphertext of `sealed1`. -/
def receiver : State := receiverOf sealed1

theorem sealed1_next : envSeal plainCrypto sender = .next sealed1 := by
  have h : firstFailed (chkSeal sender) = none := by decide +kernel
  rw [envSeal, runCommand_passed h, sealed1]

theorem witness_EnvelopeRoundTrip :
    AeadRoundTrip plainCrypto ∧ envSeal plainCrypto sender = .next sealed1 ∧ receiver.ext.state = .verifying
      ∧ receiver.KeyReady ∧ receiver.hdr = sealed1.hdr
      ∧ (∀ a < 0x500, receiver.readByte .fld a = sealed1.readByte .fld a)
      ∧ receiver.accBytes receiver.ext.hdrCursor.toNat receiver.ctLen = sealed1.readBytes .ct 0 sealed1.ptLen.toNat
      ∧ sender.ptLen.toNat ≤ receiver.caps.pt.toNat
      ∧ decompress (compress (pmul sender.privScalar P256.G)) = some P256.G
      ∧ ecdh receiver.privScalar P256.G = ecdh sender.privScalar P256.G :=
  ⟨plainCrypto_law, sealed1_next, rfl, by decide +kernel, receiverOf_hdr _, fun _ _ => receiverOf_fld _ _,
    by decide +kernel, by decide +kernel, by decide +kernel, by decide +kernel⟩

/-! Units U3 and U4. -/

theorem witness_ConstantBlockHasNoAc :
    (∀ k < 64, framed.pixAt k = 0#8) ∧ ∃ t, exec .fdct framed = .next t := ⟨by decide +kernel, exec_answers _ _⟩

/-- A frame of two blocks, the second addressed. -/
def lastBlock : State := { framed with frm := { framed.frm with width := 16#16, blkCol := 1#13 } }

theorem witness_BlkLdLoadsTheBlock :
    framed.FrameReady ∧ framed.BlockReady ∧ lastBlock.FrameReady ∧ lastBlock.BlockReady := by decide

theorem witness_BlkStStoresTheBlock :
    framed.FrameReady ∧ framed.BlockReady ∧ lastBlock.FrameReady ∧ lastBlock.BlockReady := by decide

theorem witness_RneIsNearestTiesToEven : (0 : Int) < 1 ∧ (0 : Int) < 5120 := by decide

/-- The largest step and the fewest slots. -/
def coarse : State := { framed with qim := { framed.qim with delta := 0xFFFFFF#24, ncoef := 1#32 } }

theorem witness_QimEmbReplacesTheSlots : framed.QimReady ∧ coarse.QimReady := by decide

theorem witness_EmbeddedBitReadsBack :
    framed.qim.delta ≠ 0#24 ∧ framed.status.sat = false ∧ (framed.embedBit 1 true).status.sat = false
      ∧ (framed.embedBit 63 false).status.sat = false := by decide +kernel

theorem witness_QimExtReadsTheParities : framed.QimReady ∧ coarse.QimReady := by decide

/-! Unit U5. -/

theorem witness_PaySerWritesThePayload :
    ∃ s : State, s.emb.state.inProgress = false ∧ s.hdr.secW.toNat = 2 ^ 16 - 1 ∧ s.hdr.secH.toNat < 2 ^ 16
      ∧ (∀ i < 5, s.lenAt i < 2 ^ 8) ∧ s.ctLen < 2 ^ 32 ∧ s.ctLen ≤ s.caps.ct.toNat
      ∧ 13 + s.lenAt 0 + s.lenAt 1 + s.lenAt 2 + s.lenAt 3 + s.lenAt 4 + s.ctLen = s.caps.pay.toNat
      ∧ s.caps.wellFormed = true :=
  ⟨{ payload with hdr := { State.reset.hdr with secW := 65535#32, ctLenLo := 4083#32 } }, by decide +kernel⟩

/-- Reset with header registers that do not fit the payload. -/
def unfit (hdr : HdrRegs) : State := { State.reset with hdr := hdr }

theorem witness_PaySerRefusals :
    State.reset.emb.state.inProgress = false
      ∧ 2 ^ 16 ≤ (unfit { State.reset.hdr with secW := 65536#32 }).hdr.secW.toNat
      ∧ 2 ^ 16 ≤ (unfit { State.reset.hdr with secH := 65536#32 }).hdr.secH.toNat
      ∧ (∃ s : State, (∀ j < 4, s.lenAt j < 2 ^ 8) ∧ 2 ^ 8 ≤ s.lenAt 4)
      ∧ 2 ^ 8 ≤ (unfit { State.reset.hdr with len := (Vector.replicate 5 0#32).set 0 256#32 }).lenAt 0
      ∧ 2 ^ 32 ≤ (unfit { State.reset.hdr with ctLenHi := 1#32 }).ctLen
      ∧ (∃ s : State, s.ctLen < 2 ^ 32 ∧ s.caps.ct.toNat < s.ctLen)
      ∧ ∃ s : State, s.ctLen ≤ s.caps.ct.toNat ∧ s.caps.pay.toNat < s.payloadBytes :=
  ⟨by decide, by decide, by decide,
    ⟨unfit { State.reset.hdr with len := (Vector.replicate 5 255#32).set 4 256#32 }, by decide +kernel⟩,
    by decide +kernel, by decide +kernel, ⟨unfit { State.reset.hdr with ctLenLo := 4097#32 }, by decide +kernel⟩,
    ⟨unfit { State.reset.hdr with ctLenLo := 4084#32 }, by decide +kernel⟩⟩

/-- A receiver whose accumulator holds the payload of `payload`. -/
def collected : State :=
  { ran .paySer payload with
    ext := { State.reset.ext with state := .accumulating, accBits := 120#32 }
    mems := { (ran .paySer payload).mems with acc := (ran .paySer payload).mems.pay } }

theorem witness_ParseAfterSerialize :
    payload.caps.wellFormed = true ∧ payload.status.err = false ∧ exec .paySer payload = .next (ran .paySer payload)
      ∧ (ran .paySer payload).status.err = false
      ∧ (∀ i < 120, collected.memBit .acc i = (ran .paySer payload).memBit .pay i)
      ∧ (ran .paySer payload).emb.payBits.toNat = 120 ∧ collected.ext.accBits.toNat = 120
      ∧ collected.ext.prsCursor = 0#32 ∧ collected.ext.prsFidx = 0#4 := by
  refine ⟨by decide, by decide, ?_, by decide +kernel, by decide +kernel, by decide +kernel, by decide +kernel,
    by decide +kernel, by decide +kernel⟩
  obtain ⟨t, h⟩ := exec_answers .paySer payload
  rw [ran, h, after]

/-- An extraction whose next field is the tag, of the length that `LEN_TAG` holds. -/
def tagged (n : Word) : State :=
  { extracting .accumulating 65536#32 11#4 with hdr := { State.reset.hdr with len := (Vector.replicate 5 0#32).set 4 n } }

theorem tagged_parses (n : Word) (h : n.toNat ≤ 8192) : ∃ t, (tagged n).parseStep = some t := by
  have width : (tagged n).fieldWidth 11 = 8 * n.toNat := rfl
  unfold State.parseStep
  simp only [show (tagged n).ext.prsFidx.toNat = 11 from rfl, show (tagged n).ext.prsCursor.toNat = 0 from rfl,
    show (tagged n).ext.accBits.toNat = 65536 from rfl, width]
  rw [if_neg (by omega)]
  exact ⟨_, rfl⟩

theorem witness_ParseStepConsumesOneField :
    (extracting .accumulating 15#32 0#4).parseStep = none
      ∧ (∃ t, (extracting .accumulating 16#32 0#4).parseStep = some t)
      ∧ (extracting .collecting 0#32 13#4).ext.prsFidx.toNat ≤ 13
      ∧ (∃ t, (extracting .collecting 0#32 13#4).parseStep = some t)
      ∧ (extracting .accumulating 16#32 0#4).ext.prsFidx.toNat ≤ 13
      ∧ (∀ i < 5, (extracting .accumulating 16#32 0#4).lenAt i ≤ 256)
      ∧ (∃ t, (extracting .accumulating 16#32 1#4).parseStep = some t)
      ∧ (10 = 2 + 2 * (4 : Fin 5).val ∧ ∃ t, (extracting .accumulating 8#32 10#4).parseStep = some t)
      ∧ (∃ t, (extracting .accumulating 32#32 12#4).parseStep = some t)
      ∧ (tagged 0#32).lenAt 4 = 0 ∧ (∃ t, (tagged 0#32).parseStep = some t)
      ∧ 11 = 3 + 2 * 4 ∧ (tagged 255#32).lenAt 4 = 255 ∧ (∃ t, (tagged 255#32).parseStep = some t)
      ∧ 0x600 < 0x100 * 4 + (tagged 513#32).lenAt 4 ∧ ∃ t, (tagged 513#32).parseStep = some t :=
  ⟨rfl, ⟨_, rfl⟩, by decide, ⟨_, rfl⟩, by decide, by decide +kernel, ⟨_, rfl⟩, ⟨rfl, ⟨_, rfl⟩⟩, ⟨_, rfl⟩, by decide,
    tagged_parses 0#32 (by decide), rfl, by decide, tagged_parses 255#32 (by decide), by decide,
    tagged_parses 513#32 (by decide)⟩

/-! Units U6 and U7. -/

theorem witness_StartsBeginOperations :
    ∃ s : State, s.emb.payBits.toNat ≠ 0 ∧ s.emb.payBits.toNat = 8 * s.caps.pay.toNat :=
  ⟨{ State.reset with emb := { State.reset.emb with payBits := 32768#32 } }, by decide⟩

theorem witness_EmbFrameEmbedsMinOfRestAndCapacity :
    ((embedding .awaitingFrame 0#32).emb.state = .awaitingFrame ∧ (embedding .awaitingFrame 0#32).QimReady
        ∧ (embedding .awaitingFrame 0#32).FrameReady ∧ (embedding .awaitingFrame 0#32).EmbedForm
        ∧ 0 * (embedding .awaitingFrame 0#32).neff < min (104 - 0) (8 / 8 * (8 / 8) * 10)
        ∧ min (104 - 0) (8 / 8 * (8 / 8) * 10) ≤ (0 + 1) * (embedding .awaitingFrame 0#32).neff)
      ∧ (embedding .embedding 80#32).emb.state = .embedding ∧ (embedding .embedding 80#32).QimReady
        ∧ (embedding .embedding 80#32).FrameReady ∧ (embedding .embedding 80#32).EmbedForm :=
  ⟨⟨by decide, by decide, by decide, embedForm_awaiting, by decide, by decide⟩, by decide, by decide, by decide, embedForm_embedding⟩

/-- An embedding operation with the payload bytes from bit 80 on written. -/
def oneBlock : State :=
  { embedding .embedding 80#32 with
    mems := { State.reset.mems with pay := (List.range 8).map fun i => (10 + i, 0xA5#8) } }

theorem witness_EmbFrameIsTheOneBlockSequence :
    oneBlock.emb.state = .embedding ∧ oneBlock.status.refValid = true ∧ oneBlock.QimReady ∧ oneBlock.frmW = 8
      ∧ oneBlock.frmH = 8 ∧ oneBlock.FrameReady ∧ oneBlock.emb.cursor.toNat < oneBlock.emb.payBits.toNat
      ∧ (∀ i < 63, (0x25A5A5A5A5A5A5A5#63).getLsbD i = oneBlock.memBit .pay (oneBlock.emb.cursor.toNat + i))
      ∧ ∃ s1 s2 s3 s4 s5 t : State,
        exec .blkLd
            { oneBlock with
              frm := { oneBlock.frm with blkRow := 0#13, blkCol := 0#13 }
              qim := { oneBlock.qim with
                qbitsLo := (0x25A5A5A5A5A5A5A5#63).setWidth 32
                qbitsHi := ((0x25A5A5A5A5A5A5A5#63) >>> 32).setWidth 31 } } = .next s1
          ∧ exec .fdct s1 = .next s2
          ∧ exec (.qimEmb (min 63 (oneBlock.emb.payBits.toNat - oneBlock.emb.cursor.toNat))) s2 = .next s3
          ∧ exec .idct s3 = .next s4 ∧ exec .blkSt s4 = .next s5 ∧ exec .embFrame oneBlock = .next t := by
  refine ⟨rfl, rfl, by decide, by decide, by decide, by decide, by decide, by decide +kernel, ?_⟩
  obtain ⟨s1, h1⟩ := exec_answers .blkLd _
  obtain ⟨s2, h2⟩ := exec_answers .fdct s1
  obtain ⟨s3, h3⟩ := exec_answers (.qimEmb (min 63 (oneBlock.emb.payBits.toNat - oneBlock.emb.cursor.toNat))) s2
  obtain ⟨s4, h4⟩ := exec_answers .idct s3
  obtain ⟨s5, h5⟩ := exec_answers .blkSt s4
  obtain ⟨t, h6⟩ := exec_answers .embFrame oneBlock
  exact ⟨s1, s2, s3, s4, s5, t, h1, h2, h3, h4, h5, h6⟩

theorem witness_EndCommandsFinishOrFail :
    (embedding .draining 104#32).emb.state = .draining ∧ (embedding .awaitingFrame 0#32).emb.state = .awaitingFrame
      ∧ (extracting .done 120#32 14#4).ext.state = .done
      ∧ (extracting .collecting 80#32 13#4).ext.state = .collecting := by
  decide

theorem witness_ExtFrameAppendsTheParities :
    (extracting .accumulating 65526#32 0#4).ext.state = .accumulating ∧ (extracting .accumulating 65526#32 0#4).QimReady
      ∧ (extracting .accumulating 65526#32 0#4).FrameReady ∧ (extracting .accumulating 65526#32 0#4).ExtractForm
      ∧ (extracting .accumulating 65526#32 0#4).status.needMore = false
      ∧ 65526 + 8 / 8 * (8 / 8) * 10 ≤ (extracting .accumulating 65526#32 0#4).caps.accBits.toNat :=
  ⟨by decide, by decide, by decide, extractForm_accumulating, by decide, by decide⟩

theorem witness_FramesPassedOrSkipped :
    ((embedding .draining 104#32).emb.state = .draining ∧ (embedding .draining 104#32).QimReady
        ∧ (embedding .draining 104#32).FrameReady ∧ (embedding .draining 104#32).status.refValid = true)
      ∧ ((extracting .verifying 120#32 14#4).ext.state = .verifying ∧ (extracting .verifying 120#32 14#4).QimReady
        ∧ (extracting .verifying 120#32 14#4).FrameReady)
      ∧ (extracting .accumulating 65527#32 0#4).caps.accBits.toNat < 65527 + 8 / 8 * (8 / 8) * 10 := by decide

theorem witness_ExtVerifyReleasesOrRejects :
    receiver.ext.state = .verifying ∧ receiver.KeyReady ∧ receiver.ctLen ≤ receiver.caps.pt.toNat
      ∧ decompress (receiver.readBytes .fld 0x000 (receiver.lenAt 0)) = some P256.G
      ∧ (aeadDec plainCrypto (receiver.accBytes receiver.ext.hdrCursor.toNat receiver.ctLen) 0#256 receiver.nonce
          receiver.tag).isSome = true
      ∧ beBytes (plainCrypto.sha3 [0xAB#8]).toNat 32 = receiver.readBytes .fld 0x200 32
      ∧ (extracting .verifying 120#32 14#4).ctLen ≤ (extracting .verifying 120#32 14#4).caps.pt.toNat
      ∧ (extracting .verifying 120#32 14#4).senderPoint = none :=
  ⟨by decide +kernel, by decide +kernel, by decide +kernel, by decide +kernel, by decide +kernel, by decide +kernel,
    by decide +kernel, by decide +kernel⟩

/-! The reset input. -/

/-- A state held in reset, with a host access pending. -/
def heldInReset : State :=
  { State.reset with host := { pending := [.write .w32 0x008#12 0x00000061#32], reads := [], resetInput := true } }

theorem witness_AssertedResetHoldsTheBlock :
    heldInReset.ResetForm ∧ heldInReset.host.resetInput = true ∧ (∃ t, step heldInReset = .next t)
      ∧ State.reset.host.resetInput = false := ⟨fun _ => rfl, rfl, step_answers _, rfl⟩

/-- R390: a command submitted while the reset input is asserted is not performed; after the release it is. -/
theorem test_reset_input :
    (heldInReset.hostStep (.write .w32 0x008#12 0x00000061#32)).status.busy = false
      ∧ ((heldInReset.hostStep (.resetInput false)).hostStep (.write .w32 0x008#12 0x00000061#32)).status.busy = true := by
  decide +kernel

/-- R390: asserting the reset input abandons a command in progress without an outcome. -/
theorem test_reset_abandons :
    (after (step (delayed false)) State.reset).status.word = 0#32
      ∧ (after (step (delayed false)) State.reset).host.resetInput = true := by decide +kernel

end Sys2Proof.Tests
end

section
/-! The proofs of the family `00_scope.md`: the bit conversions of R15 and R130 to R133, `rne` of R17, and the reset state
of R61 against the invariants. -/

namespace Sys2Proof.Machine

/-! ### Fixed-width integers and bit strings -/

@[simp] theorem length_uintToBits (v w : Nat) : (uintToBits v w).length = w := by
  induction w generalizing v with
  | zero => rfl
  | succ w ih => simp [uintToBits, ih]

/-- The last bit of a string has weight 1. -/
theorem bitsToUint_concat (s : List Bool) (b : Bool) : bitsToUint (s ++ [b]) = 2 * bitsToUint s + bitValue b := by
  simp [bitsToUint]

theorem bitValue_mod_two (v : Nat) : bitValue (v % 2 == 1) = v % 2 := by
  obtain h | h := Nat.mod_two_eq_zero_or_one v <;> simp [h, bitValue]

theorem bitValue_lt_two (b : Bool) : bitValue b < 2 := by cases b <;> decide

theorem bitValue_eq_one (b : Bool) : (bitValue b == 1) = b := by cases b <;> rfl

theorem bitsToUint_lt (s : List Bool) : bitsToUint s < 2 ^ s.length := by
  induction s using List.reverseRecOn with
  | nil => decide
  | append_singleton s b ih =>
    have hb := bitValue_lt_two b
    rw [bitsToUint_concat, List.length_append, List.length_singleton, Nat.pow_succ]
    omega

/-- R133: the bits of an integer that fits the width give it back. -/
theorem bitsToUint_uintToBits {v w : Nat} (h : v < 2 ^ w) : bitsToUint (uintToBits v w) = v := by
  induction w generalizing v with
  | zero =>
    have hv : v = 0 := by simpa using h
    simp [hv, uintToBits, bitsToUint]
  | succ w ih =>
    have hhalf : v / 2 < 2 ^ w := by rw [Nat.pow_succ] at h; omega
    rw [uintToBits, bitsToUint_concat, ih hhalf, bitValue_mod_two]
    omega

/-- R133: the integer of a bit string, at the string's own width, gives it back. -/
theorem uintToBits_bitsToUint (s : List Bool) : uintToBits (bitsToUint s) s.length = s := by
  induction s using List.reverseRecOn with
  | nil => rfl
  | append_singleton s b ih =>
    have hb := bitValue_lt_two b
    have hdiv : bitsToUint (s ++ [b]) / 2 = bitsToUint s := by rw [bitsToUint_concat]; omega
    have hmod : bitsToUint (s ++ [b]) % 2 = bitValue b := by rw [bitsToUint_concat]; omega
    rw [List.length_append, List.length_singleton, uintToBits, hdiv, hmod, ih, bitValue_eq_one]

/-! ### Bytes and bits -/

@[simp] theorem bytesToBits_nil : bytesToBits [] = [] := rfl

@[simp] theorem bytesToBits_cons (b : Byte) (bs : List Byte) :
    bytesToBits (b :: bs) = uintToBits b.toNat 8 ++ bytesToBits bs := rfl

@[simp] theorem length_bytesToBits (bs : List Byte) : (bytesToBits bs).length = 8 * bs.length := by
  induction bs with
  | nil => rfl
  | cons b bs ih => simp only [bytesToBits_cons, List.length_append, length_uintToBits, List.length_cons, ih]; omega

/-- The byte of eight bits has these bits. -/
theorem uintToBits_byte {s : List Bool} (h : s.length = 8) : uintToBits (BitVec.ofNat 8 (bitsToUint s)).toNat 8 = s := by
  have hlt : bitsToUint s < 2 ^ 8 := h ▸ bitsToUint_lt s
  rw [BitVec.toNat_ofNat, Nat.mod_eq_of_lt hlt, ← h, uintToBits_bitsToUint]

/-- The bits of a byte make this byte. -/
theorem byte_uintToBits (b : Byte) : BitVec.ofNat 8 (bitsToUint (uintToBits b.toNat 8)) = b := by
  rw [bitsToUint_uintToBits b.isLt, BitVec.ofNat_toNat, BitVec.setWidth_eq]

theorem takeBytes_bytesToBits (bs : List Byte) : takeBytes bs.length (bytesToBits bs) = bs := by
  induction bs with
  | nil => rfl
  | cons b bs ih =>
    have hlen : (uintToBits b.toNat 8).length = 8 := length_uintToBits _ _
    rw [List.length_cons, takeBytes, bytesToBits_cons, List.take_left' hlen, List.drop_left' hlen, byte_uintToBits, ih]

theorem bytesToBits_takeBytes {n : Nat} {s : List Bool} (h : 8 * n ≤ s.length) :
    bytesToBits (takeBytes n s) = s.take (8 * n) := by
  induction n generalizing s with
  | zero => rfl
  | succ n ih =>
    have hhead : (s.take 8).length = 8 := by rw [List.length_take]; omega
    have htail : 8 * n ≤ (s.drop 8).length := by rw [List.length_drop]; omega
    rw [takeBytes, bytesToBits_cons, uintToBits_byte hhead, ih htail, ← List.take_add, Nat.mul_succ, Nat.add_comm]

/-- R131: lenient mode always answers, strict mode on whole bytes. -/
theorem bitsToBytes_ok {lenient : Bool} {s : List Bool} (h : lenient = true ∨ s.length % 8 = 0) :
    bitsToBytes lenient s = .ok (takeBytes (s.length / 8) s) := by
  have hpass : ¬(lenient = false ∧ s.length % 8 ≠ 0) := by
    rintro ⟨hl, hs⟩
    obtain h | h := h
    · exact Bool.false_ne_true (hl.symm.trans h)
    · exact hs h
  exact if_neg hpass

/-- R131: strict mode fails on an incomplete last byte. -/
theorem bitsToBytes_strict_error {s : List Bool} (h : s.length % 8 ≠ 0) :
    bitsToBytes false s = .error (s.length % 8) := if_pos ⟨rfl, h⟩

/-- R133: the bits of a byte string are whole bytes and give it back in both modes. -/
theorem bitsToBytes_bytesToBits (lenient : Bool) (bs : List Byte) : bitsToBytes lenient (bytesToBits bs) = .ok bs := by
  have hwhole : (bytesToBits bs).length % 8 = 0 := by rw [length_bytesToBits, Nat.mul_mod_right]
  rw [bitsToBytes_ok (.inr hwhole), length_bytesToBits, Nat.mul_div_cancel_left _ (by decide), takeBytes_bytesToBits]

/-- The bytes of a bit string, where it has an answer, are those of its whole-byte prefix. -/
theorem exists_bytes_of_bits {lenient : Bool} {s : List Bool} (h : lenient = true ∨ s.length % 8 = 0) :
    ∃ bs, bitsToBytes lenient s = .ok bs ∧ bytesToBits bs = s.take (8 * (s.length / 8)) :=
  ⟨_, bitsToBytes_ok h, bytesToBits_takeBytes (Nat.mul_div_le _ _)⟩

/-- Settles O33: the integer laws go by induction on the width and on the string's end, the byte laws byte by byte. -/
theorem bitConversionsInvert : Obligations.BitConversionsInvert := by
  refine ⟨bitsToBytes_bytesToBits, fun s hwhole => ?_, fun s => bitsToBytes_strict_error,
    fun s => exists_bytes_of_bits (.inl rfl), fun v w h => ⟨length_uintToBits v w, bitsToUint_uintToBits h⟩,
    uintToBits_bitsToUint⟩
  obtain ⟨bs, hok, hbits⟩ := exists_bytes_of_bits (lenient := false) (.inr hwhole)
  have hall : 8 * (s.length / 8) = s.length := Nat.mul_div_cancel' (Nat.dvd_of_mod_eq_zero hwhole)
  exact ⟨bs, hok, by rw [hbits, hall, List.take_length]⟩

/-! ### Rounding to the nearest integer -/

/-- R17: `rne` answers the floor below one half, the ceiling above it, and whichever of the two is even at one half. -/
theorem rne_cases (a d : Int) :
    (2 * (a % d) < d ∧ rne a d = a / d) ∨ (d < 2 * (a % d) ∧ rne a d = a / d + 1)
      ∨ (2 * (a % d) = d ∧ rne a d % 2 = 0 ∧ (rne a d = a / d ∨ rne a d = a / d + 1)) := by
  have hr : a - a / d * d = a % d := by rw [Int.emod_def, Int.mul_comm]
  simp only [rne, hr]
  split
  · next hbelow => exact .inl ⟨hbelow, rfl⟩
  · split
    · next habove => exact .inr (.inl ⟨habove, rfl⟩)
    · split
      · next heven => exact .inr (.inr ⟨by omega, heven, .inl rfl⟩)
      · next hodd => exact .inr (.inr ⟨by omega, by omega, .inr rfl⟩)

/-- What is left of `a` after the floor's multiple of `d`. -/
theorem sub_floor_mul {a d q : Int} (h : q = a / d) : a - q * d = a % d := by
  rw [h, Int.emod_def, Int.mul_comm]

/-- What is left of `a` after the multiple of `d` above it. -/
theorem sub_floor_succ_mul {a d q : Int} (h : q = a / d + 1) : a - q * d = a % d - d := by
  rw [h, Int.emod_def]; ring

/-- Settles O45: the distance from `a` is `a % d` at the floor and `d - a % d` above it; a tie lands in the even case. -/
theorem rneIsNearestTiesToEven : Obligations.RneIsNearestTiesToEven := by
  intro a d hd
  have hnonneg : 0 ≤ a % d := Int.emod_nonneg a hd.ne'
  have hlt : a % d < d := Int.emod_lt_of_pos a hd
  obtain ⟨hbelow, hq⟩ | ⟨habove, hq⟩ | ⟨htie, heven, hq | hq⟩ := rne_cases a d
  · rw [sub_floor_mul hq, abs_of_nonneg hnonneg]
    exact ⟨by omega, by omega, fun h => absurd h hbelow.ne⟩
  · rw [sub_floor_succ_mul hq, abs_of_nonpos (by omega)]
    exact ⟨by omega, by omega, fun h => by omega⟩
  · rw [sub_floor_mul hq]
    exact ⟨by omega, by omega, fun _ => heven⟩
  · rw [sub_floor_succ_mul hq]
    exact ⟨by omega, by omega, fun _ => heven⟩

/-! ### The reset state -/

/-- No flag is set and no error is held after a reset (R24, R25, R61). -/
theorem State.statusForm_resetWith (c : Caps) : (State.resetWith c).StatusForm where
  busy_flags h := absurd h Bool.false_ne_true
  one_outcome _ := rfl
  code_of_err := ⟨fun h => absurd h Bool.false_ne_true, fun h => absurd rfl h⟩
  info_of_code _ := rfl
  code_bound := Nat.zero_le 11
  sticky_zero := BitVec.getLsbD_zero

/-- R61: `SS` and `KEY` reset to 0. -/
theorem State.secretsCleared_resetWith (c : Caps) : (State.resetWith c).SecretsCleared := ⟨rfl, rfl⟩

/-- No embedding operation is in progress after a reset, so only the bounds of R9 on the capacities are asked for. -/
theorem State.embedForm_resetWith {c : Caps} (h : c.wellFormed = true) : (State.resetWith c).EmbedForm where
  caps := h
  awaiting hs := absurd hs EmbState.noConfusion
  embedding hs := absurd hs EmbState.noConfusion
  draining hs := absurd hs EmbState.noConfusion
  fits hs := absurd hs Bool.false_ne_true

/-- Every cursor and count of the extraction engine is 0 after a reset, and the engine is idle. -/
theorem State.extractForm_resetWith {c : Caps} (h : c.wellFormed = true) : (State.resetWith c).ExtractForm where
  caps := h
  parsed := Nat.le_refl 0
  fits := Nat.zero_le _
  header := Nat.le_refl 0
  index := Nat.zero_le 14
  observed := ExtState.noConfusion
  accumulating hs := absurd hs ExtState.noConfusion
  collecting hs := absurd hs ExtState.noConfusion
  complete hs := absurd hs (by rintro (hs | hs) <;> exact ExtState.noConfusion hs)

/-- A reset state differs from itself in nothing, whatever the level of the reset input. -/
theorem State.resetForm_resetWith (c : Caps) : (State.resetWith c).ResetForm := fun _ => rfl

/-- Settles O23: each invariant holds of the reset state of every instance within the bounds of R9, and the capacities of
log entry 1 are within them. -/
theorem resetSatisfiesTheInvariants : Obligations.ResetSatisfiesTheInvariants := by
  have hcaps : Config.resetCaps.wellFormed = true := by decide
  exact ⟨State.memoryForm_resetWith _, State.statusForm_resetWith _, State.secretsCleared_resetWith _,
    State.embedForm_resetWith hcaps, State.extractForm_resetWith hcaps, State.resetForm_resetWith _⟩

end Sys2Proof.Machine
end

section
/-! The proofs of the family `10_state.md`, the memories and the step: what the rules of the commands leave alone, the
step lemma that every invariant goes through, and the canonical form of the memories. -/

namespace Sys2Proof.Machine

/-! ### What the rules of the commands leave alone -/

/-- R341: what `SOFT_RESET` keeps. -/
@[simp] theorem State.softReset_frame (s : State) :
    s.softReset.caps = s.caps ∧ s.softReset.mems = s.mems ∧ s.softReset.host = s.host ∧ s.softReset.free = s.free :=
  ⟨rfl, rfl, rfl, rfl⟩

/-- R342: what `ABORT` keeps. -/
@[simp] theorem State.abortBoth_frame (s : State) :
    s.abortBoth.status = s.status ∧ s.abortBoth.errs = s.errs ∧ s.abortBoth.ctrl = s.ctrl
      ∧ s.abortBoth.caps = s.caps ∧ s.abortBoth.qim = s.qim ∧ s.abortBoth.frm = s.frm ∧ s.abortBoth.range = s.range
      ∧ s.abortBoth.port = s.port ∧ s.abortBoth.priv = s.priv ∧ s.abortBoth.hidden = s.hidden
      ∧ s.abortBoth.mems = s.mems ∧ s.abortBoth.free = s.free :=
  ⟨rfl, rfl, rfl, rfl, rfl, rfl, rfl, rfl, rfl, rfl, rfl, rfl⟩

/-- R134: `B2B` writes `PT` and `PT_LEN`. -/
@[simp] theorem State.convertRange_frame (s : State) :
    s.convertRange.status = s.status ∧ s.convertRange.errs = s.errs ∧ s.convertRange.ctrl = s.ctrl
      ∧ s.convertRange.caps = s.caps ∧ s.convertRange.qim = s.qim ∧ s.convertRange.frm = s.frm
      ∧ s.convertRange.emb = s.emb ∧ s.convertRange.ext = s.ext ∧ s.convertRange.range = s.range
      ∧ s.convertRange.port = s.port ∧ s.convertRange.priv = s.priv ∧ s.convertRange.hidden = s.hidden
      ∧ s.convertRange.free = s.free := by
  simp [State.convertRange]

/-- R226: `QIM_EMB` writes `COEF`, `SAT` and `QCNT`. -/
@[simp] theorem State.embedOffered_frame (s : State) (n : Nat) :
    (s.embedOffered n).errs = s.errs ∧ (s.embedOffered n).ctrl = s.ctrl ∧ (s.embedOffered n).caps = s.caps
      ∧ (s.embedOffered n).qim.delta = s.qim.delta ∧ (s.embedOffered n).qim.ncoef = s.qim.ncoef
      ∧ (s.embedOffered n).frm = s.frm ∧ (s.embedOffered n).emb = s.emb ∧ (s.embedOffered n).ext = s.ext
      ∧ (s.embedOffered n).range = s.range ∧ (s.embedOffered n).port = s.port ∧ (s.embedOffered n).priv = s.priv
      ∧ (s.embedOffered n).hidden = s.hidden ∧ (s.embedOffered n).mems = s.mems ∧ (s.embedOffered n).free = s.free := by
  simp [State.embedOffered]

/-- R227: `QIM_EXT` writes `QBITS` and `QCNT`. -/
@[simp] theorem State.extractAll_frame (s : State) :
    s.extractAll.status = s.status ∧ s.extractAll.errs = s.errs ∧ s.extractAll.ctrl = s.ctrl
      ∧ s.extractAll.caps = s.caps ∧ s.extractAll.qim.delta = s.qim.delta ∧ s.extractAll.qim.ncoef = s.qim.ncoef
      ∧ s.extractAll.frm = s.frm ∧ s.extractAll.emb = s.emb ∧ s.extractAll.ext = s.ext ∧ s.extractAll.range = s.range
      ∧ s.extractAll.port = s.port ∧ s.extractAll.priv = s.priv ∧ s.extractAll.hidden = s.hidden
      ∧ s.extractAll.mems = s.mems ∧ s.extractAll.free = s.free := by
  simp [State.extractAll]

/-- R256: `PAY_SER` writes `PAY` and `PAY_BITS`. -/
@[simp] theorem State.serialize_frame (s : State) :
    s.serialize.status = s.status ∧ s.serialize.errs = s.errs ∧ s.serialize.ctrl = s.ctrl
      ∧ s.serialize.caps = s.caps ∧ s.serialize.qim = s.qim ∧ s.serialize.frm = s.frm
      ∧ s.serialize.emb.state = s.emb.state ∧ s.serialize.ext = s.ext ∧ s.serialize.range = s.range
      ∧ s.serialize.port = s.port ∧ s.serialize.priv = s.priv ∧ s.serialize.hidden = s.hidden
      ∧ s.serialize.free = s.free := by
  simp [State.serialize]

/-- R280: `EMB_START` writes the embedding engine, `FRM_BITS` and `REF_VALID`. -/
@[simp] theorem State.startEmbedding_frame (s : State) :
    s.startEmbedding.errs = s.errs ∧ s.startEmbedding.ctrl = s.ctrl ∧ s.startEmbedding.caps = s.caps
      ∧ s.startEmbedding.qim = s.qim ∧ s.startEmbedding.frm = s.frm ∧ s.startEmbedding.ext = s.ext
      ∧ s.startEmbedding.range = s.range ∧ s.startEmbedding.port = s.port ∧ s.startEmbedding.priv = s.priv
      ∧ s.startEmbedding.hidden = s.hidden ∧ s.startEmbedding.mems = s.mems ∧ s.startEmbedding.free = s.free := by
  simp [State.startEmbedding]

/-- R281: what the embedding of one frame leaves alone. -/
@[simp] theorem State.embedFrame_frame (s : State) :
    s.embedFrame.errs = s.errs ∧ s.embedFrame.ctrl = s.ctrl ∧ s.embedFrame.caps = s.caps ∧ s.embedFrame.qim = s.qim
      ∧ s.embedFrame.frm = s.frm ∧ s.embedFrame.ext = s.ext ∧ s.embedFrame.range = s.range
      ∧ s.embedFrame.port = s.port ∧ s.embedFrame.priv = s.priv ∧ s.embedFrame.hidden = s.hidden
      ∧ s.embedFrame.free = s.free := by
  simp [State.embedFrame]

/-- R284: a frame passed in Draining writes `FRM_BITS` and `PASSTHRU`. -/
@[simp] theorem State.passFrame_frame (s : State) :
    s.passFrame.errs = s.errs ∧ s.passFrame.ctrl = s.ctrl ∧ s.passFrame.caps = s.caps ∧ s.passFrame.qim = s.qim
      ∧ s.passFrame.frm = s.frm ∧ s.passFrame.emb = s.emb ∧ s.passFrame.ext = s.ext ∧ s.passFrame.range = s.range
      ∧ s.passFrame.port = s.port ∧ s.passFrame.priv = s.priv ∧ s.passFrame.hidden = s.hidden
      ∧ s.passFrame.mems = s.mems ∧ s.passFrame.free = s.free := by
  simp [State.passFrame]

/-- R281: what `EMB_FRAME` leaves alone. -/
@[simp] theorem State.processFrame_frame (s : State) :
    s.processFrame.errs = s.errs ∧ s.processFrame.ctrl = s.ctrl ∧ s.processFrame.caps = s.caps
      ∧ s.processFrame.qim = s.qim ∧ s.processFrame.frm = s.frm ∧ s.processFrame.ext = s.ext
      ∧ s.processFrame.range = s.range ∧ s.processFrame.port = s.port ∧ s.processFrame.priv = s.priv
      ∧ s.processFrame.hidden = s.hidden ∧ s.processFrame.free = s.free := by
  unfold State.processFrame
  dsimp only
  split <;> simp

/-- R300: `EXT_START` writes the extraction engine, `FRM_BITS` and `INTEGRITY`. -/
@[simp] theorem State.startExtraction_frame (s : State) :
    s.startExtraction.errs = s.errs ∧ s.startExtraction.ctrl = s.ctrl ∧ s.startExtraction.caps = s.caps
      ∧ s.startExtraction.qim = s.qim ∧ s.startExtraction.frm = s.frm ∧ s.startExtraction.emb = s.emb
      ∧ s.startExtraction.range = s.range ∧ s.startExtraction.port = s.port ∧ s.startExtraction.priv = s.priv
      ∧ s.startExtraction.hidden = s.hidden ∧ s.startExtraction.mems = s.mems ∧ s.startExtraction.free = s.free := by
  simp [State.startExtraction]

/-- R303: a frame skipped in Verifying writes `FRM_BITS` and `SKIPPED`. -/
@[simp] theorem State.skipFrame_frame (s : State) :
    s.skipFrame.errs = s.errs ∧ s.skipFrame.ctrl = s.ctrl ∧ s.skipFrame.caps = s.caps ∧ s.skipFrame.qim = s.qim
      ∧ s.skipFrame.frm = s.frm ∧ s.skipFrame.emb = s.emb ∧ s.skipFrame.ext = s.ext ∧ s.skipFrame.range = s.range
      ∧ s.skipFrame.port = s.port ∧ s.skipFrame.priv = s.priv ∧ s.skipFrame.hidden = s.hidden
      ∧ s.skipFrame.mems = s.mems ∧ s.skipFrame.free = s.free := by
  simp [State.skipFrame]

/-- R301: what a frame whose bits fit the accumulator leaves alone. -/
@[simp] theorem State.takeFrame_frame (s : State) :
    s.takeFrame.errs = s.errs ∧ s.takeFrame.ctrl = s.ctrl ∧ s.takeFrame.caps = s.caps ∧ s.takeFrame.qim = s.qim
      ∧ s.takeFrame.frm = s.frm ∧ s.takeFrame.emb = s.emb ∧ s.takeFrame.range = s.range ∧ s.takeFrame.port = s.port
      ∧ s.takeFrame.priv = s.priv ∧ s.takeFrame.hidden = s.hidden ∧ s.takeFrame.free = s.free := by
  simp [State.takeFrame]

/-- R308: what a failed verification leaves alone. -/
@[simp] theorem State.rejectPlaintext_frame (s : State) (e : ErrorKind) :
    (s.rejectPlaintext e).ctrl = s.ctrl ∧ (s.rejectPlaintext e).caps = s.caps ∧ (s.rejectPlaintext e).qim = s.qim
      ∧ (s.rejectPlaintext e).frm = s.frm ∧ (s.rejectPlaintext e).emb = s.emb
      ∧ (s.rejectPlaintext e).range = s.range ∧ (s.rejectPlaintext e).port = s.port
      ∧ (s.rejectPlaintext e).priv = s.priv ∧ (s.rejectPlaintext e).hidden = s.hidden
      ∧ (s.rejectPlaintext e).mems = s.mems ∧ (s.rejectPlaintext e).free = s.free := by
  simp [State.rejectPlaintext]

/-- R308: what the release of a plaintext leaves alone. -/
@[simp] theorem State.releasePlaintext_frame (s : State) (pt : List Byte) :
    (s.releasePlaintext pt).errs = s.errs ∧ (s.releasePlaintext pt).ctrl = s.ctrl
      ∧ (s.releasePlaintext pt).caps = s.caps ∧ (s.releasePlaintext pt).qim = s.qim
      ∧ (s.releasePlaintext pt).frm = s.frm ∧ (s.releasePlaintext pt).emb = s.emb
      ∧ (s.releasePlaintext pt).range = s.range ∧ (s.releasePlaintext pt).port = s.port
      ∧ (s.releasePlaintext pt).priv = s.priv ∧ (s.releasePlaintext pt).hidden = s.hidden
      ∧ (s.releasePlaintext pt).free = s.free := by
  simp [State.releasePlaintext]

/-- R310: the report of a mismatch writes `INTEGRITY` and `ERR_STICKY`. -/
@[simp] theorem State.noteMismatch_frame (s : State) :
    s.noteMismatch.ctrl = s.ctrl ∧ s.noteMismatch.caps = s.caps ∧ s.noteMismatch.qim = s.qim
      ∧ s.noteMismatch.frm = s.frm ∧ s.noteMismatch.emb = s.emb ∧ s.noteMismatch.ext = s.ext
      ∧ s.noteMismatch.range = s.range ∧ s.noteMismatch.port = s.port ∧ s.noteMismatch.priv = s.priv
      ∧ s.noteMismatch.hidden = s.hidden ∧ s.noteMismatch.mems = s.mems ∧ s.noteMismatch.free = s.free := by
  simp [State.noteMismatch]

/-- R308: what `EXT_VERIFY` leaves alone, however it ends. -/
@[simp] theorem State.verify_frame (X : Crypto) (s : State) (d : Nat) :
    (s.verify X d).ctrl = s.ctrl ∧ (s.verify X d).caps = s.caps ∧ (s.verify X d).qim = s.qim
      ∧ (s.verify X d).frm = s.frm ∧ (s.verify X d).emb = s.emb ∧ (s.verify X d).range = s.range
      ∧ (s.verify X d).port = s.port ∧ (s.verify X d).priv = s.priv ∧ (s.verify X d).free = s.free := by
  obtain ⟨-, h⟩ | ⟨Q, u, -, rfl, ⟨-, h⟩ | ⟨pt, -, ⟨-, h⟩ | ⟨-, -, h⟩ | ⟨-, -, h⟩⟩⟩ := s.verify_cases X d <;> simp [h]

/-- R308: what holds of every ending of `EXT_VERIFY`. `C` is what holds of the state that is rejected or released: it
holds once the secrets are cleared, and the report of a mismatch keeps it. -/
theorem State.verify_ends {C P : State → Prop} (X : Crypto) (s : State) (d : Nat)
    (invalid : P ((s.withExtState .failed).raiseError .invalidPoint 0))
    (cleared : ∀ Q n, C (s.deriveKey X d Q n).clearSecrets) (mismatch : ∀ u, C u → C u.noteMismatch)
    (reject : ∀ u e, C u → P (u.rejectPlaintext e)) (release : ∀ u pt, C u → P (u.releasePlaintext pt)) :
    P (s.verify X d) := by
  obtain ⟨-, h⟩ | ⟨Q, u, -, rfl, ⟨-, h⟩ | ⟨pt, -, ⟨-, h⟩ | ⟨-, -, h⟩ | ⟨-, -, h⟩⟩⟩ := s.verify_cases X d <;> rw [h]
  · exact invalid
  · exact reject _ _ (cleared Q _)
  · exact release _ pt (cleared Q _)
  · exact reject _ _ (mismatch _ (cleared Q _))
  · exact release _ pt (mismatch _ (cleared Q _))

/-- R301: what `EXT_FRAME` leaves alone, however it ends. -/
@[simp] theorem State.receiveFrame_frame (s : State) :
    s.receiveFrame.ctrl = s.ctrl ∧ s.receiveFrame.caps = s.caps ∧ s.receiveFrame.qim = s.qim
      ∧ s.receiveFrame.frm = s.frm ∧ s.receiveFrame.emb = s.emb ∧ s.receiveFrame.range = s.range
      ∧ s.receiveFrame.port = s.port ∧ s.receiveFrame.priv = s.priv ∧ s.receiveFrame.hidden = s.hidden
      ∧ s.receiveFrame.free = s.free := by
  unfold State.receiveFrame
  split_ifs <;> simp

/-- R285: `EMB_END` writes the engine's state and ends. -/
@[simp] theorem State.endEmbedding_frame (s : State) :
    s.endEmbedding.ctrl = s.ctrl ∧ s.endEmbedding.caps = s.caps ∧ s.endEmbedding.qim = s.qim
      ∧ s.endEmbedding.frm = s.frm ∧ s.endEmbedding.ext = s.ext ∧ s.endEmbedding.range = s.range
      ∧ s.endEmbedding.port = s.port ∧ s.endEmbedding.priv = s.priv ∧ s.endEmbedding.hidden = s.hidden
      ∧ s.endEmbedding.mems = s.mems ∧ s.endEmbedding.free = s.free := by
  unfold State.endEmbedding
  split <;> simp

/-- R306: `EXT_END` writes the engine's state and ends. -/
@[simp] theorem State.endExtraction_frame (s : State) :
    s.endExtraction.ctrl = s.ctrl ∧ s.endExtraction.caps = s.caps ∧ s.endExtraction.qim = s.qim
      ∧ s.endExtraction.frm = s.frm ∧ s.endExtraction.emb = s.emb ∧ s.endExtraction.range = s.range
      ∧ s.endExtraction.port = s.port ∧ s.endExtraction.priv = s.priv ∧ s.endExtraction.hidden = s.hidden
      ∧ s.endExtraction.mems = s.mems ∧ s.endExtraction.free = s.free := by
  unfold State.endExtraction
  split <;> simp

/-- R58, R62: no rule changes the capacities or what selects the free values. -/
@[simp] theorem ruleOf_caps_free (i : Instr) (s : State) :
    (ruleOf i s).caps = s.caps ∧ (ruleOf i s).free = s.free := by
  cases i <;> simp [ruleOf]

/-- R33, R53, R106, R402: only `SOFT_RESET` writes the parameter registers, `PRIV`, `CTRL` and the memory port. -/
theorem ruleOf_parameters {i : Instr} (h : i ≠ .softReset) (s : State) :
    (ruleOf i s).priv = s.priv ∧ (ruleOf i s).ctrl = s.ctrl ∧ (ruleOf i s).port = s.port
      ∧ (ruleOf i s).frm = s.frm ∧ (ruleOf i s).qim.delta = s.qim.delta ∧ (ruleOf i s).qim.ncoef = s.qim.ncoef
      ∧ (ruleOf i s).range = s.range := by
  cases i
  case softReset => exact absurd rfl h
  all_goals simp [ruleOf]

/-! ### Step lemmas from the rules and the host steps -/

/-- An invariant that holds through the model's own bookkeeping, the host's accesses, an error and the rule of every
command holds through a step. -/
theorem step_preserves {P : State → Prop} (agent : ∀ s f v, P s → P ((s.withFree f).withHost v))
    (host : ∀ s e, P s → P (s.hostStep e))
    (raise : ∀ s e info, s.status.busy = true → P s → P (s.raiseError e info))
    (rule : ∀ i s, s.status.busy = true → (∀ c ∈ checksOf i s, c.failed = false) → P s → P (ruleOf i s))
    {s t : State} (hs : P s) (h : step s = .next t) : P t := by
  obtain rfl | ⟨e, rest, f, -, -, -, rfl⟩ | ⟨hb, i, -, hx⟩ | ⟨hb, w, -, rfl⟩ := step_cases h
  · exact hs
  · exact host _ e (agent s f _ hs)
  · have busy := (State.commandInProgress_iff.1 hb).1
    obtain ⟨c, -, -, -, rfl⟩ | ⟨passed, rfl⟩ := exec_cases hx
    · exact raise s _ _ busy hs
    · exact rule i s busy passed hs
  · exact raise s _ _ (State.commandInProgress_iff.1 hb).1 hs

/-- An invariant that holds in the reset state, through the submission of a command and through the host's other
accesses holds through a host step. -/
theorem State.hostStep_preserves {P : State → Prop} (reset : ∀ s v, P s → P (s.hardwareReset.withHost v))
    (submit : ∀ s w, P s → P (s.accept w)) (access : ∀ s t, s.HostKeeps t → P s → P t) (s : State) (e : HostEvent)
    (hs : P s) : P (s.hostStep e) := by
  obtain ⟨a, h⟩ | ⟨-, w, h⟩ | h := s.hostStep_cases e
  · rw [h]; exact reset s _ hs
  · rw [h]; exact submit s w hs
  · exact access s _ h hs

/-! ### The memories -/

theorem State.MemoryForm.endOk {s : State} (h : s.MemoryForm) : s.endOk.MemoryForm := h

theorem State.MemoryForm.convertRange {s : State} (h : s.MemoryForm) : s.convertRange.MemoryForm :=
  (h.writeBytes .pt 0 (s.accBytes s.range.start.toNat (s.range.len.toNat / 8))).congr (by simp)
    (by simp [State.convertRange])

theorem State.MemoryForm.serialize {s : State} (h : s.MemoryForm) : s.serialize.MemoryForm :=
  (h.writeBytes .pay 0 s.payload).congr (by simp) (by simp [State.serialize])

theorem State.MemoryForm.embedFrame {s : State} (h : s.MemoryForm) : s.embedFrame.MemoryForm :=
  (h.frameEmbedLoop s.emb.cursor.toNat (s.emb.payBits.toNat - s.emb.cursor.toNat) s.frameBlocks 0).congr (by simp)
    (by simp [State.embedFrame, State.frameEmbed])

theorem State.MemoryForm.takeFrame {s : State} (h : s.MemoryForm) : s.takeFrame.MemoryForm := by
  have hx : s.frameExtract.2.MemoryForm := h.frameExtractLoop _ _
  unfold State.takeFrame
  dsimp only
  refine State.MemoryForm.congr (State.MemoryForm.parseLoop (hx.congr ?_ ?_) 14) (State.withStatus_caps _ _)
    (State.withStatus_mems _ _)
  · simp only [State.withFrmBits_caps, State.withExt_caps]
  · simp only [State.withFrmBits_mems, State.withExt_mems]

theorem State.MemoryForm.processFrame {s : State} (h : s.MemoryForm) : s.processFrame.MemoryForm := by
  have hk := h.keepReference
  unfold State.processFrame
  dsimp only
  split
  · exact hk.congr (by simp) (by simp)
  · exact hk.embedFrame.congr (by simp) (by simp)

theorem State.MemoryForm.verify {s : State} (h : s.MemoryForm) (X : Crypto) (d : Nat) : (s.verify X d).MemoryForm := by
  refine State.verify_ends (C := State.MemoryForm) X s d ?_ ?_ ?_ ?_ ?_
  · exact h.congr (by simp) (by simp)
  · exact fun Q n => h.congr (by simp) (by simp)
  · exact fun u hu => hu.congr (by simp) (by simp)
  · exact fun u e hu => hu.congr (by simp) (by simp)
  · exact fun u pt hu => (hu.writeBytes .pt 0 pt).congr (by simp) (by simp [State.releasePlaintext])

/-- The rule of every command keeps the canonical form: it writes memory through `writeBytes`, `setMemBits` and the
block store only. -/
theorem State.MemoryForm.ruleOf {s : State} (h : s.MemoryForm) (i : Instr) : (ruleOf i s).MemoryForm := by
  cases i <;> simp only [Machine.ruleOf]
  case b2b => exact h.convertRange.endOk
  case ecPub => exact (h.publishKey _).endOk
  case envSeal => exact (h.seal _ _ _).endOk
  case blkSt => exact (h.storePixels _ _ 64).endOk
  case paySer => exact h.serialize.endOk
  case embFrame => exact h.processFrame.endOk
  case extVerify => exact h.verify _ _
  case extFrame =>
    unfold State.receiveFrame
    split_ifs
    · exact h.congr (by simp) (by simp)
    · exact h.congr (by simp) (by simp)
    · exact h.takeFrame.endOk
  all_goals exact h.congr (by simp) (by simp)

/-- Settles O24, over the host's accesses and the rules of the commands. -/
theorem stepKeepsMemoryForm : Obligations.StepKeepsMemoryForm := by
  intro s t hs h
  refine step_preserves (P := fun u => u.MemoryForm ∧ u.caps = s.caps) ?_ ?_ ?_ ?_ ⟨hs, rfl⟩ h
  · exact fun u f v ⟨hu, hc⟩ => ⟨hu, hc⟩
  · exact fun u e ⟨hu, hc⟩ => ⟨(hu.hostStep e).1, (hu.hostStep e).2.trans hc⟩
  · exact fun u e info _ ⟨hu, hc⟩ => ⟨hu, hc⟩
  · exact fun i u _ _ ⟨hu, hc⟩ => ⟨hu.ruleOf i, (ruleOf_caps_free i u).1.trans hc⟩

end Sys2Proof.Machine
end

section
/-! The proofs of the family `10_state.md`, the flags: the one outcome of a command, `STATUS` with the error registers, and
the secrets. -/

namespace Sys2Proof.Machine

/-! ### The flags and error registers at the end of a command -/

/-- R224, R226: of the flags, embedding in slots writes `SAT` only. -/
@[simp] theorem State.embedSlots_flags (s : State) (bits : Nat → Bool) (m : Nat) :
    (s.embedSlots bits m).status.done = s.status.done ∧ (s.embedSlots bits m).status.err = s.status.err
      ∧ (s.embedSlots bits m).status.refValid = s.status.refValid := by
  obtain ⟨b, hb⟩ := s.embedSlots_status bits m
  simp [hb]

/-- R228: of the flags, embedding a frame writes `SAT` only. -/
@[simp] theorem State.embedFrame_flags (s : State) :
    s.embedFrame.status.done = s.status.done ∧ s.embedFrame.status.err = s.status.err
      ∧ s.embedFrame.status.refValid = s.status.refValid := by
  obtain ⟨b, hb⟩ :=
    frameEmbedLoop_status s.emb.cursor.toNat (s.emb.payBits.toNat - s.emb.cursor.toNat) s.frameBlocks 0 s
  simp [State.embedFrame, State.frameEmbed, hb]

/-- R281, R283: the reference frame is valid after `EMB_FRAME`, which decides no outcome before its end. -/
@[simp] theorem State.processFrame_flags (s : State) :
    s.processFrame.status.done = s.status.done ∧ s.processFrame.status.err = s.status.err
      ∧ s.processFrame.status.refValid = true := by
  unfold State.processFrame
  dsimp only
  split <;> simp [State.passFrame]

/-- A command runs and its outcome is not yet decided (R86). -/
structure State.Undecided (s : State) : Prop where
  done : s.status.done = false
  err : s.status.err = false
  code : s.errs.code = 0#4
  info : s.errs.info = 0#32

/-- A command has ended with exactly one outcome (R361, R362). -/
def State.Decided (s : State) : Prop :=
  s.status.busy = false ∧
    ((s.status.done = true ∧ s.status.err = false ∧ s.errs.code = 0#4 ∧ s.errs.info = 0#32 ∧ s.intPend.done = true)
      ∨ (s.status.done = false ∧ s.status.err = true ∧ (∃ e : ErrorKind, s.errs.code = e.code)
          ∧ s.errs.sticky.getLsbD s.errs.code.toNat = true ∧ s.intPend.err = true))

theorem State.Undecided.congr {s t : State} (h : s.Undecided) (done : t.status.done = s.status.done)
    (err : t.status.err = s.status.err) (code : t.errs.code = s.errs.code) (info : t.errs.info = s.errs.info) :
    t.Undecided :=
  ⟨done.trans h.done, err.trans h.err, code.trans h.code, info.trans h.info⟩

theorem State.Undecided.endOk {s : State} (h : s.Undecided) : s.endOk.Decided :=
  ⟨rfl, .inl ⟨rfl, h.err, h.code, h.info, rfl⟩⟩

theorem State.Undecided.raiseError {s : State} (h : s.Undecided) (e : ErrorKind) (info : Nat) :
    (s.raiseError e info).Decided :=
  ⟨rfl, .inr ⟨h.done, rfl, ⟨e, rfl⟩, (s.errs.sticky_raised e info).1, rfl⟩⟩

/-- R308: `EXT_VERIFY` ends once, on each of its paths. -/
theorem State.Undecided.verify {s : State} (h : s.Undecided) (X : Crypto) (d : Nat) : (s.verify X d).Decided := by
  refine State.verify_ends (C := State.Undecided) X s d ?_ ?_ ?_ ?_ ?_
  · exact State.Undecided.raiseError (h.congr (by simp) (by simp) (by simp) (by simp)) _ _
  · exact fun Q n => h.congr (by simp) (by simp) (by simp) (by simp)
  · exact fun u hu => hu.congr (by simp [State.noteMismatch]) (by simp [State.noteMismatch])
      (by simp [State.noteMismatch, ErrRegs.note]) (by simp [State.noteMismatch, ErrRegs.note])
  · exact fun u e hu => State.Undecided.raiseError (hu.congr (by simp) (by simp) (by simp) (by simp)) e 0
  · exact fun u pt hu => State.Undecided.endOk (hu.congr (by simp) (by simp) (by simp) (by simp))

/-- R361, R362: the rule of every command ends it once. -/
theorem State.Undecided.ruleOf {s : State} (h : s.Undecided) (i : Instr) : (ruleOf i s).Decided := by
  cases i <;> simp only [Machine.ruleOf]
  case nop => exact h.endOk
  case softReset => exact State.Undecided.endOk ⟨rfl, rfl, rfl, rfl⟩
  case embEnd =>
    unfold State.endEmbedding
    split
    · exact State.Undecided.endOk (h.congr (by simp) (by simp) (by simp) (by simp))
    · exact State.Undecided.raiseError (h.congr (by simp) (by simp) (by simp) (by simp)) _ _
  case extFrame =>
    unfold State.receiveFrame
    split_ifs
    · exact (h.congr (by simp [State.skipFrame]) (by simp [State.skipFrame]) (by simp) (by simp)).endOk
    · exact State.Undecided.raiseError (h.congr (by simp) (by simp) (by simp) (by simp)) _ _
    · exact (h.congr (by simp [State.takeFrame]) (by simp [State.takeFrame]) (by simp) (by simp)).endOk
  case extEnd =>
    unfold State.endExtraction
    split
    · exact State.Undecided.raiseError (h.congr (by simp) (by simp) (by simp) (by simp)) _ _
    · exact h.endOk
  case extVerify => exact h.verify _ _
  case qimEmb => exact (h.congr (by simp [State.embedOffered]) (by simp [State.embedOffered]) (by simp) (by simp)).endOk
  case embStart =>
    exact (h.congr (by simp [State.startEmbedding]) (by simp [State.startEmbedding]) (by simp) (by simp)).endOk
  case extStart =>
    exact (h.congr (by simp [State.startExtraction]) (by simp [State.startExtraction]) (by simp) (by simp)).endOk
  all_goals exact State.Undecided.endOk (h.congr (by simp) (by simp) (by simp) (by simp))

/-- Settles O8: a refused command raises the error of a check, any other ends as its rule does. -/
theorem everyCommandEndsWithOneOutcome : Obligations.EveryCommandEndsWithOneOutcome := by
  intro i s _ hdone herr hcode hinfo
  have hs : s.Undecided := ⟨hdone, herr, hcode, hinfo⟩
  obtain ⟨t, ht⟩ := exec_answers i s
  have hend : t.Decided := by
    obtain ⟨c, -, -, -, rfl⟩ | ⟨-, rfl⟩ := exec_cases ht
    · exact hs.raiseError _ _
    · exact hs.ruleOf i
  obtain ⟨hbusy, hok | ⟨hd, he, ⟨e, hc⟩, hsticky, hint⟩⟩ := hend
  · exact ⟨t, ht, hbusy, .inl hok⟩
  · exact ⟨t, ht, hbusy, .inr ⟨hd, he, hc ▸ e.code_ne_zero, hsticky, hint⟩⟩

/-! ### What the flags and error registers say together -/

/-- R25: bit 0 of `ERR_STICKY` reads 0. -/
def ErrRegs.StickyZero (r : ErrRegs) : Prop := r.sticky.getLsbD 0 = false

/-- No error of R350 has the code 0. -/
theorem ErrRegs.StickyZero.raised {r : ErrRegs} (h : r.StickyZero) (e : ErrorKind) (info : Nat) :
    (r.raised e info).StickyZero := (r.sticky_raised e info).2.trans h

theorem ErrRegs.StickyZero.note {r : ErrRegs} (h : r.StickyZero) (e : ErrorKind) : (r.note e).StickyZero := h.raised e 0

theorem State.verify_stickyZero {s : State} (h : s.errs.StickyZero) (X : Crypto) (d : Nat) :
    (s.verify X d).errs.StickyZero := by
  refine State.verify_ends (C := fun u => u.errs.StickyZero) (P := fun u => u.errs.StickyZero) X s d ?_ ?_ ?_ ?_ ?_
  · exact h.raised _ _
  · exact fun Q n => by simpa using h
  · exact fun u hu => hu.note _
  · exact fun u e hu => hu.raised _ _
  · exact fun u pt hu => by simpa using hu

theorem ruleOf_stickyZero {s : State} (h : s.errs.StickyZero) (i : Instr) : (ruleOf i s).errs.StickyZero := by
  cases i <;> simp only [ruleOf]
  case softReset => exact BitVec.getLsbD_zero
  case embEnd =>
    unfold State.endEmbedding
    split
    · simp [h]
    · simp [h.raised]
  case extFrame =>
    unfold State.receiveFrame
    split_ifs
    · simp [h]
    · simp [h.raised]
    · simp [h]
  case extEnd =>
    unfold State.endExtraction
    split
    · simp [h.raised]
    · simp [h]
  case extVerify => exact State.verify_stickyZero h _ _
  all_goals simp [h]

theorem State.StatusForm.congr {s t : State} (h : s.StatusForm) (status : t.status = s.status)
    (errs : t.errs = s.errs) : t.StatusForm :=
  ⟨by rw [status]; exact h.busy_flags, by rw [status]; exact h.one_outcome, by rw [status, errs]; exact h.code_of_err,
    by rw [errs]; exact h.info_of_code, by rw [errs]; exact h.code_bound, by rw [errs]; exact h.sticky_zero⟩

/-- While a command runs its outcome is not decided. -/
theorem State.StatusForm.undecided {s : State} (h : s.StatusForm) (busy : s.status.busy = true) : s.Undecided := by
  obtain ⟨hdone, herr, -⟩ := h.busy_flags busy
  have hcode : s.errs.code = 0#4 := by
    by_contra hne
    exact Bool.false_ne_true (herr.symm.trans (h.code_of_err.2 hne))
  exact ⟨hdone, herr, hcode, h.info_of_code hcode⟩

/-- The end of a command brings the form back. -/
theorem State.Decided.statusForm {s : State} (h : s.Decided) (sticky : s.errs.StickyZero) :
    s.StatusForm := by
  obtain ⟨hbusy, ⟨hdone, herr, hcode, hinfo, -⟩ | ⟨hdone, herr, ⟨e, hcode⟩, -, -⟩⟩ := h
  · exact
      { busy_flags := fun hb => absurd (hbusy.symm.trans hb) Bool.false_ne_true
        one_outcome := fun _ => herr
        code_of_err := by simp [herr, hcode]
        info_of_code := fun _ => hinfo
        code_bound := by simp [hcode]
        sticky_zero := sticky }
  · exact
      { busy_flags := fun hb => absurd (hbusy.symm.trans hb) Bool.false_ne_true
        one_outcome := fun hd => absurd (hdone.symm.trans hd) Bool.false_ne_true
        code_of_err := by simp [herr, hcode, e.code_ne_zero]
        info_of_code := fun hc => absurd (hcode.symm.trans hc) e.code_ne_zero
        code_bound := hcode ▸ e.code_le
        sticky_zero := sticky }

/-- R86: acceptance clears the outcome of the last command. -/
theorem State.StatusForm.accept {s : State} (h : s.StatusForm) (w : Word) : (s.accept w).StatusForm where
  busy_flags _ := ⟨rfl, rfl, rfl, rfl, rfl⟩
  one_outcome _ := rfl
  code_of_err := ⟨fun hb => absurd hb Bool.false_ne_true, fun hc => absurd rfl hc⟩
  info_of_code _ := rfl
  code_bound := Nat.zero_le 11
  sticky_zero := h.sticky_zero

/-- R24, R25: the host can clear sticky bits only. -/
theorem State.StatusForm.access {s t : State} (k : s.HostKeeps t) (h : s.StatusForm) : t.StatusForm := by
  obtain ⟨a, b, hst⟩ := k.status
  obtain ⟨m, her⟩ := k.errs
  exact
    { busy_flags := by rw [hst]; exact h.busy_flags
      one_outcome := by rw [hst]; exact h.one_outcome
      code_of_err := by rw [hst, her]; exact h.code_of_err
      info_of_code := by rw [her]; exact h.info_of_code
      code_bound := by rw [her]; exact h.code_bound
      sticky_zero := by rw [her, BitVec.getLsbD_and, h.sticky_zero, Bool.false_and] }

/-- Settles O25: a command starts undecided and its end decides it. -/
theorem stepKeepsStatusForm : Obligations.StepKeepsStatusForm := by
  intro s t hs h
  refine step_preserves (P := State.StatusForm) ?_ (State.hostStep_preserves ?_ ?_ ?_) ?_ ?_ hs h
  · exact fun s f v hs => hs.congr rfl rfl
  · exact fun s v _ => (State.statusForm_resetWith s.caps).congr rfl rfl
  · exact fun s w hs => hs.accept w
  · exact fun s t k hs => hs.access k
  · exact fun s e info busy hs =>
      ((hs.undecided busy).raiseError e info).statusForm (ErrRegs.StickyZero.raised hs.sticky_zero e info)
  · exact fun i s busy _ hs => ((hs.undecided busy).ruleOf i).statusForm (ruleOf_stickyZero hs.sticky_zero i)

/-! ### The secrets -/

theorem State.SecretsCleared.congr {s t : State} (h : s.SecretsCleared) (hidden : t.hidden = s.hidden) :
    t.SecretsCleared := by
  unfold State.SecretsCleared
  rw [hidden]
  exact h

/-- R308: the key is cleared before the outcome of the tag check is known. -/
theorem State.SecretsCleared.verify {s : State} (h : s.SecretsCleared) (X : Crypto) (d : Nat) :
    (s.verify X d).SecretsCleared := by
  refine State.verify_ends (C := State.SecretsCleared) X s d ?_ ?_ ?_ ?_ ?_
  · exact h.congr (by simp)
  · exact fun Q n => ⟨rfl, rfl⟩
  · exact fun u hu => hu.congr (by simp)
  · exact fun u e hu => hu.congr (by simp)
  · exact fun u pt hu => hu.congr (by simp)

/-- R55: the rules that write `SS` and `KEY` clear them. -/
theorem State.SecretsCleared.ruleOf {s : State} (h : s.SecretsCleared) (i : Instr) : (ruleOf i s).SecretsCleared := by
  cases i <;> simp only [Machine.ruleOf]
  case softReset => exact ⟨rfl, rfl⟩
  case envSeal => exact ⟨by simp [State.seal], by simp [State.seal]⟩
  case extVerify => exact h.verify _ _
  all_goals exact h.congr (by simp)

/-- Settles O26, over the host's accesses and the rules of the commands. -/
theorem stepKeepsSecretsCleared : Obligations.StepKeepsSecretsCleared := by
  intro s t hs h
  refine step_preserves (P := State.SecretsCleared) ?_ (State.hostStep_preserves ?_ ?_ ?_) ?_ ?_ hs h
  · exact fun s f v hs => hs
  · exact fun s v _ => State.secretsCleared_resetWith s.caps
  · exact fun s w hs => hs
  · exact fun s t k hs => hs.congr k.hidden
  · exact fun s e info _ hs => hs
  · exact fun i s _ _ hs => hs.ruleOf i

end Sys2Proof.Machine
end

section
/-! The proofs of the family `10_state.md`, the engines: the invariants of the embedding and the extraction engine. -/

namespace Sys2Proof.Machine

/-! ### What passed checks say -/

/-- R220. -/
theorem State.qimReady_of_passed {s : State} (h : ∀ c ∈ chkQim s, c.failed = false) : s.QimReady := by
  simpa [chkQim] using h

/-- R205. -/
theorem State.frameReady_of_passed {s : State} (h : ∀ c ∈ chkFrame s, c.failed = false) : s.FrameReady := by
  simpa [chkFrame, not_or] using h

/-- R205, R220: a frame that passes the checks has room for a bit. -/
theorem State.capacity_pos_of_passed {s : State} (h : ∀ c ∈ chkQim s ++ chkFrame s, c.failed = false) :
    0 < s.capacity := by
  obtain ⟨-, hn⟩ := State.qimReady_of_passed fun c hc => h c (List.mem_append_left _ hc)
  obtain ⟨hw, hh, hw8, hh8, -⟩ := State.frameReady_of_passed fun c hc => h c (List.mem_append_right _ hc)
  exact State.capacity_pos hn hw hh hw8 hh8

/-! ### The embedding engine -/

theorem State.EmbedForm.congr {s t : State} (h : s.EmbedForm) (caps : t.caps = s.caps) (emb : t.emb = s.emb)
    (ref : t.status.refValid = s.status.refValid) : t.EmbedForm where
  caps := by rw [caps]; exact h.caps
  awaiting := by rw [emb, ref]; exact h.awaiting
  embedding := by rw [emb, ref]; exact h.embedding
  draining := by rw [emb, ref]; exact h.draining
  fits := by rw [emb, caps]; exact h.fits

/-- Outside an operation the form asks for the bounds of R9 only. -/
theorem State.EmbedForm.of_not_inProgress {s : State} (caps : s.caps.wellFormed = true)
    (h : s.emb.state.inProgress = false) : s.EmbedForm where
  caps := caps
  awaiting hs := by simp [hs, EmbState.inProgress] at h
  embedding hs := by simp [hs, EmbState.inProgress] at h
  draining hs := by simp [hs, EmbState.inProgress] at h
  fits hs := absurd (h.symm.trans hs) Bool.false_ne_true

/-- R37: the count of frames matters before the first frame only. -/
theorem State.EmbedForm.countFrame {s : State} (h : s.EmbedForm) (hs : s.emb.state ≠ .awaitingFrame) (n : Word) :
    (s.withEmb { s.emb with frames := n }).EmbedForm where
  caps := h.caps
  awaiting ha := absurd ha hs
  embedding := h.embedding
  draining := h.draining
  fits := h.fits

/-- R281: embedding a frame moves the cursor by as many bits as are left and as the frame holds. -/
theorem State.embedFrame_emb (s : State) :
    s.embedFrame.emb =
      let cursor := BitVec.ofNat 32
        (s.emb.cursor.toNat + min (s.emb.payBits.toNat - s.emb.cursor.toNat) s.capacity)
      { s.emb with cursor := cursor, state := if cursor = s.emb.payBits then .draining else .embedding } := by
  simp [State.embedFrame, State.frameEmbed_count]

theorem State.embedFrame_state_ne_awaiting (s : State) : s.embedFrame.emb.state ≠ .awaitingFrame := by
  rw [State.embedFrame_emb]
  dsimp only
  split <;> simp

/-- R281, R287: with bits left and room for one, the frame takes a bit or more and the cursor stays in the payload. -/
theorem State.embedForm_embedFrame {s : State} (caps : s.caps.wellFormed = true) (room : 0 < s.capacity)
    (left : s.emb.cursor.toNat < s.emb.payBits.toNat) (ref : s.status.refValid = true)
    (fits : s.emb.payBits.toNat ≤ 8 * s.caps.pay.toNat) : s.embedFrame.EmbedForm := by
  have hemb := s.embedFrame_emb
  generalize hc : BitVec.ofNat 32 (s.emb.cursor.toNat + min (s.emb.payBits.toNat - s.emb.cursor.toNat) s.capacity)
    = cursor at hemb
  have hcursor : cursor.toNat = s.emb.cursor.toNat + min (s.emb.payBits.toNat - s.emb.cursor.toNat) s.capacity := by
    have := s.emb.payBits.isLt
    rw [← hc, BitVec.toNat_ofNat, Nat.mod_eq_of_lt (by omega)]
  have href : s.embedFrame.status.refValid = true := by simp [ref]
  refine ⟨by simpa using caps, fun hs => absurd hs s.embedFrame_state_ne_awaiting, fun hs => ?_, fun hs => ?_,
    fun _ => by simpa [hemb] using fits⟩
  · have hne : cursor ≠ s.emb.payBits := by
      rintro rfl
      simp [hemb] at hs
    have hne' : cursor.toNat ≠ s.emb.payBits.toNat := fun h => hne (BitVec.eq_of_toNat_eq h)
    refine ⟨?_, ?_, href⟩ <;> rw [hemb] <;> dsimp only <;> omega
  · have heq : cursor = s.emb.payBits := by
      by_contra hne
      simp [hemb, hne] at hs
    exact ⟨by simpa [hemb] using heq, href⟩

/-- R281, R283, R284: `EMB_FRAME` in the states that take a frame. -/
theorem State.EmbedForm.processFrame {s : State} (h : s.EmbedForm) (progress : s.emb.state.inProgress = true)
    (room : 0 < s.capacity) : s.processFrame.EmbedForm := by
  have hk : s.keepReference.capacity = s.capacity := State.capacity_congr (by simp) (by simp)
  unfold State.processFrame
  dsimp only
  split
  · next hd =>
    have hd : s.emb.state = .draining := by simpa using hd
    have hp : s.keepReference.passFrame.EmbedForm :=
      h.congr (by simp) (by simp) (by simp [State.passFrame, (h.draining hd).2])
    exact hp.countFrame (by simp [hd]) _
  · next hd =>
    have left : s.emb.cursor.toNat < s.emb.payBits.toNat := by
      cases hs : s.emb.state
      case awaitingFrame =>
        obtain ⟨hc, -, -, hb⟩ := h.awaiting hs
        rw [hc]
        exact hb
      case embedding => exact (h.embedding hs).2.1
      case draining => exact absurd (by simp [hs]) hd
      all_goals simp [hs, EmbState.inProgress] at progress
    refine State.EmbedForm.countFrame (State.embedForm_embedFrame ?_ ?_ ?_ ?_ ?_)
      (State.embedFrame_state_ne_awaiting _) _
    · simpa using h.caps
    · rwa [hk]
    · simpa using left
    · simp
    · simpa using h.fits progress

/-- R280: `EMB_START` with a payload that fits `PAY`. -/
theorem State.EmbedForm.startEmbedding {s : State} (h : s.EmbedForm) (passed : ∀ c ∈ chkEmbStart s, c.failed = false) :
    s.startEmbedding.EmbedForm := by
  have hpay : ¬(s.emb.payBits = 0#32 ∨ 8 * s.caps.pay.toNat < s.emb.payBits.toNat) := by
    simpa [chkEmbStart] using passed
  obtain ⟨hne, hfits⟩ := not_or.1 hpay
  have hpos : s.emb.payBits.toNat ≠ 0 := fun h0 => hne (BitVec.eq_of_toNat_eq h0)
  exact
    { caps := h.caps
      awaiting := fun _ => ⟨rfl, rfl, rfl, Nat.one_le_iff_ne_zero.2 hpos⟩
      embedding := fun hs => absurd hs EmbState.noConfusion
      draining := fun hs => absurd hs EmbState.noConfusion
      fits := fun _ => Nat.le_of_not_lt hfits }

/-- R285: no operation is in progress after `EMB_END`. -/
theorem State.endEmbedding_not_inProgress (s : State) : s.endEmbedding.emb.state.inProgress = false := by
  unfold State.endEmbedding
  split <;> simp [EmbState.inProgress]

@[simp] theorem State.takeFrame_refValid (s : State) : s.takeFrame.status.refValid = s.status.refValid := by
  simp [State.takeFrame]

@[simp] theorem State.receiveFrame_refValid (s : State) : s.receiveFrame.status.refValid = s.status.refValid := by
  unfold State.receiveFrame
  split_ifs <;> simp [State.skipFrame]

@[simp] theorem State.endExtraction_refValid (s : State) : s.endExtraction.status.refValid = s.status.refValid := by
  unfold State.endExtraction
  split <;> simp

@[simp] theorem State.verify_refValid (X : Crypto) (s : State) (d : Nat) :
    (s.verify X d).status.refValid = s.status.refValid := by
  refine State.verify_ends (C := fun u => u.status.refValid = s.status.refValid)
    (P := fun u => u.status.refValid = s.status.refValid) X s d ?_ ?_ ?_ ?_ ?_
  · simp
  · exact fun Q n => by simp
  · exact fun u hu => by simpa [State.noteMismatch] using hu
  · exact fun u e hu => by simpa [State.rejectPlaintext] using hu
  · exact fun u pt hu => by simpa [State.releasePlaintext] using hu

/-- R286: every command keeps the form; only those of the engine, `SOFT_RESET`, `ABORT` and `PAY_SER` touch it. -/
theorem State.EmbedForm.ruleOf {s : State} (h : s.EmbedForm) (i : Instr)
    (passed : ∀ c ∈ checksOf i s, c.failed = false) : (ruleOf i s).EmbedForm := by
  cases i <;> simp only [Machine.ruleOf]
  case softReset => exact .of_not_inProgress h.caps rfl
  case abort => exact .of_not_inProgress h.caps rfl
  case paySer =>
    have idle : s.emb.state.inProgress = false := passed _ List.mem_cons_self
    exact .of_not_inProgress (by simpa using h.caps) (by simpa using idle)
  case embStart => exact (h.startEmbedding passed).congr rfl rfl rfl
  case embFrame =>
    have progress : s.emb.state.inProgress = true := by simpa using passed _ List.mem_cons_self
    have room := State.capacity_pos_of_passed fun c hc => passed c (List.mem_cons_of_mem _ hc)
    exact (h.processFrame progress room).congr rfl rfl rfl
  case embEnd => exact .of_not_inProgress (by simpa using h.caps) s.endEmbedding_not_inProgress
  case qimEmb => exact h.congr (by simp) (by simp) (by simp [State.embedOffered])
  case extStart => exact h.congr (by simp) (by simp) (by simp [State.startExtraction])
  all_goals exact h.congr (by simp) (by simp) (by simp)

/-- R39: the host writes `PAY_BITS` outside an operation only. -/
theorem State.EmbedForm.access {s t : State} (k : s.HostKeeps t) (h : s.EmbedForm) : t.EmbedForm := by
  obtain ⟨a, b, hst⟩ := k.status
  obtain hemb | ⟨hidle, v, hemb⟩ := k.emb
  · exact h.congr k.caps hemb (by rw [hst])
  · exact .of_not_inProgress (by rw [k.caps]; exact h.caps) (by rw [hemb]; exact hidle)

/-- Settles O27, over the host's accesses and the rules of the commands. -/
theorem stepKeepsEmbedForm : Obligations.StepKeepsEmbedForm := by
  intro s t hs h
  refine step_preserves (P := State.EmbedForm) ?_ (State.hostStep_preserves ?_ ?_ ?_) ?_ ?_ hs h
  · exact fun s f v hs => hs.congr rfl rfl rfl
  · exact fun s v hs => (State.embedForm_resetWith hs.caps).congr rfl rfl rfl
  · exact fun s w hs => hs.congr rfl rfl rfl
  · exact fun s t k hs => hs.access k
  · exact fun s e info _ hs => hs.congr rfl rfl rfl
  · exact fun i s _ passed hs => hs.ruleOf i passed

/-! ### The extraction engine -/

theorem State.ExtractForm.congr {s t : State} (h : s.ExtractForm) (caps : t.caps = s.caps) (ext : t.ext = s.ext) :
    t.ExtractForm where
  caps := by rw [caps]; exact h.caps
  parsed := by rw [ext]; exact h.parsed
  fits := by rw [ext, caps]; exact h.fits
  header := by rw [ext]; exact h.header
  index := by rw [ext]; exact h.index
  observed := by rw [ext]; exact h.observed
  accumulating := by rw [ext]; exact h.accumulating
  collecting := by rw [ext]; exact h.collecting
  complete := by rw [ext]; exact h.complete

/-- R312: stopping the engine keeps its counts. -/
theorem State.ExtractForm.stopped {s : State} (h : s.ExtractForm) {e : ExtState} (he : e = .idle ∨ e = .failed) :
    (s.withExtState e).ExtractForm where
  caps := h.caps
  parsed := h.parsed
  fits := h.fits
  header := h.header
  index := h.index
  observed hs := by obtain rfl | rfl := he <;> exact ExtState.noConfusion hs
  accumulating hs := by obtain rfl | rfl := he <;> exact ExtState.noConfusion hs
  collecting hs := by obtain rfl | rfl := he <;> exact ExtState.noConfusion hs
  complete hs := by obtain rfl | rfl := he <;> exact hs.elim ExtState.noConfusion ExtState.noConfusion

/-- R311: Done follows Verifying, with every field parsed. -/
theorem State.ExtractForm.done {s : State} (h : s.ExtractForm) (hs : s.ext.state = .verifying) :
    (s.withExtState .done).ExtractForm where
  caps := h.caps
  parsed := h.parsed
  fits := h.fits
  header := h.header
  index := h.index
  observed hd := ExtState.noConfusion hd
  accumulating hd := ExtState.noConfusion hd
  collecting hd := ExtState.noConfusion hd
  complete _ := h.complete (.inl hs)

/-- R304: what the form says in the states that wait for bits is what the parser needs. -/
theorem State.ExtractForm.parserForm {s : State} (h : s.ExtractForm) (hs : s.ext.state.incomplete = true) :
    s.ext.ParserForm := by
  refine ⟨h.parsed, h.header, ?_⟩
  cases he : s.ext.state
  case accumulating => exact .inl ⟨rfl, h.accumulating he⟩
  case collecting => exact .inr (.inl ⟨rfl, h.collecting he⟩)
  all_goals simp [he, ExtState.incomplete] at hs

/-- What the parser leaves is what the form says. -/
theorem State.ExtractForm.of_parserForm {s : State} (caps : s.caps.wellFormed = true) (h : s.ext.ParserForm)
    (fits : s.ext.accBits.toNat ≤ s.caps.accBits.toNat) : s.ExtractForm := by
  obtain ⟨hs, hi, hh⟩ | ⟨hs, hi, hh⟩ | ⟨hs, hi⟩ := h.phase
  · exact ⟨caps, h.parsed, fits, h.header, by omega, by simp [hs], fun _ => ⟨hi, hh⟩, by simp [hs], by simp [hs]⟩
  · exact ⟨caps, h.parsed, fits, h.header, by omega, by simp [hs], by simp [hs], fun _ => ⟨hi, hh⟩, by simp [hs]⟩
  · exact ⟨caps, h.parsed, fits, h.header, by omega, by simp [hs], by simp [hs], by simp [hs], fun _ => hi⟩

/-- R301: a frame taken counts its bits and itself, and is parsed. -/
theorem State.takeFrame_ext (s : State) :
    ∃ u : State, s.takeFrame.ext = (u.parseLoop 14).ext ∧
      u.ext = { s.ext with
        accBits := BitVec.ofNat 32 (s.ext.accBits.toNat + s.capacity), frames := s.ext.frames + 1#32 } := by
  refine ⟨(s.frameExtract.2.withExt
    { s.frameExtract.2.ext with
      accBits := BitVec.ofNat 32 (s.frameExtract.2.ext.accBits.toNat + s.frameExtract.1)
      frames := s.frameExtract.2.ext.frames + 1#32 }).withFrmBits (BitVec.ofNat 32 s.frameExtract.1), ?_, ?_⟩
  · simp only [State.takeFrame, State.withStatus_ext]
  · simp [State.frameExtract_count]

/-- R301, R304: a frame whose bits fit the accumulator keeps the form. -/
theorem State.ExtractForm.takeFrame {s : State} (h : s.ExtractForm) (hs : s.ext.state.incomplete = true)
    (room : s.ext.accBits.toNat + s.capacity ≤ s.caps.accBits.toNat) : s.takeFrame.ExtractForm := by
  obtain ⟨u, hext, hu⟩ := s.takeFrame_ext
  have hacc : u.ext.accBits.toNat = s.ext.accBits.toNat + s.capacity := by
    have := s.caps.accBits.isLt
    rw [hu, BitVec.toNat_ofNat, Nat.mod_eq_of_lt (by omega)]
  have hform : u.ext.ParserForm := by
    obtain ⟨hp, hh, hphase⟩ := h.parserForm hs
    refine ⟨?_, ?_, ?_⟩
    · have : u.ext.prsCursor = s.ext.prsCursor := by rw [hu]
      rw [hacc, this]
      omega
    · rw [hu]; exact hh
    · rw [hu]; exact hphase
  obtain ⟨hloop, hbits, -, -⟩ := u.parseLoop_form 14 hform
  refine .of_parserForm (by simpa using h.caps) (by rwa [hext]) ?_
  rw [hext, hbits, hacc]
  simpa using room

/-- R301 to R303: `EXT_FRAME` in the states that take a frame. -/
theorem State.ExtractForm.receiveFrame {s : State} (h : s.ExtractForm) (takes : s.ext.state.takesFrame = true) :
    s.receiveFrame.ExtractForm := by
  unfold State.receiveFrame
  split_ifs with hv hfull
  · exact h.congr rfl rfl
  · exact (h.stopped (.inr rfl)).congr rfl rfl
  · have hs : s.ext.state.incomplete = true := by
      cases he : s.ext.state
      case accumulating => rfl
      case collecting => rfl
      case verifying => exact absurd he hv
      all_goals simp [he, ExtState.takesFrame] at takes
    exact (h.takeFrame hs (Nat.le_of_not_lt hfull)).congr rfl rfl

/-- R306: `EXT_END` stops the engine or leaves it. -/
theorem State.ExtractForm.endExtraction {s : State} (h : s.ExtractForm) : s.endExtraction.ExtractForm := by
  unfold State.endExtraction
  split
  · exact (h.stopped (.inr rfl)).congr rfl rfl
  · exact h.congr rfl rfl

/-- R308, R311: `EXT_VERIFY` leads from Verifying to Done or Failed. -/
theorem State.ExtractForm.verify {s : State} (h : s.ExtractForm) (hs : s.ext.state = .verifying) (X : Crypto)
    (d : Nat) : (s.verify X d).ExtractForm := by
  have failed := h.stopped (e := .failed) (.inr rfl)
  refine State.verify_ends (C := fun u => u.caps = s.caps ∧ u.ext = s.ext) X s d ?_ ?_ ?_ ?_ ?_
  · exact failed.congr (by simp) (by simp)
  · exact fun Q n => by simp
  · exact fun u hu => by simpa using hu
  · exact fun u e ⟨hc, hx⟩ => failed.congr (by simpa using hc) (by simp [State.rejectPlaintext, State.withExtState, hx])
  · exact fun u pt ⟨hc, hx⟩ =>
      (h.done hs).congr (by simpa using hc) (by simp [State.releasePlaintext, State.withExtState, hx])

/-- R312: every command keeps the form; only those of the engine, `SOFT_RESET` and `ABORT` touch it. -/
theorem State.ExtractForm.ruleOf {s : State} (h : s.ExtractForm) (i : Instr)
    (passed : ∀ c ∈ checksOf i s, c.failed = false) : (ruleOf i s).ExtractForm := by
  cases i <;> simp only [Machine.ruleOf]
  case softReset => exact (State.extractForm_resetWith h.caps).congr rfl rfl
  case abort => exact (h.stopped (.inl rfl)).congr rfl rfl
  case extStart =>
    exact
      { caps := h.caps, parsed := Nat.le_refl 0, fits := Nat.zero_le _, header := Nat.le_refl 0, index := Nat.zero_le 14
        observed := ExtState.noConfusion, accumulating := fun _ => ⟨Nat.zero_le 12, rfl⟩
        collecting := fun hs => absurd hs ExtState.noConfusion
        complete := fun hs => hs.elim (absurd · ExtState.noConfusion) (absurd · ExtState.noConfusion) }
  case extFrame => exact h.receiveFrame (by simpa using passed _ List.mem_cons_self)
  case extEnd => exact h.endExtraction
  case extVerify => exact h.verify (by simpa using passed _ List.mem_cons_self) _ _
  all_goals exact h.congr (by simp) (by simp)

/-- Settles O28, over the host's accesses and the rules of the commands. -/
theorem stepKeepsExtractForm : Obligations.StepKeepsExtractForm := by
  intro s t hs h
  refine step_preserves (P := State.ExtractForm) ?_ (State.hostStep_preserves ?_ ?_ ?_) ?_ ?_ hs h
  · exact fun s f v hs => hs.congr rfl rfl
  · exact fun s v hs => (State.extractForm_resetWith hs.caps).congr rfl rfl
  · exact fun s w hs => hs.congr rfl rfl
  · exact fun s t k hs => hs.congr k.caps k.ext
  · exact fun s e info _ hs => hs.congr rfl rfl
  · exact fun i s _ passed hs => hs.ruleOf i passed

end Sys2Proof.Machine
end

section
/-! The proofs of the family `10_state.md`, what the commands write: the memories of each command and the parameter
registers. -/

namespace Sys2Proof.Machine

/-! ### The bytes that the rules of the commands leave alone -/

/-- A state whose memories are those of another after a write of bytes reads alike in every other memory. -/
theorem State.readByte_of_writeBytes {s t : State} {sp sp' : Space} {a : Nat} {bs : List Byte} (caps : t.caps = s.caps)
    (mems : t.mems = (s.writeBytes sp' a bs).mems) (free : t.free = s.free) (h : sp ≠ sp') (a' : Nat) :
    t.readByte sp a' = s.readByte sp a' := by
  rw [← s.readByte_writeBytes_other bs fun hc : sp = sp' ∧ a ≤ a' ∧ a' < a + bs.length => h hc.1]
  exact State.readByte_congr (by simpa using caps) mems (by simpa using free) sp a'

/-- R134: `B2B` writes `PT` only. -/
theorem State.readByte_convertRange_other (s : State) {sp : Space} (a : Nat) (h : sp ≠ .pt) :
    s.convertRange.readByte sp a = s.readByte sp a :=
  State.readByte_of_writeBytes (a := 0) (bs := s.accBytes s.range.start.toNat (s.range.len.toNat / 8)) (by simp)
    (by simp [State.convertRange]) (by simp) h a

/-- R256: `PAY_SER` writes `PAY` only. -/
theorem State.readByte_serialize_other (s : State) {sp : Space} (a : Nat) (h : sp ≠ .pay) :
    s.serialize.readByte sp a = s.readByte sp a :=
  State.readByte_of_writeBytes (a := 0) (bs := s.payload) (by simp) (by simp [State.serialize]) (by simp) h a

/-- R170: the public key goes to `FLD`. -/
theorem State.readByte_publishKey_other (s : State) (d : Nat) {sp : Space} (a : Nat) (h : sp ≠ .fld) :
    (s.publishKey d).readByte sp a = s.readByte sp a :=
  State.readByte_of_writeBytes (a := 0x000) (bs := compress (pmul d P256.G)) (by simp) (by simp [State.publishKey])
    (by simp) h a

/-- R171: `ENV_SEAL` writes `FLD` and `CT` only. -/
theorem State.readByte_seal_other (s : State) (X : Crypto) (d : Nat) (Q : Point) {sp : Space} (a : Nat) (hf : sp ≠ .fld)
    (hc : sp ≠ .ct) : (s.seal X d Q).readByte sp a = s.readByte sp a := by
  have cipher (u : State) (ct : List Byte) : (u.storeCiphertext ct).readByte sp a = u.readByte sp a :=
    State.readByte_of_writeBytes (a := 0) (bs := ct) (by simp) (by simp [State.storeCiphertext]) (by simp) hc a
  have tag (u : State) (v : BitVec 128) : (u.storeTag v).readByte sp a = u.readByte sp a :=
    State.readByte_of_writeBytes (a := 0x400) (bs := beBytes v.toNat 16) (by simp) (by simp [State.storeTag]) (by simp)
      hf a
  have hash (u : State) (v : BitVec 256) : (u.storeHash v).readByte sp a = u.readByte sp a :=
    State.readByte_of_writeBytes (a := 0x200) (bs := beBytes v.toNat 32) (by simp) (by simp [State.storeHash]) (by simp)
      hf a
  have clear (u : State) : u.clearSecrets.readByte sp a = u.readByte sp a :=
    State.readByte_congr (by simp) (by simp) (by simp) sp a
  have derive (u : State) : (u.deriveKey X d Q 16).readByte sp a = u.readByte sp a :=
    State.readByte_congr (by simp) (by simp) (by simp) sp a
  unfold State.seal
  dsimp only
  rw [clear, hash, tag, cipher, derive, s.readByte_publishKey_other d a hf]

/-- R283: the copy of the input frame goes to `REF`. -/
theorem State.readByte_keepReference_other (s : State) {sp : Space} (a : Nat) (h : sp ≠ .ref) :
    s.keepReference.readByte sp a = s.readByte sp a := by
  unfold State.keepReference
  split
  · rfl
  · exact State.readByte_of_writeBytes (a := 0) (bs := s.readBytes .frame 0 (s.frmW * s.frmH)) (by simp) (by simp)
      (by simp) h a

/-- R281: the embedding of one frame writes `FRAME` only. -/
theorem State.readByte_embedFrame_other (s : State) {sp : Space} (a : Nat) (h : sp ≠ .frame) :
    s.embedFrame.readByte sp a = s.readByte sp a :=
  (State.readByte_congr (by simp) (by simp [State.embedFrame, State.frameEmbed]) (by simp) sp a).trans
    (readByte_frameEmbedLoop_other s.emb.cursor.toNat (s.emb.payBits.toNat - s.emb.cursor.toNat) s.frameBlocks 0 s sp a
      fun _ _ _ _ hc => h hc.1)

/-- R281, R283: `EMB_FRAME` writes `FRAME` and `REF` only. -/
theorem State.readByte_processFrame_other (s : State) {sp : Space} (a : Nat) (hf : sp ≠ .frame) (hr : sp ≠ .ref) :
    s.processFrame.readByte sp a = s.readByte sp a := by
  rw [← s.readByte_keepReference_other a hr]
  unfold State.processFrame
  dsimp only
  split
  · exact State.readByte_congr (by simp) (by simp) (by simp) sp a
  · rw [← s.keepReference.readByte_embedFrame_other a hf]
    exact State.readByte_congr (by simp) (by simp) (by simp) sp a

/-- R301: `EXT_FRAME` writes `ACC` and `FLD` only. -/
theorem State.readByte_receiveFrame_other (s : State) {sp : Space} (a : Nat) (ha : sp ≠ .acc) (hf : sp ≠ .fld) :
    s.receiveFrame.readByte sp a = s.readByte sp a := by
  have take : s.takeFrame.readByte sp a = s.readByte sp a := by
    rw [← readByte_frameExtractLoop_other s.frameBlocks s.ext.accBits.toNat s a ha]
    unfold State.takeFrame
    dsimp only
    refine (State.readByte_congr (State.withStatus_caps _ _) (State.withStatus_mems _ _) (State.withStatus_free _ _)
      sp a).trans ?_
    rw [State.readByte_parseLoop_other _ _ _ hf]
    exact State.readByte_congr (by simp [State.frameExtract]) (by simp [State.frameExtract])
      (by simp [State.frameExtract]) sp a
  unfold State.receiveFrame
  split_ifs
  · rfl
  · rfl
  · exact take

/-- R308: `EXT_VERIFY` writes `PT` only. -/
theorem State.readByte_verify_other (s : State) (X : Crypto) (d : Nat) {sp : Space} (a : Nat) (h : sp ≠ .pt) :
    (s.verify X d).readByte sp a = s.readByte sp a := by
  refine State.verify_ends (C := fun u => u.readByte sp a = s.readByte sp a)
    (P := fun u => u.readByte sp a = s.readByte sp a) X s d ?_ ?_ ?_ ?_ ?_
  · rfl
  · exact fun Q n => State.readByte_congr (by simp) (by simp) (by simp) sp a
  · exact fun u hu => hu
  · exact fun u e hu => hu
  · exact fun u pt hu => (State.readByte_of_writeBytes (a := 0) (bs := pt) (by simp) (by simp [State.releasePlaintext])
      (by simp) h a).trans hu

/-- R70: the rule of a command leaves every memory outside its row alone. -/
theorem readByte_ruleOf_other {i : Instr} {sp : Space} (h : ¬WritesSpace i sp) (s : State) (a : Nat) :
    (ruleOf i s).readByte sp a = s.readByte sp a := by
  cases i <;> simp only [ruleOf, WritesSpace, not_or, State.readByte_endOk] at h ⊢
  case b2b => exact s.readByte_convertRange_other a h
  case ecPub => exact s.readByte_publishKey_other _ a h
  case envSeal => exact s.readByte_seal_other _ _ _ a h.1 h.2
  case blkSt => exact s.readByte_storePixels_other _ _ 64 sp a fun _ _ hc => h hc.1
  case paySer => exact s.readByte_serialize_other a h
  case embFrame => exact s.readByte_processFrame_other a h.1 h.2
  case extFrame => exact s.readByte_receiveFrame_other a h.1 h.2
  case extVerify => exact s.readByte_verify_other _ _ a h
  all_goals exact State.readByte_congr (by simp) (by simp) (by simp) sp a

/-- Settles O31: a refusal writes the error registers only, a rule what its row names. -/
theorem commandsLeaveTheRest : Obligations.CommandsLeaveTheRest := by
  constructor
  · intro i s t sp a hsp ht
    obtain ⟨c, -, -, -, rfl⟩ | ⟨-, rfl⟩ := exec_cases ht
    · rfl
    · exact readByte_ruleOf_other hsp s a
  · intro i s t hi ht
    obtain ⟨c, -, -, -, rfl⟩ | ⟨-, rfl⟩ := exec_cases ht
    · exact ⟨rfl, rfl, rfl, rfl, rfl, rfl, rfl⟩
    · exact ruleOf_parameters hi s

end Sys2Proof.Machine
end

section
/-! The proofs of the family `10_state.md`, the register map: what stands at each offset, which accesses are performed,
and what a host read returns. -/

namespace Sys2Proof.Machine

/-! ### The register map -/

/-- Every scalar register is at its offset. -/
theorem regAt_of_mem : ∀ p ∈ scalarRegs, regAt p.1 = p.2 := by decide

/-- R20: what stands at an offset: an element of a register file, a scalar register, or nothing. -/
theorem regAt_cases (o : Nat) :
    (0x0E0 ≤ o ∧ o < 0x100 ∧ regAt o = .priv ((o - 0x0E0) / 4))
      ∨ (0x100 ≤ o ∧ o < 0x200 ∧ regAt o = .pix ((o - 0x100) / 4))
      ∨ (0x200 ≤ o ∧ o < 0x300 ∧ regAt o = .coef ((o - 0x200) / 4)) ∨ (o, regAt o) ∈ scalarRegs
      ∨ regAt o = .reserved := by
  unfold regAt
  split_ifs with hpriv hpix hcoef
  · exact .inl ⟨hpriv.1, hpriv.2, rfl⟩
  · exact .inr (.inl ⟨hpix.1, hpix.2, rfl⟩)
  · exact .inr (.inr (.inl ⟨hcoef.1, hcoef.2, rfl⟩))
  · cases h : scalarRegs.lookup o with
    | none => exact .inr (.inr (.inr (.inr rfl)))
    | some r =>
      obtain ⟨l₁, l₂, hl, -⟩ := List.lookup_eq_some_iff.1 h
      exact .inr (.inr (.inr (.inl (by rw [hl]; simp))))

/-- No scalar register is an element of a register file. -/
theorem scalarRegs_scalar :
    ∀ p ∈ scalarRegs, (∀ i, p.2 ≠ .priv i ∧ p.2 ≠ .pix i ∧ p.2 ≠ .coef i) ∧ p.2 ≠ .reserved := by simp [scalarRegs]

/-- R20: a scalar register is at its offset and at no other. -/
theorem regAt_eq_iff {k o : Nat} {r : Reg} (h : (k, r) ∈ scalarRegs) : regAt o = r ↔ o = k := by
  refine ⟨fun hr => ?_, fun ho => ho ▸ regAt_of_mem _ h⟩
  obtain ⟨hfile, hres⟩ := scalarRegs_scalar _ h
  obtain ⟨-, -, hx⟩ | ⟨-, -, hx⟩ | ⟨-, -, hx⟩ | hx | hx := regAt_cases o
  · exact absurd (hr.symm.trans hx) (hfile _).1
  · exact absurd (hr.symm.trans hx) (hfile _).2.1
  · exact absurd (hr.symm.trans hx) (hfile _).2.2
  · have distinct : (scalarRegs.map Prod.snd).Nodup := by decide
    exact congrArg Prod.fst (List.inj_on_of_nodup_map distinct hx h hr)
  · exact absurd (hr.symm.trans hx) hres

/-- R23, R39, R52: the offsets of the registers whose writes do more than store. -/
theorem regAt_eq_cmd_iff {o : Nat} : regAt o = .cmd ↔ o = 0x008 := regAt_eq_iff (by decide)

theorem regAt_eq_payBits_iff {o : Nat} : regAt o = .payBits ↔ o = 0x07C := regAt_eq_iff (by decide)

theorem regAt_eq_memData_iff {o : Nat} : regAt o = .memData ↔ o = 0x0D8 := regAt_eq_iff (by decide)

/-- R87: the offsets that are read while a command runs. -/
theorem readableWhileBusy_regAt_iff {o : Nat} :
    (regAt o).readableWhileBusy = true ↔
      o ∈ [0x000, 0x004, 0x00C, 0x010, 0x014, 0x018, 0x01C, 0x020, 0x028, 0x02C, 0x030, 0x034, 0x038] := by
  have only : ∀ p ∈ scalarRegs, p.2.readableWhileBusy = true →
      p.1 ∈ [0x000, 0x004, 0x00C, 0x010, 0x014, 0x018, 0x01C, 0x020, 0x028, 0x02C, 0x030, 0x034, 0x038] := by decide
  have all : ∀ o ∈ [0x000, 0x004, 0x00C, 0x010, 0x014, 0x018, 0x01C, 0x020, 0x028, 0x02C, 0x030, 0x034, 0x038],
      (regAt o).readableWhileBusy = true := by decide
  refine ⟨fun h => ?_, all o⟩
  obtain ⟨-, -, hr⟩ | ⟨-, -, hr⟩ | ⟨-, -, hr⟩ | hr | hr := regAt_cases o
  case inr.inr.inr.inl => exact only _ hr h
  all_goals simp [hr, Reg.readableWhileBusy] at h

/-! ### Accesses that are performed -/

theorem performed_iff {width : Width} {offset : BitVec 12} :
    performed width offset = true ↔ width = .w32 ∧ offset.toNat % 4 = 0 := by
  simp [performed]

/-- R75: what is not performed. -/
theorem performed_eq_false_iff {width : Width} {offset : BitVec 12} :
    performed width offset = false ↔ width ≠ .w32 ∨ offset.toNat % 4 ≠ 0 := by
  rw [← Bool.not_eq_true, performed_iff, Decidable.not_and_iff_or_not]

theorem State.hostRead_refused {s : State} {width : Width} {offset : BitVec 12}
    (h : width ≠ .w32 ∨ offset.toNat % 4 ≠ 0) : s.hostRead width offset = (0#32, s.hostError) := by
  simp only [State.hostRead, performed_eq_false_iff.2 h, if_true]

theorem State.hostRead_idle {s : State} {offset : BitVec 12} (busy : s.status.busy = false)
    (aligned : offset.toNat % 4 = 0) (h : offset ≠ 0x0D8#12) :
    s.hostRead .w32 offset = (s.regValue (regAt offset.toNat), s) := by
  have hreg : regAt offset.toNat ≠ .memData := fun hr => h (BitVec.eq_of_toNat_eq (regAt_eq_memData_iff.1 hr))
  simp [State.hostRead, performed_iff.2 ⟨rfl, aligned⟩, busy, hreg]

theorem State.hostRead_memData {s : State} (busy : s.status.busy = false) :
    s.hostRead .w32 0x0D8#12 = s.readPort := by
  have hreg : regAt (0x0D8#12).toNat = .memData := rfl
  have hp : performed .w32 0x0D8#12 = true := rfl
  simp only [State.hostRead, hp, hreg, busy]
  rfl

theorem State.hostRead_busy {s : State} {offset : BitVec 12} (busy : s.status.busy = true)
    (aligned : offset.toNat % 4 = 0) :
    s.hostRead .w32 offset =
      if (regAt offset.toNat).readableWhileBusy then (s.regValue (regAt offset.toNat), s) else (0#32, s.hostError) := by
  simp [State.hostRead, performed_iff.2 ⟨rfl, aligned⟩, busy]

theorem State.hostWrite_refused {s : State} {width : Width} {offset : BitVec 12} {w : Word}
    (h : width ≠ .w32 ∨ offset.toNat % 4 ≠ 0) : s.hostWrite width offset w = s.hostError := by
  simp only [State.hostWrite, performed_eq_false_iff.2 h, true_or, if_true]

theorem State.hostWrite_idle {s : State} {offset : BitVec 12} {w : Word} (busy : s.status.busy = false)
    (aligned : offset.toNat % 4 = 0) : s.hostWrite .w32 offset w = s.writeReg (regAt offset.toNat) w := by
  simp [State.hostWrite, performed_iff.2 ⟨rfl, aligned⟩, busy]

/-! ### Register contents as words -/

theorem flagBit_eq_ofNat (b : Bool) (i : Nat) : flagBit b i = BitVec.ofNat 32 (2 ^ i * b.toNat) := by
  cases b
  · simp [flagBit]
  · apply BitVec.eq_of_toNat_eq
    simp [flagBit, Nat.shiftLeft_eq]

/-- A flag above the bits so far adds its weight. -/
theorem ofNat_or_flagBit {n i : Nat} (h : n < 2 ^ i) (b : Bool) :
    BitVec.ofNat 32 n ||| flagBit b i = BitVec.ofNat 32 (n + 2 ^ i * b.toNat) := by
  rw [flagBit_eq_ofNat, ← BitVec.ofNat_or, Nat.or_comm, ← Nat.two_pow_add_eq_or_of_lt h, Nat.add_comm]

/-- R24: each flag of `STATUS` has the weight of its bit. -/
theorem Status.word_eq (st : Status) :
    st.word = BitVec.ofNat 32
      (st.busy.toNat + 2 * st.done.toNat + 4 * st.err.toNat + 8 * st.needMore.toNat + 16 * st.skipped.toNat
        + 32 * st.passthru.toNat + 64 * st.integrity.toNat + 128 * st.sat.toNat + 256 * st.hosterr.toNat
        + 512 * st.refValid.toNat) := by
  have h0 := st.busy.toNat_le
  have h1 := st.done.toNat_le
  have h2 := st.err.toNat_le
  have h3 := st.needMore.toNat_le
  have h4 := st.skipped.toNat_le
  have h5 := st.passthru.toNat_le
  have h6 := st.integrity.toNat_le
  have h7 := st.sat.toNat_le
  have h8 := st.hosterr.toNat_le
  rw [Status.word, flagBit_eq_ofNat st.busy, ofNat_or_flagBit, ofNat_or_flagBit, ofNat_or_flagBit, ofNat_or_flagBit,
    ofNat_or_flagBit, ofNat_or_flagBit, ofNat_or_flagBit, ofNat_or_flagBit, ofNat_or_flagBit]
  · simp
  all_goals omega

theorem Ctrl.word_eq (c : Ctrl) :
    c.word = BitVec.ofNat 32 (c.ieDone.toNat + 2 * c.ieErr.toNat + 4 * c.hashFatal.toNat) := by
  have h0 := c.ieDone.toNat_le
  have h1 := c.ieErr.toNat_le
  rw [Ctrl.word, flagBit_eq_ofNat c.ieDone, ofNat_or_flagBit, ofNat_or_flagBit]
  · simp
  all_goals omega

theorem IntPend.word_eq (p : IntPend) : p.word = BitVec.ofNat 32 (p.done.toNat + 2 * p.err.toNat) := by
  have h0 := p.done.toNat_le
  rw [IntPend.word, flagBit_eq_ofNat p.done, ofNat_or_flagBit]
  · simp
  all_goals omega

/-! ### The contents of the registers by offset -/

/-- One entry of a table looked up. -/
theorem getD_lookup_cons {β : Type} (p : Nat × β) (l : List (Nat × β)) (o : Nat) (d : β) :
    ((p :: l).lookup o).getD d = if o = p.1 then p.2 else (l.lookup o).getD d := by
  rw [List.lookup_cons]
  by_cases h : o = p.1
  · simp [h]
  · simp [beq_false_of_ne h, h]

/-- Values of a table looked up. -/
theorem getD_lookup_map {α β : Type} (f : α → β) (d : α) (l : List (Nat × α)) (o : Nat) :
    ((l.map fun p => (p.1, f p.2)).lookup o).getD (f d) = f ((l.lookup o).getD d) := by
  induction l with
  | nil => rfl
  | cons p l ih =>
    rw [List.map_cons, getD_lookup_cons, getD_lookup_cons, ih]
    split <;> rfl

/-- An entry that holds the default can be left out of a table, if no later entry has its key. -/
theorem getD_lookup_insert_default {β : Type} {d : β} {k : Nat} (a : List (Nat × β)) {b : List (Nat × β)}
    (hk : ∀ p ∈ b, p.1 ≠ k) (o : Nat) : ((a ++ (k, d) :: b).lookup o).getD d = ((a ++ b).lookup o).getD d := by
  induction a with
  | nil =>
    rw [List.nil_append, List.nil_append, getD_lookup_cons]
    split
    · next h =>
      have hb : b.lookup o = none := List.lookup_eq_none_iff.2 fun p hp => by
        simpa [h] using (hk p hp).symm
      rw [hb]
      rfl
    · rfl
  | cons p a ih => rw [List.cons_append, List.cons_append, getD_lookup_cons, getD_lookup_cons, ih]

/-- The contents of R20 to R53 in the order of the register map, `CMD` and `MEM_DATA` put in. -/
theorem scalarRegs_map_regValue (s : State) :
    (scalarRegs.map fun p => (p.1, s.regValue p.2))
      = (scalarContents s).take 2 ++ (0x008, 0#32) :: ((scalarContents s).drop 2 ++ [(0x0D8, 0#32)]) := by
  simp [scalarRegs, scalarContents, State.regValue, Status.word_eq, Ctrl.word_eq, IntPend.word_eq, BitVec.ofNat_toNat]
  cases s.emb.state <;> cases s.ext.state <;> simp [EmbState.code, ExtState.code]

/-- R20: the contents of an offset are the value of the register there. -/
theorem registerContents_eq_regValue (s : State) (o : Nat) : registerContents s o = s.regValue (regAt o) := by
  have scalar : ((scalarContents s).lookup o).getD 0#32 = s.regValue ((scalarRegs.lookup o).getD .reserved) := by
    have hmap := getD_lookup_map s.regValue .reserved scalarRegs o
    rw [scalarRegs_map_regValue] at hmap
    rw [← hmap]
    change _ = Option.getD _ 0#32
    rw [getD_lookup_insert_default, ← List.append_assoc, List.take_append_drop, getD_lookup_insert_default,
      List.append_nil]
    · simp
    · simp [scalarContents]
  unfold registerContents regAt
  split_ifs with hpix hpriv hcoef
  · omega
  · simp [State.regValue, State.pixAt, BitVec.ofNat_toNat]
  · omega
  · rfl
  · have none : (scalarContents s).lookup o = none :=
      List.lookup_eq_none_iff.2 (by simp [scalarContents]; omega)
    rw [none]
    rfl
  · exact scalar

/-- Settles O15: the value of the register at the offset is its contents, and the offsets read while busy are R87's. -/
theorem busyReadsOnlyTheStatusGroup : Obligations.BusyReadsOnlyTheStatusGroup := by
  intro s offset aligned
  constructor
  · intro busy
    rw [State.hostRead_busy busy aligned, registerContents_eq_regValue]
    simp only [readableWhileBusy_regAt_iff]
    rfl
  · intro idle hne
    rw [State.hostRead_idle idle aligned hne, registerContents_eq_regValue]

end Sys2Proof.Machine
end

section
/-! The proofs of the family `10_state.md`, the host's accesses: the memory port, the refusals, the locked payload, the
submission of a command, the interrupt, `PRIV` and the reset values. -/

namespace Sys2Proof.Machine

/-! ### The memory port -/

theorem State.portTarget_eq_some_iff {s : State} {sp : Space} :
    s.portTarget = some sp ↔ selectedSpace s.port.sel = some sp ∧ s.port.addr.toNat < memSize s.caps sp := by
  simp [State.portTarget, Option.filter_eq_some_iff]

theorem State.portTarget_eq_none_iff {s : State} :
    s.portTarget = none ↔ ∀ sp, selectedSpace s.port.sel = some sp → memSize s.caps sp ≤ s.port.addr.toNat := by
  simp [State.portTarget, Option.filter_eq_none_iff]

theorem State.readPort_of_target {s : State} {sp : Space} (h : s.portTarget = some sp) :
    s.readPort = ((s.readByte sp s.port.addr.toNat).setWidth 32, s.bumpAddr) := by
  simp only [State.readPort, h]

theorem State.readPort_of_none {s : State} (h : s.portTarget = none) : s.readPort = (0#32, s.hostError.bumpAddr) := by
  simp only [State.readPort, h]

theorem State.writePort_of_target {s : State} {sp : Space} (h : s.portTarget = some sp)
    (writable : s.hostWritable sp = true) (w : Word) :
    s.writePort w = (s.writeByte sp s.port.addr.toNat (w.setWidth 8)).bumpAddr := by
  have hsome : s.portTarget.filter s.hostWritable = some sp := Option.filter_eq_some_iff.2 ⟨h, writable⟩
  simp only [State.writePort, hsome]

theorem State.writePort_refused {s : State} (h : ∀ sp, s.portTarget = some sp → s.hostWritable sp = false) (w : Word) :
    s.writePort w = s.hostError.bumpAddr := by
  have hnone : s.portTarget.filter s.hostWritable = none := Option.filter_eq_none_iff.2 fun sp hsp => by simp [h sp hsp]
  simp only [State.writePort, hnone]

/-- R52, R70: the memories that the host may write. -/
theorem State.hostWritable_iff {s : State} {sp : Space} :
    s.hostWritable sp = true ↔
      sp = .frame ∨ sp = .fld ∨ sp = .ct ∨ sp = .pt ∨ (sp = .pay ∧ s.emb.state.inProgress = false) := by
  cases sp <;> simp [State.hostWritable]

/-- R52, R70: the memories that the host may not write. -/
theorem State.hostWritable_eq_false_iff {s : State} {sp : Space} :
    s.hostWritable sp = false ↔ sp = .ref ∨ sp = .acc ∨ (sp = .pay ∧ s.emb.state.inProgress = true) := by
  cases sp <;> simp [State.hostWritable]

theorem State.hostWrite_memData {s : State} (busy : s.status.busy = false) (w : Word) :
    s.hostWrite .w32 0x0D8#12 w = s.writePort w := State.hostWrite_idle busy rfl

/-- R52: a write through the port and `MEM_ADDR` put back: the port reads the byte back. -/
theorem State.readPort_writePort {s : State} {sp : Space} (busy : s.status.busy = false) (h : s.portTarget = some sp)
    (writable : s.hostWritable sp = true) (w : Word) :
    ((s.writePort w).hostWrite .w32 0x0D4#12 s.port.addr).hostRead .w32 0x0D8#12
      = ((w.setWidth 8).setWidth 32, s.writePort w) := by
  have hin := (State.portTarget_eq_some_iff.1 h).2
  have hwrite := State.writePort_of_target h writable w
  have hbyte := s.readByte_writeByte_same sp s.port.addr.toNat (w.setWidth 8) hin
  generalize ht : s.writeByte sp s.port.addr.toNat (w.setWidth 8) = t at hwrite hbyte
  have idle : t.status.busy = false := ht ▸ busy
  have target : t.portTarget = some sp := ht ▸ h
  have addr : t.port.addr = s.port.addr := ht ▸ rfl
  have hback : (s.writePort w).hostWrite .w32 0x0D4#12 s.port.addr = t := by
    rw [hwrite, ← addr]
    exact State.hostWrite_idle (s := t.bumpAddr) idle rfl
  rw [hback, State.hostRead_memData idle, State.readPort_of_target target, hwrite, addr, hbyte]

/-- Settles O16: the port's target is the selected memory's byte at `MEM_ADDR`; a write stores to it or to nothing. -/
theorem memoryPortReadsAndWritesBytes : Obligations.MemoryPortReadsAndWritesBytes := by
  refine ⟨by decide, fun c => ⟨rfl, rfl, rfl, ?_, rfl, rfl, rfl⟩, fun s sp busy hsel hin => ?_,
    fun s sp w busy hsel hin hw => ?_, fun s w busy => ⟨fun h => ?_, fun h => ?_⟩⟩
  · simp only [memSize]
    omega
  · rw [State.hostRead_memData busy, State.readPort_of_target (State.portTarget_eq_some_iff.2 ⟨hsel, hin⟩)]
    rfl
  · have target := State.portTarget_eq_some_iff.2 ⟨hsel, hin⟩
    have writable := State.hostWritable_iff.2 hw
    rw [State.hostWrite_memData busy, State.readPort_writePort busy target writable,
      State.writePort_of_target target writable]
    exact ⟨s.readByte_writeByte_same sp _ _ hin, fun sp' a hne => s.readByte_writeByte_other _ hne, rfl, rfl⟩
  · rw [State.hostRead_memData busy, State.readPort_of_none (State.portTarget_eq_none_iff.2 h)]
    rfl
  · rw [State.hostWrite_memData busy, State.writePort_refused fun sp hsp => ?_]
    · rfl
    · obtain ⟨hsel, hin⟩ := State.portTarget_eq_some_iff.1 hsp
      exact State.hostWritable_eq_false_iff.2 ((h sp hsel).resolve_left (Nat.not_le_of_lt hin))

/-! ### What the accesses leave alone -/

@[simp] theorem State.readPort_mems (s : State) : s.readPort.2.mems = s.mems := by
  unfold State.readPort
  split <;> rfl

@[simp] theorem State.hostRead_mems (s : State) (width : Width) (offset : BitVec 12) :
    (s.hostRead width offset).2.mems = s.mems := by
  unfold State.hostRead
  dsimp only
  split_ifs <;> simp

/-- R52: of the registers, the data window alone gives a way into the memories. -/
theorem State.writeReg_mems (s : State) {r : Reg} (h : r ≠ .memData) (w : Word) : (s.writeReg r w).mems = s.mems := by
  cases r
  case memData => exact absurd rfl h
  case payBits =>
    simp only [State.writeReg]
    split <;> simp
  all_goals simp [State.writeReg]

/-- R89: of the registers, `STATUS` can clear `HOSTERR`, and only the data window and a locked `PAY_BITS` can set it. -/
theorem State.writeReg_hosterr {s : State} {r : Reg} (clear : s.status.hosterr = false) (hm : r ≠ .memData)
    (hp : r ≠ .payBits) (w : Word) : (s.writeReg r w).status.hosterr = false := by
  cases r
  case memData => exact absurd rfl hm
  case payBits => exact absurd rfl hp
  case status => simp [State.writeReg, Status.hostClear, clear]
  case cmd => exact clear
  all_goals simp [State.writeReg, clear]

/-- R89: when the port refuses a write. -/
theorem State.writePort_hosterr_iff {s : State} (clear : s.status.hosterr = false) (w : Word) :
    (s.writePort w).status.hosterr = true ↔ ∀ sp, s.portTarget = some sp → s.hostWritable sp = false := by
  constructor
  · intro h sp hsp
    by_contra hw
    rw [State.writePort_of_target hsp (by simpa using hw)] at h
    exact Bool.false_ne_true (clear.symm.trans h)
  · intro h
    rw [State.writePort_refused h]
    rfl

/-- R89: when the port refuses a read. -/
theorem State.readPort_hosterr_iff {s : State} (clear : s.status.hosterr = false) :
    s.readPort.2.status.hosterr = true ↔ s.portTarget = none := by
  constructor
  · intro h
    by_contra hne
    obtain ⟨sp, hsp⟩ := Option.ne_none_iff_exists'.1 hne
    rw [State.readPort_of_target hsp] at h
    exact Bool.false_ne_true (clear.symm.trans h)
  · intro h
    rw [State.readPort_of_none h]
    rfl

/-- R39, R89: when a write to `PAY_BITS` is refused. -/
theorem State.writeReg_payBits_hosterr_iff {s : State} (clear : s.status.hosterr = false) (w : Word) :
    (s.writeReg .payBits w).status.hosterr = true ↔ s.emb.state.inProgress = true := by
  simp only [State.writeReg]
  split
  · next h => exact ⟨fun _ => h, fun _ => rfl⟩
  · next h => exact ⟨fun hc => absurd (clear.symm.trans hc) Bool.false_ne_true, fun hc => absurd hc h⟩

/-- Settles O18: an access that is not performed, or one of the two registers that refuse an access while idle. -/
theorem hosterrWhileIdleExactly : Obligations.HosterrWhileIdleExactly := by
  intro s width offset w idle clear
  have clear' : ¬s.status.hosterr = true := by simp [clear]
  by_cases hp : width ≠ .w32 ∨ offset.toNat % 4 ≠ 0
  · rw [State.hostRead_refused hp, State.hostWrite_refused hp]
    exact ⟨⟨fun _ => hp.imp_right .inl, fun _ => rfl⟩, ⟨fun _ => hp.imp_right .inl, fun _ => rfl⟩⟩
  · obtain ⟨hwidth, haligned⟩ := not_or.1 hp
    obtain rfl := not_not.1 hwidth
    have aligned := not_not.1 haligned
    simp only [hwidth, haligned, false_or]
    constructor
    · by_cases hm : offset = 0x0D8#12
      · subst hm
        rw [State.hostRead_memData idle, State.readPort_hosterr_iff clear]
        simp
      · rw [State.hostRead_idle idle aligned hm]
        simp [hm, clear]
    · rw [State.hostWrite_idle idle aligned]
      by_cases hm : offset = 0x0D8#12
      · subst hm
        refine (State.writePort_hosterr_iff clear w).trans ?_
        simp
      · by_cases hb : offset = 0x07C#12
        · subst hb
          refine (State.writeReg_payBits_hosterr_iff clear w).trans ?_
          simp
        · have hm' : regAt offset.toNat ≠ .memData := fun h => hm (BitVec.eq_of_toNat_eq (regAt_eq_memData_iff.1 h))
          have hb' : regAt offset.toNat ≠ .payBits := fun h => hb (BitVec.eq_of_toNat_eq (regAt_eq_payBits_iff.1 h))
          simp [State.writeReg_hosterr clear hm' hb', hm, hb]

/-! ### The payload during an embedding operation -/

/-- R52: the port stores no byte of `PAY` while an operation is in progress. -/
theorem State.writePort_pay {s : State} (locked : s.emb.state.inProgress = true) (w : Word) :
    (s.writePort w).mems.pay = s.mems.pay := by
  cases ht : s.portTarget with
  | none => rw [State.writePort_refused (by simp [ht])]; rfl
  | some sp =>
    cases hw : s.hostWritable sp with
    | false => rw [State.writePort_refused fun sp' h => by rw [ht] at h; cases h; exact hw]; rfl
    | true =>
      rw [State.writePort_of_target ht hw]
      have hpay : Space.pay ≠ sp := by
        rintro rfl
        simp [State.hostWritable, locked] at hw
      have hget := Memories.get_set_other s.mems ((s.mems.get sp).write s.port.addr.toNat (w.setWidth 8)) hpay
      simp only [State.bumpAddr, State.withPort_mems, State.writeByte, State.withMems_mems]
      split
      · exact hget
      · rfl

/-- R52: no host access stores to `PAY` while an operation is in progress. -/
theorem State.hostStep_pay {s : State} (locked : s.emb.state.inProgress = true) {e : HostEvent}
    (he : ∀ a, e ≠ .resetInput a) : (s.hostStep e).mems.pay = s.mems.pay := by
  cases e with
  | resetInput a => exact absurd rfl (he a)
  | read width offset =>
    simp only [State.hostStep]
    split <;> simp [State.answer]
  | write width offset w =>
    simp only [State.hostStep, State.hostWrite]
    split_ifs
    · rfl
    · rfl
    · by_cases hm : regAt offset.toNat = .memData
      · rw [hm]; exact s.writePort_pay locked w
      · rw [s.writeReg_mems hm]

/-- A byte inside a memory depends on the capacities, that memory and the reset that drew its contents. -/
theorem State.readByte_inside {s t : State} {sp : Space} {a : Nat} (h : a < memSize s.caps sp) (caps : t.caps = s.caps)
    (mems : t.mems.get sp = s.mems.get sp) (epoch : t.free.epoch = s.free.epoch) :
    t.readByte sp a = s.readByte sp a := by
  simp only [State.readByte, caps, mems, epoch, if_pos h]

theorem State.HostKeeps.emb_of_locked {s t : State} (k : s.HostKeeps t) (locked : s.emb.state.inProgress = true) :
    t.emb = s.emb :=
  k.emb.resolve_right fun h => Bool.false_ne_true (h.1.symm.trans locked)

/-- R39: no host access writes the embedding engine while an operation is in progress. -/
theorem State.hostStep_locked {s : State} (locked : s.emb.state.inProgress = true) {e : HostEvent}
    (he : ∀ a, e ≠ .resetInput a) :
    (s.hostStep e).emb = s.emb ∧ (s.hostStep e).caps = s.caps ∧ (s.hostStep e).free.epoch = s.free.epoch := by
  have keeps {t : State} (k : s.HostKeeps t) : t.emb = s.emb ∧ t.caps = s.caps ∧ t.free.epoch = s.free.epoch :=
    ⟨k.emb_of_locked locked, k.caps, by rw [k.free]⟩
  cases e with
  | resetInput a => exact absurd rfl (he a)
  | read width offset =>
    simp only [State.hostStep]
    split
    · exact ⟨rfl, rfl, rfl⟩
    · obtain ⟨hidden, caps, ext, status, errs, emb, free⟩ := s.hostRead_keeps width offset
      exact keeps ⟨hidden, caps, ext, status, errs, emb, free⟩
  | write width offset w =>
    simp only [State.hostStep, State.hostWrite]
    split_ifs
    · exact ⟨rfl, rfl, rfl⟩
    · exact ⟨rfl, rfl, rfl⟩
    · by_cases hc : regAt offset.toNat = .cmd
      · rw [hc]; exact ⟨rfl, rfl, rfl⟩
      · exact keeps (s.writeReg_keeps _ w hc)

/-- Settles O19: the accesses that change `PAY_BITS` or `PAY` are refused. -/
theorem payloadIsLockedDuringEmbedding : Obligations.PayloadIsLockedDuringEmbedding := by
  intro s e locked he
  obtain ⟨hemb, hcaps, hepoch⟩ := s.hostStep_locked locked he
  exact ⟨by rw [hemb], fun a ha => State.readByte_inside ha hcaps (s.hostStep_pay locked he) hepoch⟩

/-! ### The submission of a command, the interrupt, `PRIV` -/

/-- Settles O7: acceptance, with the delay it draws. -/
theorem cmdWriteAcceptsTheCommand : Obligations.CmdWriteAcceptsTheCommand := by
  intro s w idle
  refine ⟨Config.commandDelay s.free.draws, ?_⟩
  rw [State.hostWrite_idle idle rfl]
  rfl

theorem IntPend.word_bits (p : IntPend) : p.word.getLsbD 0 = p.done ∧ p.word.getLsbD 1 = p.err := by
  obtain ⟨done, err⟩ := p
  cases done <;> cases err <;> decide

theorem Ctrl.word_bits (c : Ctrl) :
    c.word.getLsbD 0 = c.ieDone ∧ c.word.getLsbD 1 = c.ieErr ∧ c.word.getLsbD 2 = c.hashFatal := by
  obtain ⟨ieDone, ieErr, hashFatal⟩ := c
  cases ieDone <;> cases ieErr <;> cases hashFatal <;> decide

/-- Settles O10: the two words show their flags in the bits of R27 and R28. -/
theorem interruptIsPendingAndEnabled : Obligations.InterruptIsPendingAndEnabled := by
  intro s
  obtain ⟨hdone, herr⟩ := s.intPend.word_bits
  obtain ⟨hieDone, hieErr, -⟩ := s.ctrl.word_bits
  simp only [State.regValue, hdone, herr, hieDone, hieErr, State.irq]

/-- R53: `PRIV` reads 0, and no other register's value depends on it. -/
theorem State.regValue_withPriv (s : State) (p : Vector Word 8) (r : Reg) :
    (s.withPriv p).regValue r = s.regValue r := by
  cases r <;> simp [State.regValue, State.pixAt]

/-- R52: the port serves the byte memories only. -/
theorem State.readPort_withPriv (s : State) (p : Vector Word 8) :
    (s.withPriv p).readPort = (s.readPort.1, s.readPort.2.withPriv p) := by
  cases h : s.portTarget with
  | none => rw [State.readPort_of_none h, State.readPort_of_none (s := s.withPriv p) h]; rfl
  | some sp => rw [State.readPort_of_target h, State.readPort_of_target (s := s.withPriv p) h]; rfl

/-- Settles O20: along the cases of a read. -/
theorem hostReadsShowNothingOfPriv : Obligations.HostReadsShowNothingOfPriv := by
  intro s p width offset
  change (s.withPriv p).hostRead width offset = ((s.hostRead width offset).1, (s.hostRead width offset).2.withPriv p)
  by_cases hp : width ≠ .w32 ∨ offset.toNat % 4 ≠ 0
  · rw [State.hostRead_refused hp, State.hostRead_refused hp]
    rfl
  · obtain ⟨hwidth, haligned⟩ := not_or.1 hp
    obtain rfl := not_not.1 hwidth
    have aligned := not_not.1 haligned
    cases hb : s.status.busy with
    | true =>
      rw [State.hostRead_busy hb aligned, State.hostRead_busy (s := s.withPriv p) hb aligned, State.regValue_withPriv]
      split <;> rfl
    | false =>
      by_cases hm : offset = 0x0D8#12
      · subst hm
        rw [State.hostRead_memData hb, State.hostRead_memData (s := s.withPriv p) hb, State.readPort_withPriv]
      · rw [State.hostRead_idle hb aligned hm, State.hostRead_idle (s := s.withPriv p) hb aligned hm,
          State.regValue_withPriv]

/-! ### The reset values -/

/-- R61: every register but the identification and the capacities resets to 0. -/
theorem State.regValue_resetWith_zero (c : Caps) {r : Reg}
    (h : r ∉ [.id, .version, .capFrame, .capPay, .capAcc, .capCt, .capPt]) : (State.resetWith c).regValue r = 0#32 := by
  have zeros (n k : Nat) : (Vector.replicate n (0#32))[k]?.getD 0#32 = 0#32 := by
    rw [Vector.getElem?_replicate]
    split <;> rfl
  have bytes (k : Nat) : (Vector.replicate 64 (0#8))[k]?.getD 0#8 = 0#8 := by
    rw [Vector.getElem?_replicate]
    split <;> rfl
  cases r
  case status => simp [State.regValue, State.resetWith, Status.word_eq]
  case ctrl => simp [State.regValue, State.resetWith, Ctrl.word_eq]
  case intPend => simp [State.regValue, State.resetWith, IntPend.word_eq]
  case pix k => exact congrArg (BitVec.setWidth 32) (bytes k)
  case coef k => exact zeros 64 k
  case len i => exact zeros 5 i
  case id | version | capFrame | capPay | capAcc | capCt | capPt => exact absurd (by simp) h
  all_goals rfl

/-- R173: `PRIV` resets to 0. -/
theorem State.privScalar_resetWith (c : Caps) : (State.resetWith c).privScalar = 0 := by
  simp only [State.privScalar, State.resetWith]
  decide

/-- The reset input asserted, or released after an assertion, leaves the reset state, with the capacities kept. -/
theorem State.hostStep_reset {s : State} {asserted : Bool} (h : asserted = true ∨ s.host.resetInput = true) :
    s.hostStep (.resetInput asserted) = s.hardwareReset.withHost { s.host with resetInput := asserted } := by
  obtain hr | ⟨ha, hi, -⟩ := s.driveReset_cases asserted
  · exact hr
  · obtain h | h := h
    · exact absurd (ha.symm.trans h) Bool.false_ne_true
    · exact absurd (hi.symm.trans h) Bool.false_ne_true

/-- R61: the value of the register at an offset after a reset. -/
theorem State.regValue_regAt_resetWith (c : Caps) (o : Nat) :
    (State.resetWith c).regValue (regAt o) =
      if o = 0x000 then 0x44435438#32 else if o = 0x004 then 0x00000001#32 else if o = 0x028 then c.frame
      else if o = 0x02C then c.pay else if o = 0x030 then c.accBits else if o = 0x034 then c.ct
      else if o = 0x038 then c.pt else 0#32 := by
  split_ifs with hid hversion hframe hpay hacc hct hpt
  · rw [hid]; rfl
  · rw [hversion]; rfl
  · rw [hframe]; rfl
  · rw [hpay]; rfl
  · rw [hacc]; rfl
  · rw [hct]; rfl
  · rw [hpt]; rfl
  · have at_offset {r : Reg} {k : Nat} (hne : o ≠ k) (hmem : (k, r) ∈ scalarRegs) : regAt o ≠ r :=
      fun h => hne ((regAt_eq_iff hmem).1 h)
    apply State.regValue_resetWith_zero
    simp only [List.mem_cons, List.not_mem_nil, or_false, not_or]
    exact ⟨at_offset hid (by decide), at_offset hversion (by decide), at_offset hframe (by decide),
      at_offset hpay (by decide), at_offset hacc (by decide), at_offset hct (by decide), at_offset hpt (by decide)⟩

/-- Settles O21: the host's view of the reset state, register by register. -/
theorem hardwareResetRegisterValues : Obligations.HardwareResetRegisterValues := by
  intro s asserted offset hr aligned hne
  rw [State.hostStep_reset hr]
  refine ⟨?_, State.privScalar_resetWith s.caps, rfl, rfl⟩
  rw [State.hostRead_idle rfl aligned hne]
  refine (State.regValue_regAt_resetWith s.caps offset.toNat).trans ?_
  simp only [← BitVec.toNat_inj]
  rfl

end Sys2Proof.Machine
end

section
/-! The proofs of the family `10_state.md`, the host's writes: what a read-write register reads back, `PRIV`, the
read-only registers and the write-one-to-clear registers. -/

namespace Sys2Proof.Machine

/-! ### Elements of the register files -/

theorem regAt_priv {i : Nat} (h : i < 8) : regAt (0x0E0 + 4 * i) = .priv i := by
  unfold regAt
  rw [if_pos (by omega)]
  congr 1
  omega

theorem regAt_pix {k : Nat} (h : k < 64) : regAt (0x100 + 4 * k) = .pix k := by
  unfold regAt
  rw [if_neg (by omega), if_pos (by omega)]
  congr 1
  omega

theorem regAt_coef {k : Nat} (h : k < 64) : regAt (0x200 + 4 * k) = .coef k := by
  unfold regAt
  rw [if_neg (by omega), if_neg (by omega), if_pos (by omega)]
  congr 1
  omega

/-- The writes to the other registers leave `PIX` and `COEF` alone. -/
theorem State.writeReg_pix_coef (s : State) {r : Reg} (h : ∀ k, r ≠ .pix k ∧ r ≠ .coef k) (w : Word) :
    (s.writeReg r w).pix = s.pix ∧ (s.writeReg r w).coef = s.coef := by
  cases r
  case pix k => exact absurd rfl (h k).1
  case coef k => exact absurd rfl (h k).2
  case memData =>
    simp only [State.writeReg, State.writePort]
    split <;> exact ⟨rfl, rfl⟩
  case payBits =>
    simp only [State.writeReg]
    split <;> exact ⟨rfl, rfl⟩
  all_goals exact ⟨rfl, rfl⟩

/-! ### A read-write register reads back -/

/-- R27: `CTRL` keeps the lowest three bits. -/
theorem Ctrl.ofWord_weights (w : Word) :
    (Ctrl.ofWord w).ieDone.toNat + 2 * (Ctrl.ofWord w).ieErr.toNat + 4 * (Ctrl.ofWord w).hashFatal.toNat
      = w.toNat % 8 := by
  simp only [Ctrl.ofWord, BitVec.getLsbD, Nat.toNat_testBit]
  omega

/-- One entry of a table replaced: the others keep their values. -/
theorem getD_lookup_replace_other {β : Type} {k o : Nat} (ho : o ≠ k) (v d : β) (l : List (Nat × β)) :
    ((l.map fun p => if p.1 = k then (p.1, v) else p).lookup o).getD d = (l.lookup o).getD d := by
  induction l with
  | nil => rfl
  | cons p l ih =>
    rw [List.map_cons, getD_lookup_cons, getD_lookup_cons, ih]
    by_cases hp : p.1 = k
    · rw [if_pos hp, if_neg (hp ▸ ho), if_neg (hp ▸ ho)]
    · rw [if_neg hp]

/-- One entry of a table replaced: it has the new value. -/
theorem getD_lookup_replace_same {β : Type} {k : Nat} (v d : β) {l : List (Nat × β)} (hk : k ∈ l.map Prod.fst) :
    ((l.map fun p => if p.1 = k then (p.1, v) else p).lookup k).getD d = v := by
  induction l with
  | nil => simp at hk
  | cons p l ih =>
    rw [List.map_cons, List.mem_cons] at hk
    rw [List.map_cons, getD_lookup_cons]
    by_cases hp : p.1 = k
    · simp [hp]
    · rw [if_neg hp, if_neg (Ne.symm hp), ih (hk.resolve_left (Ne.symm hp))]

theorem ofNat_toNat_mod_two_pow (w : Word) : BitVec.ofNat 32 (w.toNat % 2 ^ 32) = w := by
  rw [Nat.mod_eq_of_lt w.isLt, BitVec.ofNat_toNat, BitVec.setWidth_eq]

/-- The scalar registers among those of `readWriteRegisters`. -/
theorem mem_readWriteRegisters {r : Nat × Nat} :
    r ∈ readWriteRegisters ↔ r ∈ readWriteRegisters.take 24 ∨ (∃ k < 64, r = (0x100 + 4 * k, 8))
      ∨ ∃ k < 64, r = (0x200 + 4 * k, 32) := by
  simp [readWriteRegisters, eq_comm, or_assoc]

/-- The first 24 entries of `readWriteRegisters` are scalar registers. -/
theorem readWriteRegisters_scalar :
    ∀ r ∈ readWriteRegisters.take 24, r.1 < 0x100 ∧ (r.1, regAt r.1) ∈ scalarRegs := by decide

theorem mem_scalarContents_keys (s : State) :
    ∀ r ∈ readWriteRegisters.take 24, r.1 ∈ (scalarContents s).map Prod.fst := by
  simp [readWriteRegisters, scalarContents]

/-- R20: a write to a scalar read-write register replaces its own entry by the bits of its field. -/
theorem scalarContents_writeReg {s : State} {r : Nat × Nat} (hr : r ∈ readWriteRegisters.take 24)
    (lock : r.1 = 0x07C → s.emb.state.inProgress = false) (w : Word) :
    scalarContents (s.writeReg (regAt r.1) w) =
      (scalarContents s).map fun p => if p.1 = r.1 then (p.1, BitVec.ofNat 32 (w.toNat % 2 ^ r.2)) else p := by
  have full : BitVec.ofNat 32 (w.toNat % 4294967296) = w := ofNat_toNat_mod_two_pow w
  simp only [readWriteRegisters, List.take_succ_cons, List.cons_append, List.take_zero, List.mem_cons, List.not_mem_nil,
    or_false] at hr
  rcases hr with rfl | rfl | rfl | rfl | rfl | rfl | rfl | rfl | rfl | rfl | rfl | rfl | rfl | rfl | rfl | rfl | rfl
    | rfl | rfl | rfl | rfl | rfl | rfl | rfl
  all_goals
    simp [scalarContents, regAt, scalarRegs, State.writeReg, List.lookup_cons, full, lock, Ctrl.ofWord_weights]

/-- R20, R39: a read-write register holds the bits of its field that were written, and every other register keeps its
contents. -/
theorem registerContents_writeReg {s : State} {r : Nat × Nat} (hr : r ∈ readWriteRegisters)
    (lock : r.1 = 0x07C → s.emb.state.inProgress = false) (w : Word) {o : Nat} (aligned : o % 4 = 0) :
    registerContents (s.writeReg (regAt r.1) w) o =
      if o = r.1 then BitVec.ofNat 32 (w.toNat % 2 ^ r.2) else registerContents s o := by
  obtain hr | ⟨k, hk, rfl⟩ | ⟨k, hk, rfl⟩ := mem_readWriteRegisters.1 hr
  · obtain ⟨hlt, hmem⟩ := readWriteRegisters_scalar r hr
    have hfile := (scalarRegs_scalar _ hmem).1
    obtain ⟨hpix, hcoef⟩ := s.writeReg_pix_coef (fun k => (hfile k).2) w
    unfold registerContents
    rw [scalarContents_writeReg hr lock, hpix, hcoef]
    by_cases ho : o = r.1
    · rw [if_neg (by omega), if_neg (by omega), if_pos ho, ho,
        getD_lookup_replace_same _ _ (mem_scalarContents_keys s r hr)]
    · rw [if_neg ho, getD_lookup_replace_other ho]
  · rw [regAt_pix hk]
    have hother : scalarContents (s.writeReg (.pix k) w) = scalarContents s := rfl
    have hcoef : (s.writeReg (.pix k) w).coef = s.coef := rfl
    have hpix : (s.writeReg (.pix k) w).pix = s.pix.setIfInBounds k (w.setWidth 8) := rfl
    unfold registerContents
    rw [hother, hcoef, hpix, Vector.getElem?_setIfInBounds]
    by_cases ho : o = 0x100 + 4 * k
    · rw [if_pos (by omega), if_pos ho, if_pos (by omega), if_pos hk]
      simp
    · rw [if_neg ho]
      by_cases hrange : 0x100 ≤ o ∧ o < 0x200
      · rw [if_pos hrange, if_pos hrange, if_neg (by omega)]
      · rw [if_neg hrange, if_neg hrange]
  · rw [regAt_coef hk]
    have hother : scalarContents (s.writeReg (.coef k) w) = scalarContents s := rfl
    have hpix : (s.writeReg (.coef k) w).pix = s.pix := rfl
    have hcoef : (s.writeReg (.coef k) w).coef = s.coef.setIfInBounds k w := rfl
    unfold registerContents
    rw [hother, hcoef, hpix, Vector.getElem?_setIfInBounds]
    by_cases ho : o = 0x200 + 4 * k
    · rw [if_neg (by omega), if_pos (by omega), if_pos ho, if_pos (by omega), if_pos hk]
      exact (ofNat_toNat_mod_two_pow w).symm
    · rw [if_neg ho]
      by_cases hrange : 0x200 ≤ o ∧ o < 0x300
      · rw [if_neg (by omega), if_pos hrange, if_neg (by omega), if_neg (by omega), if_pos hrange]
      · rw [if_neg hrange, if_neg hrange]

/-- The offsets of the read-write registers, and which register is meant by each. -/
theorem readWriteRegisters_offset :
    ∀ r ∈ readWriteRegisters, r.1 % 4 = 0 ∧ r.1 < 0x300 ∧ r.1 ≠ 0x0D8 ∧ r.1 ≠ 0x008 := by
  intro r hr
  obtain hr | ⟨k, hk, rfl⟩ | ⟨k, hk, rfl⟩ := mem_readWriteRegisters.1 hr
  · have scalar : ∀ r ∈ readWriteRegisters.take 24, r.1 % 4 = 0 ∧ r.1 < 0x300 ∧ r.1 ≠ 0x0D8 ∧ r.1 ≠ 0x008 := by decide
    exact scalar r hr
  · dsimp only
    omega
  · dsimp only
    omega

theorem readWriteRegisters_inj {r r' : Nat × Nat} (hr : r ∈ readWriteRegisters) (hr' : r' ∈ readWriteRegisters) :
    r'.1 = r.1 ↔ r' = r := by
  have rising : (readWriteRegisters.map Prod.fst).IsChain (· < ·) := by decide +kernel
  have distinct : (readWriteRegisters.map Prod.fst).Nodup :=
    (List.isChain_iff_pairwise.1 rising).imp fun h => Nat.ne_of_lt h
  exact ⟨fun h => List.inj_on_of_nodup_map distinct hr' hr h, fun h => by rw [h]⟩

/-- R20: what an idle host reads from the offset of a read-write register. -/
theorem State.hostRead_readWrite {s : State} (busy : s.status.busy = false) {r : Nat × Nat}
    (hr : r ∈ readWriteRegisters) : (s.hostRead .w32 (BitVec.ofNat 12 r.1)).1 = registerContents s r.1 := by
  obtain ⟨aligned, hlt, hport, -⟩ := readWriteRegisters_offset r hr
  have hoff : (BitVec.ofNat 12 r.1).toNat = r.1 := by
    rw [BitVec.toNat_ofNat, Nat.mod_eq_of_lt (by omega)]
  rw [State.hostRead_idle busy (by rwa [hoff]), registerContents_eq_regValue, hoff]
  intro h
  exact hport (hoff.symm.trans (congrArg BitVec.toNat h))

/-- R20, R29, R89: the read-only and the reserved registers ignore a write. -/
theorem State.writeReg_readOnly (s : State) {o : Nat} (h : ReadOnlyOrReserved o) (w : Word) :
    s.writeReg (regAt o) w = s := by
  obtain h | h := h
  · have ignored : ∀ o ∈ [0x000, 0x004, 0x010, 0x014, 0x024, 0x028, 0x02C, 0x030, 0x034, 0x038, 0x03C, 0x060, 0x064,
        0x068, 0x06C, 0x070, 0x074, 0x078, 0x080, 0x084, 0x088, 0x08C, 0x090, 0x094, 0x098, 0x09C, 0x0DC],
        regAt o ∈ [Reg.id, .version, .errCode, .errInfo, .capFrame, .capPay, .capAcc, .capCt, .capPt, .qcnt, .embState,
          .embCursor, .embFrames, .extState, .accBits, .prsCursor, .prsFidx, .hdrCursor, .extFrames, .frmBits,
          .reserved] := by decide
    have hreg := ignored o h
    generalize regAt o = r at hreg
    cases r
    case id | version | errCode | errInfo | capFrame | capPay | capAcc | capCt | capPt | qcnt | embState | embCursor
      | embFrames | extState | accBits | prsCursor | prsFidx | hdrCursor | extFrames | frmBits | reserved => rfl
    all_goals simp at hreg
  · obtain ⟨-, hlt, -⟩ | ⟨-, hlt, -⟩ | ⟨-, hlt, -⟩ | hmem | hres := regAt_cases o
    · omega
    · omega
    · omega
    · have bound : ∀ p ∈ scalarRegs, p.1 < 0x300 := by decide
      exact absurd (bound _ hmem) (Nat.not_lt_of_le h)
    · rw [hres]; rfl

/-- Settles O17: the accesses go to the register at the offset, and each kind of register has its own rule. -/
theorem readWriteRegistersReadBack : Obligations.ReadWriteRegistersReadBack := by
  refine ⟨fun s r r' w busy hr hr' lock => ?_, fun s i w busy => ?_, fun s offset w busy aligned h => ?_,
    fun s w busy => ⟨?_, ⟨s.errs.sticky &&& ~~~(w.setWidth 12), ?_, fun c hc => ?_⟩, ?_⟩⟩
  · obtain ⟨aligned, hlt, -, hcmd⟩ := readWriteRegisters_offset r hr
    have hoff : (BitVec.ofNat 12 r.1).toNat = r.1 := by
      rw [BitVec.toNat_ofNat, Nat.mod_eq_of_lt (by omega)]
    have hwrite : s.hostWrite .w32 (BitVec.ofNat 12 r.1) w = s.writeReg (regAt r.1) w := by
      rw [State.hostWrite_idle busy (by rwa [hoff]), hoff]
    have idle : (s.writeReg (regAt r.1) w).status.busy = false := by
      obtain ⟨a, b, hst⟩ := (s.writeReg_keeps (regAt r.1) w fun h => hcmd (regAt_eq_cmd_iff.1 h)).status
      rw [hst]
      exact busy
    rw [hwrite, State.hostRead_readWrite idle hr', State.hostRead_readWrite busy hr',
      registerContents_writeReg hr lock w (readWriteRegisters_offset r' hr').1]
    simp only [readWriteRegisters_inj hr hr']
  · have hoff : (BitVec.ofNat 12 (0x0E0 + 4 * i.val)).toNat = 0x0E0 + 4 * i.val := by
      rw [BitVec.toNat_ofNat, Nat.mod_eq_of_lt (by omega)]
    rw [State.hostWrite_idle busy (by omega), hoff, regAt_priv i.isLt]
    simp [State.writeReg, State.withPriv, Vector.setIfInBounds, Vector.set, Array.setIfInBounds]
  · rw [State.hostWrite_idle busy aligned, s.writeReg_readOnly h]
  · exact State.hostWrite_idle busy rfl
  · exact State.hostWrite_idle busy rfl
  · simp [hc]
  · exact State.hostWrite_idle busy rfl

end Sys2Proof.Machine
end

section
/-! The proofs of the family `20_memory.md`, the turns: whose step it is, what the host can do while a command runs, and
the end of every accepted command. -/

namespace Sys2Proof.Machine

/-! ### Whose turn it is -/

/-- R390: no command is in progress while `BUSY` is clear or the reset input is asserted. -/
theorem State.commandInProgress_eq_false_iff {s : State} :
    s.commandInProgress = false ↔ s.status.busy = false ∨ s.host.resetInput = true := by
  simp only [State.commandInProgress, Bool.and_eq_false_iff, Bool.not_eq_false']

/-- R86, R410: with the delay used up, or nothing for the host to do, the block takes its step. -/
theorem step_block {s : State} (running : s.commandInProgress = true) (turn : s.host.pending = [] ∨ s.free.delay = 0) :
    step s = s.blockStep := by
  unfold step State.advance
  obtain hp | hd := turn
  · simp only [hp, running, if_true]
  · cases hp : s.host.pending with
    | nil => simp only [running, if_true]
    | cons e rest => simp only [running, if_true, hd]

/-- R410: while the delay lasts the host goes on, and each of its steps uses up one. -/
theorem step_host_delayed {s : State} {e : HostEvent} {rest : List HostEvent} {d : Nat}
    (running : s.commandInProgress = true) (pending : s.host.pending = e :: rest) (delay : s.free.delay = d + 1) :
    step s = .next ((s.withFree { s.free with delay := d }).takeHostStep e rest) := by
  simp only [step, State.advance, pending, running, if_true, delay]

/-- R85, R90: with no command in progress the host takes its step. -/
theorem step_host {s : State} {e : HostEvent} {rest : List HostEvent} (waiting : s.commandInProgress = false)
    (pending : s.host.pending = e :: rest) : step s = .next (s.takeHostStep e rest) := by
  simp [step, State.advance, pending, waiting]

/-- R90: with no command in progress and nothing for the host to do the block stays as it is. -/
theorem step_idle {s : State} (waiting : s.commandInProgress = false) (pending : s.host.pending = []) :
    step s = .next s := by
  simp [step, State.advance, pending, waiting]

/-- R86, R101: the block step of a word that stands for a command. -/
theorem State.blockStep_of_decode {s : State} {i : Instr} (h : decode s.hidden.cmdLatch = .ok i) :
    s.blockStep = exec i s := by
  simp only [State.blockStep, h]

/-- Settles O4: the block's turn, and its step for a word that decodes. -/
theorem blockStepRunsTheDecodedCommand : Obligations.BlockStepRunsTheDecodedCommand := by
  intro s i busy released turn hdecode
  rw [step_block (State.commandInProgress_iff.2 ⟨busy, released⟩) turn, State.blockStep_of_decode hdecode]

/-- Settles O5: one equation of the step for each of the three turns. -/
theorem otherStepsAreTheHosts : Obligations.OtherStepsAreTheHosts := by
  refine ⟨fun s e rest pending waiting => ?_, fun s e rest d pending busy released delay => ?_,
    fun s pending waiting => ?_⟩
  · exact step_host (State.commandInProgress_eq_false_iff.2 waiting) pending
  · exact step_host_delayed (State.commandInProgress_iff.2 ⟨busy, released⟩) pending delay
  · exact step_idle (State.commandInProgress_eq_false_iff.2 waiting) pending

/-! ### The host while a command runs -/

/-- R88: every write while busy is dropped. -/
theorem State.hostWrite_busy {s : State} (busy : s.status.busy = true) (width : Width) (offset : BitVec 12) (w : Word) :
    s.hostWrite width offset w = s.hostError := by
  simp only [State.hostWrite, busy, or_true, if_true]

/-- R87, R88: a read while busy sets `HOSTERR` or changes nothing. -/
theorem State.hostRead_busy_cases {s : State} (busy : s.status.busy = true) (width : Width) (offset : BitVec 12) :
    (s.hostRead width offset).2 = s ∨ (s.hostRead width offset).2 = s.hostError := by
  by_cases hp : width ≠ .w32 ∨ offset.toNat % 4 ≠ 0
  · exact .inr (by rw [State.hostRead_refused hp])
  · obtain ⟨hwidth, haligned⟩ := not_or.1 hp
    obtain rfl := not_not.1 hwidth
    rw [State.hostRead_busy busy (not_not.1 haligned)]
    split
    · exact .inl rfl
    · exact .inr rfl

/-- Settles O14: the accesses that are not performed, and the writes while busy. -/
theorem accessesNotPerformedSetHosterr : Obligations.AccessesNotPerformedSetHosterr := by
  refine ⟨fun s width offset w refused => ⟨?_, ?_⟩, fun s width offset w busy => ?_⟩
  · exact State.hostRead_refused refused
  · exact State.hostWrite_refused refused
  · exact State.hostWrite_busy busy width offset w

/-- R87, R88, R390: of the host's steps while a command runs, asserting the reset input abandons the command, and every
other one leaves it running, with the delay it has left. -/
theorem State.hostStep_running {s : State} (running : s.commandInProgress = true) (e : HostEvent) :
    (s.hostStep e).status.busy = false ∨ ((s.hostStep e).commandInProgress = true ∧ (s.hostStep e).free = s.free) := by
  obtain ⟨busy, released⟩ := State.commandInProgress_iff.1 running
  cases e with
  | resetInput asserted =>
    obtain h | ⟨-, -, h⟩ := s.driveReset_cases asserted
    · exact .inl (by rw [State.hostStep, h]; rfl)
    · exact .inr (by rw [State.hostStep, h]; exact ⟨running, rfl⟩)
  | read width offset =>
    right
    simp only [State.hostStep, released, Bool.false_eq_true, if_false]
    obtain h | h := State.hostRead_busy_cases busy width offset <;> rw [h] <;> exact ⟨running, rfl⟩
  | write width offset w =>
    right
    simp only [State.hostStep, released, Bool.false_eq_true, if_false, State.hostWrite_busy busy]
    exact ⟨running, rfl⟩

theorem State.takeHostStep_running {s : State} (running : s.commandInProgress = true) (e : HostEvent)
    (rest : List HostEvent) :
    (s.takeHostStep e rest).status.busy = false
      ∨ ((s.takeHostStep e rest).commandInProgress = true ∧ (s.takeHostStep e rest).free = s.free) :=
  State.hostStep_running (s := s.withHost { s.host with pending := rest }) running e

/-! ### The end of an accepted command -/

/-- R361, R362: the rule of every command clears `BUSY`, from whatever state it starts. -/
theorem ruleOf_busy (i : Instr) (s : State) : (ruleOf i s).status.busy = false := by
  cases i <;> simp only [ruleOf]
  case embEnd =>
    unfold State.endEmbedding
    split <;> rfl
  case extFrame =>
    unfold State.receiveFrame
    split_ifs <;> rfl
  case extEnd =>
    unfold State.endExtraction
    split <;> rfl
  case extVerify =>
    exact State.verify_ends (C := fun _ => True) (P := fun u => u.status.busy = false) _ _ _ rfl (fun _ _ => trivial)
      (fun _ _ => trivial) (fun _ _ _ => rfl) (fun _ _ _ => rfl)
  all_goals rfl

/-- R86, R101, R361, R362: the block step ends the command. -/
theorem State.blockStep_ends (s : State) : ∃ t, s.blockStep = .next t ∧ t.status.busy = false := by
  unfold State.blockStep
  split
  · next i _ =>
    obtain ⟨t, ht⟩ := exec_answers i s
    refine ⟨t, ht, ?_⟩
    obtain ⟨c, -, -, -, rfl⟩ | ⟨-, rfl⟩ := exec_cases ht
    · rfl
    · exact ruleOf_busy i s
  · exact ⟨_, rfl, rfl⟩

/-- A run goes on from the state its first step answers. -/
theorem run_succ {s t : State} (h : step s = .next t) (k : Nat) :
    Sys2Proof.core.run (k + 1) s = Sys2Proof.core.run k t := by
  have hstep : Sys2Proof.core.step s = .next t := h
  simp only [Host.Core.run, hstep]

/-- R410: by induction on the delay that is left, which each host step before the block step uses up. -/
theorem run_until_not_busy {s : State} {d : Nat} (running : s.commandInProgress = true) (delay : s.free.delay = d) :
    ∃ (k : Nat) (t : State), k ≤ d + 1 ∧ Sys2Proof.core.run k s = .next t ∧ t.status.busy = false := by
  induction d generalizing s with
  | zero =>
    obtain ⟨t, ht, ended⟩ := s.blockStep_ends
    exact ⟨1, t, le_rfl, run_succ ((step_block running (.inr delay)).trans ht) 0, ended⟩
  | succ d ih =>
    cases pending : s.host.pending with
    | nil =>
      obtain ⟨t, ht, ended⟩ := s.blockStep_ends
      exact ⟨1, t, by omega, run_succ ((step_block running (.inl pending)).trans ht) 0, ended⟩
    | cons e rest =>
      have hstep := step_host_delayed running pending delay
      obtain ended | ⟨still, free⟩ :=
        State.takeHostStep_running (s := s.withFree { s.free with delay := d }) running e rest
      · exact ⟨1, _, by omega, run_succ hstep 0, ended⟩
      · obtain ⟨k, t, hk, hrun, ended⟩ := ih still (by rw [free]; rfl)
        exact ⟨k + 1, t, by omega, (run_succ hstep k).trans hrun, ended⟩

/-- Settles O9: the induction on the delay, from the delay the state holds. -/
theorem acceptedCommandEndsInBoundedSteps : Obligations.AcceptedCommandEndsInBoundedSteps :=
  fun _ busy released => run_until_not_busy (State.commandInProgress_iff.2 ⟨busy, released⟩) rfl

end Sys2Proof.Machine
end

section
/-! The proofs of the family `20_memory.md`, the blocks: the load and the store of the block that the registers address. -/

namespace Sys2Proof.Machine

/-! ### The addressed block -/

/-- R205, R206: the checks of `BLK_LD` and `BLK_ST` pass when the frame and the block are usable. -/
theorem firstFailed_chkFrame_chkBlock {s : State} (frame : s.FrameReady) (block : s.BlockReady) :
    firstFailed (chkFrame s ++ chkBlock s) = none := by
  obtain ⟨hw, hh, hw8, hh8, hcap⟩ := frame
  obtain ⟨hrow, hcol⟩ := block
  have frameChecks : ∀ c ∈ chkFrame s, c.failed = false := by
    simp [chkFrame, hw, hh, hw8, hh8, hcap]
  have blockChecks : ∀ c ∈ chkBlock s, c.failed = false := by
    simp [chkBlock, hrow, hcol]
  rw [firstFailed_append, firstFailed_eq_none.2 frameChecks, firstFailed_eq_none.2 blockChecks]
  rfl

/-- R73: the address of the pixel in row `i` and column `j` of a block. -/
theorem State.pixelAddr_row_col (s : State) (br bc i : Nat) {j : Nat} (hj : j < 8) :
    s.pixelAddr br bc (8 * i + j) = (8 * br + i) * s.frmW + (8 * bc + j) := by
  have hrow : (8 * i + j) / 8 = i := by omega
  have hcol : (8 * i + j) % 8 = j := by omega
  rw [State.pixelAddr, hrow, hcol]

/-- R205, R206: the addressed block lies inside `FRAME`. -/
theorem State.pixelAddr_lt_frame {s : State} (frame : s.FrameReady) (block : s.BlockReady) {k : Nat} (hk : k < 64) :
    s.pixelAddr s.frm.blkRow.toNat s.frm.blkCol.toNat k < s.caps.frame.toNat := by
  obtain ⟨-, -, -, -, hcap⟩ := frame
  exact (s.pixelAddr_lt block.1 block.2 hk).trans_le hcap

@[simp] theorem State.pixAt_endOk (s : State) (k : Nat) : s.endOk.pixAt k = s.pixAt k := (rfl)

/-- R361: the end of a command that has written `PIX` only. -/
theorem State.endOk_of_eq_withPix {s u : State} (h : u = s.withPix u.pix) :
    u.endOk = { s with
      pix := u.endOk.pix
      status := { s.status with done := true, busy := false }, intPend := { s.intPend with done := true } } := by
  obtain ⟨v, rfl⟩ : ∃ v, u = s.withPix v := ⟨_, h⟩
  rfl

/-- Settles O43: the checks pass, and element `8 * i + j` of the block is the pixel in row `i` and column `j`. -/
theorem blkLdLoadsTheBlock : Obligations.BlkLdLoadsTheBlock := by
  intro s frame block
  refine ⟨(s.blkLd s.frm.blkRow.toNat s.frm.blkCol.toNat).endOk,
    exec_passed (firstFailed_chkFrame_chkBlock frame block), fun i hi j hj => ?_, State.endOk_of_eq_withPix rfl⟩
  have hk : 8 * i + j < 64 := by omega
  rw [State.pixAt_endOk, s.pixAt_blkLd _ _ hk, s.pixelAddr_row_col _ _ i hj]

/-! ### The stores -/

/-- R361: the end of a command that has written memories only. -/
theorem State.endOk_of_eq_withMems {s u : State} (h : u = s.withMems u.mems) :
    u.endOk = { s with
      mems := u.endOk.mems
      status := { s.status with done := true, busy := false }, intPend := { s.intPend with done := true } } := by
  obtain ⟨v, rfl⟩ : ∃ v, u = s.withMems v := ⟨_, h⟩
  rfl

/-- R207: the stores of `blk_st` replace the memories and nothing else. -/
theorem State.storePixels_eq_withMems (s : State) (br bc m : Nat) :
    s.storePixels br bc m = s.withMems (s.storePixels br bc m).mems := by
  induction m with
  | zero => rfl
  | succ m ih =>
    obtain ⟨v, hv⟩ : ∃ v, s.storePixels br bc m = s.withMems v := ⟨_, ih⟩
    rw [State.storePixels, hv]
    rfl

/-- Settles O44: the stores reach the addressed bytes, all inside `FRAME`, and no other byte. -/
theorem blkStStoresTheBlock : Obligations.BlkStStoresTheBlock := by
  intro s frame block
  refine ⟨(s.blkSt s.frm.blkRow.toNat s.frm.blkCol.toNat).endOk,
    exec_passed (firstFailed_chkFrame_chkBlock frame block), fun i hi j hj => ?_, fun sp a other => ?_,
    State.endOk_of_eq_withMems (s.storePixels_eq_withMems _ _ 64)⟩
  · have hk : 8 * i + j < 64 := by omega
    rw [State.readByte_endOk, State.blkSt, ← s.pixelAddr_row_col _ _ i hj]
    exact s.readByte_storePixels block.2 hk (State.pixelAddr_lt_frame frame block hk)
  · rw [State.readByte_endOk, State.blkSt]
    refine s.readByte_storePixels_other _ _ 64 sp a fun k hk => ?_
    have haddr := s.pixelAddr_row_col s.frm.blkRow.toNat s.frm.blkCol.toNat (k / 8) (Nat.mod_lt k (by decide))
    rw [Nat.div_add_mod] at haddr
    rw [haddr]
    exact other (k / 8) (by omega) (k % 8) (by omega)

end Sys2Proof.Machine
end

section
/-! The proofs of the family `30_encoding.md`: which words a row of the opcode map accepts, said in the three fields of a
command word (R100), that no word matches two rows (R101), and the words of the commands. -/

namespace Sys2Proof

/-! ### The rows of the opcode map -/

/-- The number of values of `ARG` that are no reserved encoding beside an opcode of the map (R102, R103). -/
def argCount (op : Nat) : Nat := if op = 0x10 then 2 else if op = 0x40 then 64 else 1

theorem argCount_eq_two_pow (op : Nat) : ∃ n ≤ 8, argCount op = 2 ^ n := by
  unfold argCount
  split
  · exact ⟨1, by decide, rfl⟩
  split
  · exact ⟨6, by decide, rfl⟩
  · exact ⟨0, by decide, rfl⟩

theorem argCount_le (op : Nat) : argCount op ≤ 2 ^ 8 := by
  obtain ⟨n, hn, h⟩ := argCount_eq_two_pow op
  exact h ▸ Nat.pow_le_pow_right (by decide) hn

/-- Every mask covers the whole word but the bits of `ARG` that carry an operand. -/
theorem mask_eq_of_mem : ∀ r ∈ opcodeMap, r.mask = ~~~BitVec.ofNat 32 (256 * (argCount r.pattern.toNat - 1)) := by
  decide

theorem pattern_lt_of_mem : ∀ r ∈ opcodeMap, r.pattern.toNat < 256 := by decide

/-- R101: the opcodes differ. -/
theorem eq_of_pattern_eq {r r' : OpcodeRow} (hr : r ∈ opcodeMap) (hr' : r' ∈ opcodeMap) (h : r.pattern = r'.pattern) :
    r = r' :=
  have opcodesDiffer : (opcodeMap.map OpcodeRow.pattern).Nodup := by decide
  List.inj_on_of_nodup_map opcodesDiffer hr hr' h

/-! ### The fields of a command word -/

theorem toNat_argOf (w : Word) : (argOf w).toNat = w.toNat / 256 % 256 := by
  simp [argOf, Nat.shiftRight_eq_div_pow]

theorem toNat_commandWord {op : Word} {arg : Nat} (hop : op.toNat < 256) (harg : arg < 256) :
    (commandWord op arg).toNat = op.toNat + 256 * arg := by
  rw [commandWord, BitVec.toNat_add, BitVec.toNat_ofNat]
  omega

theorem and_mul_256 (x y : Nat) : x &&& (256 * y) = 256 * (x / 256 &&& y) := by
  apply Nat.eq_of_testBit_eq
  intro j
  have h256 : (256 : Nat) = 2 ^ 8 := rfl
  simp only [h256, Nat.testBit_and, Nat.testBit_two_pow_mul, Nat.testBit_div_two_pow]
  by_cases hj : 8 ≤ j <;> simp [hj]

/-- A mask that leaves the low `n` bits of `ARG` free takes the value of these bits away from the word. -/
theorem toNat_and_not_argMask (w : Word) {n : Nat} (hn : n ≤ 8) :
    (w &&& ~~~BitVec.ofNat 32 (256 * (2 ^ n - 1))).toNat + 256 * (w.toNat / 256 % 2 ^ n) = w.toNat := by
  have hpow : 2 ^ n ≤ 2 ^ 8 := Nat.pow_le_pow_right (by decide) hn
  generalize hm : BitVec.ofNat 32 (256 * (2 ^ n - 1)) = m
  have free : (w &&& m).toNat = 256 * (w.toNat / 256 % 2 ^ n) := by
    rw [← hm, BitVec.toNat_and, BitVec.toNat_ofNat, Nat.mod_eq_of_lt (by omega), and_mul_256,
      Nat.and_two_pow_sub_one_eq_mod]
  have disjoint : (w &&& ~~~m) &&& (w &&& m) = 0#32 := by
    ext j
    grind
  have cover : (w &&& ~~~m) ||| (w &&& m) = w := by
    ext j
    grind
  rw [← free, ← BitVec.toNat_add_of_and_eq_zero disjoint, BitVec.add_eq_or_of_and_eq_zero _ _ disjoint, cover]

/-- R101, R102: a row accepts the words with an upper half of 0, its opcode, and no must-be-0 bit of `ARG` set. -/
theorem accepts_iff {r : OpcodeRow} (hr : r ∈ opcodeMap) (w : Word) :
    r.accepts w = true ↔
      w.toNat / 2 ^ 16 = 0 ∧ w.toNat % 256 = r.pattern.toNat
        ∧ w.toNat / 256 % 256 < argCount r.pattern.toNat := by
  have hop := pattern_lt_of_mem r hr
  have hcount := argCount_le r.pattern.toNat
  obtain ⟨n, hn, hpow⟩ := argCount_eq_two_pow r.pattern.toNat
  have parts := toNat_and_not_argMask w hn
  rw [← hpow, ← mask_eq_of_mem r hr] at parts
  rw [OpcodeRow.accepts, beq_iff_eq, ← BitVec.toNat_inj]
  constructor
  · intro masked
    have harg : w.toNat / 256 % argCount r.pattern.toNat < argCount r.pattern.toNat :=
      Nat.mod_lt _ (hpow ▸ Nat.two_pow_pos n)
    omega
  · rintro ⟨upper, opcode, harg⟩
    have mod_self : w.toNat / 256 % argCount r.pattern.toNat = w.toNat / 256 := Nat.mod_eq_of_lt (by omega)
    omega

/-- R100: a word that a row accepts is made of its opcode and its argument. -/
theorem commandWord_of_accepts {r : OpcodeRow} (hr : r ∈ opcodeMap) {w : Word} (h : r.accepts w = true) :
    commandWord r.pattern (argOf w).toNat = w := by
  obtain ⟨upper, opcode, -⟩ := (accepts_iff hr w).1 h
  apply BitVec.eq_of_toNat_eq
  rw [toNat_commandWord (pattern_lt_of_mem r hr) (argOf w).isLt, toNat_argOf]
  omega

/-- R103: the arguments that are not reserved beside the row's opcode are those of the words the row accepts. -/
theorem accepts_commandWord {r : OpcodeRow} (hr : r ∈ opcodeMap) {arg : Nat} (h : arg < argCount r.pattern.toNat) :
    r.accepts (commandWord r.pattern arg) = true ∧ argOf (commandWord r.pattern arg) = BitVec.ofNat 8 arg := by
  have hop := pattern_lt_of_mem r hr
  have harg : arg < 256 := h.trans_le (argCount_le _)
  have word := toNat_commandWord hop harg
  constructor
  · rw [accepts_iff hr, word]
    omega
  · apply BitVec.eq_of_toNat_eq
    rw [toNat_argOf, word, BitVec.toNat_ofNat]
    omega

/-! ### What decode answers -/

/-- R101: at most one row matches a word, so the first that matches is the one that matches. -/
theorem decode_of_accepts {r : OpcodeRow} (hr : r ∈ opcodeMap) {w : Word} (h : r.accepts w = true) :
    decode w = .ok (r.build (argOf w)) := by
  obtain ⟨r', hfind⟩ : ∃ r', opcodeMap.find? (·.accepts w) = some r' :=
    Option.isSome_iff_exists.1 (List.find?_isSome.2 ⟨r, hr, h⟩)
  have hr' := List.mem_of_find?_eq_some hfind
  obtain ⟨-, opcode, -⟩ := (accepts_iff hr w).1 h
  obtain ⟨-, opcode', -⟩ := (accepts_iff hr' w).1 (List.find?_some (p := fun x => OpcodeRow.accepts x w) hfind)
  have same : r = r' := eq_of_pattern_eq hr hr' (BitVec.eq_of_toNat_eq (opcode.symm.trans opcode'))
  rw [decode, hfind, same]

theorem decode_of_not_accepts {w : Word} (h : ∀ r ∈ opcodeMap, ¬ r.accepts w = true) :
    decode w = .error (.illegalCommand w) := by
  rw [decode, List.find?_eq_none.2 h]

theorem decode_eq_ok_iff {w : Word} {i : Instr} :
    decode w = .ok i ↔ ∃ r ∈ opcodeMap, r.accepts w = true ∧ r.build (argOf w) = i := by
  constructor
  · intro h
    by_cases matched : ∃ r ∈ opcodeMap, r.accepts w = true
    · obtain ⟨r, hr, haccepts⟩ := matched
      rw [decode_of_accepts hr haccepts] at h
      exact ⟨r, hr, haccepts, Except.ok.inj h⟩
    · rw [decode_of_not_accepts fun r hr haccepts => matched ⟨r, hr, haccepts⟩] at h
      nomatch h
  · rintro ⟨r, hr, haccepts, rfl⟩
    exact decode_of_accepts hr haccepts

theorem decode_eq_error_iff {w : Word} :
    decode w = .error (.illegalCommand w) ↔ ∀ r ∈ opcodeMap, ¬ r.accepts w = true := by
  refine ⟨fun h r hr haccepts => ?_, decode_of_not_accepts⟩
  rw [decode_of_accepts hr haccepts] at h
  nomatch h

/-- R100, R102: the row's opcode with an argument that is not reserved decodes to the row's command. -/
theorem decode_commandWord {r : OpcodeRow} (hr : r ∈ opcodeMap) {arg : Nat} (h : arg < argCount r.pattern.toNat) :
    decode (commandWord r.pattern arg) = .ok (r.build (BitVec.ofNat 8 arg)) := by
  obtain ⟨haccepts, harg⟩ := accepts_commandWord hr h
  rw [decode_of_accepts hr haccepts, harg]

/-! ### The words of the commands -/

/-- R104: `QIM_EMB` takes the whole argument when the bits 7:6 of `ARG` are 0. -/
theorem offeredOf_eq_toNat {arg : Byte} (h : arg.toNat < 64) : offeredOf arg = arg.toNat := by
  simpa [offeredOf] using h

/-- R104: `B2B` takes the whole argument when the bits 7:1 of `ARG` are 0. -/
theorem lenientOf_eq_toNat {arg : Byte} (h : arg.toNat < 2) : cond (lenientOf arg) 1 0 = arg.toNat := by
  obtain ha | ha : arg.toNat = 0 ∨ arg.toNat = 1 := by omega
  all_goals simp [lenientOf, BitVec.getLsbD, ha]

/-- The row of `B2B` (R102). -/
def b2bRow : OpcodeRow := ⟨0x00000010#32, 0xFFFFFEFF#32, fun arg => .b2b (lenientOf arg)⟩

/-- The row of `QIM_EMB` (R102). -/
def qimEmbRow : OpcodeRow := ⟨0x00000040#32, 0xFFFFC0FF#32, fun arg => .qimEmb (offeredOf arg)⟩

theorem b2bRow_mem : b2bRow ∈ opcodeMap := List.getElem_mem (n := 3) (by decide)

theorem qimEmbRow_mem : qimEmbRow ∈ opcodeMap := List.getElem_mem (n := 10) (by decide)

/-- R102: the map and the encoder agree on the commands with no operand, and on the operand 0. -/
theorem build_zero_spec :
    ∀ r ∈ opcodeMap, (r.build 0#8).wellFormed = true ∧ encode (r.build 0#8) = commandWord r.pattern 0 := by
  decide

/-- R100, R102: with an argument that is not reserved a row builds a well-formed command, and the encoder gives that
command the row's opcode and the argument. -/
theorem build_spec {r : OpcodeRow} (hr : r ∈ opcodeMap) (arg : Byte) (h : arg.toNat < argCount r.pattern.toNat) :
    (r.build arg).wellFormed = true ∧ encode (r.build arg) = commandWord r.pattern arg.toNat := by
  by_cases isB2b : r.pattern = b2bRow.pattern
  · obtain rfl := eq_of_pattern_eq hr b2bRow_mem isB2b
    exact ⟨rfl, congrArg (commandWord 0x10#32) (lenientOf_eq_toNat h)⟩
  by_cases isQimEmb : r.pattern = qimEmbRow.pattern
  · obtain rfl := eq_of_pattern_eq hr qimEmbRow_mem isQimEmb
    have operand : offeredOf arg = arg.toNat := offeredOf_eq_toNat h
    exact ⟨decide_eq_true (operand ▸ h), congrArg (commandWord 0x40#32) operand⟩
  · have notB2b : r.pattern.toNat ≠ 0x10 := fun e => isB2b (BitVec.eq_of_toNat_eq e)
    have notQimEmb : r.pattern.toNat ≠ 0x40 := fun e => isQimEmb (BitVec.eq_of_toNat_eq e)
    rw [argCount, if_neg notB2b, if_neg notQimEmb] at h
    obtain rfl : arg = 0#8 := BitVec.eq_of_toNat_eq (Nat.lt_one_iff.1 h)
    exact build_zero_spec r hr

/-- Settles O1: a command with an operand has the word of its row with the operand as the argument; the word of any
other command is its opcode. -/
theorem decodeOfEncodeIsTheCommand : Obligations.DecodeOfEncodeIsTheCommand := by
  intro i wf
  cases i
  case b2b lenient =>
    have fits : cond lenient 1 0 < argCount 0x10 := by cases lenient <;> decide
    have operand : lenientOf (BitVec.ofNat 8 (cond lenient 1 0)) = lenient := by cases lenient <;> rfl
    exact (decode_commandWord b2bRow_mem fits).trans (congrArg (Except.ok ∘ Instr.b2b) operand)
  case qimEmb n =>
    have fits : n < 64 := of_decide_eq_true wf
    have value : (BitVec.ofNat 8 n).toNat = n := Nat.mod_eq_of_lt (by omega)
    have operand : offeredOf (BitVec.ofNat 8 n) = n :=
      (offeredOf_eq_toNat (value.symm ▸ fits)).trans value
    exact (decode_commandWord qimEmbRow_mem fits).trans (congrArg (Except.ok ∘ Instr.qimEmb) operand)
  all_goals rfl

/-! ### The reserved words -/

/-- R103: the words that some row accepts. -/
theorem exists_accepts_iff (w : Word) :
    (∃ r ∈ opcodeMap, r.accepts w = true) ↔
      w.toNat / 2 ^ 16 = 0 ∧ w.toNat % 256 ∈ opcodeMap.map (·.pattern.toNat)
        ∧ w.toNat / 256 % 256 < argCount (w.toNat % 256) := by
  constructor
  · rintro ⟨r, hr, haccepts⟩
    obtain ⟨upper, opcode, harg⟩ := (accepts_iff hr w).1 haccepts
    exact ⟨upper, List.mem_map.2 ⟨r, hr, opcode.symm⟩, opcode.symm ▸ harg⟩
  · rintro ⟨upper, opcode, harg⟩
    obtain ⟨r, hr, hpattern⟩ := List.mem_map.1 opcode
    exact ⟨r, hr, (accepts_iff hr w).2 ⟨upper, hpattern.symm, hpattern ▸ harg⟩⟩

/-- R103: the arguments with a must-be-0 bit set. -/
theorem argCount_le_iff (op arg : Nat) :
    argCount op ≤ arg ↔ (op = 0x10 ∧ 2 ≤ arg) ∨ (op = 0x40 ∧ 64 ≤ arg) ∨ (op ≠ 0x10 ∧ op ≠ 0x40 ∧ arg ≠ 0) := by
  unfold argCount
  split
  · omega
  split <;> omega

/-- R101: a word that decodes to a command is the well-formed command's own word. -/
theorem encode_of_decode {w : Word} {i : Instr} (h : decode w = .ok i) : i.wellFormed = true ∧ encode i = w := by
  obtain ⟨r, hr, haccepts, rfl⟩ := decode_eq_ok_iff.1 h
  obtain ⟨-, -, harg⟩ := (accepts_iff hr w).1 haccepts
  rw [← toNat_argOf] at harg
  obtain ⟨wf, word⟩ := build_spec hr (argOf w) harg
  exact ⟨wf, word.trans (commandWord_of_accepts hr haccepts)⟩

/-- Settles O2: the refused words are those that no row accepts, and a row accepts the words of its commands only. -/
theorem everyWordHasOneMeaning : Obligations.EveryWordHasOneMeaning := by
  refine ⟨fun w => ?_, fun w i => encode_of_decode⟩
  have refused : decode w = .error (.illegalCommand w) ↔ ¬ ∃ r ∈ opcodeMap, r.accepts w = true := by
    simp only [decode_eq_error_iff, not_exists, not_and]
  rw [refused, exists_accepts_iff, not_and_or, not_and_or, not_lt, argCount_le_iff]
  rfl

/-- Settles O3: each word is the word of a well-formed command. -/
theorem mappedWordsDecode : Obligations.MappedWordsDecode := by
  have roundTrip := decodeOfEncodeIsTheCommand
  exact ⟨roundTrip .nop rfl, roundTrip (.b2b true) rfl, roundTrip (.b2b false) rfl, roundTrip .ecPub rfl,
    roundTrip .blkSt rfl, roundTrip (.qimEmb 63) rfl, roundTrip .paySer rfl, roundTrip .embFrame rfl,
    roundTrip .extVerify rfl⟩

end Sys2Proof
end

section
/-! The proofs of the family `40_bitcodec.md`: the accumulator's bits as integers and bytes (R133), `B2B` (R134), the
refusals of length and capacity (R134, R171, R308), and one parser step (R260). -/

namespace Sys2Proof.Machine

/-! ### Checks, one at a time -/

theorem firstFailed_of_failed {p : Prop} [Decidable p] (h : p) (e : ErrorKind) (n : Nat) (rest : List Check) :
    firstFailed (⟨decide p, e, n⟩ :: rest) = some ⟨true, e, n⟩ := by
  rw [firstFailed_decide, if_pos h]

theorem firstFailed_of_passed {p : Prop} [Decidable p] (h : ¬p) (e : ErrorKind) (n : Nat) (rest : List Check) :
    firstFailed (⟨decide p, e, n⟩ :: rest) = firstFailed rest := by
  rw [firstFailed_decide, if_neg h]

/-- R157: with a usable private scalar the checks that follow `chk_priv` decide. -/
theorem firstFailed_chkPriv_append {s : State} (key : s.KeyReady) (rest : List Check) :
    firstFailed (chkPriv s ++ rest) = firstFailed rest :=
  firstFailed_of_passed (not_or.2 ⟨key.1, not_le.2 key.2⟩) _ _ _

/-- R171: with a usable scalar, salt and nonce the checks of `ENV_SEAL` that are left are those of capacity and of the
peer's key. -/
theorem firstFailed_chkSeal {s : State} (key : s.KeyReady) (salt : s.lenAt 1 = 16) (nonce : s.lenAt 3 = 12) :
    firstFailed (chkSeal s) =
      firstFailed [⟨s.caps.pt.toNat < s.ptLen.toNat, .bufferCapacity, 6⟩,
        ⟨s.caps.ct.toNat < s.ptLen.toNat, .bufferCapacity, 5⟩, ⟨s.peerPoint = none, .invalidPoint, 1⟩] :=
  (firstFailed_chkPriv_append key _).trans (firstFailed_of_passed (by omega) _ _ _)

/-- R134: with its range inside the accumulator the checks of `B2B` that are left are those of whole bytes and of
capacity. -/
theorem firstFailed_chkB2b {s : State} (inside : s.range.start.toNat + s.range.len.toNat ≤ s.ext.accBits.toNat)
    (lenient : Bool) :
    firstFailed (chkB2b lenient s) =
      firstFailed [⟨lenient = false ∧ s.range.len.toNat % 8 ≠ 0, .malformedLength, s.range.len.toNat % 8⟩,
        ⟨s.caps.pt.toNat < s.range.len.toNat / 8, .bufferCapacity, 6⟩] :=
  firstFailed_of_passed (not_lt.2 inside) _ _ _

/-- R134: lenient mode takes every length, strict mode whole bytes. -/
theorem not_malformed {lenient : Bool} {n : Nat} (h : lenient = true ∨ n % 8 = 0) : ¬(lenient = false ∧ n % 8 ≠ 0) := by
  rintro ⟨rfl, hn⟩
  exact h.elim Bool.false_ne_true hn

/-- Settles O38: the checks before the failing one pass, in the order of each command's pseudocode. -/
theorem lengthAndCapacityRefusals : Obligations.LengthAndCapacityRefusals := by
  refine ⟨fun s inside => ⟨fun incomplete => ?_, fun lenient whole full => ?_⟩,
    fun s key salt nonce => ⟨fun full => ?_, fun fits full => ?_, fun fits fits' noPoint => ?_⟩,
    fun s verifying key full => ?_⟩
  · exact exec_failed (i := .b2b false) ((firstFailed_chkB2b inside false).trans
      (firstFailed_of_failed ⟨rfl, incomplete⟩ _ _ _))
  · exact exec_failed (i := .b2b lenient) ((firstFailed_chkB2b inside lenient).trans <|
      (firstFailed_of_passed (not_malformed whole) _ _ _).trans (firstFailed_of_failed full _ _ _))
  · exact exec_failed (i := .envSeal) ((firstFailed_chkSeal key salt nonce).trans (firstFailed_of_failed full _ _ _))
  · exact exec_failed (i := .envSeal) ((firstFailed_chkSeal key salt nonce).trans <|
      (firstFailed_of_passed (not_lt.2 fits) _ _ _).trans (firstFailed_of_failed full _ _ _))
  · exact exec_failed (i := .envSeal) ((firstFailed_chkSeal key salt nonce).trans <|
      (firstFailed_of_passed (not_lt.2 fits) _ _ _).trans <|
      (firstFailed_of_passed (not_lt.2 fits') _ _ _).trans (firstFailed_of_failed noPoint _ _ _))
  · exact exec_failed (i := .extVerify) ((firstFailed_of_passed (not_not.2 verifying) _ _ _).trans <|
      (firstFailed_chkPriv_append key _).trans (firstFailed_of_failed full _ _ _))

/-! ### The bits of a memory as integers and bytes -/

/-- The `n` bits of a memory from bit `c` on. -/
def State.memBits (s : State) (sp : Space) (c n : Nat) : List Bool := (List.range n).map fun i => s.memBit sp (c + i)

@[simp] theorem State.length_memBits (s : State) (sp : Space) (c n : Nat) : (s.memBits sp c n).length = n := by
  simp [State.memBits]

theorem State.memBits_add (s : State) (sp : Space) (c m n : Nat) :
    s.memBits sp c (m + n) = s.memBits sp c m ++ s.memBits sp (c + m) n := by
  simp [State.memBits, List.range_add, Nat.add_assoc]

theorem State.memBits_succ (s : State) (sp : Space) (c n : Nat) :
    s.memBits sp c (n + 1) = s.memBits sp c n ++ [s.memBit sp (c + n)] := s.memBits_add sp c n 1

/-- R133: `acc_uint` is `bits_to_uint` of the accumulator's substring. -/
theorem State.bitsToUint_memBits_acc (s : State) (c w : Nat) : bitsToUint (s.memBits .acc c w) = s.accUint c w := by
  induction w with
  | zero => rfl
  | succ w ih => rw [State.memBits_succ, bitsToUint_concat, ih, State.accUint]

@[simp] theorem State.length_accBytes (s : State) (c n : Nat) : (s.accBytes c n).length = n := by
  simp [State.accBytes]

theorem State.accBytes_succ (s : State) (c n : Nat) :
    s.accBytes c (n + 1) = BitVec.ofNat 8 (s.accUint c 8) :: s.accBytes (c + 8) n := by
  have shift (i : Nat) : c + 8 * (i + 1) = c + 8 + 8 * i := by omega
  simp [State.accBytes, List.range_succ_eq_map, Function.comp_def, shift]

theorem State.getD_accBytes (s : State) (c : Nat) {n k : Nat} (h : k < n) :
    (s.accBytes c n).getD k 0#8 = BitVec.ofNat 8 (s.accUint (c + 8 * k) 8) := by
  simp [State.accBytes, h]

/-- R133: `acc_bytes` is `bits_to_bytes` of the accumulator's substring. -/
theorem State.takeBytes_memBits_acc (s : State) {c n m : Nat} (h : 8 * n ≤ m) :
    takeBytes n (s.memBits .acc c m) = s.accBytes c n := by
  induction n generalizing c m with
  | zero => rfl
  | succ n ih =>
    obtain ⟨k, rfl⟩ : ∃ k, m = 8 + k := Nat.exists_eq_add_of_le (by omega)
    have eight := s.length_memBits .acc c 8
    rw [takeBytes, State.memBits_add, List.take_left' eight, List.drop_left' eight, State.bitsToUint_memBits_acc,
      ih (by omega), State.accBytes_succ]

/-- R13, R14: a bit of a memory by the weights of its byte. -/
theorem State.bitValue_memBit (s : State) (sp : Space) (i : Nat) :
    bitValue (s.memBit sp i) = (s.readByte sp (i / 8)).toNat / 2 ^ (7 - i % 8) % 2 := by
  rw [State.memBit, BitVec.getLsbD, Nat.testBit_eq_decide_div_mod_eq]
  obtain h | h := Nat.mod_two_eq_zero_or_one ((s.readByte sp (i / 8)).toNat / 2 ^ (7 - i % 8)) <;> simp [h, bitValue]

/-- R133: `acc_uint` as the weighted sum over the bits of `ACC`. -/
theorem State.accUint_eq_sum (s : State) (p w : Nat) :
    s.accUint p w =
      ∑ i ∈ Finset.range w, (s.readByte .acc ((p + i) / 8)).toNat / 2 ^ (7 - (p + i) % 8) % 2 * 2 ^ (w - 1 - i) := by
  induction w with
  | zero => rfl
  | succ w ih =>
    rw [State.accUint, ih, State.bitValue_memBit, Finset.sum_range_succ, Finset.mul_sum]
    congr 1
    · refine Finset.sum_congr rfl fun i hi => ?_
      have weight : w + 1 - 1 - i = w - 1 - i + 1 := by have := Finset.mem_range.1 hi; omega
      rw [weight, Nat.pow_succ]
      ring
    · simp

/-! ### `B2B` -/

/-- R78: a write of bytes replaces the memories and nothing else. -/
theorem State.writeBytes_eq_withMems (s : State) (sp : Space) (a : Nat) (bs : List Byte) :
    s.writeBytes sp a bs = s.withMems (s.writeBytes sp a bs).mems := by
  induction bs generalizing s a with
  | nil => rfl
  | cons b bs ih => exact ih (s.writeByte sp a b) (a + 1)

/-- R361: the end of a command that has written `PT_LEN` and memories only. -/
theorem State.endOk_of_eq_withPtLen {s u : State} {n : Word} (h : u = (s.withMems u.mems).withPtLen n) :
    u.endOk = { s with
      ptLen := n, mems := u.endOk.mems
      status := { s.status with done := true, busy := false }, intPend := { s.intPend with done := true } } := by
  obtain ⟨v, rfl⟩ : ∃ v, u = (s.withMems v).withPtLen n := ⟨_, h⟩
  rfl

theorem State.convertRange_eq (s : State) :
    s.convertRange = (s.withMems s.convertRange.mems).withPtLen (BitVec.ofNat 32 (s.range.len.toNat / 8)) :=
  congrArg (fun u => State.withPtLen u _) (s.writeBytes_eq_withMems .pt 0 _)

/-- R134: every byte after the conversion of a range. -/
theorem State.readByte_convertRange (s : State) (sp : Space) (a : Nat) :
    s.convertRange.readByte sp a =
      (s.writeBytes .pt 0 (s.accBytes s.range.start.toNat (s.range.len.toNat / 8))).readByte sp a := (rfl)

/-- R134: `PT` holds the bytes of the range, where they fit. -/
theorem State.readBytes_convertRange {s : State} (fits : s.range.len.toNat / 8 ≤ s.caps.pt.toNat) :
    s.convertRange.readBytes .pt 0 (s.range.len.toNat / 8) = s.accBytes s.range.start.toNat (s.range.len.toNat / 8) := by
  have inside : 0 + (s.accBytes s.range.start.toNat (s.range.len.toNat / 8)).length ≤ memSize s.caps .pt := by
    rw [State.length_accBytes, Nat.zero_add]
    exact fits
  have back := s.readBytes_writeBytes .pt 0 _ inside
  rw [State.length_accBytes] at back
  exact (State.readBytes_congr fun i _ => s.readByte_convertRange .pt (0 + i)).trans back

/-- Settles O34: the checks pass, and the bytes written are those of the accumulator's substring. -/
theorem b2bConvertsTheRange : Obligations.B2bConvertsTheRange := by
  intro s lenient inside whole fits
  have passed : firstFailed (chkB2b lenient s) = none :=
    (firstFailed_chkB2b inside lenient).trans <|
      (firstFailed_of_passed (not_malformed whole) _ _ _).trans (firstFailed_of_passed (not_lt.2 fits) _ _ _)
  refine ⟨s.convertRange.endOk, exec_passed (i := .b2b lenient) passed, ?_, fun sp a other => ?_,
    State.endOk_of_eq_withPtLen s.convertRange_eq⟩
  · have bits : bitsToBytes lenient (s.memBits .acc s.range.start.toNat s.range.len.toNat)
        = .ok (s.accBytes s.range.start.toNat (s.range.len.toNat / 8)) := by
      rw [bitsToBytes_ok (by rwa [State.length_memBits]), State.length_memBits,
        s.takeBytes_memBits_acc (Nat.mul_div_le _ _)]
    exact bits.trans (congrArg _ (State.readBytes_convertRange fits).symm)
  · rw [State.readByte_endOk, State.readByte_convertRange]
    refine s.readByte_writeBytes_other _ fun ⟨pt, _, below⟩ => other ⟨pt, ?_⟩
    rwa [State.length_accBytes, Nat.zero_add] at below

/-! ### The fields of the parser -/

/-- R250: the fourteen fields by kind: width, height, a length byte, a byte string, the ciphertext's length, the
ciphertext. -/
theorem field_cases :
    ∀ f ≤ 13, f = 0 ∨ f = 1 ∨ (∃ i < 5, f = 2 + 2 * i) ∨ (∃ i < 5, f = 3 + 2 * i) ∨ f = 12 ∨ f = 13 := by decide

/-- R250: the widths of the fields, in order. -/
theorem State.fieldWidth_eq_getD (s : State) {f : Nat} (h : f ≤ 13) :
    s.fieldWidth f =
      [16, 16, 8, 8 * s.lenAt 0, 8, 8 * s.lenAt 1, 8, 8 * s.lenAt 2, 8, 8 * s.lenAt 3, 8, 8 * s.lenAt 4, 32,
        8 * s.ctLen].getD f 0 := by
  interval_cases f <;> rfl

section StoreField

variable (s : State) (c : Nat)

theorem State.storeField_zero :
    s.storeField 0 c = s.withHdr { s.hdr with secW := BitVec.ofNat 32 (s.accUint c 16) } := (rfl)

theorem State.storeField_one :
    s.storeField 1 c = s.withHdr { s.hdr with secH := BitVec.ofNat 32 (s.accUint c 16) } := (rfl)

theorem State.storeField_lengthByte {i : Nat} (hi : i < 5) :
    s.storeField (2 + 2 * i) c = s.withHdr (s.hdr.withLen i (s.accUint c 8)) := by
  have index : (2 + 2 * i - 2) / 2 = i := by omega
  rw [State.storeField, if_neg (by omega), if_neg (by omega), if_neg (by omega), if_neg (by omega), if_pos (by omega),
    index]

theorem State.storeField_byteString {i : Nat} (hi : i < 5) :
    s.storeField (3 + 2 * i) c = s.writeBytes .fld (0x100 * i) (s.accBytes c (s.lenAt i)) := by
  have index : (3 + 2 * i - 3) / 2 = i := by omega
  rw [State.storeField, if_neg (by omega), if_neg (by omega), if_neg (by omega), if_neg (by omega), if_neg (by omega),
    index]

theorem State.storeField_twelve :
    s.storeField 12 c = s.withHdr { s.hdr with ctLenLo := BitVec.ofNat 32 (s.accUint c 32), ctLenHi := 0#32 } := (rfl)

theorem State.storeField_thirteen : s.storeField 13 c = s := (rfl)

theorem State.withHdr_eq_withMems (hdr : HdrRegs) : s.withHdr hdr = (s.withHdr hdr).withMems s.mems := (rfl)

/-- R260: a field goes to the header registers and the memories only. -/
theorem State.storeField_eq_withHdr_withMems (f : Nat) :
    ∃ hdr mems, s.storeField f c = (s.withHdr hdr).withMems mems := by
  unfold State.storeField
  split_ifs
  · exact ⟨_, _, s.withHdr_eq_withMems _⟩
  · exact ⟨_, _, s.withHdr_eq_withMems _⟩
  · exact ⟨_, _, s.withHdr_eq_withMems _⟩
  · exact ⟨_, _, s.withHdr_eq_withMems s.hdr⟩
  · exact ⟨_, _, s.withHdr_eq_withMems _⟩
  · exact ⟨s.hdr, _, s.writeBytes_eq_withMems .fld _ _⟩

/-- R260: every byte of `FLD` after a byte-string field; what lies past the end is dropped (log entry 4). -/
theorem State.readByte_storeField_byteString {i : Nat} (hi : i < 5) (a : Nat) :
    (s.storeField (3 + 2 * i) c).readByte .fld a =
      if 0x100 * i ≤ a ∧ a < 0x100 * i + s.lenAt i ∧ a < 0x600 then
        BitVec.ofNat 8 (s.accUint (c + 8 * (a - 0x100 * i)) 8)
      else s.readByte .fld a := by
  rw [State.storeField_byteString s c hi, State.readByte_writeBytes, State.length_accBytes]
  by_cases stored : 0x100 * i ≤ a ∧ a < 0x100 * i + s.lenAt i ∧ a < 0x600
  · rw [if_pos ⟨rfl, stored⟩, if_pos stored, s.getD_accBytes c (by omega)]
  · rw [if_neg fun h => stored h.2, if_neg stored]

/-- R260: the other fields write no byte of memory. -/
theorem State.readByte_storeField_of_not_byteString {f : Nat} (hf : f ≤ 13) (h : ∀ i < 5, f ≠ 3 + 2 * i) (sp : Space)
    (a : Nat) : (s.storeField f c).readByte sp a = s.readByte sp a := by
  obtain rfl | rfl | ⟨i, hi, rfl⟩ | ⟨i, hi, rfl⟩ | rfl | rfl := field_cases f hf
  case inr.inr.inr.inl => exact absurd rfl (h i hi)
  case inr.inr.inl => rw [State.storeField_lengthByte s c hi]; rfl
  all_goals rfl

end StoreField

/-- R46: `LEN[i]` replaced, for an index of the file. -/
theorem HdrRegs.withLen_eq_set (h : HdrRegs) (v : Nat) {i : Nat} (hi : i < 5) :
    h.withLen i v = { h with len := h.len.set i (BitVec.ofNat 32 v) } := by
  simp [HdrRegs.withLen, Vector.set, Vector.setIfInBounds, Array.setIfInBounds, hi]

/-! ### One parser step -/

/-- R260: `NeedMoreBits` exactly when the field is not yet all there. -/
theorem State.parseStep_eq_none_iff {s : State} :
    s.parseStep = none ↔ s.ext.accBits.toNat < s.ext.prsCursor.toNat + s.fieldWidth s.ext.prsFidx.toNat := by
  simp [State.parseStep]

/-- R260: a step stores one field; the rest of it is the parser registers. -/
theorem State.parseStep_eq_withExt {s t : State} (h : s.parseStep = some t) :
    t = (s.storeField s.ext.prsFidx.toNat s.ext.prsCursor.toNat).withExt t.ext := by
  unfold State.parseStep at h
  simp only at h
  split at h
  · simp at h
  · obtain rfl := Option.some.inj h
    rfl

/-- R260: the parser registers after a step, as numbers; the cursor does not pass the accumulated bits. -/
theorem State.parseStep_registers {s t : State} (hf : s.ext.prsFidx.toNat ≤ 13) (h : s.parseStep = some t) :
    t.ext.prsCursor.toNat = s.ext.prsCursor.toNat + s.fieldWidth s.ext.prsFidx.toNat
      ∧ t.ext.prsFidx.toNat = s.ext.prsFidx.toNat + 1
      ∧ t.ext.hdrCursor = if s.ext.prsFidx = 12#4 then t.ext.prsCursor else s.ext.hdrCursor := by
  obtain ⟨fits, ext⟩ := State.parseStep_ext h
  have twelve : s.ext.prsFidx.toNat = 12 ↔ s.ext.prsFidx = 12#4 := BitVec.toNat_inj (y := 12#4)
  rw [ext]
  refine ⟨?_, ?_, if_congr twelve rfl rfl⟩
  · exact Nat.mod_eq_of_lt (fits.trans_lt s.ext.accBits.isLt)
  · exact Nat.mod_eq_of_lt (by omega)

/-- R260: a step changes the header registers, the three parser registers and the memories only. -/
theorem State.parseStep_eq {s t : State} (h : s.parseStep = some t) :
    t = { s with
        hdr := t.hdr, mems := t.mems
        ext := { s.ext with
          prsCursor := t.ext.prsCursor, prsFidx := t.ext.prsFidx, hdrCursor := t.ext.hdrCursor } } := by
  obtain ⟨hdr, mems, store⟩ := s.storeField_eq_withHdr_withMems s.ext.prsCursor.toNat s.ext.prsFidx.toNat
  have step := State.parseStep_eq_withExt h
  rw [store, (State.parseStep_ext h).2] at step
  rw [step]
  rfl

/-- R262: with lengths that fit the regions no field reaches `FLD.PEER`. -/
theorem State.readByte_storeField_peer {s : State} (c : Nat) {f a : Nat} (hf : f ≤ 13) (fit : ∀ i < 5, s.lenAt i ≤ 256)
    (peer : 0x500 ≤ a) : (s.storeField f c).readByte .fld a = s.readByte .fld a := by
  by_cases bytes : ∃ i < 5, f = 3 + 2 * i
  · obtain ⟨i, hi, rfl⟩ := bytes
    have := fit i hi
    rw [State.readByte_storeField_byteString s c hi, if_neg (by omega)]
  · exact s.readByte_storeField_of_not_byteString c hf (fun i hi e => bytes ⟨i, hi, e⟩) .fld a

/-- Settles O52: the step is one stored field and the advance of the parser registers; each kind of field by its
equation. -/
theorem parseStepConsumesOneField : Obligations.ParseStepConsumesOneField := by
  intro s hf f c
  refine ⟨State.parseStep_eq_none_iff, s.fieldWidth_eq_getD hf, s.accUint_eq_sum, fun t ht => ?_⟩
  have store : t = (s.storeField f c).withExt t.ext := State.parseStep_eq_withExt ht
  have hdr : t.hdr = (s.storeField f c).hdr := (congrArg State.hdr store).trans (State.withExt_hdr _ _)
  have byte (sp : Space) (a : Nat) : t.readByte sp a = (s.storeField f c).readByte sp a :=
    congrArg (fun u => u.readByte sp a) store
  obtain ⟨cursor, index, headerEnd⟩ := State.parseStep_registers hf ht
  refine ⟨cursor, index, headerEnd, fun sp a => State.readByte_parseStep_other ht a, fun a peer fit => ?_,
    State.parseStep_eq ht, fun h => ?_, fun h => ?_, fun i h => ?_, fun h => ?_, fun h => ?_, fun h sp a => ?_,
    fun i hi h => ⟨?_, fun k hk below => ?_, fun a outside => ?_⟩⟩
  · rw [byte, State.readByte_storeField_peer c hf fit peer]
  · rw [hdr, h, State.storeField_zero, State.withHdr_hdr]
  · rw [hdr, h, State.storeField_one, State.withHdr_hdr]
  · rw [hdr, h, State.storeField_lengthByte s c i.isLt, State.withHdr_hdr, HdrRegs.withLen_eq_set _ _ i.isLt]
  · rw [hdr, h, State.storeField_twelve, State.withHdr_hdr]
  · rw [hdr, h, State.storeField_thirteen]
  · have noBytes : ∀ i < 5, f ≠ 3 + 2 * i := fun i hi e => h (by rw [e]; interval_cases i <;> decide)
    rw [byte, s.readByte_storeField_of_not_byteString c hf noBytes]
  · rw [hdr, h, State.storeField_byteString s c hi, State.writeBytes_hdr]
  · rw [byte, h, State.readByte_storeField_byteString s c hi, if_pos ⟨by omega, by omega, below⟩, Nat.add_sub_cancel_left]
  · rw [byte, h, State.readByte_storeField_byteString s c hi, if_neg (by omega)]

end Sys2Proof.Machine
end

section
/-! The proofs of the family `41_ecdh_envelope.md`, the points: powers modulo `p` (R151) and `decompress` (R155). -/

namespace Sys2Proof.Machine

/-! ### The field -/

theorem fmul_mod_left (x y : Nat) : fmul (x % P256.p) y = x * y % P256.p := Nat.mod_mul_mod x y P256.p

theorem fmul_mod_mod (x y : Nat) : fmul (x % P256.p) (y % P256.p) = x * y % P256.p := (Nat.mul_mod x y P256.p).symm

/-- R151: square and multiply, by induction on the bits of the exponent. -/
theorem fpowBits_eq_pow_mod (x : Nat) {e bits : Nat} (h : e < 2 ^ bits) : fpowBits x e bits = x ^ e % P256.p := by
  induction bits generalizing e with
  | zero =>
    obtain rfl : e = 0 := by simpa using h
    rw [pow_zero]
    rfl
  | succ bits ih =>
    have square : fmul (fpowBits x (e / 2) bits) (fpowBits x (e / 2) bits) = x ^ (2 * (e / 2)) % P256.p := by
      rw [ih (by omega), fmul_mod_mod, ← pow_add, two_mul]
    rw [fpowBits, square]
    split
    · next odd => rw [fmul_mod_left, ← pow_succ, show 2 * (e / 2) + 1 = e by omega]
    · next even => rw [show 2 * (e / 2) = e by omega]

/-- R151: `fpow` is the power modulo `p`. -/
theorem fpow_eq_pow_mod (x e : Nat) : fpow x e = x ^ e % P256.p := fpowBits_eq_pow_mod x Nat.lt_log2_self

/-- R155: the right side of the curve's equation, reduced once. -/
theorem curveRhs_eq (x : Nat) : curveRhs x = (x ^ 3 + P256.a * x + P256.b) % P256.p := by
  have cube : x * x * x = x ^ 3 := by ring
  unfold curveRhs fadd fmul
  rw [Nat.mod_mul_mod, ← Nat.add_mod, Nat.mod_add_mod, cube]

/-! ### Square roots modulo `p` -/

/-- R155: the square root of the right side of the curve's equation at `x`, when it has one. -/
def rootAt (x : Nat) : Nat := fpow (curveRhs x) ((P256.p + 1) / 4)

/-- Of the two roots `y` and `p - y`, the one of the parity `b`. -/
def rootOfParity (y b : Nat) : Nat := if y % 2 = b then y else P256.p - y

theorem rootAt_lt (x : Nat) : rootAt x < P256.p := by
  rw [rootAt, fpow_eq_pow_mod]
  exact Nat.mod_lt _ (by decide)

theorem rootOfParity_mod_two {y b : Nat} (hy : y < P256.p) (hb : b < 2) : rootOfParity y b % 2 = b := by
  have odd : P256.p % 2 = 1 := by decide
  unfold rootOfParity
  split
  · assumption
  · omega

/-- `p - y` has the square of `y`. -/
theorem sub_sq_mod {n y : Nat} (h : y ≤ n) : (n - y) ^ 2 % n = y ^ 2 % n := by
  obtain ⟨k, rfl⟩ := Nat.exists_eq_add_of_le h
  rw [Nat.add_sub_cancel_left]
  calc k ^ 2 % (y + k) = (k ^ 2 + (y + k) * y) % (y + k) := (Nat.add_mul_mod_self_left _ _ _).symm
    _ = (y ^ 2 + (y + k) * k) % (y + k) := by ring_nf
    _ = y ^ 2 % (y + k) := Nat.add_mul_mod_self_left _ _ _

theorem rootOfParity_sq_mod {y b : Nat} (hy : y < P256.p) : rootOfParity y b ^ 2 % P256.p = y ^ 2 % P256.p := by
  unfold rootOfParity
  split
  · rfl
  · exact sub_sq_mod hy.le

/-! ### `decompress` -/

/-- R155: a string that `decompress` can take: its length, its first byte and its `x`. -/
def CompressedForm (bs : List Byte) : Prop :=
  bs.length = 33 ∧ (bs.headD 0#8 = 0x02#8 ∨ bs.headD 0#8 = 0x03#8) ∧ beInt bs.tail < P256.p

/-- R155: every other string is `Invalid`, by the first check that it fails. -/
theorem decompress_of_not_form {bs : List Byte} (h : ¬CompressedForm bs) : decompress bs = none := by
  cases bs with
  | nil => rfl
  | cons first rest =>
    by_cases len : rest.length = 32
    · by_cases byte : first = 0x02#8 ∨ first = 0x03#8
      · have above : P256.p ≤ beInt rest := not_lt.1 fun below => h ⟨congrArg Nat.succ len, byte, below⟩
        rw [decompress, if_neg (not_not.2 len), if_neg (not_and_or.2 (byte.imp not_not.2 not_not.2))]
        exact if_pos above
      · rw [decompress, if_neg (not_not.2 len), if_pos (not_or.1 byte)]
    · rw [decompress, if_pos len]

/-- R155: a first byte and 32 bytes more of the form have the root of the first byte's parity, if their `x` has any. -/
theorem decompress_cons {first : Byte} {rest : List Byte} (len : rest.length = 32)
    (byte : first = 0x02#8 ∨ first = 0x03#8) (below : beInt rest < P256.p) :
    decompress (first :: rest) =
      if rootAt (beInt rest) ^ 2 % P256.p = curveRhs (beInt rest) then
        some (.affine (beInt rest) (rootOfParity (rootAt (beInt rest)) (first.toNat % 2)))
      else none := by
  have hbyte : ¬(first ≠ 0x02#8 ∧ first ≠ 0x03#8) := not_and_or.2 (byte.imp not_not.2 not_not.2)
  rw [decompress, if_neg (not_not.2 len), if_neg hbyte]
  dsimp only
  rw [if_neg (not_le.2 below), ← rootAt, fmul, ← pow_two, rootOfParity, apply_ite (Point.affine _), apply_ite some,
    ite_not, ite_not]

/-- R155: the answer to a string of the form. -/
theorem decompress_of_form {bs : List Byte} (h : CompressedForm bs) :
    decompress bs =
      if rootAt (beInt bs.tail) ^ 2 % P256.p = curveRhs (beInt bs.tail) then
        some (.affine (beInt bs.tail) (rootOfParity (rootAt (beInt bs.tail)) ((bs.headD 0#8).toNat % 2)))
      else none := by
  obtain ⟨len, byte, below⟩ := h
  cases bs with
  | nil => simp at len
  | cons first rest => exact decompress_cons (Nat.succ.inj len) byte below

/-- Settles O35: a string of the form is answered by its root, if there is one; every other string is `Invalid`. -/
theorem decompressAnswersACurvePoint : Obligations.DecompressAnswersACurvePoint := by
  refine ⟨fpow_eq_pow_mod, fun bs len byte below => ?_, fun bs malformed => ?_, fun bs P answer => ?_⟩
  · dsimp only
    rw [decompress_of_form ⟨len, byte, below⟩, ← curveRhs_eq]
    exact ⟨fun root => if_pos root, fun noRoot => if_neg noRoot⟩
  · refine decompress_of_not_form fun ⟨len, byte, below⟩ => ?_
    obtain h | ⟨h2, h3⟩ | h := malformed
    · exact h len
    · exact byte.elim h2 h3
    · exact absurd below (not_lt.2 h)
  · by_cases form : CompressedForm bs
    · rw [decompress_of_form form] at answer
      obtain ⟨root, point⟩ := Option.ite_none_right_eq_some.1 answer
      obtain rfl := Option.some.inj point
      have below := rootAt_lt (beInt bs.tail)
      exact ⟨_, rfl, rootOfParity_mod_two below (Nat.mod_lt _ (by decide)),
        ((rootOfParity_sq_mod below).trans root).trans (curveRhs_eq _)⟩
    · rw [decompress_of_not_form form] at answer
      exact absurd answer (by simp)

end Sys2Proof.Machine
end

section
/-! The proofs of the family `41_ecdh_envelope.md`, the envelope: `compress` (R154), `EC_PUB` (R170) and `ENV_SEAL`
(R171). -/

namespace Sys2Proof.Machine

/-! ### Big-endian byte strings -/

@[simp] theorem length_beBytes (v n : Nat) : (beBytes v n).length = n := by
  induction n generalizing v with
  | zero => rfl
  | succ n ih => simp [beBytes, ih]

theorem beInt_concat (bs : List Byte) (b : Byte) : beInt (bs ++ [b]) = 256 * beInt bs + b.toNat := by simp [beInt]

/-- R16: reading back an encoding in `n` bytes gives the value modulo `256^n`. -/
theorem beInt_beBytes (v n : Nat) : beInt (beBytes v n) = v % 256 ^ n := by
  induction n generalizing v with
  | zero => simp [beBytes, beInt, Nat.mod_one]
  | succ n ih =>
    rw [beBytes, beInt_concat, ih, Nat.pow_succ', Nat.mod_mul, BitVec.toNat_ofNat, Nat.add_comm]

/-- R16: byte `i` of an encoding has the weight `256^(n-1-i)`. -/
theorem beBytes_eq_map (v n : Nat) :
    beBytes v n = (List.range n).map fun i => BitVec.ofNat 8 (v / 256 ^ (n - 1 - i)) := by
  induction n generalizing v with
  | zero => rfl
  | succ n ih =>
    rw [beBytes, ih, List.range_succ, List.map_append]
    congr 1
    · refine List.map_congr_left fun i hi => ?_
      have weight : n + 1 - 1 - i = n - 1 - i + 1 := by have := List.mem_range.1 hi; omega
      rw [weight, Nat.pow_succ', Nat.div_div_eq_div_mul]
    · simp

/-! ### `compress` -/

@[simp] theorem length_compress (P : Point) : (compress P).length = 33 := by simp [compress]

/-- R154: the first byte by the parity of `y`, then the bytes of `x`. -/
theorem compress_affine (x y : Nat) :
    compress (.affine x y) =
      (if y % 2 = 0 then 0x02#8 else 0x03#8) :: (List.range 32).map fun i => BitVec.ofNat 8 (x / 256 ^ (31 - i)) := by
  have head : BitVec.ofNat 8 (0x02 + y % 2) = if y % 2 = 0 then 0x02#8 else 0x03#8 := by
    obtain h | h := Nat.mod_two_eq_zero_or_one y <;> rw [h] <;> rfl
  rw [compress, beBytes_eq_map]
  exact congrArg (· :: _) head

/-! ### The stores of the envelope: what each one puts in its place, and what it leaves alone -/

section Stores

variable (s : State)

/-- The header registers are no memory. -/
theorem State.readByte_withHdr (hdr : HdrRegs) (sp : Space) (a : Nat) :
    (s.withHdr hdr).readByte sp a = s.readByte sp a := (rfl)

theorem State.readBytes_withHdr (hdr : HdrRegs) (sp : Space) (a n : Nat) :
    (s.withHdr hdr).readBytes sp a n = s.readBytes sp a n := (rfl)

/-- Bytes written inside a memory read back, their number given by name. -/
theorem State.readBytes_writeBytes_of_length {sp : Space} {a n : Nat} {bs : List Byte} (len : bs.length = n)
    (inside : a + n ≤ memSize s.caps sp) : (s.writeBytes sp a bs).readBytes sp a n = bs := by
  subst len
  exact s.readBytes_writeBytes sp a bs inside

theorem State.readByte_publishKey_outside (d : Nat) {sp : Space} {a : Nat} (h : ¬(sp = .fld ∧ a < 33)) :
    (s.publishKey d).readByte sp a = s.readByte sp a := by
  rw [State.publishKey, State.readByte_withHdr, State.readByte_writeBytes_other]
  rw [length_compress]
  exact fun ⟨space, _, below⟩ => h ⟨space, by omega⟩

theorem State.readBytes_publishKey (d : Nat) :
    (s.publishKey d).readBytes .fld 0x000 33 = compress (pmul d P256.G) := by
  rw [State.publishKey, State.readBytes_withHdr, s.readBytes_writeBytes_of_length (length_compress _)]
  simp [memSize]

theorem State.readByte_storeCiphertext_outside (ct : List Byte) {sp : Space} {a : Nat}
    (h : ¬(sp = .ct ∧ a < ct.length)) : (s.storeCiphertext ct).readByte sp a = s.readByte sp a := by
  rw [State.storeCiphertext, State.readByte_withHdr, State.readByte_writeBytes_other]
  exact fun ⟨space, _, below⟩ => h ⟨space, by omega⟩

theorem State.readBytes_storeCiphertext {ct : List Byte} {n : Nat} (len : ct.length = n) (fits : n ≤ s.caps.ct.toNat) :
    (s.storeCiphertext ct).readBytes .ct 0 n = ct := by
  rw [State.storeCiphertext, State.readBytes_withHdr, s.readBytes_writeBytes_of_length len]
  rwa [Nat.zero_add]

theorem State.readByte_storeTag_outside (tag : BitVec 128) {sp : Space} {a : Nat}
    (h : ¬(sp = .fld ∧ 0x400 ≤ a ∧ a < 0x410)) : (s.storeTag tag).readByte sp a = s.readByte sp a := by
  rw [State.storeTag, State.readByte_withHdr, State.readByte_writeBytes_other]
  rwa [length_beBytes]

theorem State.readBytes_storeTag (tag : BitVec 128) :
    (s.storeTag tag).readBytes .fld 0x400 16 = beBytes tag.toNat 16 := by
  rw [State.storeTag, State.readBytes_withHdr, s.readBytes_writeBytes_of_length (length_beBytes _ _)]
  simp [memSize]

theorem State.readByte_storeHash_outside (hash : BitVec 256) {sp : Space} {a : Nat}
    (h : ¬(sp = .fld ∧ 0x200 ≤ a ∧ a < 0x220)) : (s.storeHash hash).readByte sp a = s.readByte sp a := by
  rw [State.storeHash, State.readByte_withHdr, State.readByte_writeBytes_other]
  rwa [length_beBytes]

theorem State.readBytes_storeHash (hash : BitVec 256) :
    (s.storeHash hash).readBytes .fld 0x200 32 = beBytes hash.toNat 32 := by
  rw [State.storeHash, State.readBytes_withHdr, s.readBytes_writeBytes_of_length (length_beBytes _ _)]
  simp [memSize]

/-- R55: the hidden registers are no memory. -/
theorem State.readByte_deriveKey (X : Crypto) (d : Nat) (Q : Point) (n : Nat) (sp : Space) (a : Nat) :
    (s.deriveKey X d Q n).readByte sp a = s.readByte sp a := (rfl)

theorem State.readByte_clearSecrets (sp : Space) (a : Nat) : s.clearSecrets.readByte sp a = s.readByte sp a := (rfl)

@[simp] theorem State.publishKey_hdr (d : Nat) :
    (s.publishKey d).hdr = { s.hdr with len := s.hdr.len.set 0 33#32 } := by
  simp [State.publishKey, HdrRegs.withLen_eq_set]

@[simp] theorem State.storeCiphertext_hdr (ct : List Byte) :
    (s.storeCiphertext ct).hdr = { s.hdr with ctLenLo := s.ptLen, ctLenHi := 0#32 } := by
  simp [State.storeCiphertext]

@[simp] theorem State.storeTag_hdr (tag : BitVec 128) :
    (s.storeTag tag).hdr = { s.hdr with len := s.hdr.len.set 4 16#32 } := by
  simp [State.storeTag, HdrRegs.withLen_eq_set]

@[simp] theorem State.storeHash_hdr (hash : BitVec 256) :
    (s.storeHash hash).hdr = { s.hdr with len := s.hdr.len.set 2 32#32 } := by
  simp [State.storeHash, HdrRegs.withLen_eq_set]

end Stores

theorem State.readBytes_endOk (s : State) (sp : Space) (a n : Nat) :
    s.endOk.readBytes sp a n = s.readBytes sp a n := (rfl)

/-- R361: the end of a command that has written the header registers, the hidden registers and memories only. -/
theorem State.endOk_of_eq_withHdr {s u : State} {hdr : HdrRegs} {hidden : HiddenRegs}
    (h : u = ((s.withMems u.mems).withHidden hidden).withHdr hdr) :
    u.endOk = { s with
      hdr := hdr, hidden := hidden, mems := u.endOk.mems
      status := { s.status with done := true, busy := false }, intPend := { s.intPend with done := true } } := by
  obtain ⟨v, rfl⟩ : ∃ v, u = ((s.withMems v).withHidden hidden).withHdr hdr := ⟨_, h⟩
  rfl

/-! ### `EC_PUB` -/

theorem State.publishKey_eq (s : State) (d : Nat) :
    s.publishKey d =
      ((s.withMems (s.publishKey d).mems).withHidden s.hidden).withHdr
        { s.hdr with len := s.hdr.len.set 0 33#32 } := by
  apply State.eq_of_fields <;> simp

/-- Settles O36: the check passes, and the rule writes the public key and its length. -/
theorem ecPubStoresThePublicKey : Obligations.EcPubStoresThePublicKey := by
  refine ⟨fun s key => ⟨(s.publishKey s.privScalar).endOk, exec_passed (i := .ecPub) ?_, ?_, fun sp a other => ?_,
    State.endOk_of_eq_withHdr (s.publishKey_eq s.privScalar)⟩, compress_affine⟩
  · exact firstFailed_chkPriv_append key []
  · rw [State.readBytes_endOk, State.readBytes_publishKey]
  · rw [State.readByte_endOk, s.readByte_publishKey_outside s.privScalar other]

/-! ### `ENV_SEAL` -/

/-- R171: the plaintext of `ENV_SEAL`. -/
def State.plaintext (s : State) : List Byte := s.readBytes .pt 0 s.ptLen.toNat

/-- R160, R171: the key of the envelope, for the scalar `d`, the peer's point `Q` and the salt in `FLD`. -/
def State.envelopeKey (X : Crypto) (s : State) (d : Nat) (Q : Point) : BitVec 256 :=
  hkdf X (ecdh d Q) (s.readBytes .fld 0x100 16)

/-- R161, R171: the ciphertext and the tag of the envelope. -/
def State.sealed (X : Crypto) (s : State) (d : Nat) (Q : Point) : List Byte × BitVec 128 :=
  aeadEnc X s.plaintext (s.envelopeKey X d Q) s.nonce

theorem State.nonce_congr {s t : State} (h : ∀ i < 12, t.readByte .fld (0x300 + i) = s.readByte .fld (0x300 + i)) :
    t.nonce = s.nonce := by
  rw [State.nonce, State.readBytes_congr h, ← State.nonce]

section Seal

variable (X : Crypto) (s : State) (d : Nat) (Q : Point)

@[simp] theorem State.length_sealed : (s.sealed X d Q).1.length = s.ptLen.toNat := by
  simp [State.sealed, aeadEnc, State.plaintext]

/-- R171: `ENV_SEAL` is its four stores and the clearing of the secrets; the public key, stored first, does not
reach what the later steps read. -/
theorem State.seal_eq :
    s.seal X d Q =
      (((((s.publishKey d).deriveKey X d Q 16).storeCiphertext (s.sealed X d Q).1).storeTag
        (s.sealed X d Q).2).storeHash (X.sha3 s.plaintext)).clearSecrets := by
  have pt : ((s.publishKey d).deriveKey X d Q 16).readBytes .pt 0 s.ptLen.toNat = s.plaintext :=
    State.readBytes_congr fun i _ => by rw [State.readByte_deriveKey, s.readByte_publishKey_outside d (by simp)]
  have salt : (s.publishKey d).readBytes .fld 0x100 16 = s.readBytes .fld 0x100 16 :=
    State.readBytes_congr fun i _ => s.readByte_publishKey_outside d (by omega)
  have key : ((s.publishKey d).deriveKey X d Q 16).hidden.key = s.envelopeKey X d Q := by
    rw [State.deriveKey_hidden, salt, State.envelopeKey]
  have nonce : ((s.publishKey d).deriveKey X d Q 16).nonce = s.nonce :=
    State.nonce_congr fun i _ => by rw [State.readByte_deriveKey, s.readByte_publishKey_outside d (by omega)]
  have len : ((s.publishKey d).deriveKey X d Q 16).ptLen = s.ptLen := by simp
  unfold State.seal
  dsimp only
  rw [len, pt, key, nonce, ← State.sealed]

theorem State.seal_hdr :
    (s.seal X d Q).hdr =
      { s.hdr with len := ((s.hdr.len.set 0 33#32).set 4 16#32).set 2 32#32, ctLenLo := s.ptLen, ctLenHi := 0#32 } := by
  simp [State.seal_eq]

theorem State.seal_hidden : (s.seal X d Q).hidden = { s.hidden with ss := 0#256, key := 0#256 } := by
  simp [State.seal_eq]

theorem State.seal_eq_withHdr :
    s.seal X d Q =
      ((s.withMems (s.seal X d Q).mems).withHidden { s.hidden with ss := 0#256, key := 0#256 }).withHdr
        { s.hdr with
          len := ((s.hdr.len.set 0 33#32).set 4 16#32).set 2 32#32, ctLenLo := s.ptLen, ctLenHi := 0#32 } := by
  apply State.eq_of_fields <;> simp [State.seal_hdr, State.seal_hidden]

theorem State.readByte_seal_outside {sp : Space} {a : Nat}
    (fld : ¬(sp = .fld ∧ (a < 33 ∨ (0x200 ≤ a ∧ a < 0x220) ∨ (0x400 ≤ a ∧ a < 0x410))))
    (ct : ¬(sp = .ct ∧ a < s.ptLen.toNat)) : (s.seal X d Q).readByte sp a = s.readByte sp a := by
  rw [State.seal_eq, State.readByte_clearSecrets,
    State.readByte_storeHash_outside _ _ fun ⟨space, h⟩ => fld ⟨space, .inr (.inl h)⟩,
    State.readByte_storeTag_outside _ _ fun ⟨space, h⟩ => fld ⟨space, .inr (.inr h)⟩,
    State.readByte_storeCiphertext_outside _ _ (by rwa [State.length_sealed]), State.readByte_deriveKey,
    State.readByte_publishKey_outside _ _ fun ⟨space, h⟩ => fld ⟨space, .inl h⟩]

theorem State.readBytes_seal_publicKey : (s.seal X d Q).readBytes .fld 0x000 33 = compress (pmul d P256.G) := by
  rw [State.seal_eq, ← s.readBytes_publishKey d]
  refine State.readBytes_congr fun i _ => ?_
  rw [State.readByte_clearSecrets, State.readByte_storeHash_outside _ _ (by omega),
    State.readByte_storeTag_outside _ _ (by omega), State.readByte_storeCiphertext_outside _ _ (by simp),
    State.readByte_deriveKey]

theorem State.readBytes_seal_ciphertext {s : State} (fits : s.ptLen.toNat ≤ s.caps.ct.toNat) :
    (s.seal X d Q).readBytes .ct 0 s.ptLen.toNat = (s.sealed X d Q).1 := by
  have back := ((s.publishKey d).deriveKey X d Q 16).readBytes_storeCiphertext (s.length_sealed X d Q)
    (by simpa using fits)
  rw [State.seal_eq]
  refine (State.readBytes_congr fun i _ => ?_).trans back
  rw [State.readByte_clearSecrets, State.readByte_storeHash_outside _ _ (by simp),
    State.readByte_storeTag_outside _ _ (by simp)]

theorem State.readBytes_seal_tag :
    (s.seal X d Q).readBytes .fld 0x400 16 = beBytes (s.sealed X d Q).2.toNat 16 := by
  rw [State.seal_eq, ← State.readBytes_storeTag]
  refine State.readBytes_congr fun i _ => ?_
  rw [State.readByte_clearSecrets, State.readByte_storeHash_outside _ _ (by omega)]

theorem State.readBytes_seal_hash :
    (s.seal X d Q).readBytes .fld 0x200 32 = beBytes (X.sha3 s.plaintext).toNat 32 := by
  rw [State.seal_eq, ← State.readBytes_storeHash]
  exact State.readBytes_congr fun i _ => State.readByte_clearSecrets _ _ _

end Seal

/-- R171: the checks of `ENV_SEAL`, all of which pass. -/
theorem firstFailed_chkSeal_eq_none {s : State} {Q : Point} (key : s.KeyReady) (salt : s.lenAt 1 = 16)
    (nonce : s.lenAt 3 = 12) (fits : s.ptLen.toNat ≤ s.caps.pt.toNat) (fits' : s.ptLen.toNat ≤ s.caps.ct.toNat)
    (peer : s.peerPoint = some Q) : firstFailed (chkSeal s) = none :=
  (firstFailed_chkSeal key salt nonce).trans <|
    (firstFailed_of_passed (not_lt.2 fits) _ _ _).trans <|
    (firstFailed_of_passed (not_lt.2 fits') _ _ _).trans (firstFailed_of_passed (by simp [peer]) _ _ _)

/-- R171: what `ENV_SEAL` answers when its checks pass. -/
theorem envSeal_passed (X : Crypto) {s : State} {Q : Point} (key : s.KeyReady) (salt : s.lenAt 1 = 16)
    (nonce : s.lenAt 3 = 12) (fits : s.ptLen.toNat ≤ s.caps.pt.toNat) (fits' : s.ptLen.toNat ≤ s.caps.ct.toNat)
    (peer : s.peerPoint = some Q) : envSeal X s = .next (s.seal X s.privScalar Q).endOk := by
  rw [envSeal, runCommand_passed (firstFailed_chkSeal_eq_none key salt nonce fits fits' peer), peer, Option.getD_some]

/-- Settles O37: each part of the envelope is in the place of its store, which no later store reaches. -/
theorem envSealBuildsTheEnvelope : Obligations.EnvSealBuildsTheEnvelope := by
  intro s Q key salt nonce fits fits' peer
  refine ⟨(s.seal Config.crypto s.privScalar Q).endOk, envSeal_passed Config.crypto key salt nonce fits fits' peer,
    ?_, ?_, ?_, ?_, fun sp a fld ct => ?_, State.endOk_of_eq_withHdr (s.seal_eq_withHdr Config.crypto s.privScalar Q)⟩
  · rw [State.readBytes_endOk, State.readBytes_seal_publicKey]
  · rw [State.readBytes_endOk, State.readBytes_seal_ciphertext _ _ _ fits']
    rfl
  · rw [State.readBytes_endOk, State.readBytes_seal_tag]
    rfl
  · rw [State.readBytes_endOk, State.readBytes_seal_hash]
    rfl
  · rw [State.readByte_endOk, State.readByte_seal_outside _ _ _ _ fld ct]

end Sys2Proof.Machine
end

section
/-! The proofs of the family `41_ecdh_envelope.md`, the round trip from `ENV_SEAL` to `EXT_VERIFY` (R174, R308). -/

namespace Sys2Proof.Machine

/-! ### What `EXT_VERIFY` reads -/

/-- R133: the accumulator's bytes depend on the bytes of `ACC` only. -/
theorem State.accBytes_congr {s t : State} (h : ∀ a, t.readByte .acc a = s.readByte .acc a) (c n : Nat) :
    t.accBytes c n = s.accBytes c n := by
  simp only [State.accBytes, State.accUint_eq_sum, h]

theorem State.lenAt_congr {s t : State} (h : t.hdr = s.hdr) (i : Nat) : t.lenAt i = s.lenAt i := by
  rw [State.lenAt, State.lenAt, h]

theorem State.ctLen_congr {s t : State} (h : t.hdr = s.hdr) : t.ctLen = s.ctLen := by
  rw [State.ctLen, State.ctLen, h]

/-- R171: the lengths that `ENV_SEAL` writes, and those it keeps. -/
theorem State.seal_lengths (X : Crypto) (s : State) (d : Nat) (Q : Point) :
    (s.seal X d Q).lenAt 0 = 33 ∧ (s.seal X d Q).lenAt 1 = s.lenAt 1 ∧ (s.seal X d Q).lenAt 2 = 32
      ∧ (s.seal X d Q).lenAt 3 = s.lenAt 3 ∧ (s.seal X d Q).lenAt 4 = 16
      ∧ (s.seal X d Q).ctLen = s.ptLen.toNat := by
  simp [State.lenAt, State.ctLen, State.seal_hdr]

/-- R54: the tag in `FLD` is the one whose bytes stand there. -/
theorem State.tag_of_readBytes {s : State} {tag : BitVec 128}
    (h : s.readBytes .fld 0x400 16 = beBytes tag.toNat 16) : s.tag = tag := by
  rw [State.tag, h, beInt_beBytes]
  apply BitVec.eq_of_toNat_eq
  have width : 256 ^ 16 = 2 ^ 128 := by norm_num
  rw [BitVec.toNat_ofNat, width, Nat.mod_mod, Nat.mod_eq_of_lt tag.isLt]

/-! ### A verification that succeeds -/

/-- R308, R311: what the release of a plaintext leaves. -/
theorem State.releasePlaintext_result {s : State} {pt : List Byte} (len : pt.length = s.ctLen)
    (fits : s.ctLen ≤ s.caps.pt.toNat) :
    (s.releasePlaintext pt).ext.state = .done ∧ (s.releasePlaintext pt).ptLen = BitVec.ofNat 32 s.ctLen
      ∧ (s.releasePlaintext pt).readBytes .pt 0 s.ctLen = pt
      ∧ (s.releasePlaintext pt).status.integrity = s.status.integrity
      ∧ (s.releasePlaintext pt).status.done = true := by
  refine ⟨rfl, rfl, ?_, ?_, rfl⟩
  · have back : (s.writeBytes .pt 0 pt).readBytes .pt 0 s.ctLen = pt :=
      s.readBytes_writeBytes_of_length len (by rwa [Nat.zero_add])
    exact back
  · simp [State.releasePlaintext]

/-- R308: the hash check reads the header and `FLD` only. -/
theorem State.hashMatches_congr {s t : State} (hdr : t.hdr = s.hdr)
    (bytes : ∀ a, t.readByte .fld a = s.readByte .fld a) (X : Crypto) (pt : List Byte) :
    t.hashMatches X pt = s.hashMatches X pt := by
  rw [State.hashMatches, State.hashMatches, State.lenAt_congr hdr, State.readBytes_congr fun i _ => bytes (0x200 + i)]

/-- R308: `EXT_VERIFY` when the sender's key is a point, the ciphertext opens and the hash agrees. -/
theorem State.verify_of_opened {X : Crypto} {r : State} {d : Nat} {E : Point} {pt : List Byte}
    (sender : r.senderPoint = some E) (opened : (r.deriveKey X d E (r.lenAt 1)).openCiphertext X = some pt)
    (hash : r.hashMatches X pt = true) :
    r.verify X d = (r.deriveKey X d E (r.lenAt 1)).clearSecrets.releasePlaintext pt := by
  have cleared : (r.deriveKey X d E (r.lenAt 1)).clearSecrets.hashMatches X pt = true :=
    (State.hashMatches_congr (by simp) (fun _ => by rw [State.readByte_clearSecrets, State.readByte_deriveKey])
      X pt).trans hash
  simp only [State.verify, sender, State.verifyWith, opened, State.finishVerify, State.acceptPlaintext, cleared,
    if_true]

/-- R308: what such a verification leaves. -/
theorem State.verify_result {X : Crypto} {r : State} {d : Nat} {E : Point} {pt : List Byte}
    (sender : r.senderPoint = some E) (opened : (r.deriveKey X d E (r.lenAt 1)).openCiphertext X = some pt)
    (hash : r.hashMatches X pt = true) (len : pt.length = r.ctLen) (fits : r.ctLen ≤ r.caps.pt.toNat) :
    (r.verify X d).ext.state = .done ∧ (r.verify X d).ptLen = BitVec.ofNat 32 r.ctLen
      ∧ (r.verify X d).readBytes .pt 0 r.ctLen = pt ∧ (r.verify X d).status.integrity = r.status.integrity
      ∧ (r.verify X d).status.done = true := by
  have ctLen : (r.deriveKey X d E (r.lenAt 1)).clearSecrets.ctLen = r.ctLen := State.ctLen_congr (by simp)
  have released := State.releasePlaintext_result (s := (r.deriveKey X d E (r.lenAt 1)).clearSecrets)
    (len.trans ctLen.symm) (by simpa [ctLen] using fits)
  rw [State.verify_of_opened sender opened hash]
  simpa [ctLen] using released

/-! ### A receiver of the envelope -/

/-- R174: a receiver `r` holds the envelope that stands in the state `t`: the header fields, and the ciphertext in the
accumulator. -/
structure State.HoldsEnvelope (r t : State) : Prop where
  hdr : r.hdr = t.hdr
  fields : ∀ a < 0x500, r.readByte .fld a = t.readByte .fld a
  ciphertext : r.accBytes r.ext.hdrCursor.toNat r.ctLen = t.readBytes .ct 0 t.ptLen.toNat

theorem State.HoldsEnvelope.readBytes {r t : State} (h : r.HoldsEnvelope t) {a n : Nat} (below : a + n ≤ 0x500) :
    r.readBytes .fld a n = t.readBytes .fld a n :=
  State.readBytes_congr fun i hi => h.fields (a + i) (by omega)

section RoundTrip

variable {X : Crypto} {s r : State} {d d' : Nat} {Q E : Point}

/-- R174: the receiver finds the sender's public key. -/
theorem State.HoldsEnvelope.senderPoint (h : r.HoldsEnvelope (s.seal X d Q)) :
    r.senderPoint = decompress (compress (pmul d P256.G)) := by
  obtain ⟨publicKey, -⟩ := s.seal_lengths X d Q
  rw [State.senderPoint, State.lenAt_congr h.hdr, publicKey, h.readBytes (by decide), State.readBytes_seal_publicKey]

/-- R174: with the same secret the receiver derives the sender's key. -/
theorem State.HoldsEnvelope.key (h : r.HoldsEnvelope (s.seal X d Q)) (salt : s.lenAt 1 = 16)
    (secret : ecdh d' E = ecdh d Q) : (r.deriveKey X d' E (r.lenAt 1)).hidden.key = s.envelopeKey X d Q := by
  obtain ⟨-, saltLength, -⟩ := s.seal_lengths X d Q
  have kept : (s.seal X d Q).readBytes .fld 0x100 16 = s.readBytes .fld 0x100 16 :=
    State.readBytes_congr fun i _ => s.readByte_seal_outside X d Q (by omega) (by simp)
  rw [State.deriveKey_hidden, State.lenAt_congr h.hdr, saltLength, salt, h.readBytes (by decide), kept, secret,
    State.envelopeKey]

theorem State.HoldsEnvelope.nonce (h : r.HoldsEnvelope (s.seal X d Q)) : r.nonce = s.nonce :=
  State.nonce_congr fun i _ => by
    rw [h.fields _ (by omega), s.readByte_seal_outside X d Q (by omega) (by simp)]

theorem State.HoldsEnvelope.tag (h : r.HoldsEnvelope (s.seal X d Q)) : r.tag = (s.sealed X d Q).2 :=
  State.tag_of_readBytes ((h.readBytes (by decide)).trans (s.readBytes_seal_tag X d Q))

/-- R308: deriving the key changes nothing else that the tag check reads. -/
theorem State.openCiphertext_deriveKey (X : Crypto) (r : State) (d : Nat) (E : Point) (n : Nat) :
    (r.deriveKey X d E n).openCiphertext X =
      if r.lenAt 3 = 12 ∧ r.lenAt 4 = 16 then
        aeadDec X (r.accBytes r.ext.hdrCursor.toNat r.ctLen) (r.deriveKey X d E n).hidden.key r.nonce r.tag
      else none := (rfl)

theorem State.seal_ptLen (X : Crypto) (s : State) (d : Nat) (Q : Point) : (s.seal X d Q).ptLen = s.ptLen := by simp

/-- R162, R174: the receiver's ciphertext opens to the sender's plaintext. -/
theorem State.HoldsEnvelope.openCiphertext (law : AeadRoundTrip X) (h : r.HoldsEnvelope (s.seal X d Q))
    (salt : s.lenAt 1 = 16) (nonce : s.lenAt 3 = 12) (fits : s.ptLen.toNat ≤ s.caps.ct.toNat)
    (secret : ecdh d' E = ecdh d Q) : (r.deriveKey X d' E (r.lenAt 1)).openCiphertext X = some s.plaintext := by
  obtain ⟨-, -, -, nonceLength, tagLength, -⟩ := s.seal_lengths X d Q
  have lengths : r.lenAt 3 = 12 ∧ r.lenAt 4 = 16 := by
    rw [State.lenAt_congr h.hdr, State.lenAt_congr h.hdr]
    exact ⟨nonceLength.trans nonce, tagLength⟩
  have ct : r.accBytes r.ext.hdrCursor.toNat r.ctLen = (s.sealed X d Q).1 := by
    rw [h.ciphertext, State.seal_ptLen, State.readBytes_seal_ciphertext _ _ _ fits]
  rw [State.openCiphertext_deriveKey, if_pos lengths, ct, h.key salt secret, h.nonce, h.tag, State.sealed]
  exact law _ _ _

/-- R308, R174: the hash that `ENV_SEAL` stored is the hash of the sender's plaintext. -/
theorem State.HoldsEnvelope.hashMatches (h : r.HoldsEnvelope (s.seal X d Q)) :
    r.hashMatches X s.plaintext = true := by
  obtain ⟨-, -, hash, -⟩ := s.seal_lengths X d Q
  rw [State.hashMatches, State.lenAt_congr h.hdr, hash, h.readBytes (by decide), State.readBytes_seal_hash]
  simp

end RoundTrip

/-- R308: the checks of `EXT_VERIFY` pass. -/
theorem firstFailed_chkVerify_eq_none {r : State} (verifying : r.ext.state = .verifying) (key : r.KeyReady)
    (fits : r.ctLen ≤ r.caps.pt.toNat) : firstFailed (chkVerify r) = none :=
  (firstFailed_of_passed (not_not.2 verifying) _ _ _).trans <|
    (firstFailed_chkPriv_append key _).trans (firstFailed_of_passed (not_lt.2 fits) _ _ _)

/-- Settles O39: the receiver holds the envelope, its key is the sender's, and so its ciphertext opens to the sender's
plaintext, whose hash agrees. -/
theorem envelopeRoundTrip : Obligations.EnvelopeRoundTrip := by
  intro X s t r Q E law key salt nonce fitsPt fitsCt peer sealed verifying key' hdr fields ciphertext fits sender secret
  obtain rfl : (s.seal X s.privScalar Q).endOk = t :=
    Host.Outcome.next.inj ((envSeal_passed X key salt nonce fitsPt fitsCt peer).symm.trans sealed)
  have holds : r.HoldsEnvelope (s.seal X s.privScalar Q) :=
    ⟨by simpa using hdr, fun a ha => (fields a ha).trans (State.readByte_endOk _ _ _),
      by simpa [State.readBytes_endOk] using ciphertext⟩
  obtain ⟨-, -, -, -, -, ctLen⟩ := s.seal_lengths X s.privScalar Q
  have len : r.ctLen = s.ptLen.toNat := (State.ctLen_congr holds.hdr).trans ctLen
  have fitsLen : r.ctLen ≤ r.caps.pt.toNat := len.trans_le fits
  obtain ⟨ended, ptLen, pt, report⟩ :=
    State.verify_result (holds.senderPoint.trans sender) (holds.openCiphertext law salt nonce fitsCt secret)
      holds.hashMatches ((s.length_readBytes .pt 0 _).trans len.symm) fitsLen
  rw [len] at ptLen pt
  exact ⟨_, runCommand_passed (firstFailed_chkVerify_eq_none verifying key' fitsLen), ended,
    ptLen.trans ((BitVec.ofNat_toNat _ _).trans (BitVec.setWidth_eq _)), pt, report⟩

end Sys2Proof.Machine
end

section
/-! The proofs of the family `42_dct.md`, the transforms: the constant ROM (R191), `FDCT` (R200) and `IDCT` (R201). -/

namespace Sys2Proof.Machine

/-! ### The constant ROM -/

/-- R204: the rows of the ROM but the first add up to 0. -/
theorem sum_CQ : ∀ u < 8, ∑ i ∈ Finset.range 8, CQ u i = if u = 0 then 92680 else 0 := by decide

/-- No row of the ROM weighs more than the constant ones, rows 0 and 4. -/
theorem sum_abs_CQ_le : ∀ u < 8, ∑ i ∈ Finset.range 8, |CQ u i| ≤ 92680 := by decide

/-- R191. -/
theorem sum_CQ_sq : ∀ u < 8,
    ∑ i ∈ Finset.range 8, CQ u i ^ 2 =
      if u = 0 ∨ u = 4 then 1073697800 else if u % 2 = 1 then 1073719420 else 1073766676 := by decide

/-- R191: two different rows are nearly orthogonal. -/
theorem abs_sum_CQ_mul_CQ_le : ∀ u < 8, ∀ u' < 8, u ≠ u' → |∑ i ∈ Finset.range 8, CQ u i * CQ u' i| ≤ 37698 := by
  decide

/-! ### The double sums -/

theorem sum8_eq_sum (f : Nat → Int) : sum8 f = ∑ i ∈ Finset.range 8, f i := by
  simp [sum8, Finset.sum_range_succ]

theorem State.forwardSum_eq_sum (s : State) (u v : Nat) :
    s.forwardSum u v =
      ∑ i ∈ Finset.range 8, ∑ j ∈ Finset.range 8, CQ u i * (s.pixAt (8 * i + j)).toNat * CQ v j := by
  simp only [State.forwardSum, sum8_eq_sum]

theorem State.inverseSum_eq_sum (s : State) (i j : Nat) :
    s.inverseSum i j =
      ∑ u ∈ Finset.range 8, ∑ v ∈ Finset.range 8, CQ u i * s.coefAt (8 * u + v) * CQ v j := by
  simp only [State.inverseSum, sum8_eq_sum]

/-- R200: a pixel is at most 255, so the double sum is at most 255 times the weights of its two rows. -/
theorem State.abs_forwardSum_le (s : State) {u v : Nat} (hu : u < 8) (hv : v < 8) :
    |s.forwardSum u v| ≤ 255 * (92680 * 92680) := by
  have term (i j : Nat) :
      |CQ u i * (s.pixAt (8 * i + j)).toNat * CQ v j| ≤ 255 * (|CQ u i| * |CQ v j|) := by
    have pixel : ((s.pixAt (8 * i + j)).toNat : Int) ≤ 255 := by omega
    calc |CQ u i * (s.pixAt (8 * i + j)).toNat * CQ v j|
        = (s.pixAt (8 * i + j)).toNat * (|CQ u i| * |CQ v j|) := by
          rw [abs_mul, abs_mul, Nat.abs_cast]
          ring
      _ ≤ 255 * (|CQ u i| * |CQ v j|) := mul_le_mul_of_nonneg_right pixel (by positivity)
  calc |s.forwardSum u v|
      ≤ ∑ i ∈ Finset.range 8, ∑ j ∈ Finset.range 8, |CQ u i * (s.pixAt (8 * i + j)).toNat * CQ v j| := by
        rw [s.forwardSum_eq_sum]
        exact (Finset.abs_sum_le_sum_abs _ _).trans (Finset.sum_le_sum fun _ _ => Finset.abs_sum_le_sum_abs _ _)
    _ ≤ ∑ i ∈ Finset.range 8, ∑ j ∈ Finset.range 8, 255 * (|CQ u i| * |CQ v j|) :=
        Finset.sum_le_sum fun i _ => Finset.sum_le_sum fun j _ => term i j
    _ = 255 * ((∑ i ∈ Finset.range 8, |CQ u i|) * ∑ j ∈ Finset.range 8, |CQ v j|) := by
        rw [Finset.sum_mul_sum, Finset.mul_sum]
        simp only [Finset.mul_sum]
    _ ≤ 255 * (92680 * 92680) :=
        mul_le_mul_of_nonneg_left
          (mul_le_mul (sum_abs_CQ_le u hu) (sum_abs_CQ_le v hv) (Finset.sum_nonneg fun _ _ => abs_nonneg _) (by decide))
          (by decide)

/-- R204: the double sum of a constant block is the product of the sums of its two rows. -/
theorem State.forwardSum_constant {s : State} {m : Byte} (h : ∀ k < 64, s.pixAt k = m) (u v : Nat) :
    s.forwardSum u v = m.toNat * ((∑ i ∈ Finset.range 8, CQ u i) * ∑ j ∈ Finset.range 8, CQ v j) := by
  rw [s.forwardSum_eq_sum, Finset.sum_mul_sum, Finset.mul_sum]
  refine Finset.sum_congr rfl fun i hi => ?_
  rw [Finset.mul_sum]
  refine Finset.sum_congr rfl fun j hj => ?_
  rw [h _ (by simp only [Finset.mem_range] at hi hj; omega)]
  ring

/-! ### `FDCT` -/

/-- R202: the rounding by 22 bits. -/
theorem rhu_22 (a : Int) : rhu a 22 = (a + 2 ^ 21) / 2 ^ 22 := rfl

/-- R202: the rounding by 38 bits. -/
theorem rhu_38 (a : Int) : rhu a 38 = (a + 2 ^ 37) / 2 ^ 38 := rfl

theorem State.abs_rhu_forwardSum_le (s : State) {u v : Nat} (hu : u < 8) (hv : v < 8) :
    |rhu (s.forwardSum u v) 22| ≤ 522220 := by
  have sum := abs_le.1 (s.abs_forwardSum_le hu hv)
  rw [rhu_22, abs_le]
  omega

/-- R200: the rounded sum fits the coefficient's 32 bits. -/
theorem State.coefAt_fdct_eq_rhu (s : State) {k : Nat} (hk : k < 64) :
    s.fdct.coefAt k = rhu (s.forwardSum (k / 8) (k % 8)) 22 := by
  have fits := abs_le.1 (s.abs_rhu_forwardSum_le (u := k / 8) (v := k % 8) (by omega) (by omega))
  rw [s.coefAt_fdct hk, BitVec.toInt_ofInt, Int.bmod_eq_of_le (by omega) (by omega)]

@[simp] theorem State.coefAt_endOk (s : State) (k : Nat) : s.endOk.coefAt k = s.coefAt k := (rfl)

/-- R361: the end of a command that has written `COEF` only. -/
theorem State.endOk_of_eq_withCoef {s u : State} (h : u = s.withCoef u.coef) :
    u.endOk = { s with
      coef := u.endOk.coef
      status := { s.status with done := true, busy := false }, intPend := { s.intPend with done := true } } := by
  obtain ⟨v, rfl⟩ : ∃ v, u = s.withCoef v := ⟨_, h⟩
  rfl

/-- A command whose checks pass answers what its rule leaves. -/
theorem eq_ruleOf_of_exec {i : Instr} {s t : State} (run : exec i s = .next t)
    (passed : firstFailed (checksOf i s) = none) : t = ruleOf i s := Host.Outcome.next.inj (run.symm.trans (exec_passed passed))

/-- Settles O40: the exact sum is small enough for its rounding to be stored without loss. -/
theorem fdctIsTheRoundedDoubleSum : Obligations.FdctIsTheRoundedDoubleSum := by
  intro s
  refine ⟨s.fdct.endOk, exec_passed rfl, fun u hu v hv => ?_, State.endOk_of_eq_withCoef rfl⟩
  have row : (8 * u + v) / 8 = u := by omega
  have col : (8 * u + v) % 8 = v := by omega
  rw [State.coefAt_endOk, s.coefAt_fdct_eq_rhu (by omega), row, col]
  exact ⟨by rw [rhu_22, s.forwardSum_eq_sum], s.abs_rhu_forwardSum_le hu hv⟩

/-- Settles O42: the rows but the first add up to 0, so every AC sum of a constant block is 0; the facts about the ROM
are finite. -/
theorem constantBlockHasNoAc : Obligations.ConstantBlockHasNoAc := by
  refine ⟨fun s t m constant ran => ?_, rfl, sum_CQ_sq, abs_sum_CQ_mul_CQ_le, by decide⟩
  obtain rfl : t = s.fdct.endOk := eq_ruleOf_of_exec ran rfl
  constructor
  · rw [State.coefAt_endOk, s.coefAt_fdct_eq_rhu (by decide), State.forwardSum_constant constant, rhu_22,
      sum_CQ _ (by decide)]
    rfl
  · intro k hk hk'
    have ac : (∑ i ∈ Finset.range 8, CQ (k / 8) i) * ∑ j ∈ Finset.range 8, CQ (k % 8) j = 0 := by
      rw [sum_CQ _ (by omega), sum_CQ _ (by omega), mul_eq_zero, ite_eq_right_iff, ite_eq_right_iff]
      omega
    rw [State.coefAt_endOk, s.coefAt_fdct_eq_rhu hk', State.forwardSum_constant constant, ac, mul_zero]
    rfl

/-! ### `IDCT` -/

theorem clamp_mem (a : Int) {lo hi : Int} (h : lo ≤ hi) : lo ≤ clamp a lo hi ∧ clamp a lo hi ≤ hi :=
  ⟨le_min (le_max_right a lo) h, min_le_right _ _⟩

/-- R201: the clamped value fits a pixel's 8 bits. -/
theorem State.toNat_pixAt_idct (s : State) {k : Nat} (hk : k < 64) :
    ((s.idct.pixAt k).toNat : Int) = clamp (rhu (s.inverseSum (k / 8) (k % 8)) 38) 0 255 := by
  have fits := clamp_mem (rhu (s.inverseSum (k / 8) (k % 8)) 38) (lo := 0) (hi := 255) (by decide)
  rw [s.pixAt_idct hk, BitVec.toNat_ofInt, Int.emod_eq_of_lt fits.1 (by omega), Int.toNat_of_nonneg fits.1]

/-- Settles O41: the clamp makes the rounded sum a pixel, stored without loss. -/
theorem idctIsTheClampedDoubleSum : Obligations.IdctIsTheClampedDoubleSum := by
  intro s
  refine ⟨s.idct.endOk, exec_passed rfl, fun i hi j hj => ?_, State.endOk_of_eq_withPix rfl⟩
  have row : (8 * i + j) / 8 = i := by omega
  have col : (8 * i + j) % 8 = j := by omega
  rw [State.pixAt_endOk, s.toNat_pixAt_idct (by omega), row, col, rhu_38, s.inverseSum_eq_sum]

end Sys2Proof.Machine
end

section
/-! The proofs of the family `42_dct.md`, the embedding of one block: `EMB_FRAME` and the primitive commands (R208). -/

namespace Sys2Proof.Machine

/-- R200, R206: the block load and the forward transform write no memory. -/
theorem State.memBit_fdct_blkLd (s : State) (br bc : Nat) (sp : Space) (i : Nat) :
    (s.blkLd br bc).fdct.memBit sp i = s.memBit sp i := by
  rw [State.memBit, State.memBit, State.readByte_congr (s := s) (by simp) (by simp) (by simp)]

/-! ### States that agree on what the block operations use -/

/-- The two states have the same frame width, `DELTA`, capacities, memories, free values, pixels and coefficients: the
registers that a block operation reads or writes. -/
structure State.SameBlocks (t s : State) : Prop where
  width : t.frmW = s.frmW
  delta : t.qim.delta = s.qim.delta
  caps : t.caps = s.caps
  mems : t.mems = s.mems
  free : t.free = s.free
  pix : t.pix = s.pix
  coef : t.coef = s.coef

namespace State.SameBlocks

variable {s t u : State}

theorem refl (s : State) : s.SameBlocks s := ⟨rfl, rfl, rfl, rfl, rfl, rfl, rfl⟩

theorem symm (h : t.SameBlocks s) : s.SameBlocks t :=
  ⟨h.width.symm, h.delta.symm, h.caps.symm, h.mems.symm, h.free.symm, h.pix.symm, h.coef.symm⟩

theorem trans (h : u.SameBlocks t) (h' : t.SameBlocks s) : u.SameBlocks s :=
  ⟨h.width.trans h'.width, h.delta.trans h'.delta, h.caps.trans h'.caps, h.mems.trans h'.mems, h.free.trans h'.free,
    h.pix.trans h'.pix, h.coef.trans h'.coef⟩

theorem readByte (h : t.SameBlocks s) (sp : Space) (a : Nat) : t.readByte sp a = s.readByte sp a :=
  State.readByte_congr h.caps h.mems h.free sp a

theorem memBit (h : t.SameBlocks s) (sp : Space) (i : Nat) : t.memBit sp i = s.memBit sp i := by
  rw [State.memBit, State.memBit, h.readByte]

/-- A block's place in `FRAME` depends on the frame's width only (R73). -/
theorem pixelAddr (h : t.SameBlocks s) (br bc k : Nat) : t.pixelAddr br bc k = s.pixelAddr br bc k := by
  simp only [State.pixelAddr, h.width]

/-! One rule for each register that a block operation writes. -/

theorem withStatus (h : t.SameBlocks s) (v w : Status) : (t.withStatus v).SameBlocks (s.withStatus w) :=
  ⟨h.width, h.delta, h.caps, h.mems, h.free, h.pix, h.coef⟩

theorem withQim (h : t.SameBlocks s) {q : QimRegs} (delta : q.delta = t.qim.delta) : (t.withQim q).SameBlocks s :=
  ⟨h.width, delta.trans h.delta, h.caps, h.mems, h.free, h.pix, h.coef⟩

theorem withEmb (h : t.SameBlocks s) (v : EmbRegs) : (t.withEmb v).SameBlocks s :=
  ⟨h.width, h.delta, h.caps, h.mems, h.free, h.pix, h.coef⟩

theorem withFrmBits (h : t.SameBlocks s) (v : Word) : (t.withFrmBits v).SameBlocks s :=
  ⟨h.width, h.delta, h.caps, h.mems, h.free, h.pix, h.coef⟩

theorem withPix (h : t.SameBlocks s) {v w : Vector Byte 64} (e : v = w) : (t.withPix v).SameBlocks (s.withPix w) :=
  ⟨h.width, h.delta, h.caps, h.mems, h.free, e, h.coef⟩

theorem withCoef (h : t.SameBlocks s) {v w : Vector Word 64} (e : v = w) : (t.withCoef v).SameBlocks (s.withCoef w) :=
  ⟨h.width, h.delta, h.caps, h.mems, h.free, h.pix, e⟩

theorem withMems (h : t.SameBlocks s) {v w : Memories} (e : v = w) : (t.withMems v).SameBlocks (s.withMems w) :=
  ⟨h.width, h.delta, h.caps, e, h.free, h.pix, h.coef⟩

/-! ### The block operations keep states alike -/

/-- R361: the end of a command writes flags only. -/
theorem endOk (h : t.SameBlocks s) : t.endOk.SameBlocks s :=
  ⟨h.width, h.delta, h.caps, h.mems, h.free, h.pix, h.coef⟩

theorem blkLd (h : t.SameBlocks s) (br bc : Nat) : (t.blkLd br bc).SameBlocks (s.blkLd br bc) :=
  h.withPix (by simp only [h.pixelAddr, h.readByte])

theorem fdct (h : t.SameBlocks s) : t.fdct.SameBlocks s.fdct := h.withCoef (State.fdct_coef_congr h.pix)

theorem idct (h : t.SameBlocks s) : t.idct.SameBlocks s.idct := h.withPix (State.idct_pix_congr h.coef)

theorem quantIndex (h : t.SameBlocks s) (k : Nat) : t.quantIndex k = s.quantIndex k := by
  rw [State.quantIndex, State.quantIndex, State.coefAt_congr h.coef, h.delta]

theorem embedBit (h : t.SameBlocks s) (k : Nat) (b : Bool) : (t.embedBit k b).SameBlocks (s.embedBit k b) :=
  (h.withStatus _ _).withCoef (by rw [h.coef, h.quantIndex, h.delta])

/-- R226, R228: the same bits go into the same slots. -/
theorem embedSlots (h : t.SameBlocks s) {f g : Nat → Bool} {m : Nat} (bits : ∀ i < m, f i = g i) :
    (t.embedSlots f m).SameBlocks (s.embedSlots g m) := by
  induction m with
  | zero => exact h
  | succ m ih =>
    rw [State.embedSlots, State.embedSlots, bits m m.lt_succ_self]
    exact (ih fun i hi => bits i (by omega)).embedBit (m + 1) (g m)

theorem writeByte (h : t.SameBlocks s) (sp : Space) (a : Nat) (b : Byte) :
    (t.writeByte sp a b).SameBlocks (s.writeByte sp a b) :=
  h.withMems (by rw [h.caps, h.mems])

theorem storePixels (h : t.SameBlocks s) (br bc m : Nat) :
    (t.storePixels br bc m).SameBlocks (s.storePixels br bc m) := by
  induction m with
  | zero => exact h
  | succ m ih =>
    rw [State.storePixels, State.storePixels, h.pixelAddr, State.pixAt_congr h.pix]
    exact ih.writeByte .frame _ _

theorem blkSt (h : t.SameBlocks s) (br bc : Nat) : (t.blkSt br bc).SameBlocks (s.blkSt br bc) :=
  h.storePixels br bc 64

/-- R226: `QIM_EMB` puts the bits of `QBITS` into the slots. -/
theorem embedOffered (h : t.SameBlocks s) {n m : Nat} {bits : Nat → Bool} (count : min n t.neff = m)
    (same : ∀ i < m, t.qbit i = bits i) : (t.embedOffered n).SameBlocks (s.embedSlots bits m) := by
  subst count
  exact (h.embedSlots same).withQim rfl

/-- R228: one block of `frame_embed` does the same to both states. -/
theorem embedBlock (h : t.SameBlocks s) (br bc start m : Nat) :
    (t.embedBlock br bc start m).SameBlocks (s.embedBlock br bc start m) :=
  (((h.blkLd br bc).fdct.embedSlots fun _ _ => (h.blkLd br bc).fdct.memBit _ _).idct).blkSt br bc

end State.SameBlocks

/-! ### The primitive commands -/

theorem State.qimReady_congr {s t : State} (qim : t.qim = s.qim) (h : s.QimReady) : t.QimReady := by
  rwa [State.QimReady, qim]

theorem State.frameReady_congr {s t : State} (frm : t.frm = s.frm) (caps : t.caps = s.caps) (h : s.FrameReady) :
    t.FrameReady := by
  simpa only [State.FrameReady, State.frmW, State.frmH, frm, caps] using h

theorem State.blockReady_congr {s t : State} (frm : t.frm = s.frm) (h : s.BlockReady) : t.BlockReady := by
  simpa only [State.BlockReady, State.frmW, State.frmH, frm] using h

/-- R220. -/
theorem firstFailed_chkQim {s : State} (ready : s.QimReady) : firstFailed (chkQim s) = none :=
  (firstFailed_of_passed ready.1 _ _ _).trans (firstFailed_of_passed ready.2 _ _ _)

/-- R34: the two halves of `QBITS` as the host writes them. -/
theorem State.qbit_of_halves {s : State} {q : BitVec 63} (lo : s.qim.qbitsLo = q.setWidth 32)
    (hi : s.qim.qbitsHi = (q >>> 32).setWidth 31) {i : Nat} (h : i < 63) : s.qbit i = q.getLsbD i := by
  rw [State.qbit, lo, hi, BitVec.getLsbD_append]
  split
  · next lower => simp [lower]
  · simp [show i - 32 < 31 by omega, show 32 + (i - 32) = i by omega]

/-! ### `EMB_FRAME` on a frame of one block -/

/-- R281: the checks of `EMB_FRAME` in an operation with usable parameters. -/
theorem firstFailed_chkEmbFrame {s : State} (progress : s.emb.state.inProgress = true) (qim : s.QimReady)
    (frame : s.FrameReady) : firstFailed (chkEmbFrame s) = none := by
  obtain ⟨hw, hh, hw8, hh8, hcap⟩ := frame
  have frameChecks : firstFailed (chkFrame s) = none :=
    firstFailed_eq_none.2 (by simp [chkFrame, hw, hh, hw8, hh8, hcap])
  rw [chkEmbFrame, firstFailed_cons, firstFailed_append, firstFailed_chkQim qim, frameChecks, progress]
  rfl

/-- R228: a frame of 8 by 8 pixels is the block at row 0 and column 0. -/
theorem State.frameBlocks_of_one {s : State} (width : s.frmW = 8) (height : s.frmH = 8) : s.frameBlocks = [(0, 0)] := by
  rw [State.frameBlocks, width, height]
  rfl

/-- R228: on one block `frame_embed` embeds as many of the `L` bits as the block has slots. -/
theorem State.frameEmbed_of_one {s : State} (width : s.frmW = 8) (height : s.frmH = 8) (start : Nat) {L : Nat}
    (h : 0 < L) : s.frameEmbed start L = (min s.neff L, s.embedBlock 0 0 start (min s.neff L)) := by
  rw [State.frameEmbed, State.frameBlocks_of_one width height, frameEmbedLoop, if_neg h.ne]
  simp [frameEmbedLoop]

/-- R281: while embedding, with the reference kept, `EMB_FRAME` does what `frame_embed` does and counts. -/
theorem State.processFrame_of_embedding {s : State} (embedding : s.emb.state = .embedding)
    (kept : s.status.refValid = true) :
    s.processFrame = s.embedFrame.withEmb { s.embedFrame.emb with frames := s.embedFrame.emb.frames + 1#32 } := by
  simp [State.processFrame, State.keepReference, kept, embedding]

/-- R228, R281: what embedding in a frame of one block leaves. -/
theorem State.embedFrame_of_one {s : State} (width : s.frmW = 8) (height : s.frmH = 8)
    (left : s.emb.cursor.toNat < s.emb.payBits.toNat) :
    let m := min s.neff (s.emb.payBits.toNat - s.emb.cursor.toNat)
    s.embedFrame.SameBlocks (s.embedBlock 0 0 s.emb.cursor.toNat m) ∧ s.embedFrame.frmBits = BitVec.ofNat 32 m := by
  rw [State.embedFrame, State.frameEmbed_of_one width height _ (Nat.sub_pos_of_lt left)]
  constructor
  · exact ((State.SameBlocks.refl _).withFrmBits _).withEmb _
  · simp only [State.withEmb_frmBits, State.withFrmBits_frmBits]

/-- R208: the commands `BLK_LD`, `FDCT`, `QIM_EMB`, `IDCT` and `BLK_ST` do on the addressed block what one block of
`frame_embed` does, when `QBITS` holds the payload's bits. -/
theorem primitives_embed_block {s s1 s2 s3 s4 s5 : State} {n start : Nat} (qim : s.QimReady) (frame : s.FrameReady)
    (block : s.BlockReady) (bits : ∀ i < min n s.neff, s.qbit i = s.memBit .pay (start + i))
    (run1 : exec .blkLd s = .next s1) (run2 : exec .fdct s1 = .next s2) (run3 : exec (.qimEmb n) s2 = .next s3)
    (run4 : exec .idct s3 = .next s4) (run5 : exec .blkSt s4 = .next s5) :
    s5.SameBlocks (s.embedBlock s.frm.blkRow.toNat s.frm.blkCol.toNat start (min n s.neff))
      ∧ s5.qim.qcnt = BitVec.ofNat 7 (min n s.neff) := by
  have e1 : s1 = (s.blkLd s.frm.blkRow.toNat s.frm.blkCol.toNat).endOk :=
    eq_ruleOf_of_exec run1 (firstFailed_chkFrame_chkBlock frame block)
  have e2 : s2 = s1.fdct.endOk := eq_ruleOf_of_exec run2 rfl
  have qim2 : s2.qim = s.qim := by simp [e2, e1]
  have e3 : s3 = (s2.embedOffered n).endOk :=
    eq_ruleOf_of_exec run3 (firstFailed_chkQim (State.qimReady_congr qim2 qim))
  have e4 : s4 = s3.idct.endOk := eq_ruleOf_of_exec run4 rfl
  have frm4 : s4.frm = s.frm := by simp [e4, e3, e2, e1]
  have caps4 : s4.caps = s.caps := by simp [e4, e3, e2, e1]
  have e5 : s5 = (s4.blkSt s.frm.blkRow.toNat s.frm.blkCol.toNat).endOk := frm4 ▸ eq_ruleOf_of_exec run5
    (firstFailed_chkFrame_chkBlock (State.frameReady_congr frm4 caps4 frame) (State.blockReady_congr frm4 block))
  have payload (i : Nat) (hi : i < min n s.neff) : s2.qbit i =
      (s.blkLd s.frm.blkRow.toNat s.frm.blkCol.toNat).fdct.memBit .pay (start + i) := by
    rw [State.qbit, qim2, s.memBit_fdct_blkLd]
    exact bits i hi
  have count : min n s2.neff = min n s.neff := by rw [State.neff_congr qim2]
  have same1 := (State.SameBlocks.refl (s.blkLd s.frm.blkRow.toNat s.frm.blkCol.toNat)).endOk
  rw [← e1] at same1
  have same2 := same1.fdct.endOk
  rw [← e2] at same2
  have same3 := (same2.embedOffered count payload).endOk
  rw [← e3] at same3
  have same4 := same3.idct.endOk
  rw [← e4] at same4
  have same5 := (same4.blkSt s.frm.blkRow.toNat s.frm.blkCol.toNat).endOk
  rw [← e5] at same5
  constructor
  · exact same5
  · rw [← count]
    simp only [e5, e4, e3, State.endOk_frame, State.blkSt_frame, State.idct_frame, State.embedOffered,
      State.withQim_qim]

/-- The state with the block address at 0 and `q` in `QBITS`, as the host writes them before the primitive commands. -/
def State.offering (s : State) (q : BitVec 63) : State :=
  { s with
    frm := { s.frm with blkRow := 0#13, blkCol := 0#13 }
    qim := { s.qim with qbitsLo := q.setWidth 32, qbitsHi := (q >>> 32).setWidth 31 } }

theorem State.offering_sameBlocks (s : State) (q : BitVec 63) : (s.offering q).SameBlocks s :=
  ⟨rfl, rfl, rfl, rfl, rfl, rfl, rfl⟩

theorem State.blockReady_offering {s : State} (width : s.frmW = 8) (height : s.frmH = 8) (q : BitVec 63) :
    (s.offering q).BlockReady := by
  change 0 < s.frmH / 8 ∧ 0 < s.frmW / 8
  rw [width, height]
  decide

/-- R228, R281: what `EMB_FRAME` leaves of a frame of one block. -/
theorem exec_embFrame_of_one {s t : State} (embedding : s.emb.state = .embedding) (kept : s.status.refValid = true)
    (qim : s.QimReady) (width : s.frmW = 8) (height : s.frmH = 8) (frame : s.FrameReady)
    (left : s.emb.cursor.toNat < s.emb.payBits.toNat) (run : exec .embFrame s = .next t) :
    let m := min s.neff (s.emb.payBits.toNat - s.emb.cursor.toNat)
    t.SameBlocks (s.embedBlock 0 0 s.emb.cursor.toNat m) ∧ t.frmBits = BitVec.ofNat 32 m := by
  have passed := firstFailed_chkEmbFrame (by rw [embedding]; rfl) qim frame
  have ended : t = s.processFrame.endOk := eq_ruleOf_of_exec run passed
  obtain ⟨same, count⟩ := State.embedFrame_of_one width height left
  rw [ended, State.processFrame_of_embedding embedding kept]
  exact ⟨(same.withEmb _).endOk, count⟩

/-- Settles O55: `EMB_FRAME` embeds in the one block, and so do the primitive commands from the state in which the host
has put the payload's bits into `QBITS`. -/
theorem embFrameIsTheOneBlockSequence : Obligations.EmbFrameIsTheOneBlockSequence := by
  intro s s1 s2 s3 s4 s5 t q embedding kept qim width height frame left bits run1 run2 run3 run4 run5 run
  have offered : (s.offering q).SameBlocks s := s.offering_sameBlocks q
  have slots : s.neff ≤ 63 := min_le_right _ _
  have count : min (min 63 (s.emb.payBits.toNat - s.emb.cursor.toNat)) (s.offering q).neff =
      min s.neff (s.emb.payBits.toNat - s.emb.cursor.toNat) := by
    change min _ s.neff = _
    omega
  obtain ⟨primitives, qcnt⟩ := primitives_embed_block (s := s.offering q) (start := s.emb.cursor.toNat) qim frame
    (State.blockReady_offering width height q)
    (fun i hi => by
      rw [State.qbit_of_halves (q := q) rfl rfl (by omega), offered.memBit]
      exact bits i (by omega))
    run1 run2 run3 run4 run5
  rw [count] at primitives qcnt
  obtain ⟨driver, frmBits⟩ := exec_embFrame_of_one embedding kept qim width height frame left run
  have same : t.SameBlocks s5 := driver.trans (primitives.trans (offered.embedBlock 0 0 _ _)).symm
  refine ⟨same.pix, same.coef, same.readByte, ?_⟩
  rw [frmBits, qcnt, BitVec.setWidth_ofNat_of_le_of_lt (by decide) (by omega)]

end Sys2Proof.Machine
end

section
/-! The proofs of the family `43_qim.md`, the slots: a bit embedded in a coefficient (R224), `QIM_EMB` (R226) and
`QIM_EXT` (R227). -/

namespace Sys2Proof.Machine

/-! ### The multiple of `DELTA` that carries a bit -/

/-- The multiple of `DELTA` nearest in index to `COEF[k]` that carries the bit `b`, before saturation (R224). -/
def State.slotProduct (s : State) (k : Nat) (b : Bool) : Int := adjustIndex (s.quantIndex k) b * s.qim.delta.toNat

/-- R224: the index that carries a bit has the bit's parity. -/
theorem adjustIndex_mod_two (q : Int) (b : Bool) : adjustIndex q b % 2 = bitValue b := by
  have bit := bitValue_lt_two b
  unfold adjustIndex
  split
  · assumption
  · split
    · next one => subst one; simp only [bitValue, cond_true] at *; omega
    · next zero => simp only [Bool.not_eq_true] at zero; subst zero; simp only [bitValue, cond_false] at *; omega

/-- R224: the index moves by one at most. -/
theorem abs_adjustIndex_sub_le (q : Int) (b : Bool) : |adjustIndex q b - q| ≤ 1 := by
  unfold adjustIndex
  split_ifs <;> simp

/-- R17: a multiple of `d` is nearest to itself. -/
theorem rne_mul_self (q : Int) {d : Int} (hd : 0 < d) : rne (q * d) d = q := by
  have floor : q * d / d = q := Int.mul_ediv_cancel q hd.ne'
  have rest : q * d % d = 0 := Int.mul_emod_left q d
  obtain ⟨-, h⟩ | ⟨habove, -⟩ | ⟨htie, -⟩ := rne_cases (q * d) d
  · exact h.trans floor
  · omega
  · omega

/-- R17: what `sat32` answers fits 32 bits. -/
theorem toInt_ofInt_sat32 (v : Int) : (BitVec.ofInt 32 (sat32 v)).toInt = sat32 v := by
  have fits := clamp_mem v (lo := -2 ^ 31) (hi := 2 ^ 31 - 1) (by decide)
  rw [BitVec.toInt_ofInt]
  exact Int.bmod_eq_of_le fits.1 (by unfold sat32; omega)

/-- R17: a value of 32 bits is not saturated. -/
theorem sat32_of_abs_lt {v : Int} (h : |v| < 2 ^ 31) : sat32 v = v := by
  obtain ⟨lo, hi⟩ := abs_lt.1 h
  unfold sat32 clamp
  omega

/-! ### Embedding in slots -/

theorem State.sat_embedBit (s : State) (k : Nat) (b : Bool) :
    (s.embedBit k b).status.sat = (s.status.sat || s.slotProduct k b != sat32 (s.slotProduct k b)) := (rfl)

theorem State.coefAt_embedBit_same (s : State) {k : Nat} (hk : k < 64) (b : Bool) :
    (s.embedBit k b).coefAt k = sat32 (s.slotProduct k b) := by
  rw [s.coefAt_embedBit k k b hk, if_pos rfl, toInt_ofInt_sat32]
  rfl

theorem State.coefAt_embedBit_other (s : State) {k j : Nat} (hk : k < 64) (hj : j ≠ k) (b : Bool) :
    (s.embedBit k b).coefAt j = s.coefAt j := by
  rw [s.coefAt_embedBit k j b hk, if_neg hj]

/-- R223, R224: the product depends on the coefficient and `DELTA` only. -/
theorem State.slotProduct_congr {s t : State} {k : Nat} (coef : t.coefAt k = s.coefAt k)
    (delta : t.qim.delta = s.qim.delta) (b : Bool) : t.slotProduct k b = s.slotProduct k b := by
  rw [State.slotProduct, State.slotProduct, State.quantIndex, State.quantIndex, coef, delta]

/-- R226: slots 1 to `m` hold the saturated products, every other coefficient is kept. -/
theorem State.coefAt_embedSlots (s : State) (bits : Nat → Bool) {m : Nat} (hm : m ≤ 63) (k : Nat) :
    (s.embedSlots bits m).coefAt k =
      if 1 ≤ k ∧ k ≤ m then sat32 (s.slotProduct k (bits (k - 1))) else s.coefAt k := by
  induction m with
  | zero => rw [if_neg (by omega)]; rfl
  | succ m ih =>
    have before := ih (by omega)
    rw [State.embedSlots]
    by_cases hk : k = m + 1
    · subst hk
      rw [if_neg (by omega)] at before
      rw [State.coefAt_embedBit_same _ (by omega), if_pos (by omega), Nat.add_sub_cancel,
        State.slotProduct_congr before (by simp)]
    · rw [State.coefAt_embedBit_other _ (by omega) hk, before]
      exact if_congr (by omega) rfl rfl

/-- R224, R226: `SAT` is set when a slot's product saturates, and never cleared. -/
theorem State.sat_embedSlots (s : State) (bits : Nat → Bool) {m : Nat} (hm : m ≤ 63) :
    (s.embedSlots bits m).status.sat = true ↔
      s.status.sat = true
        ∨ ∃ k, 1 ≤ k ∧ k ≤ m ∧ s.slotProduct k (bits (k - 1)) ≠ sat32 (s.slotProduct k (bits (k - 1))) := by
  induction m with
  | zero => exact ⟨.inl, fun h => h.elim id fun ⟨k, h1, h0, _⟩ => by omega⟩
  | succ m ih =>
    have before := s.coefAt_embedSlots bits (m := m) (by omega) (m + 1)
    rw [if_neg (by omega)] at before
    rw [State.embedSlots, State.sat_embedBit, State.slotProduct_congr before (by simp), Bool.or_eq_true, ih (by omega),
      bne_iff_ne, or_assoc]
    refine or_congr_right ⟨?_, ?_⟩
    · rintro (⟨k, h1, hk, h⟩ | h)
      · exact ⟨k, h1, by omega, h⟩
      · exact ⟨m + 1, by omega, le_rfl, h⟩
    · rintro ⟨k, h1, hk, h⟩
      obtain hk | rfl := Nat.le_succ_iff.1 hk
      · exact .inl ⟨k, h1, hk, h⟩
      · exact .inr h

/-- R226: embedding in slots writes `SAT` and `COEF` only. -/
theorem State.embedSlots_eq (s : State) (bits : Nat → Bool) (m : Nat) :
    s.embedSlots bits m =
      (s.withStatus { s.status with sat := (s.embedSlots bits m).status.sat }).withCoef (s.embedSlots bits m).coef := by
  obtain ⟨b, status⟩ := s.embedSlots_status bits m
  apply State.eq_of_fields <;> simp [status]

/-- R361: the end of a command that has written `SAT`, `COEF` and the modulator's registers only. -/
theorem State.endOk_of_eq_withQim {s u : State} {q : QimRegs}
    (h : u = ((s.withStatus { s.status with sat := u.status.sat }).withCoef u.coef).withQim q) :
    u.endOk = { s with
      coef := u.endOk.coef, qim := q
      status := { s.status with sat := u.endOk.status.sat, done := true, busy := false }
      intPend := { s.intPend with done := true } } := by
  obtain ⟨sat, coef, rfl⟩ : ∃ sat coef, u = ((s.withStatus { s.status with sat := sat }).withCoef coef).withQim q :=
    ⟨_, _, h⟩
  rfl

theorem State.embedOffered_eq (s : State) (n : Nat) :
    s.embedOffered n =
      ((s.withStatus { s.status with sat := (s.embedOffered n).status.sat }).withCoef (s.embedOffered n).coef).withQim
        { s.qim with qcnt := BitVec.ofNat 7 (min n s.neff) } :=
  (congrArg (fun u : State => u.withQim { u.qim with qcnt := BitVec.ofNat 7 (min n s.neff) })
    (s.embedSlots_eq s.qbit (min n s.neff))).trans rfl

/-- Settles O46: the slots are distinct, so each product is that of the coefficient before the command. -/
theorem qimEmbReplacesTheSlots : Obligations.QimEmbReplacesTheSlots := by
  intro s n ready m d product
  have slots : m ≤ 63 := (min_le_right _ _).trans (min_le_right _ _)
  have product_eq (k : Nat) : product k = s.slotProduct k (s.qbit (k - 1)) := by
    simp only [product, State.slotProduct, State.quantIndex, adjustIndex]
    cases s.qbit (k - 1) <;> simp [bitValue, d, ite_mul]
  have coef (k : Nat) := s.coefAt_embedSlots s.qbit slots k
  refine ⟨(s.embedOffered n).endOk, exec_passed (firstFailed_chkQim ready), fun k h1 hk => ?_, fun k hk => ?_, ?_,
    State.endOk_of_eq_withQim (s.embedOffered_eq n)⟩
  · rw [product_eq]
    exact (coef k).trans (if_pos ⟨h1, hk⟩)
  · exact (coef k).trans (if_neg (by omega))
  · simp only [product_eq]
    exact s.sat_embedSlots s.qbit slots

/-! ### Reading the bits back -/

/-- R225: the bit of a coefficient that is a multiple of `DELTA` is the parity of its index. -/
theorem State.extractBit_of_coefAt {s : State} {k : Nat} {q : Int} (delta : s.qim.delta ≠ 0#24)
    (coef : s.coefAt k = q * s.qim.delta.toNat) : s.extractBit k = (q % 2 == 1) := by
  have positive : (0 : Int) < s.qim.delta.toNat := by
    have : s.qim.delta.toNat ≠ 0 := fun h => delta (BitVec.eq_of_toNat_eq h)
    omega
  rw [State.extractBit, State.quantIndex, coef, rne_mul_self q positive]

/-- Settles O47: without saturation the coefficient is the product, whose index has the bit's parity. -/
theorem embeddedBitReadsBack : Obligations.EmbeddedBitReadsBack := by
  intro s k b delta _ hk clear unsaturated
  rw [s.sat_embedBit, clear, Bool.false_or, bne_eq_false_iff_eq] at unsaturated
  have coef : (s.embedBit k b).coefAt k = s.slotProduct k b :=
    (s.coefAt_embedBit_same (by omega) b).trans unsaturated.symm
  rw [State.extractBit_of_coefAt (s := s.embedBit k b) delta coef, adjustIndex_mod_two]
  cases b <;> rfl

/-! ### Reading the slots -/

/-- R227: the bits of the first `m` slots as a number of `m` bits. -/
theorem State.slotBits_lt (s : State) (m : Nat) : s.slotBits m < 2 ^ m := by
  induction m with
  | zero => exact Nat.one_pos
  | succ m ih =>
    have bit := Nat.mul_le_mul_right (2 ^ m) (Nat.le_of_lt_succ (bitValue_lt_two (s.extractBit (m + 1))))
    rw [State.slotBits, Nat.pow_succ]
    omega

theorem testBit_bitValue (b : Bool) (i : Nat) : (bitValue b).testBit i = (decide (i = 0) && b) := by
  cases i with
  | zero => cases b <;> rfl
  | succ i => cases b <;> simp [bitValue, Nat.testBit_succ]

/-- R227: bit `i` of that number is the bit of slot `i + 1`. -/
theorem State.testBit_slotBits (s : State) (m i : Nat) :
    (s.slotBits m).testBit i = (decide (i < m) && s.extractBit (i + 1)) := by
  induction m with
  | zero => simp [State.slotBits]
  | succ m ih =>
    rw [State.slotBits, Nat.add_comm, Nat.mul_comm, Nat.testBit_two_pow_mul_add _ (s.slotBits_lt m), ih,
      testBit_bitValue]
    split
    · next below => simp [below, show i < m + 1 by omega]
    · next above =>
      obtain rfl | beyond := Nat.eq_or_lt_of_le (Nat.le_of_not_lt above)
      · simp
      · simp [show i - m ≠ 0 by omega, show ¬i < m + 1 by omega]

/-- R227: the low 32 bits of the number are in `QBITS_LO`, the others in `QBITS_HI`. -/
theorem State.qbit_extractAll (s : State) {i : Nat} (h : i < 63) :
    s.extractAll.qbit i = (decide (i < s.neff) && s.extractBit (i + 1)) := by
  rw [← s.testBit_slotBits, State.extractAll, State.qbit, State.withQim_qim, BitVec.getLsbD_append]
  split
  · next lower => rw [BitVec.getLsbD_ofNat, decide_eq_true lower, Bool.true_and]
  · next upper =>
    have inside : i - 32 < 31 := by omega
    have whole : i - 32 + 32 = i := by omega
    rw [BitVec.getLsbD_ofNat, Nat.testBit_div_two_pow, decide_eq_true inside, Bool.true_and, whole]

/-- Settles O48: `QBITS` holds the number whose bits are those of the slots. -/
theorem qimExtReadsTheParities : Obligations.QimExtReadsTheParities := by
  intro s ready
  refine ⟨s.extractAll.endOk, exec_passed (firstFailed_chkQim ready), fun i hi => ?_, rfl⟩
  exact s.qbit_extractAll hi

end Sys2Proof.Machine
end

section
/-! The proofs of the family `43_qim.md`, the embedding of a frame: the raster of its blocks (R228), what `frame_embed`
leaves in them (R228, R231, R233) and `EMB_FRAME` (R281, R283). -/

namespace Sys2Proof.Machine

/-! ### The raster -/

/-- R228: block number `j` of the raster. -/
theorem raster_eq_map (rows cols : Nat) :
    raster rows cols = (List.range (rows * cols)).map fun j => (j / cols, j % cols) := by
  induction rows with
  | zero => simp [raster]
  | succ rows ih =>
    have lastRow : (List.range cols).map (fun bc => (rows, bc)) =
        (List.range cols).map fun bc => ((rows * cols + bc) / cols, (rows * cols + bc) % cols) := by
      refine List.map_congr_left fun bc hbc => ?_
      have below : bc < cols := List.mem_range.1 hbc
      rw [Nat.mul_comm, Nat.mul_add_div (by omega), Nat.div_eq_of_lt below, Nat.mul_add_mod, Nat.mod_eq_of_lt below,
        Nat.add_zero]
    rw [raster, List.range_succ, List.flatMap_append, ← raster, ih, List.flatMap_singleton, lastRow, Nat.succ_mul,
      List.range_add, List.map_append, List.map_map]
    rfl

theorem getElem_raster {rows cols j : Nat} (h : j < (raster rows cols).length) :
    (raster rows cols)[j] = (j / cols, j % cols) := by
  simp only [raster_eq_map, List.getElem_map, List.getElem_range]

theorem mem_raster {rows cols : Nat} {b : Nat × Nat} (h : b ∈ raster rows cols) : b.1 < rows ∧ b.2 < cols := by
  simp only [raster, List.mem_flatMap, List.mem_map, List.mem_range] at h
  obtain ⟨br, hbr, bc, hbc, rfl⟩ := h
  exact ⟨hbr, hbc⟩

/-- R228: the raster visits every block once. -/
theorem nodup_raster (rows cols : Nat) : (raster rows cols).Nodup := by
  rw [raster_eq_map]
  refine List.Nodup.map (fun i j h => ?_) List.nodup_range
  obtain ⟨quotient, rest⟩ := Prod.mk.inj h
  rw [← Nat.div_add_mod i cols, quotient, rest, Nat.div_add_mod]

/-- R228: the number of a block in the raster. -/
theorem raster_number {cols br bc : Nat} (h : bc < cols) :
    (br * cols + bc) / cols = br ∧ (br * cols + bc) % cols = bc := by
  rw [Nat.mul_comm, Nat.mul_add_div (by omega), Nat.div_eq_of_lt h, Nat.mul_add_mod, Nat.mod_eq_of_lt h]
  exact ⟨rfl, rfl⟩

theorem raster_number_lt {rows cols br bc : Nat} (hr : br < rows) (hc : bc < cols) : br * cols + bc < rows * cols :=
  calc br * cols + bc < (br + 1) * cols := by rw [Nat.succ_mul]; omega
    _ ≤ rows * cols := Nat.mul_le_mul_right _ hr

section Frame
variable (s : State)

/-- R73: the block that a pixel of the frame lies in. -/
theorem State.block_of_pixelAddr {br bc k y x : Nat} (hc : bc < s.frmW / 8) (hk : k < 64) (hx : x < s.frmW)
    (h : s.pixelAddr br bc k = y * s.frmW + x) : br = y / 8 ∧ bc = x / 8 := by
  obtain ⟨row, col⟩ := raster_address_inj (by omega) hx h
  omega

/-- R73: the blocks of a frame have no address in common. -/
theorem State.frameBlocks_apart :
    s.frameBlocks.Pairwise fun b c => ∀ k < 64, ∀ l < 64, s.pixelAddr b.1 b.2 k ≠ s.pixelAddr c.1 c.2 l := by
  refine (nodup_raster _ _).imp_of_mem fun {b c} hb hc ne k hk l hl same => ne ?_
  obtain ⟨-, bcol⟩ := mem_raster hb
  obtain ⟨-, ccol⟩ := mem_raster hc
  obtain ⟨row, col⟩ := s.block_of_pixelAddr bcol hk (by omega) same
  exact Prod.ext (by omega) (by omega)

/-- R205: the blocks of a usable frame lie inside `FRAME`. -/
theorem State.frameBlocks_inside {s : State} (frame : s.FrameReady) {b : Nat × Nat} (hb : b ∈ s.frameBlocks) :
    b.2 < s.frmW / 8 ∧ ∀ k < 64, s.pixelAddr b.1 b.2 k < s.caps.frame.toNat := by
  obtain ⟨-, -, -, -, fits⟩ := frame
  obtain ⟨row, col⟩ := mem_raster hb
  exact ⟨col, fun k hk => (s.pixelAddr_lt row col hk).trans_le fits⟩

/-! ### What `frame_embed` leaves in each byte of `FRAME` -/

/-- R228: block number `b` of the frame, when a bit is left for it. -/
theorem State.frameEmbed_block {s : State} (frame : s.FrameReady) (start : Nat) {L br bc : Nat} (hr : br < s.frmH / 8)
    (hc : bc < s.frmW / 8) :
    let b := br * (s.frmW / 8) + bc
    let u := s.embedBlock br bc (start + b * s.neff) (min s.neff (L - b * s.neff))
    let r := (s.frameEmbed start L).2
    b * s.neff < L →
      (∀ k < 64, r.readByte .frame (s.pixelAddr br bc k) = u.readByte .frame (s.pixelAddr br bc k))
        ∧ (L ≤ (b + 1) * s.neff ∨ b + 1 = s.frmH / 8 * (s.frmW / 8) → r.pix = u.pix ∧ r.coef = u.coef) := by
  intro b u r bit
  have inside : b < s.frameBlocks.length := by
    rw [State.frameBlocks, length_raster]
    exact raster_number_lt hr hc
  have block : s.frameBlocks[b] = (br, bc) := by
    obtain ⟨row, col⟩ := raster_number (br := br) hc
    exact (getElem_raster inside).trans (Prod.ext row col)
  have key := frameEmbedLoop_block start L s.frameBlocks 0 s b (Nat.zero_le L) inside (by omega)
    (fun b hb => State.frameBlocks_inside frame hb) s.frameBlocks_apart
  simp only [block, Nat.zero_add] at key
  rwa [State.frameBlocks, length_raster] at key

/-- R228: blocks for which no bit is left are not visited. -/
theorem frameEmbedLoop_eq_take (start L : Nat) (blocks : List (Nat × Nat)) (n m : Nat) (s : State) (hn : n ≤ L)
    (h : L ≤ n + m * s.neff) : frameEmbedLoop start L blocks n s = frameEmbedLoop start L (blocks.take m) n s := by
  induction blocks generalizing n m s with
  | nil => rw [List.take_nil]
  | cons b rest ih =>
    obtain ⟨br, bc⟩ := b
    cases m with
    | zero => rw [List.take_zero, frameEmbedLoop, frameEmbedLoop, if_pos (by omega)]
    | succ m =>
      have slots : (s.embedBlock br bc (start + n) (min s.neff (L - n))).neff = s.neff := State.neff_congr (by simp)
      rw [List.take_succ_cons, frameEmbedLoop, frameEmbedLoop]
      rw [Nat.succ_mul] at h
      split
      · rfl
      · exact ih _ _ _ (by omega) (by rw [slots]; omega)

/-- R228: the pixels of a block for which no bit is left keep their values. -/
theorem State.readByte_frameEmbed_untouched (start : Nat) {L y x : Nat} (hx : x < s.frmW)
    (h : L ≤ (y / 8 * (s.frmW / 8) + x / 8) * s.neff) :
    (s.frameEmbed start L).2.readByte .frame (y * s.frmW + x) = s.readByte .frame (y * s.frmW + x) := by
  rw [State.frameEmbed, frameEmbedLoop_eq_take start L _ 0 _ s (Nat.zero_le L) (by rwa [Nat.zero_add])]
  refine readByte_frameEmbedLoop_other _ _ _ _ _ _ _ fun b hb k hk ⟨_, same⟩ => ?_
  obtain ⟨-, col⟩ := mem_raster (List.mem_of_mem_take hb)
  obtain ⟨i, hi, rfl⟩ := List.mem_take_iff_getElem.1 hb
  obtain ⟨row', col'⟩ := s.block_of_pixelAddr col hk hx same.symm
  have block : s.frameBlocks[i] = (i / (s.frmW / 8), i % (s.frmW / 8)) := getElem_raster _
  simp only [block] at row' col'
  have number := Nat.div_add_mod i (s.frmW / 8)
  rw [row', col', Nat.mul_comm] at number
  omega

/-- R228: bytes of `FRAME` beyond the frame keep their values. -/
theorem State.readByte_frameEmbed_beyond (start L : Nat) {a : Nat} (h : s.frmW * s.frmH ≤ a) :
    (s.frameEmbed start L).2.readByte .frame a = s.readByte .frame a := by
  refine readByte_frameEmbedLoop_other _ _ _ _ _ _ _ fun b hb k hk ⟨_, same⟩ => ?_
  obtain ⟨row, col⟩ := mem_raster hb
  have := s.pixelAddr_lt row col hk
  omega

end Frame

/-! ### No saturation in a frame -/

/-- R233: a coefficient of the forward transform is small, so the multiple of `DELTA` that carries a bit fits 32
bits. -/
theorem State.slotProduct_fdct_unsaturated {s : State} (delta : s.qim.delta ≠ 0#24) {k : Nat} (hk : k < 64)
    (b : Bool) : s.fdct.slotProduct k b = sat32 (s.fdct.slotProduct k b) := by
  have positive : (0 : Int) < s.qim.delta.toNat := by
    have : s.qim.delta.toNat ≠ 0 := fun h => delta (BitVec.eq_of_toNat_eq h)
    omega
  have width := s.qim.delta.isLt
  have small : |s.fdct.coefAt k| ≤ 522220 := by
    rw [s.coefAt_fdct_eq_rhu hk]
    exact s.abs_rhu_forwardSum_le (by omega) (by omega)
  have near := rneIsNearestTiesToEven (s.fdct.coefAt k) s.qim.delta.toNat positive
  have moved :
      |(adjustIndex (s.fdct.quantIndex k) b - s.fdct.quantIndex k) * s.qim.delta.toNat| ≤ s.qim.delta.toNat := by
    rw [abs_mul, abs_of_pos positive]
    exact mul_le_of_le_one_left positive.le (abs_adjustIndex_sub_le _ b)
  have product : s.fdct.slotProduct k b = rne (s.fdct.coefAt k) s.qim.delta.toNat * s.qim.delta.toNat
      + (adjustIndex (s.fdct.quantIndex k) b - s.fdct.quantIndex k) * s.qim.delta.toNat := by
    rw [sub_mul]
    exact (add_sub_cancel _ _).symm
  rw [abs_le] at small moved
  refine (sat32_of_abs_lt (abs_lt.2 ?_)).symm
  obtain ⟨lo, hi, -⟩ := near
  constructor <;> omega

/-- R233: one block of `frame_embed` sets no flag. -/
theorem State.embedBlock_status_eq {s : State} (delta : s.qim.delta ≠ 0#24) (br bc start : Nat) {m : Nat}
    (hm : m ≤ 63) : (s.embedBlock br bc start m).status = s.status := by
  obtain ⟨b, status⟩ := s.embedBlock_status br bc start m
  have sat : b = s.status.sat := by
    have embedded := (s.blkLd br bc).fdct.sat_embedSlots (fun i => (s.blkLd br bc).fdct.memBit .pay (start + i)) hm
    have kept : (s.embedBlock br bc start m).status.sat = true ↔ s.status.sat = true := by
      simp only [State.embedBlock, State.blkSt_frame, State.idct_frame]
      rw [embedded]
      refine (or_iff_left ?_).trans (by simp)
      rintro ⟨k, -, hk, saturated⟩
      exact saturated (State.slotProduct_fdct_unsaturated (s := s.blkLd br bc) (by simpa using delta) (by omega) _)
    rw [status] at kept
    exact Bool.eq_iff_iff.2 kept
  rw [status, sat]

/-- R233: `frame_embed` sets no flag. -/
theorem frameEmbedLoop_status_eq (start L : Nat) (blocks : List (Nat × Nat)) (n : Nat) {s : State}
    (delta : s.qim.delta ≠ 0#24) : (frameEmbedLoop start L blocks n s).2.status = s.status := by
  induction blocks generalizing n s with
  | nil => rfl
  | cons b rest ih =>
    obtain ⟨br, bc⟩ := b
    rw [frameEmbedLoop]
    split
    · rfl
    · have slots : min s.neff (L - n) ≤ 63 := (min_le_left _ _).trans (min_le_right _ _)
      rw [ih _ (by simpa using delta), State.embedBlock_status_eq delta _ _ _ slots]

/-- R228, R233: `frame_embed` writes `PIX`, `COEF` and the memories only. -/
theorem State.frameEmbed_eq {s : State} (delta : s.qim.delta ≠ 0#24) (start L : Nat) :
    (s.frameEmbed start L).2 =
      ((s.withPix (s.frameEmbed start L).2.pix).withCoef (s.frameEmbed start L).2.coef).withMems
        (s.frameEmbed start L).2.mems := by
  have status : (s.frameEmbed start L).2.status = s.status := frameEmbedLoop_status_eq _ _ _ _ delta
  apply State.eq_of_fields <;> simp [status]

end Sys2Proof.Machine
end

section
/-! The proofs of the family `43_qim.md`, `EMB_FRAME`: the input frame kept in `REF` (R283), the embedding of the rest
of the payload, or of what fits (R231, R281). -/

namespace Sys2Proof.Machine

/-! ### The reference frame -/

section Reference
variable (s : State)

/-- R283: keeping the input frame writes `REF_VALID` and a memory only. -/
theorem State.keepReference_eq :
    s.keepReference = (s.withStatus { s.status with refValid := true }).withMems s.keepReference.mems := by
  apply State.eq_of_fields <;> simp

@[simp] theorem State.keepReference_frmW : s.keepReference.frmW = s.frmW := by
  rw [State.frmW, State.frmW, show s.keepReference.frm = s.frm by simp]

@[simp] theorem State.keepReference_frmH : s.keepReference.frmH = s.frmH := by
  rw [State.frmH, State.frmH, show s.keepReference.frm = s.frm by simp]

@[simp] theorem State.keepReference_neff : s.keepReference.neff = s.neff := State.neff_congr (by simp)

@[simp] theorem State.keepReference_capacity : s.keepReference.capacity = s.capacity :=
  State.capacity_congr (by simp) (by simp)

@[simp] theorem State.keepReference_pixelAddr (br bc k : Nat) :
    s.keepReference.pixelAddr br bc k = s.pixelAddr br bc k := State.pixelAddr_congr (by simp) br bc k

/-- R228, R283: keeping the input frame does not change what one block of `frame_embed` computes. -/
theorem State.embedBlock_keepReference (br bc start m : Nat) :
    (s.keepReference.embedBlock br bc start m).pix = (s.embedBlock br bc start m).pix
      ∧ (s.keepReference.embedBlock br bc start m).coef = (s.embedBlock br bc start m).coef := by
  refine State.embedBlock_congr (by simp) (by simp) (fun i => ?_) fun k _ => ?_
  · rw [State.memBit, State.memBit, s.readByte_keepReference_other _ (by simp)]
  · exact s.readByte_keepReference_other _ (by simp)

/-- R283: `REF` holds the first frame of the operation. -/
theorem State.readByte_keepReference_ref {s : State} (frame : s.FrameReady) {a : Nat} (h : a < s.frmW * s.frmH) :
    s.keepReference.readByte .ref a = if s.status.refValid then s.readByte .ref a else s.readByte .frame a := by
  obtain ⟨-, -, -, -, fits⟩ := frame
  have inside : a < memSize s.caps .ref := h.trans_le fits
  unfold State.keepReference
  split
  · rfl
  · have copied := s.readByte_writeBytes .ref .ref 0 a (s.readBytes .frame 0 (s.frmW * s.frmH))
    rw [if_pos ⟨rfl, by omega, by rw [State.length_readBytes]; omega, inside⟩] at copied
    refine copied.trans ?_
    simp [State.readBytes, h]

/-- R283: bytes of `REF` beyond the frame keep their values. -/
theorem State.readByte_keepReference_beyond {a : Nat} (h : s.frmW * s.frmH ≤ a) :
    s.keepReference.readByte .ref a = s.readByte .ref a := by
  unfold State.keepReference
  split
  · rfl
  · refine s.readByte_writeBytes_other _ fun ⟨_, _, below⟩ => ?_
    rw [State.length_readBytes] at below
    omega

end Reference

/-! ### The frame that takes payload bits -/

/-- R287: an operation that waits for frames has payload bits left. -/
theorem State.EmbedForm.left {s : State} (h : s.EmbedForm)
    (state : s.emb.state = .awaitingFrame ∨ s.emb.state = .embedding) : s.emb.cursor.toNat < s.emb.payBits.toNat := by
  obtain awaiting | embedding := state
  · obtain ⟨cursor, -, -, bits⟩ := h.awaiting awaiting
    rw [cursor]
    exact bits
  · exact (h.embedding embedding).2.1

/-- R231, R281: the payload bits that a frame takes. -/
def State.bitsTaken (s : State) : Nat := min (s.emb.payBits.toNat - s.emb.cursor.toNat) s.capacity

theorem State.bitsTaken_le (s : State) : s.bitsTaken ≤ s.emb.payBits.toNat - s.emb.cursor.toNat := min_le_left _ _

/-- R221: usable parameters give a slot or more. -/
theorem State.neff_pos {s : State} (qim : s.QimReady) : 0 < s.neff := by
  have count : s.qim.ncoef.toNat ≠ 0 := fun h => qim.2 (BitVec.eq_of_toNat_eq h)
  unfold State.neff
  omega

/-- R231: the slots of the blocks up to one of the frame are within the frame's capacity. -/
theorem State.slots_le_capacity {s : State} {br bc : Nat} (hr : br < s.frmH / 8) (hc : bc < s.frmW / 8) :
    (br * (s.frmW / 8) + bc) * s.neff + s.neff ≤ s.capacity := by
  rw [State.capacity, Nat.mul_comm (s.frmW / 8), ← Nat.succ_mul]
  exact Nat.mul_le_mul_right _ (raster_number_lt hr hc)

/-- R205, R220, R287: a frame that the operation waits for takes a bit or more. -/
theorem State.bitsTaken_pos {s : State} (left : s.emb.cursor.toNat < s.emb.payBits.toNat) (qim : s.QimReady)
    (frame : s.FrameReady) : 1 ≤ s.bitsTaken := by
  obtain ⟨hw, hh, hw8, hh8, -⟩ := frame
  exact le_min (by omega) (State.capacity_pos qim.2 hw hh hw8 hh8)

/-- R281: the block operations' registers and memories after the frame: kept if it is the first, and embedded in. -/
def State.embedded (s : State) : State :=
  (s.keepReference.frameEmbed s.emb.cursor.toNat (s.emb.payBits.toNat - s.emb.cursor.toNat)).2

/-- R281: outside Draining the frame is kept if it is the first, takes payload bits and is counted. -/
theorem State.processFrame_of_taking {s : State} (state : s.emb.state ≠ .draining) :
    s.processFrame = s.keepReference.embedFrame.withEmb
      { s.keepReference.embedFrame.emb with frames := s.keepReference.embedFrame.emb.frames + 1#32 } := by
  simp [State.processFrame, state]

/-- R281: what the frame leaves in the embedding engine. -/
theorem State.processFrame_emb {s : State} (state : s.emb.state ≠ .draining)
    (left : s.emb.cursor.toNat < s.emb.payBits.toNat) :
    s.processFrame.emb =
      { cursor := BitVec.ofNat 32 (s.emb.cursor.toNat + s.bitsTaken)
        state := if s.emb.cursor.toNat + s.bitsTaken = s.emb.payBits.toNat then .draining else .embedding
        frames := s.emb.frames + 1#32, payBits := s.emb.payBits } := by
  have emb : s.keepReference.emb = s.emb := by simp
  have finished : BitVec.ofNat 32 (s.emb.cursor.toNat + s.bitsTaken) = s.emb.payBits
      ↔ s.emb.cursor.toNat + s.bitsTaken = s.emb.payBits.toNat := by
    have bound := s.emb.payBits.isLt
    have within := s.bitsTaken_le
    rw [← BitVec.toNat_inj, BitVec.toNat_ofNat, Nat.mod_eq_of_lt (by omega)]
  rw [State.processFrame_of_taking state, State.withEmb_emb, State.embedFrame_emb, emb,
    s.keepReference_capacity, ← State.bitsTaken]
  simp only [finished]

/-- R281: outside Draining `EMB_FRAME` leaves what `frame_embed` leaves, and writes `FRM_BITS` and the engine. -/
theorem State.processFrame_eq {s : State} (state : s.emb.state ≠ .draining) :
    s.processFrame = (s.embedded.withFrmBits (BitVec.ofNat 32 s.bitsTaken)).withEmb s.processFrame.emb := by
  have emb : s.keepReference.emb = s.emb := by simp
  rw [State.processFrame_of_taking state, State.embedFrame, emb, State.frameEmbed_count,
    s.keepReference_capacity, ← State.bitsTaken,
    ← State.embedded]
  rfl

/-- R233, R281, R283: the frame writes `REF_VALID`, `PIX`, `COEF` and the memories only. -/
theorem State.embedded_eq {s : State} (delta : s.qim.delta ≠ 0#24) :
    s.embedded = (((s.withStatus { s.status with refValid := true }).withPix s.embedded.pix).withCoef
      s.embedded.coef).withMems s.embedded.mems := by
  have driver := State.frameEmbed_eq (s := s.keepReference) (by simpa using delta) s.emb.cursor.toNat
    (s.emb.payBits.toNat - s.emb.cursor.toNat)
  obtain ⟨mems, kept⟩ : ∃ mems, s.keepReference = (s.withStatus { s.status with refValid := true }).withMems mems :=
    ⟨_, s.keepReference_eq⟩
  rw [← State.embedded] at driver
  rw [kept] at driver
  exact driver

/-- R361: the end of `EMB_FRAME`. -/
theorem State.endOk_of_eq_withEmb {s u : State}
    (h : u = (((((s.withStatus { s.status with refValid := true }).withPix u.pix).withCoef u.coef).withMems
      u.mems).withFrmBits u.frmBits).withEmb u.emb) :
    u.endOk = { s with
      emb := u.endOk.emb, frmBits := u.endOk.frmBits, pix := u.endOk.pix, coef := u.endOk.coef, mems := u.endOk.mems
      status := { s.status with refValid := true, done := true, busy := false }
      intPend := { s.intPend with done := true } } := by
  obtain ⟨pix, coef, mems, frmBits, emb, rfl⟩ : ∃ pix coef mems frmBits emb,
      u = (((((s.withStatus { s.status with refValid := true }).withPix pix).withCoef coef).withMems
        mems).withFrmBits frmBits).withEmb emb := ⟨_, _, _, _, _, h⟩
  rfl

/-! ### What the frame leaves in `FRAME` -/

/-- R231: a block inside the frame's capacity takes as many of the bits left as of the bits the frame takes. -/
theorem min_slots_sub {slots rest room before : Nat} (h : before + slots ≤ room) :
    min slots (rest - before) = min slots (min rest room - before) := by omega

/-- R231: a block whose slots the bits of the frame do not pass is the last one with a payload bit or the last of the
frame. -/
theorem State.rest_le_or_last {s : State} (ready : s.QimReady) {b : Nat} (inside : b < s.frmH / 8 * (s.frmW / 8))
    (full : s.bitsTaken ≤ (b + 1) * s.neff) :
    s.emb.payBits.toNat - s.emb.cursor.toNat ≤ (b + 1) * s.neff ∨ b + 1 = s.frmH / 8 * (s.frmW / 8) := by
  obtain short | long := Nat.le_total (s.emb.payBits.toNat - s.emb.cursor.toNat) s.capacity
  · have taken : s.bitsTaken = s.emb.payBits.toNat - s.emb.cursor.toNat := min_eq_left short
    exact .inl (taken.ge.trans full)
  · have taken : s.bitsTaken = s.frmH / 8 * (s.frmW / 8) * s.neff := by
      rw [Nat.mul_comm (s.frmH / 8)]
      exact min_eq_right long
    exact .inr (le_antisymm inside (Nat.le_of_mul_le_mul_right (taken.ge.trans full) (State.neff_pos ready)))

section Embedded
variable {s : State}

/-- R228, R231: block number `b` of the frame, when a payload bit is left for it, from the frame before the command. -/
theorem State.embedded_block (ready : s.QimReady) (frame : s.FrameReady) {br bc : Nat}
    (hr : br < s.frmH / 8) (hc : bc < s.frmW / 8) :
    let b := br * (s.frmW / 8) + bc
    let u := s.embedBlock br bc (s.emb.cursor.toNat + b * s.neff) (min s.neff (s.bitsTaken - b * s.neff))
    b * s.neff < s.bitsTaken →
      (∀ k < 64, s.embedded.readByte .frame (s.pixelAddr br bc k) = u.readByte .frame (s.pixelAddr br bc k))
        ∧ (s.bitsTaken ≤ (b + 1) * s.neff → s.embedded.pix = u.pix ∧ s.embedded.coef = u.coef) := by
  intro b u bit
  have room : b * s.neff + s.neff ≤ s.capacity := State.slots_le_capacity hr hc
  have key := State.frameEmbed_block (s := s.keepReference) (State.frameReady_congr (by simp) (by simp) frame)
    s.emb.cursor.toNat (L := s.emb.payBits.toNat - s.emb.cursor.toNat) (br := br) (bc := bc) (by simpa using hr)
    (by simpa using hc)
  simp only [State.keepReference_frmW, State.keepReference_frmH, State.keepReference_neff,
    State.keepReference_pixelAddr] at key
  have count : min s.neff (s.emb.payBits.toNat - s.emb.cursor.toNat - b * s.neff) =
      min s.neff (s.bitsTaken - b * s.neff) := min_slots_sub room
  obtain ⟨bytes, last⟩ := key (bit.trans_le s.bitsTaken_le)
  rw [count] at bytes last
  obtain ⟨pix, coef⟩ := s.embedBlock_keepReference br bc (s.emb.cursor.toNat + b * s.neff)
    (min s.neff (s.bitsTaken - b * s.neff))
  obtain ⟨-, -, -, -, fits⟩ := frame
  refine ⟨fun k hk => ?_, fun full => ?_⟩
  · have inside : s.pixelAddr br bc k < s.caps.frame.toNat := (s.pixelAddr_lt hr hc hk).trans_le fits
    have stored := s.keepReference.readByte_embedBlock (br := br) (s.emb.cursor.toNat + b * s.neff)
      (min s.neff (s.bitsTaken - b * s.neff)) (by simpa using hc) hk (by simpa using inside)
    rw [s.keepReference_pixelAddr] at stored
    exact (bytes k hk).trans <| stored.trans <| (State.pixAt_congr pix k).trans
      (s.readByte_embedBlock _ _ hc hk inside).symm
  · rw [← pix, ← coef]
    exact last (State.rest_le_or_last ready (raster_number_lt hr hc) full)

/-- R281: the driver writes `FRAME` only. -/
theorem State.readByte_embedded_of_ne_frame {sp : Space} (h : sp ≠ .frame) (a : Nat) :
    s.embedded.readByte sp a = s.keepReference.readByte sp a :=
  readByte_frameEmbedLoop_other _ _ _ _ _ _ _ fun _ _ _ _ same => h same.1

/-- R228: the pixels of a block for which no payload bit is left keep their values. -/
theorem State.readByte_embedded_untouched (ready : s.QimReady) {y x : Nat} (hy : y < s.frmH) (hx : x < s.frmW)
    (height : s.frmH % 8 = 0) (width : s.frmW % 8 = 0)
    (h : s.bitsTaken ≤ (y / 8 * (s.frmW / 8) + x / 8) * s.neff) :
    s.embedded.readByte .frame (y * s.frmW + x) = s.readByte .frame (y * s.frmW + x) := by
  have room := State.slots_le_capacity (s := s) (br := y / 8) (bc := x / 8) (by omega) (by omega)
  have slot : 0 < s.neff := State.neff_pos ready
  have taken : s.bitsTaken = min (s.emb.payBits.toNat - s.emb.cursor.toNat) s.capacity := rfl
  have untouched := s.keepReference.readByte_frameEmbed_untouched s.emb.cursor.toNat
    (L := s.emb.payBits.toNat - s.emb.cursor.toNat) (y := y) (by simpa using hx)
    (by rw [s.keepReference_frmW, s.keepReference_neff]; omega)
  rw [s.keepReference_frmW] at untouched
  exact untouched.trans (s.readByte_keepReference_other _ (by simp))

/-- R281: bytes of `FRAME` beyond the frame keep their values. -/
theorem State.readByte_embedded_beyond {a : Nat} (h : s.frmW * s.frmH ≤ a) :
    s.embedded.readByte .frame a = s.readByte .frame a :=
  (s.keepReference.readByte_frameEmbed_beyond _ _ (by simpa using h)).trans
    (s.readByte_keepReference_other _ (by simp))

end Embedded

/-- R281: outside Draining `EMB_FRAME` leaves the registers and memories of the block operations as the driver leaves
them. -/
theorem State.processFrame_sameBlocks {s : State} (state : s.emb.state ≠ .draining) :
    s.processFrame.endOk.SameBlocks s.embedded := by
  rw [State.processFrame_eq state]
  exact (((State.SameBlocks.refl _).withFrmBits _).withEmb _).endOk

/-- Settles O54: the frame is kept, then the driver embeds in it; both leave all that the equations do not name. -/
theorem embFrameEmbedsMinOfRestAndCapacity : Obligations.EmbFrameEmbedsMinOfRestAndCapacity := by
  intro s state qim frame form n
  have taking : s.emb.state ≠ .draining := by obtain h | h := state <;> rw [h] <;> simp
  have progress : s.emb.state.inProgress = true := by obtain h | h := state <;> rw [h] <;> rfl
  have left := form.left state
  have bound := s.emb.payBits.isLt
  have within : n ≤ s.emb.payBits.toNat - s.emb.cursor.toNat := s.bitsTaken_le
  have emb : s.processFrame.endOk.emb = _ := State.processFrame_emb taking left
  have rest : s.processFrame = _ := State.processFrame_eq taking
  have count : s.processFrame.endOk.frmBits = BitVec.ofNat 32 n := congrArg State.frmBits rest
  have same := State.processFrame_sameBlocks taking
  have ⟨_, _, hw8, hh8, _⟩ := frame
  refine ⟨s.processFrame.endOk, exec_passed (firstFailed_chkEmbFrame progress qim frame),
    State.bitsTaken_pos left qim frame, ?_, ?_, by rw [emb]; rfl, by rw [emb], by rw [emb], fun a ha => ?_,
    fun a ha => ⟨?_, ?_⟩, fun br hr bc hc => ?_,
    fun y hy x hx untouched => ?_, fun sp a hf hr => ?_, State.endOk_of_eq_withEmb ?_⟩
  · rw [count, BitVec.toNat_ofNat, Nat.mod_eq_of_lt (by omega)]
  · rw [emb]
    exact Nat.mod_eq_of_lt (by change _ + n < _; omega)
  · rw [same.readByte, State.readByte_embedded_of_ne_frame (by simp), State.readByte_keepReference_ref frame ha]
  · rw [same.readByte, State.readByte_embedded_of_ne_frame (by simp), s.readByte_keepReference_beyond ha]
  · rw [same.readByte, State.readByte_embedded_beyond ha]
  · intro b u bit
    obtain ⟨bytes, last⟩ := State.embedded_block qim frame hr hc bit
    refine ⟨fun i hi j hj => ?_, fun full => ?_⟩
    · rw [same.readByte, ← s.pixelAddr_row_col br bc i hj]
      exact bytes _ (by omega)
    · rw [same.pix, same.coef]
      exact last full
  · rw [same.readByte, State.readByte_embedded_untouched qim hy hx hh8 hw8 untouched]
  · rw [same.readByte, State.readByte_embedded_of_ne_frame hf, s.readByte_keepReference_other a hr]
  · have driver := State.embedded_eq (s := s) qim.1
    rw [State.processFrame_eq taking, driver]
    rfl

end Sys2Proof.Machine
end

section
/-! The proofs of the family `43_qim.md`, `EXT_FRAME`: the bits of a frame appended to the accumulator (R229) and parsed
(R301, R304, R305). -/

namespace Sys2Proof.Machine

/-! ### The frame that is appended -/

section Append
variable (s : State)

/-- R301: the frame's bits appended and the frame counted, before the parser runs. -/
def State.appended (s : State) : State :=
  (s.frameExtract.2.withExt
    { s.ext with
      accBits := BitVec.ofNat 32 (s.ext.accBits.toNat + s.capacity), frames := s.ext.frames + 1#32 }).withFrmBits
    (BitVec.ofNat 32 s.capacity)

/-- R228: the last block of the raster. -/
theorem raster_eq_concat {rows cols : Nat} (hr : 0 < rows) (hc : 0 < cols) :
    ∃ blocks, raster rows cols = blocks ++ [(rows - 1, cols - 1)] := by
  obtain ⟨r, rfl⟩ := Nat.exists_eq_add_one.2 hr
  obtain ⟨c, rfl⟩ := Nat.exists_eq_add_one.2 hc
  refine ⟨raster r (c + 1) ++ (List.range c).map fun bc => (r, bc), ?_⟩
  simp [raster, List.range_succ]

/-- R229: what the appended frame leaves alone. -/
theorem State.appended_eq :
    s.appended = { s with
      ext := { s.ext with
        accBits := BitVec.ofNat 32 (s.ext.accBits.toNat + s.capacity), frames := s.ext.frames + 1#32 }
      frmBits := BitVec.ofNat 32 s.capacity, mems := s.appended.mems, pix := s.appended.pix
      coef := s.appended.coef } := by
  apply State.eq_of_fields <;> simp [State.appended]

/-- R230: `PIX` and `COEF` are those of the last block. -/
theorem State.appended_last {s : State} (frame : s.FrameReady) :
    s.appended.pix = (s.blkLd (s.frmH / 8 - 1) (s.frmW / 8 - 1)).pix
      ∧ s.appended.coef = (s.blkLd (s.frmH / 8 - 1) (s.frmW / 8 - 1)).fdct.coef := by
  obtain ⟨hw, hh, hw8, hh8, -⟩ := frame
  obtain ⟨blocks, last⟩ := raster_eq_concat (rows := s.frmH / 8) (cols := s.frmW / 8) (by omega) (by omega)
  have driver := frameExtractLoop_last blocks (s.frmH / 8 - 1, s.frmW / 8 - 1) s.ext.accBits.toNat s
  rw [← last, ← State.frameBlocks] at driver
  simpa [State.appended, State.frameExtract] using driver

theorem State.readByte_appended (sp : Space) (a : Nat) :
    s.appended.readByte sp a =
      (frameExtractLoop s.frameBlocks s.ext.accBits.toNat s).2.readByte sp a := by
  apply State.readByte_congr <;> simp [State.appended, State.frameExtract]

/-- R229: only the accumulator changes. -/
theorem State.readByte_appended_other {sp : Space} (a : Nat) (h : sp ≠ .acc) :
    s.appended.readByte sp a = s.readByte sp a := by
  rw [s.readByte_appended, readByte_frameExtractLoop_other _ _ _ _ h]

/-- R229: the accumulator after a frame whose bits fit: the old bits, then the bits of the slots of the blocks in
order. -/
theorem State.memBit_appended {s : State} (fits : s.ext.accBits.toNat + s.capacity ≤ s.caps.accBits.toNat) (i : Nat) :
    s.appended.memBit .acc i =
      if s.ext.accBits.toNat ≤ i ∧ i < s.ext.accBits.toNat + s.capacity then
        let k := i - s.ext.accBits.toNat
        ((s.blkLd (k / s.neff / (s.frmW / 8)) (k / s.neff % (s.frmW / 8))).fdct).extractBit (k % s.neff + 1)
      else s.memBit .acc i := by
  have count : s.frameBlocks.length * s.neff = s.capacity := by
    rw [State.frameBlocks, length_raster, State.capacity, Nat.mul_comm (s.frmW / 8)]
  have room : s.caps.accBits.toNat ≤ 8 * memSize s.caps .acc := by
    change _ ≤ 8 * ((s.caps.accBits.toNat + 7) / 8)
    omega
  rw [State.memBit, s.readByte_appended, ← State.memBit, memBit_frameExtractLoop _ _ _ _ (by omega), count]
  split
  · next inside =>
    have block : (i - s.ext.accBits.toNat) / s.neff < s.frameBlocks.length :=
      Nat.div_lt_of_lt_mul (by rw [Nat.mul_comm, count]; omega)
    simp only [List.getElem?_eq_getElem block, Option.getD_some]
    rw [show s.frameBlocks[(i - s.ext.accBits.toNat) / s.neff] = _ from getElem_raster block]
  · rfl

end Append

/-! ### The parsed frame -/

/-- R205. -/
theorem firstFailed_chkFrame {s : State} (frame : s.FrameReady) : firstFailed (chkFrame s) = none := by
  obtain ⟨hw, hh, hw8, hh8, fits⟩ := frame
  exact firstFailed_of_passed (by omega) _ _ _

/-- R301: the checks of `EXT_FRAME` in an extraction with usable parameters. -/
theorem firstFailed_chkExtFrame {s : State} (takes : s.ext.state.takesFrame = true) (qim : s.QimReady)
    (frame : s.FrameReady) : firstFailed (chkExtFrame s) = none := by
  rw [chkExtFrame, firstFailed_cons, firstFailed_append, firstFailed_chkQim qim, firstFailed_chkFrame frame, takes]
  rfl

/-- R301: `EXT_FRAME` takes a frame whose bits fit the accumulator. -/
theorem State.receiveFrame_of_fits {s : State} (state : s.ext.state ≠ .verifying)
    (fits : s.ext.accBits.toNat + s.capacity ≤ s.caps.accBits.toNat) : s.receiveFrame = s.takeFrame.endOk := by
  rw [State.receiveFrame, if_neg state, if_neg (Nat.not_lt.2 fits)]

/-- R304, R306: the states in which more bits are needed. -/
theorem ExtState.incomplete_iff (e : ExtState) : e.incomplete = true ↔ e = .accumulating ∨ e = .collecting := by
  cases e <;> simp [ExtState.incomplete]

/-- R301: the appended frame, parsed. -/
def State.parsed (s : State) : State := s.appended.parseLoop 14

theorem State.parsed_eq (s : State) :
    s.parsed = { s with
      ext := s.parsed.ext, hdr := s.parsed.hdr, frmBits := BitVec.ofNat 32 s.capacity, pix := s.appended.pix
      coef := s.appended.coef, mems := s.parsed.mems } := by
  apply State.eq_of_fields <;> simp [State.parsed, State.appended]

/-- R301, R361: the end of a frame whose bits fit. -/
theorem State.endOk_takeFrame {s : State} (clear : s.status.needMore = false) :
    s.takeFrame.endOk = { s.parsed with
      status := { s.status with needMore := s.parsed.ext.state.incomplete, done := true, busy := false }
      intPend := { s.intPend with done := true } } := by
  have ext : s.frameExtract.2.ext = s.ext := by simp
  have status : s.parsed.status = s.status := (congrArg State.status s.parsed_eq).trans rfl
  have intPend : s.parsed.intPend = s.intPend := (congrArg State.intPend s.parsed_eq).trans rfl
  rw [State.takeFrame, State.frameExtract_count, ext, ← intPend]
  change (s.parsed.withStatus { s.parsed.status with
    needMore := s.parsed.status.needMore || s.parsed.ext.state.incomplete }).endOk = _
  rw [status, clear, Bool.false_or]
  rfl

/-- R301, R313: what the parser registers say of the appended frame. -/
theorem State.ExtractForm.appended {s : State} (h : s.ExtractForm) (incomplete : s.ext.state.incomplete = true)
    (fits : s.ext.accBits.toNat + s.capacity ≤ s.caps.accBits.toNat) :
    s.appended.ext.ParserForm ∧ s.appended.ext.accBits.toNat = s.ext.accBits.toNat + s.capacity := by
  have count : s.appended.ext.accBits.toNat = s.ext.accBits.toNat + s.capacity :=
    Nat.mod_eq_of_lt (fits.trans_lt s.caps.accBits.isLt)
  obtain ⟨parsed, header, phase⟩ := h.parserForm incomplete
  exact ⟨⟨by rw [count]; exact parsed.trans (Nat.le_add_right _ _), header, phase⟩, count⟩

/-- Settles O57: `u` is the appended frame, `v` the state at which its parser steps stop. -/
theorem extFrameAppendsTheParities : Obligations.ExtFrameAppendsTheParities := by
  intro s state qim frame form clear fits cap
  have incomplete : s.ext.state.incomplete = true := s.ext.state.incomplete_iff.2 state
  have takes : s.ext.state.takesFrame = true := by obtain h | h := state <;> rw [h] <;> rfl
  have verifying : s.ext.state ≠ .verifying := by obtain h | h := state <;> rw [h] <;> simp
  have run : exec .extFrame s = .next s.takeFrame.endOk :=
    (exec_passed (i := .extFrame) (firstFailed_chkExtFrame takes qim frame)).trans
      (congrArg _ (State.receiveFrame_of_fits verifying fits))
  have bound := s.caps.accBits.isLt
  obtain ⟨registers, count⟩ := form.appended incomplete fits
  obtain ⟨m, v, steps, index, inside, stops, stopped⟩ :=
    s.appended.parseLoop_steps 14 registers.state_eq form.index (Nat.le_add_left _ _)
  obtain ⟨-, bits, frames, -⟩ := s.appended.parseLoop_form 14 registers
  have ended := State.endOk_takeFrame clear
  obtain ⟨pix, coef⟩ := State.appended_last frame
  have byte (sp : Space) (a : Nat) (h : sp ≠ .fld) : s.takeFrame.endOk.readByte sp a = s.appended.readByte sp a := by
    rw [ended, ← s.appended.readByte_parseLoop_other 14 a h]
    rfl
  refine ⟨s.appended, v, s.takeFrame.endOk, m, run, ?_, fun i hi => ?_, fun k hk => ?_,
    fun sp a h => s.readByte_appended_other a h, steps, index, inside, stops, ?_, ?_, ?_, ?_, ?_, fun i => ?_,
    fun sp a ha hf => ?_, ?_⟩
  · rw [← pix, ← coef]
    exact s.appended_eq
  · rw [State.memBit_appended fits, if_neg (by omega)]
  · rw [State.memBit_appended fits, if_pos ⟨Nat.le_add_right _ _, Nat.add_lt_add_left hk _⟩, Nat.add_sub_cancel_left]
  · rw [ended, State.parsed, stopped]
    rfl
  · rw [ended]
    exact ExtState.incomplete_iff _
  · rw [ended, s.parsed_eq]
    exact Nat.mod_eq_of_lt (by omega)
  · rw [ended]
    exact (congrArg BitVec.toNat bits).trans count
  · rw [ended]
    exact frames
  · rw [State.memBit, State.memBit, byte _ _ (by simp)]
  · rw [byte _ _ hf, s.readByte_appended_other a ha]
  · rw [ended, s.parsed_eq]

end Sys2Proof.Machine
end

section
/-! The proofs of the family `44_framer.md`, the serializer: `PAY_SER` and its refusals (R250, R251, R256). -/

namespace Sys2Proof.Machine

/-! ### The checks of `PAY_SER` -/

/-- R256: every value of the payload fits its field, and the payload fits `CT` and `PAY`. -/
structure State.PayloadFits (s : State) : Prop where
  secW : s.hdr.secW.toNat < 2 ^ 16
  secH : s.hdr.secH.toNat < 2 ^ 16
  len : ∀ i < 5, s.lenAt i < 2 ^ 8
  ctLen : s.ctLen < 2 ^ 32
  ct : s.ctLen ≤ s.caps.ct.toNat
  pay : s.payloadBytes ≤ s.caps.pay.toNat

/-- R256: the check of the length byte `i`, field `2 + 2i`. -/
def chkLength (s : State) (i : Nat) : Check := ⟨2 ^ 8 ≤ s.lenAt i, .valueOutOfRange, 2 + 2 * i⟩

/-- R256: the checks after those of the five length bytes. -/
def chkCiphertext (s : State) : List Check :=
  [⟨2 ^ 32 ≤ s.ctLen, .valueOutOfRange, 12⟩, ⟨s.caps.ct.toNat < s.ctLen, .bufferCapacity, 5⟩,
    ⟨s.caps.pay.toNat < s.payloadBytes, .bufferCapacity, 2⟩]

/-- R256: outside an operation the checks of `PAY_SER` are those of the fields and the capacities. -/
theorem firstFailed_chkSerialize {s : State} (idle : s.emb.state.inProgress = false) :
    firstFailed (chkSerialize s) =
      firstFailed (⟨2 ^ 16 ≤ s.hdr.secW.toNat, .valueOutOfRange, 0⟩ ::
        ⟨2 ^ 16 ≤ s.hdr.secH.toNat, .valueOutOfRange, 1⟩ ::
        ((List.range 5).map (chkLength s) ++ chkCiphertext s)) := by
  have first : firstFailed (chkSerialize s) = if s.emb.state.inProgress then _ else _ := firstFailed_cons _ _
  rw [first, idle]
  rfl

/-- R256: with a width and a height that fit, the checks that are left. -/
theorem firstFailed_chkSerialize_of_size {s : State} (idle : s.emb.state.inProgress = false)
    (secW : s.hdr.secW.toNat < 2 ^ 16) (secH : s.hdr.secH.toNat < 2 ^ 16) :
    firstFailed (chkSerialize s) = (firstFailed ((List.range 5).map (chkLength s))).or (firstFailed (chkCiphertext s)) :=
  (firstFailed_chkSerialize idle).trans <| (firstFailed_of_passed (not_le.2 secW) _ _ _).trans <|
    (firstFailed_of_passed (not_le.2 secH) _ _ _).trans (firstFailed_append _ _)

/-- Of a numbered list of checks, the first that fails. -/
theorem firstFailed_map_range {check : Nat → Check} {n i : Nat} (hi : i < n)
    (passed : ∀ j < i, (check j).failed = false) (failed : (check i).failed = true) :
    firstFailed ((List.range n).map check) = some (check i) := by
  induction n with
  | zero => exact absurd hi (Nat.not_lt_zero i)
  | succ n ih =>
    rw [List.range_succ, List.map_append, firstFailed_append]
    obtain earlier | rfl := Nat.lt_succ_iff_lt_or_eq.1 hi
    · rw [ih earlier, Option.some_or]
    · have none : firstFailed ((List.range i).map check) = none :=
        firstFailed_eq_none.2 (by simpa using passed)
      rw [none, Option.none_or]
      exact if_pos failed

/-- R256: with five lengths that fit, the length checks pass. -/
theorem firstFailed_chkLength {s : State} (len : ∀ i < 5, s.lenAt i < 2 ^ 8) :
    firstFailed ((List.range 5).map (chkLength s)) = none :=
  firstFailed_eq_none.2 (by simpa [chkLength] using len)

/-- R256: with all values but the ciphertext's length fitting, the checks that are left. -/
theorem firstFailed_chkSerialize_of_lengths {s : State} (idle : s.emb.state.inProgress = false)
    (secW : s.hdr.secW.toNat < 2 ^ 16) (secH : s.hdr.secH.toNat < 2 ^ 16) (len : ∀ i < 5, s.lenAt i < 2 ^ 8) :
    firstFailed (chkSerialize s) = firstFailed (chkCiphertext s) := by
  rw [firstFailed_chkSerialize_of_size idle secW secH, firstFailed_chkLength len, Option.none_or]

/-- Settles O50: the checks before the failing one pass, in field order. -/
theorem paySerRefusals : Obligations.PaySerRefusals := by
  intro s idle
  refine ⟨fun wide => ?_, fun secW high => ?_, fun secW secH => ⟨fun i hi before long => ?_, fun len =>
    ⟨fun long => ?_, fun short full => ?_, fun short fits full => ?_⟩⟩⟩
  · exact exec_failed (i := .paySer) ((firstFailed_chkSerialize idle).trans (firstFailed_of_failed wide _ _ _))
  · exact exec_failed (i := .paySer) ((firstFailed_chkSerialize idle).trans <|
      (firstFailed_of_passed (not_le.2 secW) _ _ _).trans (firstFailed_of_failed high _ _ _))
  · have refused : firstFailed ((List.range 5).map (chkLength s)) = some (chkLength s i) :=
      firstFailed_map_range hi (fun j hj => decide_eq_false (not_le.2 (before j hj))) (decide_eq_true long)
    exact exec_failed (i := .paySer) (c := chkLength s i)
      ((firstFailed_chkSerialize_of_size idle secW secH).trans (by rw [refused, Option.some_or]))
  · exact exec_failed (i := .paySer) ((firstFailed_chkSerialize_of_lengths idle secW secH len).trans
      (firstFailed_of_failed long _ _ _))
  · exact exec_failed (i := .paySer) ((firstFailed_chkSerialize_of_lengths idle secW secH len).trans <|
      (firstFailed_of_passed (not_le.2 short) _ _ _).trans (firstFailed_of_failed full _ _ _))
  · exact exec_failed (i := .paySer) ((firstFailed_chkSerialize_of_lengths idle secW secH len).trans <|
      (firstFailed_of_passed (not_le.2 short) _ _ _).trans <|
      (firstFailed_of_passed (not_lt.2 fits) _ _ _).trans (firstFailed_of_failed full _ _ _))

/-- R256: a payload that fits passes the checks. -/
theorem State.PayloadFits.passes {s : State} (h : s.PayloadFits) (idle : s.emb.state.inProgress = false) :
    firstFailed (chkSerialize s) = none :=
  (firstFailed_chkSerialize_of_lengths idle h.secW h.secH h.len).trans <|
    (firstFailed_of_passed (not_le.2 h.ctLen) _ _ _).trans <|
    (firstFailed_of_passed (not_lt.2 h.ct) _ _ _).trans (firstFailed_of_passed (not_lt.2 h.pay) _ _ _)

/-- R256: the checks pass only a payload that fits. -/
theorem State.payloadFits_of_passed {s : State} (passed : ∀ c ∈ chkSerialize s, c.failed = false) : s.PayloadFits := by
  simp only [chkSerialize, List.mem_append, List.mem_cons, List.mem_map, List.mem_range, List.not_mem_nil, or_false,
    forall_eq, or_imp, forall_and, forall_exists_index, and_imp, forall_apply_eq_imp_iff₂,
    decide_eq_false_iff_not, not_le, not_lt] at passed
  obtain ⟨⟨⟨-, secW, secH⟩, len⟩, ctLen, ct, pay⟩ := passed
  exact ⟨secW, secH, len, ctLen, ct, pay⟩

/-! ### What `PAY_SER` stores -/

/-- R251, R256: the payload, its five pairs of a length byte and a byte string written out. -/
theorem State.payload_eq (s : State) :
    s.payload = beBytes s.hdr.secW.toNat 2 ++ beBytes s.hdr.secH.toNat 2 ++ s.fieldBytes 0 ++ s.fieldBytes 1
      ++ s.fieldBytes 2 ++ s.fieldBytes 3 ++ s.fieldBytes 4 ++ beBytes s.ctLen 4 ++ s.readBytes .ct 0 s.ctLen := by
  simp [State.payload, List.range_succ]

/-- R251: the length of the payload. -/
theorem State.length_payload (s : State) : s.payload.length = s.payloadBytes := by
  simp only [State.payload_eq, State.fieldBytes, List.length_append, List.length_cons, length_beBytes,
    State.length_readBytes, State.payloadBytes, State.lenSum]
  omega

theorem State.payloadBytes_eq (s : State) :
    s.payloadBytes = 13 + s.lenAt 0 + s.lenAt 1 + s.lenAt 2 + s.lenAt 3 + s.lenAt 4 + s.ctLen := by
  simp only [State.payloadBytes, State.lenSum]
  omega

/-- R256: every byte after the payload is stored. -/
theorem State.readByte_serialize (s : State) (sp : Space) (a : Nat) :
    s.serialize.readByte sp a = (s.writeBytes .pay 0 s.payload).readByte sp a :=
  State.readByte_congr (by simp) (by simp [State.serialize]) (by simp) sp a

/-- R256: `PAY` holds the payload, where it fits. -/
theorem State.readBytes_serialize {s : State} (fits : s.payloadBytes ≤ s.caps.pay.toNat) :
    s.serialize.readBytes .pay 0 s.payloadBytes = s.payload :=
  (State.readBytes_congr fun i _ => s.readByte_serialize .pay (0 + i)).trans
    (s.readBytes_writeBytes_of_length s.length_payload (by rwa [Nat.zero_add]))

/-- R256: the bytes outside the payload are left alone. -/
theorem State.readByte_serialize_outside (s : State) {sp : Space} {a : Nat} (h : ¬(sp = .pay ∧ a < s.payloadBytes)) :
    s.serialize.readByte sp a = s.readByte sp a := by
  rw [State.readByte_serialize, State.readByte_writeBytes_other]
  rw [s.length_payload, Nat.zero_add]
  exact fun ⟨space, _, below⟩ => h ⟨space, below⟩

/-- R9: the capacity of `PAY` leaves room for the number of its bits in a register. -/
theorem Caps.pay_le {c : Caps} (wf : c.wellFormed = true) : c.pay.toNat ≤ 2 ^ 28 := by
  simp only [Caps.wellFormed, Bool.and_eq_true, decide_eq_true_eq] at wf
  omega

/-- R256: `PAY_BITS` after `PAY_SER`, as a number. -/
theorem State.toNat_payBits_serialize {s : State} (wf : s.caps.wellFormed = true)
    (fits : s.payloadBytes ≤ s.caps.pay.toNat) : s.serialize.emb.payBits.toNat = 8 * s.payloadBytes :=
  Nat.mod_eq_of_lt (by have := Caps.pay_le wf; omega)

theorem State.serialize_eq (s : State) :
    s.serialize = (s.withMems s.serialize.mems).withEmb { s.emb with payBits := s.serialize.emb.payBits } := by
  apply State.eq_of_fields <;> simp [State.serialize]

/-- R361: the end of a command that has written `PAY_BITS` and memories only. -/
theorem State.endOk_of_eq_withPayBits {s u : State}
    (h : u = (s.withMems u.mems).withEmb { s.emb with payBits := u.emb.payBits }) :
    u.endOk = { s with
      emb := { s.emb with payBits := u.endOk.emb.payBits }, mems := u.endOk.mems
      status := { s.status with done := true, busy := false }, intPend := { s.intPend with done := true } } := by
  obtain ⟨mems, bits, rfl⟩ : ∃ mems bits, u = (s.withMems mems).withEmb { s.emb with payBits := bits } := ⟨_, _, h⟩
  rfl

/-- Settles O49: the checks pass, and the rule writes the payload and its length. -/
theorem paySerWritesThePayload : Obligations.PaySerWritesThePayload := by
  intro s idle secW secH len ctLen ct pay wf
  rw [← s.payloadBytes_eq] at pay ⊢
  have fits : s.PayloadFits := ⟨secW, secH, len, ctLen, ct, pay⟩
  refine ⟨s.serialize.endOk, exec_passed (i := .paySer) (fits.passes idle), ?_,
    State.toNat_payBits_serialize wf pay, fun sp a other => ?_, State.endOk_of_eq_withPayBits s.serialize_eq⟩
  · rw [State.readBytes_endOk, State.readBytes_serialize pay]
    exact s.payload_eq
  · rw [State.readByte_endOk, s.readByte_serialize_outside other]

end Sys2Proof.Machine
end

section
/-! The proofs of the family `44_framer.md`, the parser on a serialized payload (R250, R260, R263). -/

namespace Sys2Proof.Machine

/-! ### The accumulator's bits as bytes and big-endian integers -/

/-- R132: bit `i` of `w` has the weight `2^(w-1-i)`. -/
theorem uintToBits_eq_map (v w : Nat) : uintToBits v w = (List.range w).map fun i => v.testBit (w - 1 - i) := by
  induction w generalizing v with
  | zero => rfl
  | succ w ih =>
    rw [uintToBits, ih, List.range_succ, List.map_append]
    congr 1
    · refine List.map_congr_left fun i hi => ?_
      have weight : w + 1 - 1 - i = w - 1 - i + 1 := by have := List.mem_range.1 hi; omega
      rw [weight, Nat.testBit_succ]
    · simp [Nat.testBit_zero, beq_eq_decide]

/-- R13: the eight bits of a byte of a memory, the most significant first. -/
theorem State.memBits_byte (s : State) (sp : Space) (a : Nat) :
    s.memBits sp (8 * a) 8 = uintToBits (s.readByte sp a).toNat 8 := by
  rw [uintToBits_eq_map, State.memBits]
  refine List.map_congr_left fun i hi => ?_
  have below := List.mem_range.1 hi
  have byte : (8 * a + i) / 8 = a := by omega
  have bit : 7 - (8 * a + i) % 8 = 8 - 1 - i := by omega
  rw [State.memBit, byte, bit, BitVec.getLsbD]

/-- R133: an accumulator that holds the bits of a memory from its start on holds its bytes. -/
theorem State.accBytes_of_memBit {r t : State} {sp : Space} {n : Nat}
    (h : ∀ i < 8 * n, r.memBit .acc i = t.memBit sp i) : r.accBytes 0 n = t.readBytes sp 0 n := by
  refine List.map_congr_left fun a ha => ?_
  have inside := List.mem_range.1 ha
  have bits : r.memBits .acc (8 * a) 8 = t.memBits sp (8 * a) 8 :=
    List.map_congr_left fun i hi => h _ (by have := List.mem_range.1 hi; omega)
  rw [Nat.zero_add, Nat.zero_add, ← State.bitsToUint_memBits_acc, bits, State.memBits_byte,
    bitsToUint_uintToBits (t.readByte sp a).isLt, BitVec.ofNat_toNat, BitVec.setWidth_eq]

theorem State.accBytes_add (s : State) (c m n : Nat) :
    s.accBytes c (m + n) = s.accBytes c m ++ s.accBytes (c + 8 * m) n := by
  simp [State.accBytes, List.range_add, Nat.mul_add, Nat.add_assoc]

/-- R133: where the accumulator holds two byte strings in a row, it holds each. -/
theorem State.accBytes_of_append {s : State} {c : Nat} {p q : List Byte} (h : s.accBytes c (p ++ q).length = p ++ q) :
    s.accBytes c p.length = p ∧ s.accBytes (c + 8 * p.length) q.length = q := by
  rw [List.length_append, State.accBytes_add] at h
  exact List.append_inj h (s.length_accBytes c _)

theorem State.accUint_add (s : State) (c m n : Nat) :
    s.accUint c (m + n) = 2 ^ n * s.accUint c m + s.accUint (c + m) n := by
  induction n with
  | zero => simp [State.accUint]
  | succ n ih =>
    rw [← Nat.add_assoc, State.accUint, ih, State.accUint, Nat.pow_succ, Nat.add_assoc c m n]
    ring

theorem State.accUint_lt (s : State) (c w : Nat) : s.accUint c w < 2 ^ w := by
  have below := bitsToUint_lt (s.memBits .acc c w)
  rwa [State.bitsToUint_memBits_acc, State.length_memBits] at below

/-- R16, R133: the integer in whole bytes of the accumulator is the big-endian integer of these bytes. -/
theorem State.beInt_accBytes (s : State) (c n : Nat) : beInt (s.accBytes c n) = s.accUint c (8 * n) := by
  induction n with
  | zero => rfl
  | succ n ih =>
    have last : s.accBytes (c + 8 * n) 1 = [BitVec.ofNat 8 (s.accUint (c + 8 * n) 8)] := rfl
    rw [State.accBytes_add, last, beInt_concat, ih, BitVec.toNat_ofNat, Nat.mod_eq_of_lt (s.accUint_lt _ 8), Nat.mul_succ,
      State.accUint_add]
    omega

/-- R16, R133: an integer written big-endian in `n` bytes of the accumulator reads back. -/
theorem State.accUint_of_beBytes {s : State} {c v n : Nat} (h : s.accBytes c n = beBytes v n) (fits : v < 256 ^ n) :
    s.accUint c (8 * n) = v := by
  rw [← State.beInt_accBytes, h, beInt_beBytes, Nat.mod_eq_of_lt fits]

/-! ### The payload as fourteen fields -/

/-- R250: the bytes of field `f` of the payload. -/
def State.fieldString (s : State) (f : Nat) : List Byte :=
  if f = 0 then beBytes s.hdr.secW.toNat 2
  else if f = 1 then beBytes s.hdr.secH.toNat 2
  else if f = 12 then beBytes s.ctLen 4
  else if f = 13 then s.readBytes .ct 0 s.ctLen
  else if f % 2 = 0 then beBytes (s.lenAt ((f - 2) / 2)) 1
  else s.readBytes .fld (0x100 * ((f - 3) / 2)) (s.lenAt ((f - 3) / 2))

/-- The bytes of the fields before field `f`. -/
def State.firstFields (s : State) (f : Nat) : List Byte := (List.range f).flatMap s.fieldString

section Fields

variable (s : State)

theorem State.fieldString_lengthByte {i : Nat} (hi : i < 5) : s.fieldString (2 + 2 * i) = beBytes (s.lenAt i) 1 := by
  have index : (2 + 2 * i - 2) / 2 = i := by omega
  rw [State.fieldString, if_neg (by omega), if_neg (by omega), if_neg (by omega), if_neg (by omega), if_pos (by omega),
    index]

theorem State.fieldString_byteString {i : Nat} (hi : i < 5) :
    s.fieldString (3 + 2 * i) = s.readBytes .fld (0x100 * i) (s.lenAt i) := by
  have index : (3 + 2 * i - 3) / 2 = i := by omega
  rw [State.fieldString, if_neg (by omega), if_neg (by omega), if_neg (by omega), if_neg (by omega), if_neg (by omega),
    index]

/-- R250: a field is as long as its width. -/
theorem State.length_fieldString (f : Nat) : 8 * (s.fieldString f).length = s.fieldWidth f := by
  unfold State.fieldString State.fieldWidth
  split_ifs <;> simp only [length_beBytes, State.length_readBytes] <;> omega

theorem State.firstFields_succ (f : Nat) : s.firstFields (f + 1) = s.firstFields f ++ s.fieldString f := by
  simp [State.firstFields, List.range_succ]

/-- R251, R256: the payload is its fourteen fields in order. -/
theorem State.payload_eq_firstFields : s.payload = s.firstFields 14 := by
  simp [State.payload_eq, State.fieldBytes, State.firstFields, State.fieldString, List.range_succ, beBytes]

theorem State.payload_startsWith_firstFields {f : Nat} (hf : f ≤ 14) : s.firstFields f <+: s.payload := by
  obtain ⟨k, rest⟩ := Nat.exists_eq_add_of_le hf
  rw [State.payload_eq_firstFields, rest, State.firstFields, State.firstFields, List.range_add, List.flatMap_append]
  exact ⟨_, rfl⟩

theorem State.length_firstFields_succ (f : Nat) :
    8 * (s.firstFields (f + 1)).length = 8 * (s.firstFields f).length + s.fieldWidth f := by
  rw [State.firstFields_succ, List.length_append, Nat.mul_add, State.length_fieldString]

end Fields

/-- R263: an accumulator that starts with the payload holds each field where the fields before it end. -/
theorem State.accBytes_field {s u : State} (carries : u.accBytes 0 s.payload.length = s.payload) {f : Nat}
    (hf : f ≤ 13) : u.accBytes (8 * (s.firstFields f).length) (s.fieldString f).length = s.fieldString f := by
  obtain ⟨rest, payload⟩ := s.payload_startsWith_firstFields (Nat.succ_le_succ hf)
  rw [← payload, State.firstFields_succ] at carries
  have held := (State.accBytes_of_append (State.accBytes_of_append carries).1).2
  rwa [Nat.zero_add] at held

/-! ### The header registers, field by field -/

/-- The registers of the integer fields before field `f` agree. -/
structure HdrRegs.AgreesUpTo (h k : HdrRegs) (f : Nat) : Prop where
  secW : 0 < f → h.secW = k.secW
  secH : 1 < f → h.secH = k.secH
  len : ∀ i (hi : i < 5), 2 + 2 * i < f → h.len[i] = k.len[i]
  ctLen : 12 < f → h.ctLenLo = k.ctLenLo ∧ h.ctLenHi = k.ctLenHi

theorem HdrRegs.AgreesUpTo.eq {h k : HdrRegs} (agrees : h.AgreesUpTo k 14) : h = k := by
  obtain ⟨secW, secH, len, ctLen⟩ := agrees
  obtain ⟨lo, hi⟩ := ctLen (by decide)
  have lens : h.len = k.len := Vector.ext fun i hi => len i hi (by omega)
  cases h
  cases k
  simp_all

theorem State.lenAt_eq_toNat (s : State) {i : Nat} (hi : i < 5) : s.lenAt i = s.hdr.len[i].toNat := by
  simp [State.lenAt, hi]

/-- R250: the fields read so far give the width of the next one. -/
theorem HdrRegs.AgreesUpTo.fieldWidth {s u : State} {f : Nat} (h : u.hdr.AgreesUpTo s.hdr f) (hf : f ≤ 13) :
    u.fieldWidth f = s.fieldWidth f := by
  unfold State.fieldWidth
  split_ifs with size length ciphertext byte
  · rfl
  · rfl
  · obtain ⟨lo, hi⟩ := h.ctLen (by omega)
    rw [State.ctLen, State.ctLen, lo, hi]
  · rfl
  · have region : (f - 3) / 2 < 5 := by omega
    rw [State.lenAt_eq_toNat _ region, State.lenAt_eq_toNat _ region, h.len _ region (by omega)]

/-- A field that is no integer adds nothing to the registers. -/
theorem HdrRegs.AgreesUpTo.succ_of_not_integer {h k : HdrRegs} {f : Nat} (agrees : h.AgreesUpTo k f)
    (other : f = 13 ∨ ∃ i < 5, f = 3 + 2 * i) : h.AgreesUpTo k (f + 1) where
  secW _ := agrees.secW (by omega)
  secH _ := agrees.secH (by omega)
  len i hi _ := agrees.len i hi (by omega)
  ctLen _ := agrees.ctLen (by omega)

/-- R47: `CT_LEN` of 32 bits is its low register. -/
theorem State.ctLen_of_lt {s : State} (h : s.ctLen < 2 ^ 32) : s.hdr.ctLenHi = 0#32 ∧ s.ctLen = s.hdr.ctLenLo.toNat := by
  have high : s.hdr.ctLenHi.toNat = 0 := by
    unfold State.ctLen at h
    omega
  exact ⟨BitVec.eq_of_toNat_eq high, by rw [State.ctLen, high, Nat.mul_zero, Nat.zero_add]⟩

/-- R260, R263: the field that stands at the cursor is stored in its register. -/
theorem HdrRegs.AgreesUpTo.storeField {s u : State} {f c : Nat} (h : u.hdr.AgreesUpTo s.hdr f) (fits : s.PayloadFits)
    (hf : f ≤ 13) (held : u.accBytes c (s.fieldString f).length = s.fieldString f) :
    (u.storeField f c).hdr.AgreesUpTo s.hdr (f + 1) := by
  obtain rfl | rfl | ⟨i, hi, rfl⟩ | ⟨i, hi, rfl⟩ | rfl | rfl := field_cases f hf
  · have value : u.accUint c 16 = s.hdr.secW.toNat := State.accUint_of_beBytes (n := 2) held fits.secW
    rw [State.storeField_zero, State.withHdr_hdr, value, BitVec.ofNat_toNat, BitVec.setWidth_eq]
    exact ⟨fun _ => rfl, by omega, by omega, by omega⟩
  · have value : u.accUint c 16 = s.hdr.secH.toNat := State.accUint_of_beBytes (n := 2) held fits.secH
    rw [State.storeField_one, State.withHdr_hdr, value, BitVec.ofNat_toNat, BitVec.setWidth_eq]
    exact ⟨fun _ => h.secW (by omega), fun _ => rfl, by omega, by omega⟩
  · rw [State.fieldString_lengthByte s hi, length_beBytes] at held
    have value : u.accUint c 8 = s.hdr.len[i].toNat :=
      (State.accUint_of_beBytes (n := 1) held (fits.len i hi)).trans (s.lenAt_eq_toNat hi)
    rw [State.storeField_lengthByte u c hi, State.withHdr_hdr, HdrRegs.withLen_eq_set _ _ hi, value, BitVec.ofNat_toNat,
      BitVec.setWidth_eq]
    refine ⟨fun _ => h.secW (by omega), fun _ => h.secH (by omega), fun j hj before => ?_, by omega⟩
    obtain rfl | earlier := eq_or_ne i j
    · exact Vector.getElem_set_self hi
    · exact (Vector.getElem_set_ne hi hj earlier).trans (h.len j hj (by omega))
  · rw [State.storeField_byteString u c hi, State.writeBytes_hdr]
    exact h.succ_of_not_integer (.inr ⟨i, hi, rfl⟩)
  · obtain ⟨high, low⟩ := State.ctLen_of_lt fits.ctLen
    have value : u.accUint c 32 = s.hdr.ctLenLo.toNat :=
      (State.accUint_of_beBytes (n := 4) held fits.ctLen).trans low
    rw [State.storeField_twelve, State.withHdr_hdr, value, BitVec.ofNat_toNat, BitVec.setWidth_eq]
    exact ⟨fun _ => h.secW (by omega), fun _ => h.secH (by omega), fun j hj _ => h.len j hj (by omega),
      fun _ => ⟨rfl, high.symm⟩⟩
  · rw [State.storeField_thirteen]
    exact h.succ_of_not_integer (.inl rfl)

/-! ### The byte strings in `FLD`, field by field -/

/-- The byte strings of the fields before field `f` agree. -/
def State.BytesAgreeUpTo (u s : State) (f : Nat) : Prop :=
  ∀ i < 5, 3 + 2 * i < f → u.readBytes .fld (0x100 * i) (s.lenAt i) = s.readBytes .fld (0x100 * i) (s.lenAt i)

/-- R262: a field leaves the regions of the byte strings before it alone. -/
theorem State.readByte_storeField_earlier (u : State) (c : Nat) {f i k : Nat} (hf : f ≤ 13) (hi : 3 + 2 * i < f)
    (hk : k < 0x100) : (u.storeField f c).readByte .fld (0x100 * i + k) = u.readByte .fld (0x100 * i + k) := by
  by_cases bytes : ∃ j < 5, f = 3 + 2 * j
  · obtain ⟨j, hj, rfl⟩ := bytes
    rw [State.readByte_storeField_byteString u c hj, if_neg (by omega)]
  · exact u.readByte_storeField_of_not_byteString c hf (fun j hj e => bytes ⟨j, hj, e⟩) .fld _

/-- R260, R263: the field that stands at the cursor is stored in its region. -/
theorem State.BytesAgreeUpTo.storeField {s u : State} {f c : Nat} (h : u.BytesAgreeUpTo s f)
    (lens : u.hdr.AgreesUpTo s.hdr f) (fits : s.PayloadFits) (hf : f ≤ 13)
    (held : u.accBytes c (s.fieldString f).length = s.fieldString f) :
    (u.storeField f c).BytesAgreeUpTo s (f + 1) := by
  intro i hi before
  have short := fits.len i hi
  obtain earlier | rfl := Nat.lt_succ_iff_lt_or_eq.1 before
  · rw [← h i hi earlier]
    exact State.readBytes_congr fun k hk => u.readByte_storeField_earlier c hf earlier (by omega)
  · have length : u.lenAt i = s.lenAt i := by
      rw [u.lenAt_eq_toNat hi, s.lenAt_eq_toNat hi, lens.len i hi (by omega)]
    rw [State.fieldString_byteString s hi, State.length_readBytes] at held
    rw [State.storeField_byteString u c hi, length, held]
    exact u.readBytes_writeBytes_of_length (s.length_readBytes _ _ _) (by simp only [memSize]; omega)

/-! ### The parser on the payload -/

/-- R263: the accumulator of `u` starts with the payload of `s`, and the parser has restored the fields before field
`f`. -/
structure State.HasParsed (u s : State) (f : Nat) : Prop where
  carries : u.accBytes 0 s.payload.length = s.payload
  complete : 8 * s.payload.length ≤ u.ext.accBits.toNat
  index : u.ext.prsFidx.toNat = f
  cursor : u.ext.prsCursor.toNat = 8 * (s.firstFields f).length
  header : 12 < f → u.ext.hdrCursor.toNat = 8 * (s.firstFields 13).length
  registers : u.hdr.AgreesUpTo s.hdr f
  bytes : u.BytesAgreeUpTo s f

/-- R263: a receiver of the payload whose parser is at its start. -/
theorem State.hasParsed_zero {s r : State} (carries : r.accBytes 0 s.payload.length = s.payload)
    (complete : 8 * s.payload.length ≤ r.ext.accBits.toNat) (cursor : r.ext.prsCursor = 0#32)
    (index : r.ext.prsFidx = 0#4) : r.HasParsed s 0 where
  carries := carries
  complete := complete
  index := by rw [index]; rfl
  cursor := by rw [cursor]; rfl
  header := by omega
  registers := ⟨by omega, by omega, by omega, by omega⟩
  bytes := fun _ _ before => absurd before (Nat.not_lt_zero _)

/-- R260, R263: a parser step on the payload has the bits of its field and restores it. -/
theorem State.HasParsed.step {s u : State} {f : Nat} (h : u.HasParsed s f) (fits : s.PayloadFits) (hf : f ≤ 13) :
    ∃ v, u.parseStep = some v ∧ v.HasParsed s (f + 1) := by
  have width : u.fieldWidth f = s.fieldWidth f := h.registers.fieldWidth hf
  have next := s.length_firstFields_succ f
  have inside := (s.payload_startsWith_firstFields (f := f + 1) (by omega)).length_le
  have held := State.accBytes_field h.carries hf
  have enough : u.parseStep ≠ none := by
    have complete := h.complete
    rw [Ne, State.parseStep_eq_none_iff, h.index, h.cursor, width]
    omega
  obtain ⟨v, ran⟩ := Option.ne_none_iff_exists'.1 enough
  obtain ⟨cursor, index, header⟩ := State.parseStep_registers (by rw [h.index]; exact hf) ran
  have store := State.parseStep_eq_withExt ran
  rw [h.index] at cursor index store
  rw [h.cursor] at cursor store
  rw [width, ← next] at cursor
  have registers := h.registers.storeField fits hf held
  have bytes := h.bytes.storeField h.registers fits hf held
  refine ⟨v, ran, ?_, ?_, index, cursor, fun past => ?_, ?_, ?_⟩
  · rw [State.accBytes_congr fun a => State.readByte_parseStep_other ran a (by simp)]
    exact h.carries
  · rw [(State.parseStep_ext ran).2]
    exact h.complete
  · rw [header]
    split
    · next twelve =>
      have last : f = 12 := by rw [← h.index, twelve]; rfl
      rw [cursor, last]
    · next other =>
      have further : f ≠ 12 := fun e => other (BitVec.eq_of_toNat_eq (h.index.trans e))
      exact h.header (by omega)
  · rw [store]
    exact registers
  · rw [store]
    exact bytes

/-- R263: the parser steps on the payload, one after the other. -/
theorem State.HasParsed.steps {s r : State} (start : r.HasParsed s 0) (fits : s.PayloadFits) {f : Nat} (hf : f ≤ 14) :
    ∃ u, (fun x : Option State => x.bind State.parseStep)^[f] (some r) = some u ∧ u.HasParsed s f := by
  induction f with
  | zero => exact ⟨r, rfl, start⟩
  | succ f ih =>
    obtain ⟨u, ran, parsed⟩ := ih (by omega)
    obtain ⟨v, step, next⟩ := parsed.step fits (by omega)
    exact ⟨v, by rw [Function.iterate_succ_apply', ran]; exact step, next⟩

/-- R256: a `PAY_SER` that leaves `ERR` clear has stored a payload that fits. -/
theorem payloadFits_of_exec {s t : State} (run : exec .paySer s = .next t) (ok : t.status.err = false) :
    s.PayloadFits ∧ t = s.serialize.endOk := by
  obtain ⟨c, -, -, -, rfl⟩ | ⟨passed, rfl⟩ := exec_cases run
  · simp at ok
  · exact ⟨State.payloadFits_of_passed passed, rfl⟩

/-- Settles O51: after each parser step the fields before the cursor are restored, so after fourteen all are. -/
theorem parseAfterSerialize : Obligations.ParseAfterSerialize := by
  intro s t r wf _ run ok bits complete cursor index
  obtain ⟨fits, rfl⟩ := payloadFits_of_exec run ok
  have total : s.serialize.endOk.emb.payBits.toNat = 8 * s.payload.length :=
    (State.toNat_payBits_serialize wf fits.pay).trans (by rw [s.length_payload])
  rw [total] at bits complete ⊢
  have carries : r.accBytes 0 s.payload.length = s.payload := by
    rw [State.accBytes_of_memBit bits, State.readBytes_endOk, s.length_payload, State.readBytes_serialize fits.pay]
  obtain ⟨u, ran, parsed⟩ := (State.hasParsed_zero carries complete cursor index).steps fits (Nat.le_refl 14)
  have header := parsed.header (by decide)
  have ciphertext : s.fieldString 13 = s.readBytes .ct 0 s.ctLen := rfl
  have held := State.accBytes_field parsed.carries (Nat.le_refl 13)
  have ends : s.payload.length = (s.firstFields 13).length + s.ctLen := by
    rw [State.payload_eq_firstFields, State.firstFields_succ, List.length_append, ciphertext, State.length_readBytes]
  rw [ciphertext, State.length_readBytes] at held
  refine ⟨u, ran, parsed.registers.eq, fun i hi => parsed.bytes i hi (by omega), BitVec.eq_of_toNat_eq parsed.index,
    BitVec.eq_of_toNat_eq ?_, ?_, ?_⟩
  · rw [parsed.cursor, total, State.payload_eq_firstFields]
  · rw [header, ends]
    omega
  · rw [header, held]

end Sys2Proof.Machine
end

section
/-! The proofs of the family `45_embed_engine.md`: the ends of the two engines' operations (R285, R306) and the transition
table of `EMB_STATE` (R286). -/

namespace Sys2Proof.Machine

/-! ### `EMB_END` and `EXT_END` -/

/-- R352: the states in which `EMB_END` is legal. -/
theorem firstFailed_checksOf_embEnd_eq_none {s : State} :
    firstFailed (checksOf .embEnd s) = none ↔ s.emb.state.inProgress = true := by
  simp [checksOf, firstFailed_eq_none]

/-- R352: the states in which `EXT_END` is legal. -/
theorem firstFailed_checksOf_extEnd_eq_none {s : State} :
    firstFailed (checksOf .extEnd s) = none ↔ s.ext.state.takesEnd = true := by
  simp [checksOf, firstFailed_eq_none]

/-- R285: in Draining the operation is complete. -/
theorem State.endEmbedding_of_draining {s : State} (draining : s.emb.state = .draining) :
    s.endEmbedding = (s.withEmb { s.emb with state := .done }).endOk := if_pos draining

/-- R285: outside Draining payload bits remain. -/
theorem State.endEmbedding_of_not_draining {s : State} (left : s.emb.state ≠ .draining) :
    s.endEmbedding =
      (s.withEmb { s.emb with state := .failed }).raiseError .insufficientCapacity s.emb.cursor.toNat := if_neg left

/-- R306: with the payload complete `EXT_END` only ends. -/
theorem State.endExtraction_of_complete {s : State} (complete : s.ext.state.incomplete = false) :
    s.endExtraction = s.endOk := if_neg (by simp [complete])

/-- R306: while the engine waits for bits the stream is cut short. -/
theorem State.endExtraction_of_incomplete {s : State} (incomplete : s.ext.state.incomplete = true) :
    s.endExtraction = (s.withExtState .failed).raiseError .truncatedStream s.ext.prsFidx.toNat := if_pos incomplete

/-- Settles O56: each command passes its check in the states named, and its rule has one branch for each outcome. -/
theorem endCommandsFinishOrFail : Obligations.EndCommandsFinishOrFail := by
  refine ⟨fun s draining => ?_, fun s left => ?_, fun s complete => ?_, fun s incomplete => ?_⟩
  · have progress : s.emb.state.inProgress = true := by rw [draining]; rfl
    rw [exec_passed (firstFailed_checksOf_embEnd_eq_none.2 progress), ruleOf, State.endEmbedding_of_draining draining]
    rfl
  · have progress : s.emb.state.inProgress = true := by obtain h | h := left <;> rw [h] <;> rfl
    have notDraining : s.emb.state ≠ .draining := by obtain h | h := left <;> rw [h] <;> simp
    rw [exec_passed (firstFailed_checksOf_embEnd_eq_none.2 progress), ruleOf,
      State.endEmbedding_of_not_draining notDraining]
    rfl
  · have legal : s.ext.state.takesEnd = true := by obtain h | h := complete <;> rw [h] <;> rfl
    have whole : s.ext.state.incomplete = false := by obtain h | h := complete <;> rw [h] <;> rfl
    rw [exec_passed (firstFailed_checksOf_extEnd_eq_none.2 legal), ruleOf, State.endExtraction_of_complete whole]
    rfl
  · have legal : s.ext.state.takesEnd = true := by obtain h | h := incomplete <;> rw [h] <;> rfl
    rw [exec_passed (firstFailed_checksOf_extEnd_eq_none.2 legal), ruleOf,
      State.endExtraction_of_incomplete ((ExtState.incomplete_iff _).2 incomplete)]
    rfl

/-! ### The transitions of `EMB_STATE` -/

/-- R280: `EMB_START` runs on a payload that is not empty and fits `PAY`. -/
theorem firstFailed_chkEmbStart_eq_none {s : State} :
    firstFailed (chkEmbStart s) = none ↔
      ¬(s.emb.payBits.toNat = 0 ∨ 8 * s.caps.pay.toNat < s.emb.payBits.toNat) := by
  have zero : s.emb.payBits = 0#32 ↔ s.emb.payBits.toNat = 0 := BitVec.toNat_inj.symm
  simp [chkEmbStart, firstFailed_eq_none, zero]

/-- R281: `EMB_FRAME` runs in an operation with usable parameters, and only then. -/
theorem firstFailed_chkEmbFrame_eq_none {s : State} :
    firstFailed (chkEmbFrame s) = none ↔ s.emb.state.inProgress = true ∧ s.QimReady ∧ s.FrameReady := by
  refine ⟨fun passed => ?_, fun ⟨progress, qim, frame⟩ => firstFailed_chkEmbFrame progress qim frame⟩
  have holds := firstFailed_eq_none.1 passed
  have parameters : ∀ c ∈ chkQim s ++ chkFrame s, c.failed = false := fun c hc => holds c (List.mem_cons_of_mem _ hc)
  exact ⟨by simpa using holds _ List.mem_cons_self,
    State.qimReady_of_passed fun c hc => parameters c (List.mem_append_left _ hc),
    State.frameReady_of_passed fun c hc => parameters c (List.mem_append_right _ hc)⟩

/-- R281, R284: a frame leaves the engine Draining when no payload bit is left, before it or after it. -/
theorem State.processFrame_state (s : State) :
    s.processFrame.emb.state =
      if s.emb.state = .draining ∨ s.processFrame.emb.cursor = s.emb.payBits then .draining else .embedding := by
  by_cases draining : s.emb.state = .draining
  · simp [State.processFrame, draining]
  · simp [State.processFrame, draining, State.embedFrame_emb]

/-- R285: `EMB_END` leaves Draining for Done, any other state for Failed. -/
theorem State.endEmbedding_state (s : State) :
    s.endEmbedding.emb.state = if s.emb.state = .draining then .done else .failed := by
  split
  · next draining => simp [State.endEmbedding_of_draining draining]
  · next left => simp [State.endEmbedding_of_not_draining left]

/-- Settles O29: a refused command keeps the state; of the rules, only those of the engine, `SOFT_RESET` and `ABORT` write
it. -/
theorem embeddingStateTransitions : Obligations.EmbeddingStateTransitions := by
  intro i s t run
  obtain ⟨c, -, -, refused, rfl⟩ | ⟨passed, rfl⟩ := exec_cases run
  · have failed : firstFailed (checksOf i s) ≠ none := by rw [refused]; simp
    cases i
    case softReset | abort => exact absurd rfl failed
    case embStart => exact (if_pos (not_not.1 (mt firstFailed_chkEmbStart_eq_none.2 failed))).symm
    case embFrame => exact (if_neg (mt firstFailed_chkEmbFrame_eq_none.2 failed)).symm
    case embEnd =>
      have rest := mt firstFailed_checksOf_embEnd_eq_none.2 failed
      cases state : s.emb.state <;> simp [state, EmbState.inProgress] at rest ⊢
    all_goals rfl
  · have ready : firstFailed (checksOf i s) = none := firstFailed_eq_none.2 passed
    cases i
    case softReset | abort => rfl
    case embStart => exact (if_neg (firstFailed_chkEmbStart_eq_none.1 ready)).symm
    case embFrame => exact s.processFrame_state.trans (if_pos (firstFailed_chkEmbFrame_eq_none.1 ready)).symm
    case embEnd =>
      have progress := firstFailed_checksOf_embEnd_eq_none.1 ready
      refine s.endEmbedding_state.trans ?_
      cases state : s.emb.state <;> simp [state, EmbState.inProgress] at progress ⊢
    all_goals simp [ruleOf]

end Sys2Proof.Machine
end

section
/-! The proofs of the family `46_extract_engine.md`: the starts of the two engines' operations (R280, R300), the frames
that are passed, skipped or too large (R284, R302, R303), the transition table of `EXT_STATE` (R312) and `EXT_VERIFY`
(R308 to R310). -/

namespace Sys2Proof.Machine

/-! ### `EMB_START` and `EXT_START` -/

/-- Settles O53: the check of `EMB_START` passes, `EXT_START` has none. -/
theorem startsBeginOperations : Obligations.StartsBeginOperations := by
  refine ⟨fun s nonempty fits => ?_, fun s => ?_⟩
  · have passed : firstFailed (checksOf .embStart s) = none := firstFailed_chkEmbStart_eq_none.2 (by omega)
    exact exec_passed passed
  · exact exec_passed (i := .extStart) rfl

/-! ### Frames after the payload's end, and frames that do not fit -/

/-- R283: the first frame of the operation is kept already. -/
theorem State.keepReference_of_refValid {s : State} (kept : s.status.refValid = true) : s.keepReference = s :=
  if_pos kept

/-- R284: in Draining the frame is passed and counted. -/
theorem State.processFrame_of_draining {s : State} (draining : s.emb.state = .draining)
    (kept : s.status.refValid = true) :
    s.processFrame = s.passFrame.withEmb { s.emb with frames := s.emb.frames + 1#32 } := by
  simp [State.processFrame, State.keepReference_of_refValid kept, draining]

/-- R303: in Verifying the frame is skipped. -/
theorem State.receiveFrame_of_verifying {s : State} (verifying : s.ext.state = .verifying) :
    s.receiveFrame = s.skipFrame.endOk := if_pos verifying

/-- R302: a frame whose bits do not fit the accumulator ends the extraction. -/
theorem State.receiveFrame_of_full {s : State} (state : s.ext.state ≠ .verifying)
    (full : s.caps.accBits.toNat < s.ext.accBits.toNat + s.capacity) :
    s.receiveFrame = (s.withExtState .failed).raiseError .bufferCapacity 3 := by
  rw [State.receiveFrame, if_neg state, if_pos full]

/-- Settles O58: the checks pass in the states named, and the rule takes its branch for that state. -/
theorem framesPassedOrSkipped : Obligations.FramesPassedOrSkipped := by
  refine ⟨fun s draining qim frame kept => ?_, fun s verifying qim frame => ?_, fun s state qim frame full => ?_⟩
  · have progress : s.emb.state.inProgress = true := by rw [draining]; rfl
    exact (exec_passed (i := .embFrame) (firstFailed_chkEmbFrame progress qim frame)).trans
      (congrArg (fun t : State => Host.Outcome.next t.endOk) (State.processFrame_of_draining draining kept))
  · have takes : s.ext.state.takesFrame = true := by rw [verifying]; rfl
    rw [exec_passed (i := .extFrame) (firstFailed_chkExtFrame takes qim frame), ruleOf,
      State.receiveFrame_of_verifying verifying]
    rfl
  · have takes : s.ext.state.takesFrame = true := by obtain h | h := state <;> rw [h] <;> rfl
    have incomplete : s.ext.state ≠ .verifying := by obtain h | h := state <;> rw [h] <;> simp
    rw [exec_passed (i := .extFrame) (firstFailed_chkExtFrame takes qim frame), ruleOf,
      State.receiveFrame_of_full incomplete full]
    rfl

/-! ### The transitions of `EXT_STATE` -/

theorem ExtState.takesFrame_iff (e : ExtState) : e.takesFrame = true ↔ e.incomplete = true ∨ e = .verifying := by
  cases e <;> simp [ExtState.takesFrame, ExtState.incomplete]

/-- R306: the states that wait for bits take `EXT_END`. -/
theorem ExtState.takesEnd_of_incomplete {e : ExtState} (h : e.incomplete = true) : e.takesEnd = true := by
  obtain rfl | rfl := e.incomplete_iff.1 h <;> rfl

/-- R301, R302: `EXT_FRAME` runs in the states that take a frame, with usable parameters, and only then. -/
theorem firstFailed_chkExtFrame_eq_none {s : State} :
    firstFailed (chkExtFrame s) = none ↔ s.ext.state.takesFrame = true ∧ s.QimReady ∧ s.FrameReady := by
  refine ⟨fun passed => ?_, fun ⟨takes, qim, frame⟩ => firstFailed_chkExtFrame takes qim frame⟩
  have holds := firstFailed_eq_none.1 passed
  have parameters : ∀ c ∈ chkQim s ++ chkFrame s, c.failed = false := fun c hc => holds c (List.mem_cons_of_mem _ hc)
  exact ⟨by simpa using holds _ List.mem_cons_self,
    State.qimReady_of_passed fun c hc => parameters c (List.mem_append_left _ hc),
    State.frameReady_of_passed fun c hc => parameters c (List.mem_append_right _ hc)⟩

/-- R308: `EXT_VERIFY` runs in Verifying, with a usable key and room for the plaintext, and only then. -/
theorem firstFailed_chkVerify_eq_none_iff {s : State} :
    firstFailed (chkVerify s) = none ↔ s.ext.state = .verifying ∧ s.KeyReady ∧ s.ctLen ≤ s.caps.pt.toNat := by
  refine ⟨fun passed => ?_, fun ⟨verifying, key, fits⟩ => firstFailed_chkVerify_eq_none verifying key fits⟩
  simpa [chkVerify, chkPriv, firstFailed_eq_none, not_or] using passed

/-- R301: a frame taken leaves the extraction registers as the parser does. -/
theorem State.takeFrame_ext_eq_parsed (s : State) : s.takeFrame.ext = s.parsed.ext := by
  have ext : s.frameExtract.2.ext = s.ext := by simp
  rw [State.takeFrame, State.frameExtract_count, ext]
  rfl

/-- R304, R305: the state after a frame that fits goes with the index of the next field. -/
theorem State.ExtractForm.takeFrame_phase {s : State} (form : s.ExtractForm)
    (incomplete : s.ext.state.incomplete = true) (fits : s.ext.accBits.toNat + s.capacity ≤ s.caps.accBits.toNat) :
    (s.takeFrame.ext.state = .accumulating ∧ s.takeFrame.ext.prsFidx.toNat ≤ 12 ∧ s.ext.state = .accumulating)
      ∨ (s.takeFrame.ext.state = .collecting ∧ s.takeFrame.ext.prsFidx = 13#4)
      ∨ (s.takeFrame.ext.state = .verifying ∧ s.takeFrame.ext.prsFidx = 14#4) := by
  obtain ⟨registers, -⟩ := form.appended incomplete fits
  obtain ⟨parsed, -, -, forward⟩ := s.appended.parseLoop_form 14 registers
  rw [s.takeFrame_ext_eq_parsed]
  obtain ⟨state, index, -⟩ | ⟨state, index, -⟩ | ⟨state, index⟩ := parsed.phase
  · refine .inl ⟨state, index, ?_⟩
    obtain waiting | collecting := s.ext.state.incomplete_iff.1 incomplete
    · exact waiting
    · obtain ⟨index', -⟩ := form.collecting collecting
      exact absurd (index'.symm.trans_le (forward.trans index)) (by decide)
  · exact .inr (.inl ⟨state, BitVec.eq_of_toNat_eq index⟩)
  · exact .inr (.inr ⟨state, BitVec.eq_of_toNat_eq index⟩)

/-- R306: `EXT_END` leaves the states that wait for bits for Failed, and stays in any other. -/
theorem State.endExtraction_state (s : State) :
    s.endExtraction.ext.state =
      if s.ext.state = .accumulating ∨ s.ext.state = .collecting then .failed else s.ext.state := by
  split
  · next waiting =>
    rw [State.endExtraction_of_incomplete ((ExtState.incomplete_iff _).2 waiting)]
    rfl
  · next settled =>
    rw [State.endExtraction_of_complete (Bool.eq_false_iff.2 (mt (ExtState.incomplete_iff _).1 settled))]
    rfl

/-- R308, R311: `EXT_VERIFY` ends in Done, or in Failed with one of its three errors. -/
theorem State.verify_state (X : Crypto) (s : State) (d : Nat) :
    (s.verify X d).ext.state = .done
      ∨ ((s.verify X d).ext.state = .failed ∧ (s.verify X d).errs.code ∈ [3#4, 4#4, 5#4]) := by
  have failed (u : State) {e : ErrorKind} (h : e.code ∈ [3#4, 4#4, 5#4]) :
      (u.rejectPlaintext e).ext.state = .failed ∧ (u.rejectPlaintext e).errs.code ∈ [3#4, 4#4, 5#4] := ⟨rfl, h⟩
  obtain ⟨-, h⟩ | ⟨Q, u, -, -, ⟨-, h⟩ | ⟨pt, -, ⟨-, h⟩ | ⟨-, -, h⟩ | ⟨-, -, h⟩⟩⟩ := s.verify_cases X d <;> rw [h]
  · exact .inr ⟨rfl, List.mem_cons_self⟩
  · exact .inr (failed _ (by decide))
  · exact .inl rfl
  · exact .inr (failed _ (by decide))
  · exact .inl rfl

/-- Settles O30: a refused command keeps the state; of the rules, only those of the engine, `SOFT_RESET` and `ABORT`
write it. -/
theorem extractionStateTransitions : Obligations.ExtractionStateTransitions := by
  intro i s t form run
  obtain ⟨c, -, -, refused, rfl⟩ | ⟨passed, rfl⟩ := exec_cases run
  · have failed : firstFailed (checksOf i s) ≠ none := by rw [refused]; simp
    cases i
    case softReset | abort | extStart => exact absurd rfl failed
    case extFrame =>
      refine (if_neg fun ⟨state, parameters⟩ => failed ?_).mpr rfl
      exact firstFailed_chkExtFrame_eq_none.2
        ⟨(ExtState.takesFrame_iff _).2 (.inl ((ExtState.incomplete_iff _).2 state)), parameters⟩
    case extEnd =>
      refine (if_neg fun state => failed ?_).symm
      exact firstFailed_checksOf_extEnd_eq_none.2
        (ExtState.takesEnd_of_incomplete ((ExtState.incomplete_iff _).2 state))
    case extVerify => exact (if_neg (mt firstFailed_chkVerify_eq_none_iff.2 failed)).mpr rfl
    all_goals rfl
  · have ready : firstFailed (checksOf i s) = none := firstFailed_eq_none.2 passed
    cases i
    case softReset | abort | extStart => rfl
    case extFrame =>
      obtain ⟨takes, qim, frame⟩ := firstFailed_chkExtFrame_eq_none.1 ready
      obtain incomplete | verifying := (ExtState.takesFrame_iff _).1 takes
      · have state := (ExtState.incomplete_iff _).1 incomplete
        have left : s.ext.state ≠ .verifying := by obtain h | h := state <;> rw [h] <;> simp
        refine (if_pos ⟨state, qim, frame⟩).mpr ?_
        split
        · next full => exact congrArg (fun t : State => t.ext.state) (State.receiveFrame_of_full left full)
        · next fits =>
          have fits := Nat.le_of_not_lt fits
          rw [ruleOf, State.receiveFrame_of_fits left fits]
          exact form.takeFrame_phase incomplete fits
      · have kept : s.receiveFrame.ext.state = s.ext.state :=
          (congrArg (fun t : State => t.ext.state) (State.receiveFrame_of_verifying verifying)).trans rfl
        exact (if_neg (by simp [verifying])).mpr kept
    case extEnd => exact s.endExtraction_state
    case extVerify => exact (if_pos (firstFailed_chkVerify_eq_none_iff.1 ready)).mpr (s.verify_state _ _)
    all_goals simp [ruleOf]

/-! ### `EXT_VERIFY` -/

/-- R25: raising the error already noted sets no other sticky bit. -/
theorem ErrRegs.raised_note (r : ErrRegs) (e : ErrorKind) (info : Nat) :
    (r.note e).raised e info = r.raised e info := by
  simp [ErrRegs.raised, ErrRegs.note, BitVec.or_assoc]

/-- R25: the sticky bits after an error is noted. -/
theorem ErrRegs.getLsbD_sticky_note (r : ErrRegs) (e : ErrorKind) (c : Nat) :
    (r.note e).sticky.getLsbD c = true ↔ r.sticky.getLsbD c = true ∨ c = e.code.toNat := by
  have bound := e.code_le
  simp only [ErrRegs.note, ErrorKind.stickyBit, BitVec.getLsbD_or, Bool.or_eq_true]
  refine or_congr_right ?_
  simp only [BitVec.getLsbD_shiftLeft, BitVec.getLsbD_one, Nat.ofNat_pos, decide_true, Bool.true_and, Bool.and_eq_true,
    decide_eq_true_eq, Bool.not_eq_eq_eq_not, Bool.not_true, decide_eq_false_iff_not, not_lt]
  omega

/-- R162: the plaintext is as long as the ciphertext. -/
theorem length_of_aeadDec {X : Crypto} {ct pt : List Byte} {key : BitVec 256} {nonce : BitVec 96} {tag : BitVec 128}
    (opened : aeadDec X ct key nonce tag = some pt) : pt.length = ct.length := by
  unfold aeadDec at opened
  split at opened
  · rw [← Option.some.inj opened, List.length_map, List.length_range]
  · cases opened

theorem State.length_of_openCiphertext {X : Crypto} {s : State} {pt : List Byte}
    (opened : s.openCiphertext X = some pt) : pt.length = s.ctLen := by
  unfold State.openCiphertext at opened
  split at opened
  · rw [length_of_aeadDec opened, State.length_accBytes]
  · cases opened

/-- R308: the key is derived and used; nothing of it stays. -/
theorem State.clearSecrets_deriveKey (s : State) (X : Crypto) (d : Nat) (Q : Point) (n : Nat) :
    (s.deriveKey X d Q n).clearSecrets = s.clearSecrets := (rfl)

/-- R308, R309: the hash check, as the spec says it. -/
theorem State.hashMatches_clearSecrets {X : Crypto} {s : State} {pt : List Byte} :
    s.clearSecrets.hashMatches X pt = true ↔
      s.lenAt 2 = 32 ∧ beBytes (X.sha3 pt).toNat 32 = s.readBytes .fld 0x200 32 := decide_eq_true_iff

/-- R308: `EXT_VERIFY` when the sender's key is no point. -/
theorem State.verify_of_invalidPoint {s : State} (invalid : s.senderPoint = none) (X : Crypto) (d : Nat) :
    s.verify X d = (s.withExtState .failed).raiseError .invalidPoint 0 := by
  rw [State.verify, invalid]

/-- R308: `EXT_VERIFY` when the sender's key is the point `Q`. -/
theorem State.verify_of_point {s : State} {Q : Point} (point : s.senderPoint = some Q) (X : Crypto) (d : Nat) :
    s.verify X d = s.clearSecrets.finishVerify X ((s.deriveKey X d Q (s.lenAt 1)).openCiphertext X) := by
  simp only [State.verify, point, State.verifyWith, State.clearSecrets_deriveKey]

/-- R310: a fatal mismatch releases nothing. -/
theorem State.acceptPlaintext_of_fatal {X : Crypto} {s : State} {pt : List Byte} (bad : s.hashMatches X pt = false)
    (fatal : s.ctrl.hashFatal = true) :
    s.acceptPlaintext X pt = s.noteMismatch.rejectPlaintext .integrityMismatch := by
  simp [State.acceptPlaintext, bad, fatal]

/-- R308, R310: the rejection of a mismatch that is noted already raises the same error. -/
theorem State.rejectPlaintext_noteMismatch (s : State) :
    s.noteMismatch.rejectPlaintext .integrityMismatch =
      (s.withStatus { s.status with integrity := true }).rejectPlaintext .integrityMismatch :=
  congrArg (((s.withStatus { s.status with integrity := true }).rejectPlaintext .integrityMismatch).withErrs)
    (s.errs.raised_note .integrityMismatch 0)

/-- R308: what a rejection leaves, with the secrets cleared before it. -/
theorem State.rejectPlaintext_clearSecrets (s : State) (e : ErrorKind) :
    s.clearSecrets.rejectPlaintext e = State.raiseError
      { s with
        ext := { s.ext with state := .failed }, ptLen := 0#32, hidden := { s.hidden with ss := 0#256, key := 0#256 } }
      e 0 := by
  simp only [State.rejectPlaintext, State.clearSecrets, State.withSS, State.withKey, State.withHidden, State.withPtLen,
    State.withExtState, State.withExt]

/-- R310: the state whose plaintext is released: a mismatch that is not fatal is reported. -/
def State.reported (s : State) (good : Bool) : State := if good then s else s.noteMismatch

/-- R310: without a fatal mismatch the plaintext is released. -/
theorem State.acceptPlaintext_of_released {X : Crypto} {s : State} {pt : List Byte} {good : Bool}
    (hash : s.hashMatches X pt = good) (released : good = true ∨ s.ctrl.hashFatal = false) :
    s.acceptPlaintext X pt = (s.reported good).releasePlaintext pt := by
  cases good with
  | true => simp [State.acceptPlaintext, State.reported, hash]
  | false => simp [State.acceptPlaintext, State.reported, hash, released.resolve_left Bool.false_ne_true]

/-- R310: the report writes `INTEGRITY` and `ERR_STICKY`. -/
theorem State.reported_eq (s : State) (good : Bool) :
    s.reported good = { s with
      status := { s.status with integrity := (s.reported good).status.integrity }
      errs := { s.errs with sticky := (s.reported good).errs.sticky } } := by
  cases good <;> rfl

theorem State.readByte_reported (s : State) (good : Bool) (sp : Space) (a : Nat) :
    (s.reported good).readByte sp a = s.readByte sp a := by
  cases good <;> rfl

theorem State.reported_integrity (s : State) (good : Bool) :
    (s.reported good).status.integrity = true ↔ s.status.integrity = true ∨ good = false := by
  cases good <;> simp [State.reported, State.noteMismatch]

theorem State.reported_sticky (s : State) (good : Bool) (c : Nat) :
    (s.reported good).errs.sticky.getLsbD c = true ↔ s.errs.sticky.getLsbD c = true ∨ (c = 5 ∧ good = false) := by
  cases good with
  | true => simp [State.reported]
  | false => exact (s.errs.getLsbD_sticky_note .integrityMismatch c).trans (by simp [ErrorKind.code])

/-- R308: the release writes `PT` and nothing else of the memories. -/
theorem State.readByte_releasePlaintext (s : State) (pt : List Byte) (sp : Space) (a : Nat) :
    (s.releasePlaintext pt).readByte sp a = (s.writeBytes .pt 0 pt).readByte sp a := (rfl)

/-- R308, R311: the registers after the release. -/
theorem State.releasePlaintext_eq (s : State) (pt : List Byte) :
    s.releasePlaintext pt = { s with
      ext := { s.ext with state := .done }, ptLen := BitVec.ofNat 32 s.ctLen, mems := (s.releasePlaintext pt).mems
      status := { s.status with done := true, busy := false }, intPend := { s.intPend with done := true } } := by
  rw [State.releasePlaintext, s.writeBytes_eq_withMems .pt 0 pt]
  rfl

/-- R308, R310, R311: what a release leaves, with the report before it and the secrets cleared. -/
theorem State.releasePlaintext_reported_eq (s : State) (pt : List Byte) (good : Bool) :
    (s.clearSecrets.reported good).releasePlaintext pt = { s with
      ext := { s.ext with state := .done }, ptLen := BitVec.ofNat 32 s.ctLen
      mems := ((s.clearSecrets.reported good).releasePlaintext pt).mems
      hidden := { s.hidden with ss := 0#256, key := 0#256 }
      errs := { s.errs with sticky := (s.clearSecrets.reported good).errs.sticky }
      status := { s.status with
        integrity := (s.clearSecrets.reported good).status.integrity, done := true, busy := false }
      intPend := { s.intPend with done := true } } := by
  refine (State.releasePlaintext_eq _ pt).trans ?_
  generalize ((s.clearSecrets.reported good).releasePlaintext pt).mems = mems
  rw [State.reported_eq]
  rfl

/-- R308, R311: the released plaintext stands in `PT`, and no other byte changes. -/
theorem State.readByte_release {s : State} {pt : List Byte} (len : pt.length = s.ctLen)
    (fits : s.ctLen ≤ s.caps.pt.toNat) (good : Bool) :
    ((s.clearSecrets.reported good).releasePlaintext pt).readBytes .pt 0 s.ctLen = pt
      ∧ ∀ sp a, ¬(sp = .pt ∧ a < s.ctLen) →
        ((s.clearSecrets.reported good).releasePlaintext pt).readByte sp a = s.readByte sp a := by
  have ctLen : (s.clearSecrets.reported good).ctLen = s.ctLen := State.ctLen_congr (by rw [State.reported_eq]; rfl)
  have caps : (s.clearSecrets.reported good).caps = s.caps := by rw [State.reported_eq]; rfl
  obtain ⟨-, -, released, -⟩ := State.releasePlaintext_result (len.trans ctLen.symm) (by rwa [ctLen, caps])
  refine ⟨by rwa [ctLen] at released, fun sp a other => ?_⟩
  have kept := State.readByte_writeBytes_other (s.clearSecrets.reported good) (sp := .pt) (sp' := sp) (a := 0)
    (a' := a) pt fun ⟨space, _, below⟩ => other ⟨space, by rwa [len, Nat.zero_add] at below⟩
  rw [State.readByte_releasePlaintext, kept, State.readByte_reported, State.readByte_clearSecrets]

/-- Settles O59: the three branches of the rule, each with the checks passed; the release is the same with and without a
mismatch to report. -/
theorem extVerifyReleasesOrRejects : Obligations.ExtVerifyReleasesOrRejects := by
  intro X s verifying key fits
  have run : extVerify X s = .next (s.verify X s.privScalar) :=
    runCommand_passed (firstFailed_chkVerify_eq_none verifying key fits)
  refine ⟨_, run, fun block => block ▸ run, ?_⟩
  split
  · next invalid => exact State.verify_of_invalidPoint invalid X _
  · next Q point =>
    rw [State.verify_of_point point]
    intro key opened
    have answer : (s.deriveKey X s.privScalar Q (s.lenAt 1)).openCiphertext X = opened := by
      rw [State.openCiphertext_deriveKey, State.deriveKey_hidden]
    rw [answer]
    clear_value opened
    cases opened with
    | none => exact s.rejectPlaintext_clearSecrets .authenticationFailed
    | some pt =>
      have hash := State.hashMatches_clearSecrets (X := X) (s := s) (pt := pt)
      have missed := Bool.eq_false_iff.trans (not_congr hash)
      refine ⟨fun ⟨bad, fatal⟩ => ?_, fun released => ?_⟩
      · exact (State.acceptPlaintext_of_fatal (missed.2 bad) fatal).trans (State.rejectPlaintext_noteMismatch _)
      · have ended : s.clearSecrets.finishVerify X (some pt) = _ :=
          State.acceptPlaintext_of_released rfl (released.imp_left hash.2)
        have len : pt.length = s.ctLen := (State.length_of_openCiphertext answer).trans (State.ctLen_congr (by simp))
        obtain ⟨plaintext, others⟩ := State.readByte_release len fits (s.clearSecrets.hashMatches X pt)
        have kept := s.releasePlaintext_reported_eq pt (s.clearSecrets.hashMatches X pt)
        have integrity := congrArg (fun t : State => t.status.integrity) kept
        have sticky := congrArg (fun t : State => t.errs.sticky) kept
        dsimp only at integrity sticky
        rw [ended, integrity, sticky]
        exact ⟨plaintext, others, (State.reported_integrity _ _).trans (or_congr_right missed),
          fun c => (State.reported_sticky _ _ c).trans (or_congr_right (and_congr_right fun _ => missed)), kept⟩

end Sys2Proof.Machine
end

section
/-! The proofs of the family `47_control.md`: the control commands (R340 to R342). -/

namespace Sys2Proof.Machine

/-- Settles O22: `SOFT_RESET` has no check, and its rule is the reset state with the memories kept, and the end. -/
theorem softResetKeepsTheMemories : Obligations.SoftResetKeepsTheMemories :=
  fun _ => exec_passed (i := .softReset) rfl

/-- Settles O32: neither command has a check. -/
theorem nopAndAbortComplete : Obligations.NopAndAbortComplete :=
  fun _ => ⟨exec_passed (i := .nop) rfl, exec_passed (i := .abort) rfl⟩

end Sys2Proof.Machine
end

section
/-! The proofs of the family `60_exceptions.md`: `raise` and the reserved words (R351, R362), `BadSequence` (R352),
`BadParameter` (R353) and what an error changes (R364). -/

namespace Sys2Proof.Machine

/-! ### `raise`, and the reserved words -/

/-- R362: the error registers after `raise E(info)`; `ERR_INFO` holds `info` modulo 2^32. -/
theorem ErrRegs.raised_eq (r : ErrRegs) (e : ErrorKind) (info : Nat) :
    r.raised e info =
      { code := e.code, info := BitVec.ofNat 32 (info % 2 ^ 32), sticky := r.sticky ||| (1#12 <<< e.code.toNat) } := by
  have wraps : BitVec.ofNat 32 (info % 2 ^ 32) = BitVec.ofNat 32 info :=
    BitVec.eq_of_toNat_eq (by simp only [BitVec.toNat_ofNat, Nat.mod_mod])
  rw [wraps]
  rfl

/-- R351: a command word is its own information word. -/
theorem ErrRegs.raised_illegalCommand (r : ErrRegs) (w : Word) :
    r.raised .illegalCommand w.toNat = { code := 8#4, info := w, sticky := r.sticky ||| 0x100#12 } := by
  rw [ErrRegs.raised_eq, ofNat_toNat_mod_two_pow]
  rfl

/-- R101, R351: the block step of a reserved word. -/
theorem State.blockStep_of_illegal {s : State} {w : Word} (h : decode s.hidden.cmdLatch = .error (.illegalCommand w)) :
    s.blockStep = .next (s.raiseError .illegalCommand w.toNat) := by
  simp only [State.blockStep, h]

/-- Settles O6: the error registers after `raise`, and the block's turn with a reserved word in the latch. -/
theorem raiseWritesTheErrorRegisters : Obligations.RaiseWritesTheErrorRegisters := by
  refine ⟨fun s e info => ?_, fun s w busy released turn latched illegal => ?_⟩
  · rw [← ErrRegs.raised_eq]
    rfl
  · rw [step_block (State.commandInProgress_iff.2 ⟨busy, released⟩) turn,
      State.blockStep_of_illegal ((congrArg decode latched).trans illegal), ← ErrRegs.raised_illegalCommand]
    rfl

/-! ### The sequence check -/

/-- R39: the states of an embedding operation in progress. -/
theorem EmbState.inProgress_iff (e : EmbState) :
    e.inProgress = true ↔ e = .awaitingFrame ∨ e = .embedding ∨ e = .draining := by
  cases e <;> simp [EmbState.inProgress]

/-- R256, R352: the states in which no embedding operation is in progress. -/
theorem EmbState.inProgress_eq_false_iff (e : EmbState) :
    e.inProgress = false ↔ e = .idle ∨ e = .done ∨ e = .failed := by
  cases e <;> simp [EmbState.inProgress]

/-- R301, R352: the states in which `EXT_FRAME` is legal. -/
theorem ExtState.takesFrame_iff_state (e : ExtState) :
    e.takesFrame = true ↔ e = .accumulating ∨ e = .collecting ∨ e = .verifying := by
  cases e <;> simp [ExtState.takesFrame]

/-- R306, R352: the states in which `EXT_END` is legal. -/
theorem ExtState.takesEnd_iff_state (e : ExtState) :
    e.takesEnd = true ↔ e = .accumulating ∨ e = .collecting ∨ e = .verifying ∨ e = .done := by
  cases e <;> simp [ExtState.takesEnd]

/-- R256: the checks of `PAY_SER` after the first, in field order. -/
def chkFields (s : State) : List Check :=
  [⟨2 ^ 16 ≤ s.hdr.secW.toNat, .valueOutOfRange, 0⟩, ⟨2 ^ 16 ≤ s.hdr.secH.toNat, .valueOutOfRange, 1⟩]
    ++ (List.range 5).map (chkLength s) ++ chkCiphertext s

/-- R363: the checks of a command after its sequence check, where it has one. -/
def parameterChecks : Instr → State → List Check
  | .paySer => chkFields
  | .embFrame | .extFrame => fun s => chkQim s ++ chkFrame s
  | .embEnd | .extEnd => fun _ => []
  | .extVerify => fun s => chkPriv s ++ [⟨s.caps.pt.toNat < s.ctLen, .bufferCapacity, 6⟩]
  | i => checksOf i

/-- R352, R363: the sequence check comes first. -/
theorem firstFailed_checksOf (i : Instr) (s : State) [Decidable (LegalSequence i s)] :
    firstFailed (checksOf i s) =
      if LegalSequence i s then firstFailed (parameterChecks i s) else some ⟨true, .badSequence, SequenceCode i s⟩ := by
  have sequence {b : Bool} (h : b = true ↔ ¬LegalSequence i s) (n : Nat) (rest : List Check) :
      firstFailed (⟨b, .badSequence, n⟩ :: rest) =
        if LegalSequence i s then firstFailed rest else some ⟨true, .badSequence, n⟩ := by
    rw [firstFailed_cons]
    by_cases legal : LegalSequence i s
    · rw [if_pos legal, if_neg (fun failed => h.1 failed legal)]
    · rw [if_neg legal, h.2 legal]
      rfl
  cases i
  case paySer =>
    exact sequence (by rw [LegalSequence, ← EmbState.inProgress_eq_false_iff, Bool.not_eq_false]) _ _
  case embFrame | embEnd =>
    exact sequence (by rw [LegalSequence, ← EmbState.inProgress_iff, Bool.not_eq_true', Bool.not_eq_true]) _ _
  case extFrame =>
    exact sequence (by rw [LegalSequence, ← ExtState.takesFrame_iff_state, Bool.not_eq_true', Bool.not_eq_true]) _ _
  case extEnd =>
    exact sequence (by rw [LegalSequence, ← ExtState.takesEnd_iff_state, Bool.not_eq_true', Bool.not_eq_true]) _ _
  case extVerify => exact sequence (by rw [LegalSequence, decide_eq_true_iff]) _ _
  all_goals exact (if_pos trivial).symm

/-- R352: a command that is not legal in the engine's state is refused before any other check. -/
theorem exec_of_not_legal {i : Instr} {s : State} (illegal : ¬LegalSequence i s) :
    exec i s = .next (s.raiseError .badSequence (SequenceCode i s)) := by
  classical
  exact exec_failed ((firstFailed_checksOf i s).trans (if_neg illegal))

/-- R353, R363: a legal command is refused by the first of its other checks that fails. -/
theorem exec_of_legal_of_failed {i : Instr} {s : State} {c : Check} (legal : LegalSequence i s)
    (failed : firstFailed (parameterChecks i s) = some c) : exec i s = .next (s.raiseError c.error c.info) := by
  classical
  exact exec_failed ((firstFailed_checksOf i s).trans ((if_pos legal).trans failed))

/-- Everything a command can do: it is not legal in the engine's state, or another check refuses it, or its rule runs. -/
theorem exec_cases_legal {i : Instr} {s t : State} (run : exec i s = .next t) :
    (¬LegalSequence i s ∧ t = s.raiseError .badSequence (SequenceCode i s))
      ∨ (LegalSequence i s ∧ ∃ c ∈ parameterChecks i s, c.failed = true ∧ t = s.raiseError c.error c.info)
      ∨ t = ruleOf i s := by
  classical
  obtain ⟨c, -, -, refused, rfl⟩ | ⟨-, ran⟩ := exec_cases run
  · rw [firstFailed_checksOf] at refused
    split at refused
    · next legal =>
      obtain ⟨listed, failed⟩ := firstFailed_mem refused
      exact .inr (.inl ⟨legal, c, listed, failed, rfl⟩)
    · next illegal =>
      obtain rfl := Option.some.inj refused
      exact .inl ⟨illegal, rfl⟩
  · exact .inr (.inr ran)

/-! ### The errors of the checks -/

/-- R220. -/
theorem error_of_mem_chkQim {s : State} {c : Check} (h : c ∈ chkQim s) :
    c.error = .badParameter ∧ (c.info = 1 ∨ c.info = 2) := by
  simp only [chkQim, List.mem_cons, List.not_mem_nil, or_false] at h
  obtain rfl | rfl := h
  · exact ⟨rfl, .inl rfl⟩
  · exact ⟨rfl, .inr rfl⟩

/-- R205. -/
theorem error_of_mem_chkFrame {s : State} {c : Check} (h : c ∈ chkFrame s) : c.error = .badParameter ∧ c.info = 3 := by
  obtain rfl := List.mem_singleton.1 h
  exact ⟨rfl, rfl⟩

/-- R206, R207. -/
theorem error_of_mem_chkBlock {s : State} {c : Check} (h : c ∈ chkBlock s) : c.error = .badParameter ∧ c.info = 4 := by
  obtain rfl := List.mem_singleton.1 h
  exact ⟨rfl, rfl⟩

/-- R157. -/
theorem error_of_mem_chkPriv {s : State} {c : Check} (h : c ∈ chkPriv s) : c.error = .badParameter ∧ c.info = 5 := by
  obtain rfl := List.mem_singleton.1 h
  exact ⟨rfl, rfl⟩

/-- R281, R301: the parameters of a frame command. -/
theorem error_of_mem_chkQim_chkFrame {s : State} {c : Check} (h : c ∈ chkQim s ++ chkFrame s) :
    c.error = .badParameter ∧ (c.info = 1 ∨ c.info = 2 ∨ c.info = 3) := by
  obtain h | h := List.mem_append.1 h
  · obtain ⟨error, info⟩ := error_of_mem_chkQim h
    exact ⟨error, info.imp_right .inl⟩
  · obtain ⟨error, info⟩ := error_of_mem_chkFrame h
    exact ⟨error, .inr (.inr info)⟩

/-- R256: a length byte is field `2 + 2i`, `i` below 5. -/
theorem error_of_mem_chkFields {s : State} {c : Check} (h : c ∈ chkFields s) :
    (c.error = .valueOutOfRange ∧ c.info ∈ [0, 1, 2, 4, 6, 8, 10, 12])
      ∨ (c.error = .bufferCapacity ∧ (c.info = 5 ∨ c.info = 2)) := by
  simp only [chkFields, chkCiphertext, List.mem_append, List.mem_cons, List.mem_map, List.mem_range, List.not_mem_nil,
    or_false] at h
  obtain ((rfl | rfl) | ⟨i, hi, rfl⟩) | rfl | rfl | rfl := h
  · exact .inl ⟨rfl, by simp⟩
  · exact .inl ⟨rfl, by simp⟩
  · exact .inl ⟨rfl, by interval_cases i <;> simp [chkLength]⟩
  · exact .inl ⟨rfl, by simp⟩
  · exact .inr ⟨rfl, .inl rfl⟩
  · exact .inr ⟨rfl, .inr rfl⟩

/-- R134: strict mode refuses only a length that is no multiple of 8. -/
theorem error_of_failed_chkB2b {s : State} {lenient : Bool} {c : Check} (h : c ∈ chkB2b lenient s)
    (failed : c.failed = true) :
    (c.error = .badParameter ∧ c.info = 7)
      ∨ (lenient = false ∧ c.error = .malformedLength ∧ c.info = s.range.len.toNat % 8 ∧ c.info ≠ 0)
      ∨ (c.error = .bufferCapacity ∧ c.info = 6) := by
  simp only [chkB2b, List.mem_cons, List.not_mem_nil, or_false] at h
  obtain rfl | rfl | rfl := h
  · exact .inl ⟨rfl, rfl⟩
  · obtain ⟨strict, incomplete⟩ := of_decide_eq_true failed
    exact .inr (.inl ⟨strict, rfl, rfl, incomplete⟩)
  · exact .inr (.inr ⟨rfl, rfl⟩)

/-- R171. -/
theorem error_of_mem_chkSeal {s : State} {c : Check} (h : c ∈ chkSeal s) :
    (c.error = .badParameter ∧ (c.info = 5 ∨ c.info = 8)) ∨ (c.error = .bufferCapacity ∧ (c.info = 6 ∨ c.info = 5))
      ∨ (c.error = .invalidPoint ∧ c.info = 1) := by
  simp only [chkSeal, chkPriv, List.cons_append, List.nil_append, List.mem_cons, List.not_mem_nil, or_false] at h
  obtain rfl | rfl | rfl | rfl | rfl := h
  · exact .inl ⟨rfl, .inl rfl⟩
  · exact .inl ⟨rfl, .inr rfl⟩
  · exact .inr (.inl ⟨rfl, .inl rfl⟩)
  · exact .inr (.inl ⟨rfl, .inr rfl⟩)
  · exact .inr (.inr ⟨rfl, rfl⟩)

/-- R364: a check that fails raises an error of the table's column of validation errors. -/
theorem validationError_of_failed {i : Instr} {s : State} {c : Check} (listed : c ∈ parameterChecks i s)
    (failed : c.failed = true) : ValidationError i s c.error c.info := by
  cases i
  case b2b => exact error_of_failed_chkB2b listed failed
  case ecPub => exact error_of_mem_chkPriv listed
  case envSeal => exact error_of_mem_chkSeal listed
  case blkLd | blkSt =>
    obtain h | h := List.mem_append.1 listed
    · exact (error_of_mem_chkFrame h).imp_right .inl
    · exact (error_of_mem_chkBlock h).imp_right .inr
  case qimEmb | qimExt => exact error_of_mem_chkQim listed
  case paySer => exact .inr (error_of_mem_chkFields listed)
  case embStart =>
    obtain rfl := List.mem_singleton.1 listed
    exact ⟨rfl, rfl⟩
  case embFrame | extFrame => exact .inr (error_of_mem_chkQim_chkFrame listed)
  case extVerify =>
    obtain h | h := List.mem_append.1 listed
    · exact .inr (.inl (error_of_mem_chkPriv h))
    · obtain rfl := List.mem_singleton.1 h
      exact .inr (.inr ⟨rfl, rfl⟩)
  all_goals exact absurd listed List.not_mem_nil

/-- R352, R364: the commands that are not legal in every state have `BadSequence` among their validation errors. -/
theorem validationError_of_not_legal {i : Instr} {s : State} (illegal : ¬LegalSequence i s) :
    ValidationError i s .badSequence (SequenceCode i s) := by
  cases i
  case paySer | embFrame | extFrame | extVerify => exact .inl ⟨rfl, rfl⟩
  case embEnd | extEnd => exact ⟨rfl, rfl⟩
  all_goals exact absurd trivial illegal

/-- R352: `BadSequence` is the error of the sequence check only. -/
theorem error_ne_badSequence {i : Instr} {s : State} {c : Check} (listed : c ∈ parameterChecks i s)
    (failed : c.failed = true) : c.error ≠ .badSequence := by
  intro sequence
  have validation := validationError_of_failed listed failed
  cases i
  case paySer => simpa [sequence] using error_of_mem_chkFields listed
  case embFrame | extFrame => simpa [sequence] using error_of_mem_chkQim_chkFrame listed
  case embEnd | extEnd => exact absurd listed List.not_mem_nil
  case extVerify =>
    obtain h | h := List.mem_append.1 listed
    · simpa [sequence] using error_of_mem_chkPriv h
    · obtain rfl := List.mem_singleton.1 h
      cases sequence
  all_goals simp [ValidationError, sequence] at validation

theorem ErrorKind.code_eq_nine_iff (e : ErrorKind) : e.code = 9#4 ↔ e = .badSequence := by
  cases e <;> decide

/-! ### The errors of the rules -/

/-- R364, the column of operation errors: what a rule leaves that ends with one. -/
def OperationError (i : Instr) (s t : State) : Prop :=
  (i = .embEnd ∧ t = State.raiseError { s with emb := { s.emb with state := .failed } } .insufficientCapacity
      s.emb.cursor.toNat)
    ∨ (i = .extFrame ∧ t = State.raiseError { s with ext := { s.ext with state := .failed } } .bufferCapacity 3)
    ∨ (i = .extEnd ∧ t = State.raiseError { s with ext := { s.ext with state := .failed } } .truncatedStream
        s.ext.prsFidx.toNat)
    ∨ (i = .extVerify ∧ t = State.raiseError { s with ext := { s.ext with state := .failed } } .invalidPoint 0)
    ∨ (i = .extVerify ∧ t = State.raiseError
        { s with
          ext := { s.ext with state := .failed }, ptLen := 0#32
          hidden := { s.hidden with ss := 0#256, key := 0#256 } } .authenticationFailed 0)
    ∨ (i = .extVerify ∧ s.ctrl.hashFatal = true ∧ t = State.raiseError
        { s with
          ext := { s.ext with state := .failed }, ptLen := 0#32
          status := { s.status with integrity := true }
          hidden := { s.hidden with ss := 0#256, key := 0#256 } } .integrityMismatch 0)

/-- R361: a rule that ends without error sets neither `ERR` nor an error code. -/
structure State.NothingRaised (s t : State) : Prop where
  err : t.status.err = true → s.status.err = true
  code : t.errs.code = s.errs.code ∨ t.errs.code = 0#4

theorem State.NothingRaised.of_eq {s t : State} (err : t.status.err = s.status.err) (code : t.errs.code = s.errs.code) :
    s.NothingRaised t :=
  ⟨fun h => err.symm.trans h, .inl code⟩

/-- R310: a fatal mismatch is rejected with `INTEGRITY` set and the secrets cleared. -/
theorem State.rejectPlaintext_noteMismatch_clearSecrets (s : State) :
    s.clearSecrets.noteMismatch.rejectPlaintext .integrityMismatch = State.raiseError
      { s with
        ext := { s.ext with state := .failed }, ptLen := 0#32
        status := { s.status with integrity := true }
        hidden := { s.hidden with ss := 0#256, key := 0#256 } } .integrityMismatch 0 :=
  (State.rejectPlaintext_noteMismatch _).trans
    ((s.withStatus { s.status with integrity := true }).rejectPlaintext_clearSecrets _)

/-- R308 to R310: the endings of `EXT_VERIFY`, its three errors and the release of the plaintext. -/
theorem State.verify_error_or_released (X : Crypto) (s : State) (d : Nat) :
    OperationError .extVerify s (s.verify X d) ∨ s.NothingRaised (s.verify X d) := by
  obtain ⟨-, h⟩ | ⟨Q, u, -, rfl, ⟨-, h⟩ | ⟨pt, -, ⟨-, h⟩ | ⟨-, fatal, h⟩ | ⟨-, -, h⟩⟩⟩ := s.verify_cases X d <;> rw [h]
  · exact .inl (.inr (.inr (.inr (.inl ⟨rfl, rfl⟩))))
  · rw [State.clearSecrets_deriveKey, State.rejectPlaintext_clearSecrets]
    exact .inl (.inr (.inr (.inr (.inr (.inl ⟨rfl, rfl⟩)))))
  · exact .inr (.of_eq (by simp [State.releasePlaintext]) (by simp))
  · rw [State.clearSecrets_deriveKey] at fatal ⊢
    rw [State.rejectPlaintext_noteMismatch_clearSecrets]
    exact .inl (.inr (.inr (.inr (.inr (.inr ⟨rfl, fatal, rfl⟩)))))
  · exact .inr (.of_eq (by simp [State.releasePlaintext, State.noteMismatch])
      (by simp [State.noteMismatch, ErrRegs.note]))

/-- R361, R364: a rule ends with one of the six operation errors, or without error. -/
theorem ruleOf_error_or_ended (i : Instr) (s : State) :
    OperationError i s (ruleOf i s) ∨ s.NothingRaised (ruleOf i s) := by
  cases i
  case softReset => exact .inr ⟨fun h => absurd h Bool.false_ne_true, .inr rfl⟩
  case embEnd =>
    simp only [ruleOf, State.endEmbedding]
    split
    · exact .inr (.of_eq rfl rfl)
    · exact .inl (.inl ⟨rfl, rfl⟩)
  case extFrame =>
    simp only [ruleOf, State.receiveFrame]
    split_ifs
    · exact .inr (.of_eq rfl rfl)
    · exact .inl (.inr (.inl ⟨rfl, rfl⟩))
    · exact .inr (.of_eq (by simp [State.takeFrame]) (by simp))
  case extEnd =>
    simp only [ruleOf, State.endExtraction]
    split
    · exact .inl (.inr (.inr (.inl ⟨rfl, rfl⟩)))
    · exact .inr (.of_eq rfl rfl)
  case extVerify => exact s.verify_error_or_released _ _
  case embStart | extStart => exact .inr (.of_eq rfl rfl)
  case qimEmb => exact .inr (.of_eq (by simp [ruleOf, State.embedOffered]) (by simp [ruleOf]))
  all_goals exact .inr (.of_eq (by simp [ruleOf]) (by simp [ruleOf]))

theorem State.raiseError_code_ne_nine (s : State) {e : ErrorKind} (h : e ≠ .badSequence) (info : Nat) :
    (s.raiseError e info).errs.code ≠ 9#4 := mt e.code_eq_nine_iff.1 h

/-- R364: none of the six operation errors is `BadSequence`. -/
theorem OperationError.code_ne_nine {i : Instr} {s t : State} (h : OperationError i s t) : t.errs.code ≠ 9#4 := by
  obtain ⟨-, rfl⟩ | ⟨-, rfl⟩ | ⟨-, rfl⟩ | ⟨-, rfl⟩ | ⟨-, rfl⟩ | ⟨-, -, rfl⟩ := h <;>
    exact State.raiseError_code_ne_nine _ (by decide) _

/-- Settles O11: the sequence check raises it, no other check does, and no rule. -/
theorem badSequenceExactlyWhenNotLegal : Obligations.BadSequenceExactlyWhenNotLegal := by
  refine ⟨fun i s illegal => exec_of_not_legal illegal, fun i s t legal before run => ?_⟩
  obtain ⟨illegal, -⟩ | ⟨-, c, listed, failed, rfl⟩ | rfl := exec_cases_legal run
  · exact absurd legal illegal
  · exact s.raiseError_code_ne_nine (error_ne_badSequence listed failed) _
  · obtain raised | ended := ruleOf_error_or_ended i s
    · exact raised.code_ne_nine
    · obtain kept | cleared := ended.code
      · rwa [kept]
      · rw [cleared]; decide

/-- Settles O13: a refusal raises a validation error, and a rule that sets `ERR` an operation error. -/
theorem errorsChangeOnlyWhatTheTableLists : Obligations.ErrorsChangeOnlyWhatTheTableLists := by
  intro i s t clear run err
  obtain ⟨illegal, ended⟩ | ⟨-, c, listed, failed, ended⟩ | rfl := exec_cases_legal run
  · exact .inl ⟨_, _, validationError_of_not_legal illegal, ended⟩
  · exact .inl ⟨_, _, validationError_of_failed listed failed, ended⟩
  · obtain raised | ended := ruleOf_error_or_ended i s
    · exact .inr raised
    · exact absurd (clear.symm.trans (ended.err err)) Bool.false_ne_true

/-! ### `BadParameter` -/

/-- R205: the check of the frame size comes before those that follow. -/
theorem firstFailed_chkFrame_append {s : State} (frame : ¬s.FrameReady) (rest : List Check) :
    firstFailed (chkFrame s ++ rest) = some ⟨true, .badParameter, 3⟩ :=
  firstFailed_of_failed (by unfold State.FrameReady at frame; omega) _ _ _

/-- R157: the check of the private scalar comes before those that follow. -/
theorem firstFailed_chkPriv_append_of_not_ready {s : State} (key : ¬s.KeyReady) (rest : List Check) :
    firstFailed (chkPriv s ++ rest) = some ⟨true, .badParameter, 5⟩ :=
  firstFailed_of_failed (by unfold State.KeyReady at key; omega) _ _ _

/-- R220, R353: with the first failing check of `chk_qim` given, the refusal of the four commands that begin with it. -/
theorem exec_of_failed_chkQim {s : State} {c : Check} (failed : firstFailed (chkQim s) = some c) :
    (∀ n, exec (.qimEmb n) s = .next (s.raiseError c.error c.info))
      ∧ exec .qimExt s = .next (s.raiseError c.error c.info)
      ∧ (LegalSequence .embFrame s → exec .embFrame s = .next (s.raiseError c.error c.info))
      ∧ (LegalSequence .extFrame s → exec .extFrame s = .next (s.raiseError c.error c.info)) := by
  have first : firstFailed (chkQim s ++ chkFrame s) = some c := by rw [firstFailed_append, failed, Option.some_or]
  exact ⟨fun n => exec_of_legal_of_failed (i := .qimEmb n) trivial failed,
    exec_of_legal_of_failed (i := .qimExt) trivial failed,
    fun legal => exec_of_legal_of_failed legal first, fun legal => exec_of_legal_of_failed legal first⟩

/-- Settles O12: each failing check with the checks before it passed. -/
theorem badParameterSubCodes : Obligations.BadParameterSubCodes := by
  refine ⟨fun s delta => ?_, fun s delta ncoef => ?_, fun s frame => ?_, fun s frame block => ?_, fun s key => ?_,
    fun s bits => ?_, fun s lenient outside => ?_, fun s key lengths => ?_⟩
  · exact exec_of_failed_chkQim (firstFailed_of_failed delta _ _ _)
  · exact exec_of_failed_chkQim ((firstFailed_of_passed delta _ _ _).trans (firstFailed_of_failed ncoef _ _ _))
  · have second (qim : s.QimReady) : firstFailed (chkQim s ++ chkFrame s) = some ⟨true, .badParameter, 3⟩ := by
      rw [firstFailed_append, firstFailed_chkQim qim, Option.none_or]
      exact firstFailed_chkFrame_append frame []
    exact ⟨exec_of_legal_of_failed (i := .blkLd) trivial (firstFailed_chkFrame_append frame _),
      exec_of_legal_of_failed (i := .blkSt) trivial (firstFailed_chkFrame_append frame _),
      fun qim legal => exec_of_legal_of_failed legal (second qim),
      fun qim legal => exec_of_legal_of_failed legal (second qim)⟩
  · have second : firstFailed (chkFrame s ++ chkBlock s) = some ⟨true, .badParameter, 4⟩ := by
      rw [firstFailed_append, firstFailed_chkFrame frame, Option.none_or]
      exact firstFailed_of_failed (by unfold State.BlockReady at block; omega) _ _ _
    exact ⟨exec_of_legal_of_failed (i := .blkLd) trivial second,
      exec_of_legal_of_failed (i := .blkSt) trivial second⟩
  · exact ⟨exec_of_legal_of_failed (i := .ecPub) trivial (firstFailed_chkPriv_append_of_not_ready key []),
      exec_of_legal_of_failed (i := .envSeal) trivial (firstFailed_chkPriv_append_of_not_ready key _),
      fun legal => exec_of_legal_of_failed legal (firstFailed_chkPriv_append_of_not_ready key _)⟩
  · have refused : s.emb.payBits = 0#32 ∨ 8 * s.caps.pay.toNat < s.emb.payBits.toNat :=
      bits.imp_left (BitVec.eq_of_toNat_eq (y := 0#32))
    exact exec_of_legal_of_failed (i := .embStart) trivial (firstFailed_of_failed refused _ _ _)
  · exact exec_of_legal_of_failed (i := .b2b lenient) trivial (firstFailed_of_failed outside _ _ _)
  · exact exec_of_legal_of_failed (i := .envSeal) trivial
      ((firstFailed_chkPriv_append key _).trans (firstFailed_of_failed lengths _ _ _))

end Sys2Proof.Machine
end

section
/-! The proofs of the family `70_reset_and_hazards.md`: the reset input (R390). -/

namespace Sys2Proof.Machine

/-! ### What the commands and the host's accesses leave to the outside of the block -/

/-- R308: `EXT_VERIFY` leaves the host agent and the reset input alone, however it ends. -/
theorem State.verify_host (X : Crypto) (s : State) (d : Nat) : (s.verify X d).host = s.host :=
  State.verify_ends (C := fun u => u.host = s.host) (P := fun u => u.host = s.host) X s d (by simp)
    (fun _ _ => by simp) (fun _ h => by simpa [State.noteMismatch] using h)
    (fun _ _ h => by simpa [State.rejectPlaintext] using h) (fun _ _ h => by simpa [State.releasePlaintext] using h)

/-- R390: no rule touches the host agent or the reset input. -/
theorem ruleOf_host (i : Instr) (s : State) : (ruleOf i s).host = s.host := by
  cases i
  case embEnd =>
    simp only [ruleOf, State.endEmbedding]
    split <;> rfl
  case embFrame =>
    simp only [ruleOf, State.processFrame]
    split <;> simp [State.passFrame, State.embedFrame]
  case extFrame =>
    simp only [ruleOf, State.receiveFrame]
    split_ifs <;> simp [State.skipFrame, State.takeFrame]
  case extEnd =>
    simp only [ruleOf, State.endExtraction]
    split <;> rfl
  case extVerify => exact s.verify_host _ _
  case b2b => simp [ruleOf, State.convertRange]
  case qimEmb => simp [ruleOf, State.embedOffered]
  case paySer => simp [ruleOf, State.serialize]
  case abort | qimExt | embStart | extStart => rfl
  all_goals simp [ruleOf]

/-- R390: a command does not touch the reset input. -/
theorem exec_host {i : Instr} {s t : State} (run : exec i s = .next t) : t.host = s.host := by
  obtain ⟨c, -, -, -, rfl⟩ | ⟨-, rfl⟩ := exec_cases run
  · rfl
  · exact ruleOf_host i s

theorem State.readPort_host (s : State) : s.readPort.2.host = s.host := by
  unfold State.readPort
  split <;> rfl

theorem State.hostRead_host (s : State) (width : Width) (offset : BitVec 12) :
    (s.hostRead width offset).2.host = s.host := by
  unfold State.hostRead
  dsimp only
  split_ifs <;> simp [State.readPort_host]

theorem State.writePort_host (s : State) (w : Word) : (s.writePort w).host = s.host := by
  unfold State.writePort
  split <;> rfl

theorem State.writeReg_host (s : State) (r : Reg) (w : Word) : (s.writeReg r w).host = s.host := by
  cases r
  case memData => exact s.writePort_host w
  case payBits =>
    simp only [State.writeReg]
    split <;> rfl
  all_goals rfl

theorem State.hostWrite_host (s : State) (width : Width) (offset : BitVec 12) (w : Word) :
    (s.hostWrite width offset w).host = s.host := by
  unfold State.hostWrite
  split
  · rfl
  · exact s.writeReg_host _ w

/-! ### The reset state while the reset input is asserted -/

/-- R390: with the reset input released nothing is said. -/
theorem State.resetForm_of_released {s : State} (released : s.host.resetInput = false) : s.ResetForm :=
  fun asserted => absurd (released.symm.trans asserted) Bool.false_ne_true

/-- The host agent and the free values are no part of the reset state. -/
theorem State.ResetForm.withFree_withHost {s : State} (h : s.ResetForm) (f : FreeSide) {v : HostSide}
    (level : v.resetInput = s.host.resetInput) : ((s.withFree f).withHost v).ResetForm :=
  fun asserted => congrArg (fun u : State => (u.withFree f).withHost v) (h (level.symm.trans asserted))

/-- R390: an access made while the reset input is asserted is not performed. -/
theorem State.hostStep_asserted {s : State} (asserted : s.host.resetInput = true) (width : Width) (offset : BitVec 12) :
    (∀ w, s.hostStep (.write width offset w) = s)
      ∧ s.hostStep (.read width offset) = s.answer (Config.resetRead s.host.reads.length) :=
  ⟨fun _ => if_pos asserted, if_pos asserted⟩

/-- R85: with the reset input released the accesses are performed. -/
theorem State.hostStep_released {s : State} (released : s.host.resetInput = false) (width : Width)
    (offset : BitVec 12) :
    (∀ w, s.hostStep (.write width offset w) = s.hostWrite width offset w)
      ∧ s.hostStep (.read width offset) = (s.hostRead width offset).2.answer (s.hostRead width offset).1 := by
  simp [State.hostStep, released]

/-- R390: releasing an input that is not asserted changes nothing. -/
theorem State.hostStep_release {s : State} (released : s.host.resetInput = false) :
    s.hostStep (.resetInput false) = s := by
  simp only [State.hostStep, State.driveReset, released, Bool.or_self, Bool.false_eq_true, if_false]
  rw [← released]
  rfl

/-- R390: a host step that drives the reset input leaves the reset state, and an access does not drive it. -/
theorem State.ResetForm.hostStep {s : State} (h : s.ResetForm) (e : HostEvent) : (s.hostStep e).ResetForm := by
  cases e with
  | resetInput level =>
    obtain driven | ⟨-, -, kept⟩ := s.driveReset_cases level
    · rw [State.hostStep, driven]
      exact fun _ => rfl
    · rw [State.hostStep, kept]
      exact h
  | read width offset =>
    cases level : s.host.resetInput with
    | true =>
      rw [(State.hostStep_asserted level width offset).2]
      exact h.withFree_withHost s.free rfl
    | false =>
      rw [(State.hostStep_released level width offset).2]
      exact State.resetForm_of_released ((congrArg HostSide.resetInput (s.hostRead_host width offset)).trans level)
  | write width offset w =>
    cases level : s.host.resetInput with
    | true =>
      rw [(State.hostStep_asserted level width offset).1]
      exact h
    | false =>
      rw [(State.hostStep_released level width offset).1]
      exact State.resetForm_of_released ((congrArg HostSide.resetInput (s.hostWrite_host width offset w)).trans level)

/-- R390: every step keeps the reset state while the reset input is asserted. A command runs only while the input is
released, and leaves it released. -/
theorem State.ResetForm.step {s t : State} (h : s.ResetForm) (run : step s = .next t) : t.ResetForm := by
  obtain rfl | ⟨e, rest, f, -, -, -, rfl⟩ | ⟨running, i, -, ran⟩ | ⟨running, w, -, rfl⟩ := step_cases run
  · exact h
  · exact (h.withFree_withHost f (v := { s.host with pending := rest }) rfl).hostStep e
  · have released := (State.commandInProgress_iff.1 running).2
    exact State.resetForm_of_released (exec_host ran ▸ released)
  · exact State.resetForm_of_released (State.commandInProgress_iff.1 running).2

/-- Settles O60: the input driven, the step, the accesses not performed, and the release of an input not asserted. -/
theorem assertedResetHoldsTheBlock : Obligations.AssertedResetHoldsTheBlock := by
  refine ⟨fun s level driven => ?_, fun s t h run => h.step run, fun s width offset asserted => ?_,
    fun s released => State.hostStep_release released⟩
  · exact ⟨s.hardwareReset.free, State.hostStep_reset driven⟩
  · obtain ⟨writes, read⟩ := State.hostStep_asserted asserted width offset
    exact ⟨writes, _, read⟩

end Sys2Proof.Machine
end
